-- ==== Sys2Proof/Word.lean ====
section
/-! DEFINITION. The word types of the block: every quantity is an unsigned integer (00_scope.md R11). -/

namespace Sys2Proof

/-- One byte of a buffer or of the wire. -/
abbrev Byte := BitVec 8

/-- A 16-bit field: a manufacturer_id, a PID, a sub-device, a checksum. -/
abbrev Half := BitVec 16

/-- A register or a bus word (10_state.md R56, 20_memory.md R104). -/
abbrev Word := BitVec 32

/-- A timestamp of `TS_WIDTH` = 64 bits, in microseconds (00_scope.md R8). -/
abbrev Time := BitVec 64

/-- A byte offset in the 4 KiB window (20_memory.md R100). -/
abbrev Offset := BitVec 12

end Sys2Proof
end

