-- ==== Sys2Proof/Syntax.lean ====
section
/-! DEFINITION. The commands: one constructor per row of spec/opcode_table.json, with the argument sub-fields of
30_encoding.md R141. -/

namespace Sys2Proof

/-- A command of the block (30_encoding.md R142). -/
inductive Instr where
  /-- `NOP`, R500. -/
  | nop
  /-- `UID_CMP`, R205. -/
  | uidCmp
  /-- `UID_CLASSIFY`, R206. -/
  | uidClassify
  /-- `PD_PARSE`, R235. -/
  | pdParse
  /-- `PD_ENCODE`, R242. -/
  | pdEncode
  /-- `PD_DECODE`, R252. -/
  | pdDecode
  /-- `FR_ENCODE_REQ`, R304: `tnsel` false uses TX_CTL0.TN, true uses TN_CTR and advances it. -/
  | frEncodeReq (tnsel : Bool)
  /-- `FR_ENCODE_RSP`, R305. -/
  | frEncodeRsp
  /-- `FR_DECODE`, R307. -/
  | frDecode
  /-- `FR_CHECKSUM`, R303. -/
  | frChecksum
  /-- `FR_DISC_ENCODE`, R310: `npre` preamble bytes. -/
  | frDiscEncode (npre : BitVec 3)
  /-- `FR_DISC_DECODE`, R321. -/
  | frDiscDecode
  /-- `TM_STAMP`, R374: categories 5..7 are legal words that raise T_BAD_CAT (R146). -/
  | tmStamp (cat : BitVec 3) (kind : BitVec 2)
  /-- `TM_SETCAT`, R375. -/
  | tmSetcat (cat : BitVec 3)
  /-- `TM_GAP_CHECK`, R376. -/
  | tmGapCheck
  /-- `TM_RESP_WAIT`, R381: `rxd` says that data has arrived since the last send. -/
  | tmRespWait (rxd : Bool)
  /-- `TM_CANCEL`, R382. -/
  | tmCancel
  /-- `DP_VALIDATE`, R422. -/
  | dpValidate
  /-- `DP_CHECK`, R431. -/
  | dpCheck
  /-- `DS_INIT`, R463. -/
  | dsInit
  /-- `DS_NEXT`, R470. -/
  | dsNext
  /-- `DS_RESULT`, R472: outcome 3 is an illegal word (R145). -/
  | dsResult (outcome : BitVec 2)
  /-- `SOFT_RESET`, R501: its key 0x5A is part of the opcode. -/
  | softReset
deriving DecidableEq, Repr

end Sys2Proof
end

