-- ==== Sys2Proof/WellFormed.lean ====
section
/-! DEFINITION. Which commands have a legal command word (30_encoding.md R145). -/

namespace Sys2Proof

/-- `i` has a legal word: DS_RESULT with OUTCOME 3 is the one term that has none (30_encoding.md R145). The other
argument values outside a sub-field's range cannot be written as an `Instr`, and CAT 5..7 is legal (R146). -/
def Instr.wellFormed : Instr → Bool
  | .dsResult outcome => outcome != 3
  | .nop | .uidCmp | .uidClassify | .pdParse | .pdEncode | .pdDecode => true
  | .frEncodeReq _ | .frEncodeRsp | .frDecode | .frChecksum | .frDiscEncode _ | .frDiscDecode => true
  | .tmStamp _ _ | .tmSetcat _ | .tmGapCheck | .tmRespWait _ | .tmCancel => true
  | .dpValidate | .dpCheck | .dsInit | .dsNext | .softReset => true

/-- `i` has a legal command word. -/
abbrev Instr.WellFormed (i : Instr) : Prop := i.wellFormed = true

end Sys2Proof
end

