-- ==== Sys2Proof/Decode.lean ====
section
/-! DEFINITION. The command word: its decoder, total on every word, and its encoder (30_encoding.md R140-R146). -/

namespace Sys2Proof

/-- Why a command word is illegal: the cases of 30_encoding.md R145. -/
inductive IllegalWord where
  /-- OP is not in R142. -/
  | unknownOpcode
  /-- RSV is not 0. -/
  | reservedField
  /-- An ARG bit that no sub-field names is 1. -/
  | unnamedArgBit
  /-- DS_RESULT with OUTCOME 3. -/
  | reservedOutcome
  /-- SOFT_RESET without its key. -/
  | wrongKey
deriving DecidableEq, Repr

/-- What a word written to CMD is: a command, or an illegal word and why. -/
inductive Decoded where
  | command (i : Instr)
  | illegal (why : IllegalWord)
deriving DecidableEq, Repr

/-- OP, bits [7:0] (R140). -/
def opField (w : Word) : Byte := w.extractLsb' 0 8

/-- ARG, bits [15:8] (R140). -/
def argField (w : Word) : Byte := w.extractLsb' 8 8

/-- RSV, bits [31:16] (R140). -/
def rsvField (w : Word) : Half := w.extractLsb' 16 16

/-- `i`, unless `arg` has a 1 outside the bits that the opcode's sub-fields name (R141, R145). -/
def withArgBits (named arg : Byte) (i : Instr) : Decoded :=
  if arg &&& ~~~named = 0 then .command i else .illegal .unnamedArgBit

/-- The command that OP and ARG name (R141, R142). -/
def decodeOp (op arg : Byte) : Decoded :=
  match op.toNat with
  | 0x00 => withArgBits 0x00 arg .nop
  | 0x01 => withArgBits 0x00 arg .uidCmp
  | 0x02 => withArgBits 0x00 arg .uidClassify
  | 0x10 => withArgBits 0x00 arg .pdParse
  | 0x11 => withArgBits 0x00 arg .pdEncode
  | 0x12 => withArgBits 0x00 arg .pdDecode
  | 0x20 => withArgBits 0x01 arg (.frEncodeReq (arg.getLsbD 0))
  | 0x21 => withArgBits 0x00 arg .frEncodeRsp
  | 0x22 => withArgBits 0x00 arg .frDecode
  | 0x23 => withArgBits 0x00 arg .frChecksum
  | 0x24 => withArgBits 0x07 arg (.frDiscEncode (arg.extractLsb' 0 3))
  | 0x25 => withArgBits 0x00 arg .frDiscDecode
  | 0x30 => withArgBits 0x37 arg (.tmStamp (arg.extractLsb' 0 3) (arg.extractLsb' 4 2))
  | 0x31 => withArgBits 0x07 arg (.tmSetcat (arg.extractLsb' 0 3))
  | 0x32 => withArgBits 0x00 arg .tmGapCheck
  | 0x33 => withArgBits 0x01 arg (.tmRespWait (arg.getLsbD 0))
  | 0x34 => withArgBits 0x00 arg .tmCancel
  | 0x40 => withArgBits 0x00 arg .dpValidate
  | 0x41 => withArgBits 0x00 arg .dpCheck
  | 0x50 => withArgBits 0x00 arg .dsInit
  | 0x51 => withArgBits 0x00 arg .dsNext
  | 0x52 =>
    if arg.extractLsb' 0 2 = (3 : BitVec 2) then .illegal .reservedOutcome
    else withArgBits 0x03 arg (.dsResult (arg.extractLsb' 0 2))
  | 0xFF => if arg = 0x5A then .command .softReset else .illegal .wrongKey
  | _ => .illegal .unknownOpcode

/-- The decoder of command words (R140, R145). -/
def decode (w : Word) : Decoded :=
  if rsvField w = 0 then decodeOp (opField w) (argField w) else .illegal .reservedField

/-- OP of a command (R142). -/
def Instr.opcode : Instr → Byte
  | .nop => 0x00
  | .uidCmp => 0x01
  | .uidClassify => 0x02
  | .pdParse => 0x10
  | .pdEncode => 0x11
  | .pdDecode => 0x12
  | .frEncodeReq _ => 0x20
  | .frEncodeRsp => 0x21
  | .frDecode => 0x22
  | .frChecksum => 0x23
  | .frDiscEncode _ => 0x24
  | .frDiscDecode => 0x25
  | .tmStamp _ _ => 0x30
  | .tmSetcat _ => 0x31
  | .tmGapCheck => 0x32
  | .tmRespWait _ => 0x33
  | .tmCancel => 0x34
  | .dpValidate => 0x40
  | .dpCheck => 0x41
  | .dsInit => 0x50
  | .dsNext => 0x51
  | .dsResult _ => 0x52
  | .softReset => 0xFF

/-- ARG of a command: each sub-field at its place, every other bit 0 (R141). -/
def Instr.argument : Instr → Byte
  | .frEncodeReq tnsel => (BitVec.ofBool tnsel).zeroExtend 8
  | .frDiscEncode npre => npre.zeroExtend 8
  | .tmStamp cat kind => cat.zeroExtend 8 ||| kind.zeroExtend 8 <<< 4
  | .tmSetcat cat => cat.zeroExtend 8
  | .tmRespWait rxd => (BitVec.ofBool rxd).zeroExtend 8
  | .dsResult outcome => outcome.zeroExtend 8
  | .softReset => 0x5A
  | .nop | .uidCmp | .uidClassify | .pdParse | .pdEncode | .pdDecode => 0x00
  | .frEncodeRsp | .frDecode | .frChecksum | .frDiscDecode => 0x00
  | .tmGapCheck | .tmCancel | .dpValidate | .dpCheck | .dsInit | .dsNext => 0x00

/-- The command word of `i`: `(ARG << 8) | OP`, with RSV 0 (R140, R144). -/
def encode (i : Instr) : Word := (0 : Half) ++ i.argument ++ i.opcode

/-- A row of spec/opcode_table.json: the words `w` with `w &&& mask = pattern`. -/
structure TableRow where
  mask : Word
  pattern : Word
deriving DecidableEq, Repr

/-- The 23 rows of spec/opcode_table.json, in its order (30_encoding.md R142). -/
def tableRows : List TableRow :=
  [⟨0xFFFFFFFF, 0x00000000⟩, ⟨0xFFFFFFFF, 0x00000001⟩, ⟨0xFFFFFFFF, 0x00000002⟩, ⟨0xFFFFFFFF, 0x00000010⟩,
   ⟨0xFFFFFFFF, 0x00000011⟩, ⟨0xFFFFFFFF, 0x00000012⟩, ⟨0xFFFFFEFF, 0x00000020⟩, ⟨0xFFFFFFFF, 0x00000021⟩,
   ⟨0xFFFFFFFF, 0x00000022⟩, ⟨0xFFFFFFFF, 0x00000023⟩, ⟨0xFFFFF8FF, 0x00000024⟩, ⟨0xFFFFFFFF, 0x00000025⟩,
   ⟨0xFFFFC8FF, 0x00000030⟩, ⟨0xFFFFF8FF, 0x00000031⟩, ⟨0xFFFFFFFF, 0x00000032⟩, ⟨0xFFFFFEFF, 0x00000033⟩,
   ⟨0xFFFFFFFF, 0x00000034⟩, ⟨0xFFFFFFFF, 0x00000040⟩, ⟨0xFFFFFFFF, 0x00000041⟩, ⟨0xFFFFFFFF, 0x00000050⟩,
   ⟨0xFFFFFFFF, 0x00000051⟩, ⟨0xFFFFFCFF, 0x00000052⟩, ⟨0xFFFFFFFF, 0x00005AFF⟩]

/-- How many rows of the table a word matches. -/
def rowsMatched (w : Word) : Nat := (tableRows.filter fun r => w &&& r.mask == r.pattern).length

/-- The command that the decoder reads from the table's bits `w` of a row of `nbits` bits. A command is one 32-bit
word (R140); bits above `nbits` are 0. -/
def decodeTableWord (nbits w : Nat) : Option Instr :=
  match decode (BitVec.ofNat 32 (w % 2 ^ nbits)) with
  | .command i => some i
  | .illegal _ => none

end Sys2Proof
end

