-- ==== Sys2Proof/Config.lean ====
section
/-! DEFINITION. The parameters of 00_scope.md R8, each with the value that rule states, and the constraints of R9
(assumption log, entry 8: DEDUCED, the stated values are instantiated). The OPEN parameters are constants without a
value, and the operations that depend on one take it as an argument (entry 9: DESIGN CHOICE). -/

namespace Sys2Proof.Config

/-- `BASE`, OPEN: the address at which the platform places the window (20_memory.md R100, R108; 93 U5). -/
opaque base : Nat
/-- `IRQ_LINE`, OPEN: the host interrupt line that the output drives (60_exceptions.md R531; 93 U4). -/
opaque irqLine : Nat
/-- `ALARM_LATENCY`, OPEN, in microseconds: how long after its deadline the alarm fires on the platform (43_timing.md
R386; 93 U6). No rule depends on it. -/
opaque alarmLatency : Nat

@[simp] def maxPdl : Nat := 231
@[simp] def maxSubdev : Nat := 512
@[simp] def maxPreamble : Nat := 7
@[simp] def hdrLen : Nat := 24
@[simp] def frameBufSize : Nat := 260
@[simp] def hostBufSize : Nat := 512
@[simp] def fmtBufSize : Nat := 64
@[simp] def discBufSize : Nat := 24
@[simp] def pidTableSize : Nat := 64
@[simp] def dsCap : Nat := 49
@[simp] def wildcardMan : Half := 0xFFFF
@[simp] def idValue : Word := 0x52444D01
/-- `SC`, `SSC`: the start codes of a normal packet. -/
@[simp] def sc : Byte := 0xCC
@[simp] def ssc : Byte := 0x01
@[simp] def preamble : Byte := 0xFE
@[simp] def delim : Byte := 0xAA
@[simp] def maskA : Byte := 0xAA
@[simp] def maskB : Byte := 0x55
@[simp] def ccDisc : Byte := 0x10
@[simp] def ccDiscRsp : Byte := 0x11
@[simp] def ccGet : Byte := 0x20
@[simp] def ccGetRsp : Byte := 0x21
@[simp] def ccSet : Byte := 0x30
@[simp] def ccSetRsp : Byte := 0x31
@[simp] def pidDiscUniqueBranch : Half := 0x0001
@[simp] def pidDiscMute : Half := 0x0002
@[simp] def rtAck : Byte := 0x00
@[simp] def rtAckTimer : Byte := 0x01
@[simp] def rtNackReason : Byte := 0x02
@[simp] def rtAckOverflow : Byte := 0x03
/-- `RT_NONE`: a register code only, never sent on the wire. -/
@[simp] def rtNone : Byte := 0xFF
@[simp] def nackUnknownPid : Half := 0x0000
@[simp] def nackFormatError : Half := 0x0001
@[simp] def nackHardwareFault : Half := 0x0002
@[simp] def nackProxyReject : Half := 0x0003
@[simp] def nackWriteProtect : Half := 0x0004
@[simp] def nackUnsupportedCommandClass : Half := 0x0005
@[simp] def nackDataOutOfRange : Half := 0x0006
@[simp] def nackBufferFull : Half := 0x0007
@[simp] def nackPacketSizeUnsupported : Half := 0x0008
@[simp] def nackSubDeviceOutOfRange : Half := 0x0009
@[simp] def nackProxyBufferFull : Half := 0x000A
/-- The gap thresholds and the response-lost timeout, in microseconds. -/
@[simp] def tDiscNr : Nat := 5800
@[simp] def tBcast : Nat := 176
@[simp] def tReqNr : Nat := 3000
@[simp] def tRespond : Nat := 176
@[simp] def tRespLost : Nat := 2800

/-- Every NACK reason code, in the order of R8. -/
def nackCodes : List Half :=
  [nackUnknownPid, nackFormatError, nackHardwareFault, nackProxyReject, nackWriteProtect,
   nackUnsupportedCommandClass, nackDataOutOfRange, nackBufferFull, nackPacketSizeUnsupported,
   nackSubDeviceOutOfRange, nackProxyBufferFull]

/-- The four wire response types. -/
def wireResponseTypes : List Byte := [rtAck, rtAckTimer, rtNackReason, rtAckOverflow]

/-- The constraints of 00_scope.md R9. An instance that breaks one is outside the spec (93 U8). -/
abbrev Legal : Prop :=
  maskA &&& maskB = 0 ∧ maskA ||| maskB = 0xFF ∧ delim ≠ preamble ∧
  nackCodes.Nodup ∧ wireResponseTypes.Nodup ∧ rtNone ∉ wireResponseTypes ∧
  [ccDisc, ccGet, ccSet].Nodup ∧
  ccDiscRsp = ccDisc + 1 ∧ ccGetRsp = ccGet + 1 ∧ ccSetRsp = ccSet + 1 ∧
  (∀ t ∈ [tDiscNr, tBcast, tReqNr, tRespond, tRespLost], t < 2 ^ 32) ∧
  49 ≤ dsCap ∧ hostBufSize ≤ 1023

end Sys2Proof.Config
end

