-- ==== Sys2Proof/Machine/State.lean ====
section
/-! DEFINITION. The state of one block instance (10_state.md R30) as plain data, the reasons a step can stop, and the
state after reset (70_reset_and_hazards.md R570). A register is held by its named fields: a bit that no field names has
no storage, reads 0 and ignores writes (00_scope.md R12, 10_state.md R55; assumption log, entry 10). -/

namespace Sys2Proof.Machine

/-- Why the machine stops with a fault. Nothing raises one, so the type is empty: "No case in this spec makes a model
`fault` or `stuck`" (93_implementation_defined.md, part 1). Safe: no run stops (assumption log, entry 18). -/
inductive Fault where
deriving DecidableEq, Repr

/-- Why a command has no meaning in the model. -/
inductive Refusal where
  /-- Raised by an arm of `exec` whose command has no meaning yet. No arm raises it: every command of the table has its
  meaning. Safe: the machine would stop. -/
  | notModelled (mnemonic : String)
deriving DecidableEq, Repr

/-- A UID: manufacturer_id and device_id (00_scope.md R15). -/
structure Uid where
  man : Half
  dev : Word
deriving DecidableEq, Repr

/-- A range of UIDs, both bounds inclusive (45_discovery.md R460). -/
structure Range where
  lo : Uid
  hi : Uid
deriving DecidableEq, Repr

/-- STATUS (10_state.md R33). Its bit IRQ is computed, not stored. -/
structure Status where
  ok : Bool
  err : Bool
  illegal : Bool
  busErr : Bool
  errCode : Byte
deriving DecidableEq, Repr

/-- CONFIG (10_state.md R34). -/
structure ConfigReg where
  rspSrcSelf : Bool
  earlyEn : Bool
  dsRecheck : Bool
deriving DecidableEq, Repr

/-- UID_RESULT (10_state.md R40). -/
structure UidFlags where
  lt : Bool
  eq : Bool
  gt : Bool
  bcast : Bool
  bcastAll : Bool
  null : Bool
  valid : Bool
  target : Bool
deriving DecidableEq, Repr

/-- SELF, UIDA, UIDB and UID_RESULT (10_state.md R39, R40). -/
structure UidRegs where
  self : Uid
  a : Uid
  b : Uid
  result : UidFlags
deriving DecidableEq, Repr

/-- TX_CTL0 or RX_CTL0 (10_state.md R41). -/
structure Ctl0 where
  tn : Byte
  portRt : Byte
  msgCount : Byte
  cc : Byte
deriving DecidableEq, Repr

/-- TX_CTL1 or RX_CTL1 (10_state.md R41). -/
structure Ctl1 where
  subDevice : Half
  pid : Half
deriving DecidableEq, Repr

/-- The TX or the RX header registers (10_state.md R41, R42). -/
structure HeaderRegs where
  dest : Uid
  src : Uid
  ctl0 : Ctl0
  ctl1 : Ctl1
  pdl : Byte
deriving DecidableEq, Repr

/-- RX_LEN and the framer status registers (10_state.md R42, R43). -/
structure FramerRegs where
  rxLen : BitVec 9
  frameValid : Bool
  frameLen : BitVec 9
  ckStart : BitVec 9
  ckLen : BitVec 9
  ckComputed : Half
  ckReceived : Half
deriving DecidableEq, Repr

/-- TOK_INFO (10_state.md R44). -/
structure TokInfo where
  tokens : BitVec 7
  wFixed : Byte
  hasV : Bool
  hasVarA : Bool
  litOnly : Bool
  hFixed : Byte
deriving DecidableEq, Repr

/-- The codec registers (10_state.md R44). -/
structure CodecRegs where
  fmtLen : BitVec 7
  pdHostLen : BitVec 10
  pdLen : Byte
  hostCount : BitVec 10
  records : Byte
  tokInfo : TokInfo
deriving DecidableEq, Repr

/-- The discovery-response registers (10_state.md R45). -/
structure DiscRegs where
  len : BitVec 5
  valid : Bool
  delimPos : BitVec 3
  uid : Uid
deriving DecidableEq, Repr

/-- The gap category of the previous packet (43_timing.md R370). -/
inductive GapCat where
  | none
  | discNr
  | bcast
  | reqNr
  | respond
deriving DecidableEq, Repr

/-- The kind of the last stamped event (43_timing.md R371). -/
inductive EventKind where
  | received
  | sentRequest
  | sentBranch
  | sentOther
deriving DecidableEq, Repr

/-- The timing registers (10_state.md R46). LAST_TS and ALARM_AT are each one 64-bit value with two word views
(assumption log, entry 11). -/
structure TimingRegs where
  nowHiLatch : Word
  lastTs : Time
  lastCat : GapCat
  lastKind : EventKind
  ready : Bool
  armed : Bool
  early : Bool
  rwArmed : Bool
  elapsed : Word
  reqGap : Word
  remain : Word
  alarmAt : Time
deriving DecidableEq, Repr

/-- The sequencer states of DS_STATE.STATE (45_discovery.md R462). -/
inductive DsPhase where
  | idle
  | ready
  | wait
  | done
deriving DecidableEq, Repr

/-- The flags DS_STATE[21:16] of the last DS_RESULT (10_state.md R47). -/
structure DsFlags where
  found : Bool
  outOfRange : Bool
  collided : Bool
  split : Bool
  anomaly : Bool
  overflow : Bool
deriving DecidableEq, Repr

/-- The discovery registers and the range stack, top first (10_state.md R47, R51). DS_STATE.DEPTH is the length of
`stack`. -/
structure DiscoveryRegs where
  phase : DsPhase
  flags : DsFlags
  lower : Uid
  upper : Uid
  foundCount : Word
  found : Uid
  anomCount : Word
  anom : Uid
  stack : List Range
deriving DecidableEq, Repr

/-- The states of DP_STATE.STATE (44_dispatch.md R421). -/
inductive DpPhase where
  | idle
  | validating
  | answering
  | suppressed
deriving DecidableEq, Repr

/-- DP_STATE.ACTION (10_state.md R48). -/
inductive DpAction where
  | none
  | send
  | callHandler
deriving DecidableEq, Repr

/-- The dispatch registers (10_state.md R48). -/
structure DispatchRegs where
  phase : DpPhase
  action : DpAction
  suppressed : Bool
  nacked : Bool
  fault : Bool
  notTarget : Bool
  nackReason : Half
  handlerRt : Byte
  handlerLen : BitVec 10
  subdevMax : Half
deriving DecidableEq, Repr

/-- One entry of the PID table (10_state.md R50). -/
structure PidEntry where
  pid : Half
  discOk : Bool
  getOk : Bool
  setOk : Bool
  valid : Bool
deriving DecidableEq, Repr

/-- The bytes of FRAME, HOST, FMT and DISC, keyed by window offset (20_memory.md R100), in one canonical form:
addresses strictly rising, and no entry equal to what an unlisted address reads as. -/
abbrev Memory := List Host.Cell

/-- One step of one agent (00_scope.md R21). The host's program, the time source, the alarm agent's turns and the
platform's resets are the environment's choices, so a run's steps are data (assumption log, entry 1). -/
inductive Event where
  /-- The host reads the word at a window offset (20_memory.md R105). -/
  | hostRead (offset : Offset)
  /-- The host writes a word at a window offset; a write to CMD runs a command (20_memory.md R105, R130). -/
  | hostWrite (offset : Offset) (word : Word)
  /-- The host loads the word at a platform address, an access of this block where its window lies there (20_memory.md
  R100, R108). -/
  | hostLoad (address : Nat)
  /-- The host stores a word at a platform address (20_memory.md R100, R108). -/
  | hostStore (address : Nat) (word : Word)
  /-- The time source increases NOW by one or more microseconds (43_timing.md R372). -/
  | tick (micros : Nat) (positive : 0 < micros)
  /-- The alarm agent has its turn (43_timing.md R385). -/
  | alarm
  /-- The platform reset input (70_reset_and_hazards.md R571), with what the platform draws: buffer bytes and NOW. -/
  | platformReset (bytes : List Host.Cell) (now : Time)
deriving DecidableEq, Repr

/-- The state of one block instance (10_state.md R30), with the external input NOW. `readData` and `inputs` are the
model's own (assumption log, entries 1 and 4). -/
structure State where
  status : Status
  config : ConfigReg
  irqEn : BitVec 5
  irqPend : BitVec 5
  portId : Byte
  tnCtr : Byte
  uid : UidRegs
  tx : HeaderRegs
  rx : HeaderRegs
  framer : FramerRegs
  codec : CodecRegs
  disc : DiscRegs
  timing : TimingRegs
  discovery : DiscoveryRegs
  dispatch : DispatchRegs
  pidTable : Vector PidEntry 64
  mem : Memory
  /-- The external time source NOW (43_timing.md R372). -/
  now : Time
  /-- The word that the last host read returned. -/
  readData : Word
  /-- The agents' steps still to come, the next one first. -/
  inputs : List Event
deriving DecidableEq, Repr

/-- What a step of the machine answers. -/
abbrev Result := Host.Outcome State Fault Refusal

/-- The null UID 0:0. -/
def nullUid : Uid := ⟨0, 0⟩

/-- The header registers at reset (10_state.md R56). -/
def HeaderRegs.reset : HeaderRegs := ⟨nullUid, nullUid, ⟨0, 0, 0, 0⟩, ⟨0, 0⟩, 0⟩

/-- DS_STATE[21:16] with every flag 0. -/
def DsFlags.clear : DsFlags := ⟨false, false, false, false, false, false⟩

/-- TOK_INFO = 0. -/
def TokInfo.zero : TokInfo := ⟨0, 0, false, false, false, 0⟩

/-- A PID table entry of 0. -/
def PidEntry.zero : PidEntry := ⟨0, false, false, false, false⟩

/-- The machine right after reset (10_state.md R56, 70_reset_and_hazards.md R570). The bytes of the buffers and NOW are
one draw, 0 (DESIGN CHOICE, assumption log, entries 5 and 6); no agent's step is placed (entry 7). -/
def State.reset : State where
  status := ⟨false, false, false, false, 0⟩
  config := ⟨false, true, false⟩
  irqEn := 0
  irqPend := 0
  portId := 1
  tnCtr := 0
  uid := ⟨nullUid, nullUid, nullUid, ⟨false, false, false, false, false, false, false, false⟩⟩
  tx := HeaderRegs.reset
  rx := HeaderRegs.reset
  framer := ⟨0, false, 0, 0, 0, 0, 0⟩
  codec := ⟨0, 0, 0, 0, 0, TokInfo.zero⟩
  disc := ⟨0, false, 0, nullUid⟩
  timing := ⟨0, 0, .none, .received, false, false, false, false, 0, 0, 0, 0⟩
  discovery := ⟨.idle, DsFlags.clear, nullUid, nullUid, 0, nullUid, 0, nullUid, []⟩
  dispatch := ⟨.idle, .none, false, false, false, false, 0, 0, 0, 512⟩
  pidTable := Vector.replicate 64 PidEntry.zero
  mem := []
  now := 0
  readData := 0
  inputs := []

end Sys2Proof.Machine
end

