-- ==== Sys2Proof/Machine/Operands.lean ====
section
/-! DEFINITION. Operand forms: byte orders, UIDs, the codes of categories, kinds and phases, ranges, and the token
language of format strings. -/

namespace Sys2Proof.Machine

/-! ### Byte orders (00_scope.md R14, R16; 20_memory.md R102) -/

/-- `LE(s)`: the number whose least significant byte is `s[0]`. -/
def leNat : List Byte → Nat
  | [] => 0
  | b :: bs => b.toNat + 256 * leNat bs

/-- `BE(s)`: the number whose most significant byte is `s[0]`. -/
def beNat (s : List Byte) : Nat := leNat s.reverse

/-- `le_bytes(v, n)`: the `n` little-endian bytes of `v mod 256^n`. -/
def leBytes (v : Nat) : Nat → List Byte
  | 0 => []
  | n + 1 => BitVec.ofNat 8 v :: leBytes (v / 256) n

/-- `be_bytes(v, n)`: the `n` big-endian bytes of `v mod 256^n`. -/
def beBytes (v n : Nat) : List Byte := (leBytes v n).reverse

/-- The exact sum of a byte sequence. -/
def byteSum : List Byte → Nat
  | [] => 0
  | b :: bs => b.toNat + byteSum bs

/-- `sum16(s)`: the arithmetic sum of the bytes modulo 2^16 (00_scope.md R16). -/
def sum16 (s : List Byte) : Half := BitVec.ofNat 16 (byteSum s)

/-! ### UIDs (00_scope.md R15; 40_uid.md R200, R201) -/

/-- `U48(u) = man·2^32 + dev`. -/
def Uid.u48 (u : Uid) : Nat := 2 ^ 32 * u.man.toNat + u.dev.toNat

/-- `uid48(x)`: the UID whose `U48` is `x`. -/
def uid48 (x : Nat) : Uid := ⟨BitVec.ofNat 16 (x / 2 ^ 32), BitVec.ofNat 32 x⟩

/-- `uid_be(u)`, the 6-byte wire form. -/
def uidBe (u : Uid) : List Byte := beBytes u.man.toNat 2 ++ beBytes u.dev.toNat 4

/-- The 6-byte host slot of a UID: manufacturer, then device, each little-endian (41_codec.md R230). -/
def uidLe (u : Uid) : List Byte := leBytes u.man.toNat 2 ++ leBytes u.dev.toNat 4

/-- The UID whose wire form is the 6 bytes `s`. -/
def uidOfBe (s : List Byte) : Uid :=
  ⟨BitVec.ofNat 16 (beNat (s.take 2)), BitVec.ofNat 32 (beNat (s.drop 2))⟩

/-- The UID whose host slot holds the 6 bytes `s`. -/
def uidOfLe (s : List Byte) : Uid :=
  ⟨BitVec.ofNat 16 (leNat (s.take 2)), BitVec.ofNat 32 (leNat (s.drop 2))⟩

/-- `A < B` (40_uid.md R201): the manufacturer decides first. -/
def Uid.lt (a b : Uid) : Bool := a.man.ult b.man || (a.man == b.man && a.dev.ult b.dev)

/-- `A <= B` (40_uid.md R201). -/
def Uid.le (a b : Uid) : Bool := a.lt b || a == b

/-- The all-devices broadcast FFFF:FFFFFFFF. -/
def broadcastAllUid : Uid := ⟨0xFFFF, 0xFFFFFFFF⟩

/-! ### Ranges of the discovery engine (45_discovery.md R460, R464) -/

/-- `FULL`: 0000:00000000 to FFFF:FFFFFFFE. -/
def fullRange : Range := ⟨nullUid, ⟨0xFFFF, 0xFFFFFFFE⟩⟩

/-- The midpoint of a range, rounded down (R464). -/
def Range.mid (r : Range) : Uid := uid48 (r.lo.u48 + (r.hi.u48 - r.lo.u48) / 2)

/-- `(lo, mid)`. -/
def Range.lowerHalf (r : Range) : Range := ⟨r.lo, r.mid⟩

/-- `(mid + 1, hi)`. -/
def Range.upperHalf (r : Range) : Range := ⟨uid48 (r.mid.u48 + 1), r.hi⟩

/-! ### Codes of the enumerated fields -/

/-- The code of a gap category (43_timing.md R370). -/
def GapCat.code : GapCat → BitVec 3
  | .none => 0
  | .discNr => 1
  | .bcast => 2
  | .reqNr => 3
  | .respond => 4

/-- The category with a code; 5..7 are reserved (43_timing.md R370). -/
def gapCatOf (c : BitVec 3) : Option GapCat :=
  match c.toNat with
  | 0 => some .none
  | 1 => some .discNr
  | 2 => some .bcast
  | 3 => some .reqNr
  | 4 => some .respond
  | _ => none

/-- `gap(c)`, the gap required after a packet of category `c`, in microseconds (43_timing.md R370). -/
def GapCat.gap : GapCat → Nat
  | .none => 0
  | .discNr => Config.tDiscNr
  | .bcast => Config.tBcast
  | .reqNr => Config.tReqNr
  | .respond => Config.tRespond

/-- The code of an event kind (43_timing.md R371). -/
def EventKind.code : EventKind → BitVec 2
  | .received => 0
  | .sentRequest => 1
  | .sentBranch => 2
  | .sentOther => 3

/-- The kind with a code (43_timing.md R371). -/
def eventKindOf (k : BitVec 2) : EventKind :=
  match k.toNat with
  | 0 => .received
  | 1 => .sentRequest
  | 2 => .sentBranch
  | _ => .sentOther

/-- The code of a sequencer state (45_discovery.md R462). -/
def DsPhase.code : DsPhase → BitVec 2
  | .idle => 0
  | .ready => 1
  | .wait => 2
  | .done => 3

/-- The code of a dispatch state (44_dispatch.md R421). -/
def DpPhase.code : DpPhase → BitVec 2
  | .idle => 0
  | .validating => 1
  | .answering => 2
  | .suppressed => 3

/-- The code of a dispatch action (10_state.md R48). -/
def DpAction.code : DpAction → BitVec 2
  | .none => 0
  | .send => 1
  | .callHandler => 2

/-! ### Wire layouts (30_encoding.md R160, R163) -/

/-- The 24 header bytes of a normal packet whose fields are `h` (30_encoding.md R160, 42_framer.md R300, R301). The
message length is computed, 24 + PDL (R161). -/
def headerBytes (h : HeaderRegs) : List Byte :=
  [Config.sc, Config.ssc, BitVec.ofNat 8 (Config.hdrLen + h.pdl.toNat)] ++ uidBe h.dest ++ uidBe h.src ++
    [h.ctl0.tn, h.ctl0.portRt, h.ctl0.msgCount] ++ beBytes h.ctl1.subDevice.toNat 2 ++ [h.ctl0.cc] ++
    beBytes h.ctl1.pid.toNat 2 ++ [h.pdl]

/-- The header fields that 24 received bytes hold (30_encoding.md R160, 42_framer.md R307). -/
def headerOfBytes (f : List Byte) : HeaderRegs where
  dest := uidOfBe ((f.drop 3).take 6)
  src := uidOfBe ((f.drop 9).take 6)
  ctl0 := ⟨f.getD 15 0, f.getD 16 0, f.getD 17 0, f.getD 20 0⟩
  ctl1 := ⟨BitVec.ofNat 16 (beNat ((f.drop 18).take 2)), BitVec.ofNat 16 (beNat ((f.drop 21).take 2))⟩
  pdl := f.getD 23 0

/-- A byte doubled for a discovery response: mask A first, then mask B (30_encoding.md R163). -/
def doubled (b : Byte) : List Byte := [b ||| Config.maskA, b ||| Config.maskB]

/-- The 12 encoded bytes of a UID in a discovery response (30_encoding.md R163). -/
def doubledUid (u : Uid) : List Byte := (uidBe u).flatMap doubled

/-- The discovery response of `u` behind `npre` preamble bytes (30_encoding.md R163, 42_framer.md R310, R311). -/
def discResponse (npre : Nat) (u : Uid) : List Byte :=
  List.replicate npre Config.preamble ++ [Config.delim] ++ doubledUid u ++
    (beBytes (sum16 (doubledUid u)).toNat 2).flatMap doubled

/-- The pairs (e[0], e[1]), (e[2], e[3]), … of a byte sequence. -/
def bytePairs : List Byte → List (Byte × Byte)
  | x :: y :: rest => (x, y) :: bytePairs rest
  | _ => []

/-- The consistency test of an encoded pair (42_framer.md R320). -/
def maskOk (p : Byte × Byte) : Bool :=
  p.1 &&& Config.maskA == Config.maskA && p.2 &&& Config.maskB == Config.maskB

/-- The raw byte of an encoded pair (42_framer.md R320). -/
def unmask (p : Byte × Byte) : Byte := p.1 &&& p.2

/-! ### Format strings (30_encoding.md R170-R174; 41_codec.md R231) -/

/-- A token of a format string (30_encoding.md R171). -/
inductive Token where
  | b
  | w
  | d
  | u
  | v
  /-- `a<N>`, text of N bytes. -/
  | afix (n : Nat)
  /-- Bare `a`. -/
  | avar
  /-- `#...h`, a literal with its bytes. -/
  | lit (bytes : List Byte)
deriving DecidableEq, Repr

/-- wsize: the wire size, 6 for `v` and 0 for bare `a` (41_codec.md R231). -/
def Token.wsize : Token → Nat
  | .b => 1
  | .w => 2
  | .d => 4
  | .u => 6
  | .v => 6
  | .afix n => n
  | .avar => 0
  | .lit bytes => bytes.length

/-- hsize: the host slot size, 0 for bare `a` and literals (41_codec.md R230, R231). -/
def Token.hsize : Token → Nat
  | .b => 1
  | .w => 2
  | .d => 4
  | .u => 6
  | .v => 6
  | .afix n => n
  | .avar => 0
  | .lit _ => 0

/-- The token is a literal. -/
def Token.isLit : Token → Bool
  | .lit _ => true
  | .b | .w | .d | .u | .v | .afix _ | .avar => false

/-- The wire bytes of one record excluding `v` and bare `a` (41_codec.md R231). -/
def wFixed : List Token → Nat
  | [] => 0
  | t :: ts => (if t = .v then 0 else t.wsize) + wFixed ts

/-- The host bytes of one record excluding bare `a` (41_codec.md R231). -/
def hFixed : List Token → Nat
  | [] => 0
  | t :: ts => t.hsize + hFixed ts

/-- Some token is `v`. -/
def hasV (ts : List Token) : Bool := ts.contains .v

/-- Some token is bare `a`. -/
def hasVarA (ts : List Token) : Bool := ts.contains .avar

/-- Every token is a literal. -/
def litOnly (ts : List Token) : Bool := ts.all Token.isLit

/-- The TOK_INFO image of a parse (41_codec.md R233). -/
def tokImage (ts : List Token) : TokInfo where
  tokens := BitVec.ofNat 7 ts.length
  wFixed := BitVec.ofNat 8 (wFixed ts)
  hasV := hasV ts
  hasVarA := hasVarA ts
  litOnly := litOnly ts
  hFixed := BitVec.ofNat 8 (hFixed ts)

/-- decdigit: the value of '0'..'9' (30_encoding.md R170). -/
def decDigit? (c : Byte) : Option Nat :=
  if 0x30 ≤ c.toNat ∧ c.toNat ≤ 0x39 then some (c.toNat - 0x30) else none

/-- hexdigit: the value of '0'..'9', 'a'..'f', 'A'..'F' (30_encoding.md R170). -/
def hexDigit? (c : Byte) : Option Nat :=
  if 0x30 ≤ c.toNat ∧ c.toNat ≤ 0x39 then some (c.toNat - 0x30)
  else if 0x61 ≤ c.toNat ∧ c.toNat ≤ 0x66 then some (c.toNat - 0x61 + 10)
  else if 0x41 ≤ c.toNat ∧ c.toNat ≤ 0x46 then some (c.toNat - 0x41 + 10)
  else none

/-- The decimal digits at the head of a string, read after `k` digits of value `x`: the value, which saturates at 1000,
the digit count and what follows (30_encoding.md R173). -/
def takeDec (x k : Nat) : List Byte → Nat × Nat × List Byte
  | [] => (x, k, [])
  | c :: rest =>
    match decDigit? c with
    | some v => takeDec (min 1000 (10 * x + v)) (k + 1) rest
    | none => (x, k, c :: rest)

/-- The hexadecimal digits at the head of a string, read after `k` digits of value `x` (30_encoding.md R172). -/
def takeHex (x k : Nat) : List Byte → Nat × Nat × List Byte
  | [] => (x, k, [])
  | c :: rest =>
    match hexDigit? c with
    | some v => takeHex (16 * x + v) (k + 1) rest
    | none => (x, k, c :: rest)

end Sys2Proof.Machine
end

