-- ==== Sys2Proof/Machine/Flags.lean ====
section
/-! DEFINITION. Flags and predicates: the UID predicates and UID_RESULT, the interrupt output, the dispatch unit's
tests, and the STATUS outcome flags. -/

namespace Sys2Proof.Machine

/-! ### UID predicates (40_uid.md R202-R204) -/

/-- `is_broadcast(u)`: includes the all-devices broadcast (R202). -/
def isBroadcast (u : Uid) : Bool := u.dev == 0xFFFFFFFF

/-- `is_broadcast_all(u)` (R202). -/
def isBroadcastAll (u : Uid) : Bool := u.man == 0xFFFF && u.dev == 0xFFFFFFFF

/-- `is_null(u)` (R202). -/
def isNull (u : Uid) : Bool := u.man == 0 && u.dev == 0

/-- `is_target(s, a)` (R203). -/
def isTarget (s a : Uid) : Bool :=
  isBroadcastAll a || (isBroadcast a && (a.man == s.man || a.man == Config.wildcardMan)) || a == s

/-- `is_valid_device(u)` (R204): the null UID passes. -/
def isValidDevice (u : Uid) : Bool := decide (u.u48 < 0xFFFFFFFFFFFE) && !isBroadcast u

/-- UID_RESULT bits 2:0 of a comparison, bits 8:4 kept (R205). -/
def UidFlags.compared (f : UidFlags) (a b : Uid) : UidFlags :=
  { f with lt := a.lt b, eq := a == b, gt := b.lt a }

/-- UID_RESULT bits 8:4 of a classification, bits 2:0 kept (R206). -/
def UidFlags.classified (f : UidFlags) (self a : Uid) : UidFlags :=
  { f with bcast := isBroadcast a, bcastAll := isBroadcastAll a, null := isNull a, valid := isValidDevice a,
           target := isTarget self a }

/-! ### Outcome flags of STATUS (00_scope.md R17; 10_state.md R33) -/

/-- STATUS after `done`: BUS_ERR is kept. -/
def Status.done (st : Status) : Status := { st with ok := true, err := false, illegal := false, errCode := 0 }

/-- STATUS after `raise CmdError(code)`: BUS_ERR is kept. -/
def Status.raised (st : Status) (code : Byte) : Status :=
  { st with ok := false, err := true, illegal := code == 0x01, errCode := code }

/-! ### The interrupt output (10_state.md R35; 60_exceptions.md R531) -/

/-- `IRQ = OR_b (IRQ_PEND[b] AND IRQ_EN[b])`, the level that STATUS.IRQ mirrors. -/
def irqOutput (s : State) : Bool := s.irqPend &&& s.irqEn != 0

/-- The level that this block drives on the host's interrupt line `n`, with the output wired to `irqLine` (R531). -/
def interruptLine (irqLine n : Nat) (s : State) : Bool := n == irqLine && irqOutput s

/-! ### The alarm agent (43_timing.md R385) and the end of a run (70_reset_and_hazards.md R575) -/

/-- The alarm agent's step is enabled. -/
def alarmEnabled (s : State) : Bool := s.timing.armed && decide (s.timing.alarmAt.toNat ≤ s.now.toNat)

/-- The alarm has been due for longer than the platform's latency. A platform of that latency lets its alarm agent step
before it comes to this; no rule of the block depends on it (R386). -/
def alarmOverdue (latency : Nat) (s : State) : Bool :=
  s.timing.armed && decide (s.timing.alarmAt.toNat + latency < s.now.toNat)

/-- `(NOW − LAST_TS) mod 2^64`, the elapsed-time accumulator (43_timing.md R376). -/
def elapsedTime (s : State) : Nat := (s.now - s.timing.lastTs).toNat

/-! ### The dispatch unit (44_dispatch.md R422-R424) -/

/-- `Lookup(pid)`: the VALID entry of least index with that PID (R423). -/
def lookupPid (s : State) (pid : Half) : Option PidEntry :=
  s.pidTable.toList.find? fun e => e.valid && e.pid == pid

/-- `Supports(e, cc)` (R423): false for every value that is no request class. -/
def PidEntry.supports (e : PidEntry) (cc : Byte) : Bool :=
  if cc = Config.ccDisc then e.discOk
  else if cc = Config.ccGet then e.getOk
  else if cc = Config.ccSet then e.setOk
  else false

/-- `Suppress(nack)`, the step 7 test for a decision on the request in the RX registers (R424). -/
def suppress (s : State) (nack : Bool) : Bool :=
  (isBroadcast s.rx.dest && s.rx.ctl0.cc != Config.ccDisc) || (nack && s.rx.ctl0.cc == Config.ccDisc)

/-- Step 2 rejects the request as malformed (R422). -/
def badFormat (s : State) : Bool :=
  decide (s.rx.pdl.toNat > Config.maxPdl) || s.rx.ctl0.portRt == 0 || isBroadcast s.rx.src

/-- Step 5 rejects the request's sub-device (R422). -/
def badSubDevice (s : State) : Bool :=
  (decide (s.rx.ctl1.subDevice.toNat > s.dispatch.subdevMax.toNat) && s.rx.ctl1.subDevice != 0xFFFF) ||
    (s.rx.ctl1.subDevice == 0xFFFF && s.rx.ctl0.cc == Config.ccGet)

/-- The response types a handler may return (44_dispatch.md R431, R433). -/
def legalResponseType (rt : Byte) : Bool :=
  rt == Config.rtAck || rt == Config.rtAckTimer || rt == Config.rtNackReason || rt == Config.rtAckOverflow ||
    rt == Config.rtNone

/-- The handler's output breaks its contract (R431). -/
def handlerViolation (s : State) : Bool :=
  decide (s.dispatch.handlerLen.toNat > Config.maxPdl) || !legalResponseType s.dispatch.handlerRt ||
    (s.rx.ctl0.cc == Config.ccDisc && s.dispatch.handlerRt != Config.rtAck && s.dispatch.handlerRt != Config.rtNone)

end Sys2Proof.Machine
end

