-- ==== Sys2Proof/Machine/Ops.lean ====
section
/-! DEFINITION. The named operations: buffer memory, the two ways a command ends, interrupts, and the operations that
several commands share. The block takes no trap and returns from none (60_exceptions.md R533, R534): `raiseError` is
all that an error does, `raiseIrq` all that an interrupt does. -/

namespace Sys2Proof.Machine

/-! ### Buffer memory (20_memory.md R100, R131; 00_scope.md R13) -/

/-- Window offsets of the buffers (20_memory.md R100). -/
@[simp] def frameBase : Nat := 0x200
/-- PD is FRAME from offset 24. -/
@[simp] def pdBase : Nat := 0x218
@[simp] def hostBase : Nat := 0x400
@[simp] def fmtBase : Nat := 0x600
@[simp] def discBase : Nat := 0x640
@[simp] def pidBase : Nat := 0x700

/-- A byte of FRAME, HOST, FMT or DISC that the block implements (20_memory.md R100, R101). -/
def implementedByte (a : Nat) : Bool :=
  (decide (frameBase ≤ a) && decide (a < frameBase + Config.frameBufSize)) ||
  (decide (hostBase ≤ a) && decide (a < hostBase + Config.hostBufSize)) ||
  (decide (fmtBase ≤ a) && decide (a < fmtBase + Config.fmtBufSize)) ||
  (decide (discBase ≤ a) && decide (a < discBase + Config.discBufSize))

/-- What an unlisted address reads as. The spec leaves the bytes of a buffer open after a reset (R570, 93 U1): 0x00 is
DESIGN CHOICE, unsafe for a claim about `State.reset` alone (assumption log, entry 5). -/
def unlistedByte : Byte := 0

/-- The byte at an address. -/
def Memory.read : Memory → Nat → Byte
  | [], _ => unlistedByte
  | (x, v) :: m, a => if x = a then v else Memory.read m a

/-- The memory without the byte at `a`. -/
def Memory.erase : Memory → Nat → Memory
  | [], _ => []
  | (x, v) :: m, a => if x = a then Memory.erase m a else (x, v) :: Memory.erase m a

/-- The memory with one entry more, before the first entry of a higher address. -/
def Memory.insert : Memory → Nat → Byte → Memory
  | [], a, b => [(a, b)]
  | (x, v) :: m, a, b => if a < x then (a, b) :: (x, v) :: m else (x, v) :: Memory.insert m a b

/-- Stores one byte; storing what an unlisted address reads as removes the entry. -/
def Memory.write (m : Memory) (a : Nat) (b : Byte) : Memory :=
  if b = unlistedByte then Memory.erase m a else Memory.insert (Memory.erase m a) a b

/-- `MemRead`: the `n` bytes from address `a`, the lowest first (00_scope.md R13). -/
def Memory.readBytes (m : Memory) (a : Nat) : Nat → List Byte
  | 0 => []
  | n + 1 => Memory.read m a :: Memory.readBytes m (a + 1) n

/-- `MemWrite`: stores a byte sequence from address `a` (00_scope.md R13). -/
def Memory.writeBytes (m : Memory) (a : Nat) : List Byte → Memory
  | [] => m
  | b :: bs => Memory.writeBytes (Memory.write m a b) (a + 1) bs

/-- Every address of `m` is above `a`. -/
def Memory.above (a : Nat) (m : Memory) : Bool := m.all fun c => decide (a < c.1)

/-- The canonical form: addresses strictly rising, no entry equal to what an unlisted address reads as. -/
def Memory.wf : Memory → Bool
  | [] => true
  | (x, v) :: m => v != unlistedByte && Memory.above x m && Memory.wf m

/-- Every listed byte is a byte that the block implements. -/
def Memory.inBuffers (m : Memory) : Bool := m.all fun c => implementedByte c.1

/-- The bytes that a platform reset leaves, from what the platform draws (70_reset_and_hazards.md R570): only
implemented bytes exist. -/
def drawnMemory (bytes : List Host.Cell) : Memory :=
  bytes.foldl (fun m c => if implementedByte c.1 then Memory.write m c.1 c.2 else m) []

/-- MemRead on the state's buffers. -/
def State.memRead (s : State) (a n : Nat) : List Byte := Memory.readBytes s.mem a n

/-- MemWrite on the state's buffers. -/
def State.memWrite (s : State) (a : Nat) (bs : List Byte) : State := { s with mem := Memory.writeBytes s.mem a bs }

/-! ### How a command ends (00_scope.md R17) -/

/-- The command error codes (60_exceptions.md R520). -/
inductive CmdError where
  | illegalCmd
  | seqErr
  | pFmtLen
  | pEmpty
  | pUnknown
  | pVarANotLast
  | pVNotLast
  | pASize
  | pLitUnterm
  | pLitSize
  | pTooBig
  | pHostLen
  | pWireLen
  | fPdl
  | fRxLen
  | fTruncated
  | fBadSc
  | fBadSsc
  | fBadLen
  | fBadChecksum
  | fCkRange
  | dNoResponse
  | dRxLen
  | dNoDelim
  | dTruncated
  | dMask
  | dChecksum
  | tBadCat
  | sOverflow
deriving DecidableEq, Repr

/-- The code of an error, as STATUS.ERR_CODE shows it (60_exceptions.md R520). -/
def CmdError.code : CmdError → Byte
  | .illegalCmd => 0x01
  | .seqErr => 0x02
  | .pFmtLen => 0x10
  | .pEmpty => 0x11
  | .pUnknown => 0x12
  | .pVarANotLast => 0x13
  | .pVNotLast => 0x14
  | .pASize => 0x15
  | .pLitUnterm => 0x16
  | .pLitSize => 0x17
  | .pTooBig => 0x18
  | .pHostLen => 0x19
  | .pWireLen => 0x1A
  | .fPdl => 0x20
  | .fRxLen => 0x21
  | .fTruncated => 0x22
  | .fBadSc => 0x23
  | .fBadSsc => 0x24
  | .fBadLen => 0x25
  | .fBadChecksum => 0x26
  | .fCkRange => 0x27
  | .dNoResponse => 0x28
  | .dRxLen => 0x29
  | .dNoDelim => 0x2A
  | .dTruncated => 0x2B
  | .dMask => 0x2C
  | .dChecksum => 0x2D
  | .tBadCat => 0x30
  | .sOverflow => 0x50

/-- `done` (00_scope.md R17). -/
def done (s : State) : State := { s with status := s.status.done }

/-- `raise CmdError(code)` (00_scope.md R17); what the command wrote before stands. -/
def raiseError (e : CmdError) (s : State) : State := { s with status := s.status.raised e.code }

/-- What an illegal command word does (46_system.md R502). -/
def illegalCommand (s : State) : State := raiseError .illegalCmd s

/-! ### Interrupts (10_state.md R35; 60_exceptions.md R530) -/

/-- The interrupt sources. -/
inductive IrqSource where
  | alarm
  | dsFound
  | dsDone
  | dsAnomaly
  | dpFault
deriving DecidableEq, Repr

/-- The bit of a source in IRQ_PEND and IRQ_EN. -/
def IrqSource.mask : IrqSource → BitVec 5
  | .alarm => 0b00001
  | .dsFound => 0b00010
  | .dsDone => 0b00100
  | .dsAnomaly => 0b01000
  | .dpFault => 0b10000

/-- `irq(BIT)`: the pending bit is set whatever IRQ_EN holds. -/
def raiseIrq (src : IrqSource) (s : State) : State := { s with irqPend := s.irqPend ||| src.mask }

/-! ### Operations that several commands share -/

/-- FRAME with the header bytes of the TX registers (42_framer.md R300). -/
def frameHeaderMemory (s : State) : Memory := Memory.writeBytes s.mem frameBase (headerBytes s.tx)

/-- The checksum of the packet whose header is in the TX registers: the header, then the parameter data that already
stands in PD (42_framer.md R300, R302). -/
def frameChecksum (s : State) : Half :=
  sum16 (Memory.readBytes (frameHeaderMemory s) frameBase (Config.hdrLen + s.tx.pdl.toNat))

/-- `BuildFrame` (42_framer.md R300) of the packet whose header is in the TX registers: the 24 header bytes, then the
checksum behind the parameter data. -/
def buildFrame (s : State) : State :=
  { s with
    mem := Memory.writeBytes (frameHeaderMemory s) (frameBase + Config.hdrLen + s.tx.pdl.toNat)
      (beBytes (frameChecksum s).toNat 2)
    framer := { s.framer with
      frameLen := BitVec.ofNat 9 (Config.hdrLen + 2 + s.tx.pdl.toNat), ckComputed := frameChecksum s } }

/-- Prepares a discovery request to `dest` with parameter `pid` and parameter data `pd` in the TX registers
(45_discovery.md R470, R474): TX_CTL0.TN is left for FR_ENCODE_REQ. -/
def prepareRequest (dest : Uid) (pid : Half) (pd : List Byte) (s : State) : State :=
  { s.memWrite pdBase pd with
    tx := { dest := dest, src := s.uid.self,
            ctl0 := { s.tx.ctl0 with portRt := s.portId, msgCount := 0, cc := Config.ccDisc },
            ctl1 := { subDevice := 0, pid := pid }, pdl := BitVec.ofNat 8 pd.length }
    codec := { s.codec with pdLen := BitVec.ofNat 8 pd.length } }

/-- `Push(r)` on the range stack (45_discovery.md R461). -/
def pushRange (r : Range) (s : State) : State :=
  { s with discovery := { s.discovery with stack := r :: s.discovery.stack } }

/-- `Answer(rt, len)`: prepares a response for FR_ENCODE_RSP (44_dispatch.md R424). -/
def answer (rt len : Byte) (s : State) : State :=
  { s with
    tx := { s.tx with ctl0 := { s.tx.ctl0 with portRt := rt }, pdl := len }
    dispatch := { s.dispatch with action := .send, phase := .answering } }

/-- A decided response is suppressed: nothing is sent (44_dispatch.md R424, R431). -/
def suppressResponse (s : State) : State :=
  { s with dispatch := { s.dispatch with suppressed := true, action := .none, phase := .suppressed } }

/-- `Nack(reason)` (44_dispatch.md R424). -/
def nack (reason : Half) (s : State) : State :=
  let s₁ := { s with dispatch := { s.dispatch with nacked := true, nackReason := reason } }
  if suppress s₁ true then suppressResponse s₁
  else (answer Config.rtNackReason 2 s₁).memWrite pdBase (beBytes reason.toNat 2)

/-- Every register, the PID table, the range stack and the NOW_HI latch at their reset values; the buffers, NOW and the
environment as they are (46_system.md R501). -/
def resetRegisters (s : State) : State :=
  { State.reset with mem := s.mem, now := s.now, readData := s.readData, inputs := s.inputs }

end Sys2Proof.Machine
end

