-- ==== Sys2Proof/Machine/Codec.lean ====
section
/-! DEFINITION. The parameter-data codec (41_codec.md): the format-string parser, the record encoder and decoder, and
the three commands. -/

namespace Sys2Proof.Machine

/-! ### Parsing (41_codec.md R232) -/

/-- One token at the head of a nonempty string `c :: rest`, with what follows it (R232; 30_encoding.md R170-R174). -/
def parseToken (c : Byte) (rest : List Byte) : Except CmdError (Token × List Byte) :=
  match c.toNat with
  | 0x62 => .ok (.b, rest)
  | 0x77 => .ok (.w, rest)
  | 0x64 => .ok (.d, rest)
  | 0x75 => .ok (.u, rest)
  | 0x76 => .ok (.v, rest)
  | 0x61 =>
    match takeDec 0 0 rest with
    | (x, k, rest') =>
      if k = 0 then .ok (.avar, rest')
      else if x = 0 ∨ Config.maxPdl < x then .error .pASize
      else .ok (.afix x, rest')
  | 0x23 =>
    match takeHex 0 0 rest with
    | (_, _, []) => .error .pLitUnterm
    | (x, k, h :: rest') =>
      if h.toNat ≠ 0x68 then .error .pLitUnterm
      else if k = 0 ∨ 16 < k then .error .pLitSize
      else .ok (.lit (beBytes x ((k + 1) / 2)), rest')
  | _ => .error .pUnknown

/-- The error of a token that stands behind `last` (R232): bare `a` and `v` must be final. -/
def afterLast (last : Option Token) : Option CmdError :=
  match last with
  | some .avar => some .pVarANotLast
  | some .v => some .pVNotLast
  | _ => none

/-- The scan loop of ParseFmt behind the token `last`. A token takes at least one byte, so `fuel` of the string's length
never runs out (assumption log, entry 14). -/
def parseTokens : Nat → Option Token → List Byte → Except CmdError (List Token)
  | _, _, [] => .ok []
  | 0, _, _ :: _ => .error .pUnknown
  | fuel + 1, last, c :: rest =>
    match afterLast last with
    | some e => .error e
    | none =>
      match parseToken c rest with
      | .error e => .error e
      | .ok (t, rest') =>
        match parseTokens fuel (some t) rest' with
        | .error e => .error e
        | .ok ts => .ok (t :: ts)

/-- The format errors of a byte string of any length (R232). -/
def parseString (f : List Byte) : Except CmdError (List Token) :=
  if f.length > Config.fmtBufSize then .error .pFmtLen
  else if f.length = 0 then .error .pEmpty
  else
    match parseTokens f.length none f with
    | .error e => .error e
    | .ok ts =>
      if wFixed ts + (if hasV ts then 6 else 0) > Config.maxPdl then .error .pTooBig else .ok ts

/-- `ParseFmt()`: parses FMT[0..FMT_LEN) and writes nothing (R232). -/
def parseFmt (s : State) : Except CmdError (List Token) :=
  parseString (s.memRead fmtBase s.codec.fmtLen.toNat)

/-! ### Encoding (41_codec.md R240-R243) -/

/-- The longest prefix of a byte string without 0x00. -/
def textPrefix : List Byte → List Byte
  | [] => []
  | b :: bs => if b = 0 then [] else b :: textPrefix bs

/-- The wire bytes that one token makes from HOST at host offset `j`, of `len` input bytes, with `room` bytes below the
output cap, and the host offset after its slot (R241). -/
def encodeToken (m : Memory) (len room j : Nat) : Token → List Byte × Nat
  | .b => (Memory.readBytes m (hostBase + j) 1, j + 1)
  | .w => (beBytes (leNat (Memory.readBytes m (hostBase + j) 2)) 2, j + 2)
  | .d => (beBytes (leNat (Memory.readBytes m (hostBase + j) 4)) 4, j + 4)
  | .u => (uidBe (uidOfLe (Memory.readBytes m (hostBase + j) 6)), j + 6)
  | .v =>
    let uid := uidOfLe (Memory.readBytes m (hostBase + j) 6)
    (if uid = nullUid then [] else uidBe uid, j + 6)
  | .afix n =>
    let text := textPrefix (Memory.readBytes m (hostBase + j) n)
    (text ++ List.replicate (n - text.length) 0, j + n)
  | .avar => (textPrefix (Memory.readBytes m (hostBase + j) (min (len - j) room)), len)
  | .lit bytes => (bytes, j)

/-- `EncodeRecord(in, out)` (R241) from host offset `j`, with `t` the bytes of the record so far. -/
def encodeRecord (m : Memory) (len out : Nat) : List Token → List Byte → Nat → List Byte × Nat
  | [], t, j => (t, j)
  | tok :: toks, t, j =>
    match encodeToken m len (Config.maxPdl - out - t.length) j tok with
    | (bytes, j') => encodeRecord m len out toks (t ++ bytes) j'

/-- What a codec loop has done: the output bytes, the input offset and the record count. -/
structure Pass where
  bytes : List Byte
  pos : Nat
  recs : Nat
deriving DecidableEq, Repr

/-- A further encode pass may run (R240). -/
def encodeMayRun (toks : List Token) (len : Nat) (p : Pass) : Bool :=
  if litOnly toks then p.recs == 0 else decide (p.pos < len) && decide (hFixed toks ≤ len - p.pos)

/-- The record loop of PD_ENCODE over `len` input bytes (R242). The record bytes are gathered and stored once, behind
the loop: PD and HOST are disjoint (assumption log, entry 14). -/
def encodeLoop (m : Memory) (toks : List Token) (len : Nat) : Nat → Pass → Pass
  | 0, p => p
  | fuel + 1, p =>
    if encodeMayRun toks len p then
      match encodeRecord m len p.bytes.length toks [] p.pos with
      | (t, j) =>
        if p.bytes.length + t.length > Config.maxPdl then p
        else
          let p' : Pass := ⟨p.bytes ++ t, j, p.recs + 1⟩
          if hasVarA toks then p' else encodeLoop m toks len fuel p'
    else p

/-- The pass bound of 41_codec.md R234. -/
def passFuel : Nat := max Config.hostBufSize Config.maxPdl + 1

/-! ### Decoding (41_codec.md R250-R253) -/

/-- The host bytes that one token makes from PD at wire offset `p`, of `len` wire bytes, with `room` host bytes left;
the wire offset after it; and whether decoding ends (R251). -/
def decodeToken (m : Memory) (len room p : Nat) : Token → List Byte × Nat × Bool
  | .b => (Memory.readBytes m (pdBase + p) 1, p + 1, false)
  | .w => (leBytes (beNat (Memory.readBytes m (pdBase + p) 2)) 2, p + 2, false)
  | .d => (leBytes (beNat (Memory.readBytes m (pdBase + p) 4)) 4, p + 4, false)
  | .u => (uidLe (uidOfBe (Memory.readBytes m (pdBase + p) 6)), p + 6, false)
  | .v =>
    if 6 ≤ len - p then (uidLe (uidOfBe (Memory.readBytes m (pdBase + p) 6)), p + 6, false)
    else (List.replicate 6 0, p, true)
  | .afix n => (Memory.readBytes m (pdBase + p) n, p + n, false)
  | .avar =>
    let k := min (len - p) (room - 1)
    (Memory.readBytes m (pdBase + p) k ++ [0], p + k, true)
  | .lit bytes => ([], p + bytes.length, false)

/-- `DecodeRecord(pos, out)` (R251) from wire offset `p` with `room` host bytes left for the record, `t` its host bytes
so far and `ended` whether a token before ended decoding. -/
def decodeRecord (m : Memory) (len room : Nat) :
    List Token → List Byte → Nat → Bool → List Byte × Nat × Bool
  | [], t, p, ended => (t, p, ended)
  | tok :: toks, t, p, ended =>
    match decodeToken m len (room - t.length) p tok with
    | (bytes, p', e) => decodeRecord m len room toks (t ++ bytes) p' (ended || e)

/-- A further decode pass may run with `cap` host bytes in all (R250). -/
def decodeMayRun (toks : List Token) (len cap : Nat) (p : Pass) : Bool :=
  (if litOnly toks then p.recs == 0 else decide (p.pos < len)) && decide (wFixed toks ≤ len - p.pos) &&
    decide (hFixed toks + (if hasVarA toks then 1 else 0) ≤ cap - p.bytes.length)

/-- The record loop of PD_DECODE over `len` wire bytes (R252); the host bytes are gathered and stored once. -/
def decodeLoop (m : Memory) (toks : List Token) (len cap : Nat) : Nat → Pass → Pass
  | 0, p => p
  | fuel + 1, p =>
    if decodeMayRun toks len cap p then
      match decodeRecord m len (cap - p.bytes.length) toks [] p.pos false with
      | (t, pos', ended) =>
        let p' : Pass := ⟨p.bytes ++ t, pos', p.recs + 1⟩
        if ended then p' else decodeLoop m toks len cap fuel p'
    else p

/-! ### Commands -/

/-- TOK_INFO is written. -/
def setTokInfo (t : TokInfo) (s : State) : State := { s with codec := { s.codec with tokInfo := t } }

/-- PD_RESULT is written. -/
def setPdResult (hostCount recs : Nat) (s : State) : State :=
  { s with codec := { s.codec with hostCount := BitVec.ofNat 10 hostCount, records := BitVec.ofNat 8 recs } }

/-- `PD_PARSE` (41_codec.md R235). -/
def execPdParse (s : State) : Result :=
  match parseFmt s with
  | .error e => .next (raiseError e (setTokInfo TokInfo.zero s))
  | .ok toks => .next (done (setTokInfo (tokImage toks) s))

/-- The failure of PD_ENCODE: TOK_INFO, PD_LEN and PD_RESULT become 0 (R242). -/
def pdEncodeFail (e : CmdError) (s : State) : State :=
  let s₁ := setPdResult 0 0 (setTokInfo TokInfo.zero s)
  raiseError e { s₁ with codec := { s₁.codec with pdLen := 0 } }

/-- `PD_ENCODE` (41_codec.md R242). -/
def execPdEncode (s : State) : Result :=
  let len := s.codec.pdHostLen.toNat
  if len > Config.hostBufSize then .next (pdEncodeFail .pHostLen s)
  else
    match parseFmt s with
    | .error e => .next (pdEncodeFail e s)
    | .ok toks =>
      let r := encodeLoop s.mem toks len passFuel ⟨[], 0, 0⟩
      let pdl : Byte := BitVec.ofNat 8 r.bytes.length
      let s₁ := setPdResult r.pos r.recs (setTokInfo (tokImage toks) (s.memWrite pdBase r.bytes))
      .next (done { s₁ with codec := { s₁.codec with pdLen := pdl }, tx := { s₁.tx with pdl := pdl } })

/-- The failure of PD_DECODE: TOK_INFO and PD_RESULT become 0 (R252). -/
def pdDecodeFail (e : CmdError) (s : State) : State :=
  raiseError e (setPdResult 0 0 (setTokInfo TokInfo.zero s))

/-- `PD_DECODE` (41_codec.md R252). -/
def execPdDecode (s : State) : Result :=
  let len := s.codec.pdLen.toNat
  let cap := s.codec.pdHostLen.toNat
  if cap > Config.hostBufSize then .next (pdDecodeFail .pHostLen s)
  else if len > Config.maxPdl then .next (pdDecodeFail .pWireLen s)
  else
    match parseFmt s with
    | .error e => .next (pdDecodeFail e s)
    | .ok toks =>
      let r := decodeLoop s.mem toks len cap passFuel ⟨[], 0, 0⟩
      .next (done (setPdResult r.bytes.length r.recs (setTokInfo (tokImage toks) (s.memWrite hostBase r.bytes))))

end Sys2Proof.Machine
end

