-- ==== Sys2Proof/Machine/Discovery.lean ====
section
/-! DEFINITION. The discovery engine's commands (45_discovery.md). -/

namespace Sys2Proof.Machine

/-- `DS_INIT` (45_discovery.md R463). -/
def execDsInit (s : State) : Result :=
  .next (done { s with discovery := ⟨.ready, DsFlags.clear, nullUid, nullUid, 0, nullUid, 0, nullUid, [fullRange]⟩ })

/-- `DS_NEXT` (45_discovery.md R470). -/
def execDsNext (s : State) : Result :=
  match s.discovery.phase with
  | .idle => .next (raiseError .seqErr s)
  | .wait => .next (raiseError .seqErr s)
  | .done => .next (done s)
  | .ready =>
    match s.discovery.stack with
    | [] => .next (done (raiseIrq .dsDone { s with discovery := { s.discovery with phase := .done } }))
    | r :: rest =>
      let s₁ := prepareRequest broadcastAllUid Config.pidDiscUniqueBranch (uidBe r.lo ++ uidBe r.hi) s
      .next (done { s₁ with discovery :=
        { s₁.discovery with phase := .wait, lower := r.lo, upper := r.hi, stack := rest } })

/-- `Found(u, lo, hi)` (45_discovery.md R474). With DS_RECHECK the range is pushed again; the rule has no capacity check
there (assumption log, entry 17). -/
def foundDevice (u : Uid) (s : State) : State :=
  let r : Range := ⟨s.discovery.lower, s.discovery.upper⟩
  let s₁ := { s with discovery :=
    { s.discovery with
      flags := { s.discovery.flags with found := true, outOfRange := !(r.lo.le u && u.le r.hi) }
      foundCount := s.discovery.foundCount + 1
      found := u } }
  let s₂ := prepareRequest u Config.pidDiscMute [] (raiseIrq .dsFound s₁)
  if s.config.dsRecheck then pushRange r s₂ else s₂

/-- `Anomaly(u)` (45_discovery.md R476). -/
def reportAnomaly (u : Uid) (s : State) : State :=
  raiseIrq .dsAnomaly { s with discovery :=
    { s.discovery with
      flags := { s.discovery.flags with anomaly := true }, anomCount := s.discovery.anomCount + 1, anom := u } }

/-- DS_STATE.STATE ← READY (R472). -/
def branchOver (s : State) : State := { s with discovery := { s.discovery with phase := .ready } }

/-- The collision of one branch (R472): COLLIDED, then a split, an overflow or an anomaly. -/
def collided (s : State) : Result :=
  let r : Range := ⟨s.discovery.lower, s.discovery.upper⟩
  let s₁ := { s with discovery := { s.discovery with flags := { s.discovery.flags with collided := true } } }
  if r.lo.lt r.hi then
    if s.discovery.stack.length + 2 > Config.dsCap then
      .next (raiseError .sOverflow (branchOver
        { s₁ with discovery := { s₁.discovery with flags := { s₁.discovery.flags with overflow := true } } }))
    else
      let s₂ := pushRange r.lowerHalf (pushRange r.upperHalf s₁)
      .next (done (branchOver
        { s₂ with discovery := { s₂.discovery with flags := { s₂.discovery.flags with split := true } } }))
  else .next (done (branchOver (reportAnomaly r.lo s₁)))

/-- What FROM_DECODE makes of the last FR_DISC_DECODE (45_discovery.md R471). -/
def fromDecode (s : State) : Result :=
  if s.disc.valid then .next (done (branchOver (foundDevice s.disc.uid s)))
  else if s.disc.len = 0 then .next (done (branchOver s))
  else collided s

/-- `DS_RESULT` (45_discovery.md R472). OUTCOME 3 has no legal word and acts as an illegal word does (30_encoding.md
R145; assumption log, entry 13). -/
def execDsResult (outcome : BitVec 2) (s : State) : Result :=
  if outcome = 3 then .next (illegalCommand s)
  else if s.discovery.phase ≠ .wait then .next (raiseError .seqErr s)
  else
    let s₁ := { s with discovery := { s.discovery with flags := DsFlags.clear } }
    if outcome = 0 then .next (done (branchOver s₁))
    else if outcome = 1 then fromDecode s₁
    else collided s₁

end Sys2Proof.Machine
end

