-- ==== Sys2Proof/Machine/Framer.lean ====
section
/-! DEFINITION. The packet framer's commands (42_framer.md). -/

namespace Sys2Proof.Machine

/-- `FR_CHECKSUM` (42_framer.md R303). -/
def execFrChecksum (s : State) : Result :=
  let st := s.framer.ckStart.toNat
  let ln := s.framer.ckLen.toNat
  if st + ln > Config.frameBufSize then .next (raiseError .fCkRange s)
  else .next (done { s with framer := { s.framer with ckComputed := sum16 (s.memRead (frameBase + st) ln) } })

/-- The transaction number of an outbound request: with TNSEL = 1, TN_CTR, which then advances modulo 256 (R304). -/
def selectTn (tnsel : Bool) (s : State) : State :=
  if tnsel then
    { s with tx := { s.tx with ctl0 := { s.tx.ctl0 with tn := s.tnCtr } }, tnCtr := s.tnCtr + 1 }
  else s

/-- `FR_ENCODE_REQ` (42_framer.md R304). -/
def execFrEncodeReq (tnsel : Bool) (s : State) : Result :=
  if s.tx.pdl.toNat > Config.maxPdl then .next (raiseError .fPdl s)
  else .next (done (buildFrame (selectTn tnsel s)))

/-- The response header of the request in the RX registers (R305): source and destination swapped, or SELF as the
source; the command class advanced modulo 256; response type, message count and PDL as they stand. -/
def responseHeader (s : State) : HeaderRegs where
  dest := s.rx.src
  src := if s.config.rspSrcSelf then s.uid.self else s.rx.dest
  ctl0 := { s.tx.ctl0 with tn := s.rx.ctl0.tn, cc := s.rx.ctl0.cc + 1 }
  ctl1 := s.rx.ctl1
  pdl := s.tx.pdl

/-- `FR_ENCODE_RSP` (42_framer.md R305). -/
def execFrEncodeRsp (s : State) : Result :=
  if s.tx.pdl.toNat > Config.maxPdl then .next (raiseError .fPdl s)
  else
    let s₁ := buildFrame { s with tx := responseHeader s }
    .next (done { s₁ with dispatch := { s₁.dispatch with phase := .idle } })

/-- The failure of FR_DECODE: FRAME_VALID ← 0 (R307). -/
def frDecodeFail (e : CmdError) (s : State) : State :=
  raiseError e { s with framer := { s.framer with frameValid := false } }

/-- What an accepted frame writes: the RX registers, PD_LEN and FRAME_VALID (R307). -/
def acceptFrame (h : HeaderRegs) (s : State) : State :=
  { s with
    rx := h
    codec := { s.codec with pdLen := h.pdl }
    framer := { s.framer with frameValid := true } }

/-- `FR_DECODE` (42_framer.md R307): the checks in the order of R308. -/
def execFrDecode (s : State) : Result :=
  let n := s.framer.rxLen.toNat
  let f := s.memRead frameBase n
  let ml := (f.getD 2 0).toNat
  if n > Config.frameBufSize then .next (frDecodeFail .fRxLen s)
  else if n < Config.hdrLen + 2 then .next (frDecodeFail .fTruncated s)
  else if f.getD 0 0 ≠ Config.sc then .next (frDecodeFail .fBadSc s)
  else if f.getD 1 0 ≠ Config.ssc then .next (frDecodeFail .fBadSsc s)
  else if ml ≠ Config.hdrLen + (f.getD 23 0).toNat then .next (frDecodeFail .fBadLen s)
  else if n < ml + 2 then .next (frDecodeFail .fTruncated s)
  else
    let c := sum16 (f.take ml)
    let r : Half := BitVec.ofNat 16 (beNat ((f.drop ml).take 2))
    let s₁ := { s with framer := { s.framer with ckComputed := c, ckReceived := r } }
    if c ≠ r then .next (frDecodeFail .fBadChecksum s₁)
    else .next (done (acceptFrame (headerOfBytes f) s₁))

/-- `FR_DISC_ENCODE` (42_framer.md R310). -/
def execFrDiscEncode (npre : BitVec 3) (s : State) : Result :=
  let s₁ := s.memWrite discBase (discResponse npre.toNat s.uid.self)
  .next (done { s₁ with
    disc := { s₁.disc with len := BitVec.ofNat 5 (npre.toNat + 17) }
    framer := { s₁.framer with ckComputed := sum16 (doubledUid s.uid.self) } })

/-- The failure of FR_DISC_DECODE: VALID ← 0 (R321). -/
def frDiscFail (e : CmdError) (s : State) : State :=
  raiseError e { s with disc := { s.disc with valid := false } }

/-- The least index of DELIM among the first `min(MAX_PREAMBLE, n − 1) + 1` bytes (R321). -/
def delimIndex (bytes : List Byte) : Option Nat :=
  (List.range (min Config.maxPreamble (bytes.length - 1) + 1)).find? fun i => bytes.getD i 0 == Config.delim

/-- `FR_DISC_DECODE` (42_framer.md R321). -/
def execFrDiscDecode (s : State) : Result :=
  let n := s.disc.len.toNat
  let bytes := s.memRead discBase n
  if n > Config.discBufSize then .next (frDiscFail .dRxLen s)
  else if n = 0 then .next (frDiscFail .dNoResponse s)
  else
    match delimIndex bytes with
    | none => .next (frDiscFail .dNoDelim s)
    | some p =>
      let s₁ := { s with disc := { s.disc with delimPos := BitVec.ofNat 3 p } }
      if n < p + 17 then .next (frDiscFail .dTruncated s₁)
      else
        let e := (bytes.drop (p + 1)).take 16
        if !(bytePairs e).all maskOk then .next (frDiscFail .dMask s₁)
        else
          let d := (bytePairs e).map unmask
          let c := sum16 (e.take 12)
          let r : Half := BitVec.ofNat 16 (beNat ((d.drop 6).take 2))
          let s₂ := { s₁ with framer := { s₁.framer with ckComputed := c, ckReceived := r } }
          if c ≠ r then .next (frDiscFail .dChecksum s₂)
          else .next (done { s₂ with disc := { s₂.disc with uid := uidOfBe (d.take 6), valid := true } })

end Sys2Proof.Machine
end

