-- ==== Sys2Proof/Machine/Responder.lean ====
section
/-! DEFINITION. The dispatch unit's commands (44_dispatch.md). -/

namespace Sys2Proof.Machine

/-- DP_VALIDATE's first writes: every decision field of the previous request is cleared, FAULT and STATE kept (R422). -/
def clearDecision (s : State) : State :=
  { s with dispatch :=
    { s.dispatch with action := .none, suppressed := false, nacked := false, notTarget := false, nackReason := 0 } }

/-- Steps 1-5 on the request in the RX registers, and the step 7 of their NACKs (R422). -/
def validateRequest (s : State) : State :=
  if !isTarget s.uid.self s.rx.dest then
    { s with dispatch := { s.dispatch with notTarget := true, phase := .suppressed } }
  else if badFormat s then nack Config.nackFormatError s
  else
    match lookupPid s s.rx.ctl1.pid with
    | none => nack Config.nackUnknownPid s
    | some e =>
      if !e.supports s.rx.ctl0.cc then nack Config.nackUnsupportedCommandClass s
      else if badSubDevice s then nack Config.nackSubDeviceOutOfRange s
      else { s with dispatch := { s.dispatch with phase := .validating, action := .callHandler } }

/-- `DP_VALIDATE` (44_dispatch.md R422). -/
def execDpValidate (s : State) : Result :=
  if !s.framer.frameValid then .next (raiseError .seqErr s)
  else .next (done (validateRequest (clearDecision s)))

/-- The reason that a handler's NACK carries: its first two bytes, or 0 when it has fewer (R431). -/
def handlerReason (s : State) : Half :=
  if 2 ≤ s.dispatch.handlerLen.toNat then BitVec.ofNat 16 (beNat (s.memRead pdBase 2)) else 0

/-- NACKED and NACK_REASON of the handler's answer (R431). -/
def recordHandlerNack (s : State) : State :=
  if s.dispatch.handlerRt = Config.rtNackReason then
    { s with dispatch := { s.dispatch with nacked := true, nackReason := handlerReason s } }
  else s

/-- The final response decision on the handler's output (R431). -/
def checkHandler (s : State) : State :=
  if handlerViolation s then
    nack Config.nackHardwareFault
      (raiseIrq .dpFault { s with dispatch := { s.dispatch with fault := true } })
  else if s.dispatch.handlerRt = Config.rtNone then
    { s with dispatch := { s.dispatch with action := .none, phase := .suppressed } }
  else
    let s₁ := recordHandlerNack s
    if suppress s₁ (s.dispatch.handlerRt == Config.rtNackReason) then suppressResponse s₁
    else answer s.dispatch.handlerRt (s.dispatch.handlerLen.setWidth 8) s₁

/-- `DP_CHECK` (44_dispatch.md R431). -/
def execDpCheck (s : State) : Result :=
  if s.dispatch.phase ≠ .validating then .next (raiseError .seqErr s)
  else .next (done (checkHandler s))

end Sys2Proof.Machine
end

