-- ==== Sys2Proof/Machine/System.lean ====
section
/-! DEFINITION. The system commands (46_system.md). -/

namespace Sys2Proof.Machine

/-- `NOP` (46_system.md R500). -/
def execNop (s : State) : Result := .next (done s)

/-- `SOFT_RESET` (46_system.md R501). -/
def execSoftReset (s : State) : Result := .next (done (resetRegisters s))

end Sys2Proof.Machine
end

