-- ==== Sys2Proof/Machine/Timing.lean ====
section
/-! DEFINITION. The timing-budget controller's commands (43_timing.md). -/

namespace Sys2Proof.Machine

/-- `TM_STAMP` (43_timing.md R374). -/
def execTmStamp (cat : BitVec 3) (kind : BitVec 2) (s : State) : Result :=
  match gapCatOf cat with
  | none => .next (raiseError .tBadCat s)
  | some c =>
    .next (done { s with timing := { s.timing with lastTs := s.now, lastCat := c, lastKind := eventKindOf kind } })

/-- `TM_SETCAT` (43_timing.md R375). -/
def execTmSetcat (cat : BitVec 3) (s : State) : Result :=
  match gapCatOf cat with
  | none => .next (raiseError .tBadCat s)
  | some c => .next (done { s with timing := { s.timing with lastCat := c } })

/-- `TM_GAP_CHECK` (43_timing.md R376). -/
def execTmGapCheck (s : State) : Result :=
  let el := elapsedTime s
  let g := s.timing.lastCat.gap
  let t := { s.timing with elapsed := BitVec.ofNat 32 (min el (2 ^ 32 - 1)), reqGap := BitVec.ofNat 32 g }
  if el ≥ g then .next (done { s with timing := { t with ready := true, remain := 0 } })
  else
    .next (done { s with timing :=
      { t with
        ready := false, remain := BitVec.ofNat 32 (g - el), alarmAt := s.timing.lastTs + BitVec.ofNat 64 g,
        armed := true, early := false } })

/-- `TM_RESP_WAIT` (43_timing.md R381). -/
def execTmRespWait (rxd : Bool) (s : State) : Result :=
  if s.config.earlyEn ∧ (s.timing.lastKind = .sentRequest ∨ s.timing.lastKind = .sentBranch) ∧ ¬ rxd then
    .next (done { s with timing :=
      { s.timing with
        alarmAt := s.timing.lastTs + BitVec.ofNat 64 Config.tRespLost, armed := true, early := true,
        rwArmed := true } })
  else .next (done { s with timing := { s.timing with rwArmed := false } })

/-- `TM_CANCEL` (43_timing.md R382). -/
def execTmCancel (s : State) : Result :=
  .next (done { s with timing := { s.timing with armed := false, early := false } })

end Sys2Proof.Machine
end

