-- ==== Sys2Proof/Machine/Uids.lean ====
section
/-! DEFINITION. The UID unit's commands (40_uid.md). -/

namespace Sys2Proof.Machine

/-- `UID_CMP` (40_uid.md R205). -/
def execUidCmp (s : State) : Result :=
  .next (done { s with uid := { s.uid with result := s.uid.result.compared s.uid.a s.uid.b } })

/-- `UID_CLASSIFY` (40_uid.md R206). -/
def execUidClassify (s : State) : Result :=
  .next (done { s with uid := { s.uid with result := s.uid.result.classified s.uid.self s.uid.a } })

end Sys2Proof.Machine
end

