-- ==== Sys2Proof/Machine/Dispatch.lean ====
section
/-! DEFINITION. What each command does: one arm per constructor of `Instr`. -/

namespace Sys2Proof.Machine

/-- The effect of a command inside the host's CMD write (20_memory.md R130). -/
def exec (i : Instr) (s : State) : Host.Outcome State Fault Refusal :=
  match i with
  | .nop => Sys2Proof.Machine.execNop s
  | .uidCmp => Sys2Proof.Machine.execUidCmp s
  | .uidClassify => Sys2Proof.Machine.execUidClassify s
  | .pdParse => Sys2Proof.Machine.execPdParse s
  | .pdEncode => Sys2Proof.Machine.execPdEncode s
  | .pdDecode => Sys2Proof.Machine.execPdDecode s
  | .frEncodeReq tnsel => Sys2Proof.Machine.execFrEncodeReq tnsel s
  | .frEncodeRsp => Sys2Proof.Machine.execFrEncodeRsp s
  | .frDecode => Sys2Proof.Machine.execFrDecode s
  | .frChecksum => Sys2Proof.Machine.execFrChecksum s
  | .frDiscEncode npre => Sys2Proof.Machine.execFrDiscEncode npre s
  | .frDiscDecode => Sys2Proof.Machine.execFrDiscDecode s
  | .tmStamp cat kind => Sys2Proof.Machine.execTmStamp cat kind s
  | .tmSetcat cat => Sys2Proof.Machine.execTmSetcat cat s
  | .tmGapCheck => Sys2Proof.Machine.execTmGapCheck s
  | .tmRespWait rxd => Sys2Proof.Machine.execTmRespWait rxd s
  | .tmCancel => Sys2Proof.Machine.execTmCancel s
  | .dpValidate => Sys2Proof.Machine.execDpValidate s
  | .dpCheck => Sys2Proof.Machine.execDpCheck s
  | .dsInit => Sys2Proof.Machine.execDsInit s
  | .dsNext => Sys2Proof.Machine.execDsNext s
  | .dsResult outcome => Sys2Proof.Machine.execDsResult outcome s
  | .softReset => Sys2Proof.Machine.execSoftReset s

end Sys2Proof.Machine
end

