-- ==== Sys2Proof/Machine/Registers.lean ====
section
/-! DEFINITION. The register map (10_state.md R56): every register's offset, what a host read returns and what a host
write stores (R54). A bit that no field names reads 0 and ignores writes (R55). No field of the map is WARL. -/

namespace Sys2Proof.Machine

/-- The registers of 10_state.md R56. -/
inductive Reg where
  /-- ID -/
  | id
  /-- CMD -/
  | cmd
  /-- STATUS -/
  | status
  /-- CONFIG -/
  | config
  /-- IRQ_EN -/
  | irqEn
  /-- IRQ_PEND -/
  | irqPend
  /-- PORT_ID -/
  | portId
  /-- TN_CTR -/
  | tnCtr
  /-- SELF_MAN -/
  | selfMan
  /-- SELF_DEV -/
  | selfDev
  /-- UIDA_MAN -/
  | uidaMan
  /-- UIDA_DEV -/
  | uidaDev
  /-- UIDB_MAN -/
  | uidbMan
  /-- UIDB_DEV -/
  | uidbDev
  /-- UID_RESULT -/
  | uidResult
  /-- TX_DEST_MAN -/
  | txDestMan
  /-- TX_DEST_DEV -/
  | txDestDev
  /-- TX_SRC_MAN -/
  | txSrcMan
  /-- TX_SRC_DEV -/
  | txSrcDev
  /-- TX_CTL0 -/
  | txCtl0
  /-- TX_CTL1 -/
  | txCtl1
  /-- TX_PDL -/
  | txPdl
  /-- RX_DEST_MAN -/
  | rxDestMan
  /-- RX_DEST_DEV -/
  | rxDestDev
  /-- RX_SRC_MAN -/
  | rxSrcMan
  /-- RX_SRC_DEV -/
  | rxSrcDev
  /-- RX_CTL0 -/
  | rxCtl0
  /-- RX_CTL1 -/
  | rxCtl1
  /-- RX_PDL -/
  | rxPdl
  /-- RX_LEN -/
  | rxLen
  /-- FR_STATUS -/
  | frStatus
  /-- FRAME_LEN -/
  | frameLen
  /-- CK_ARGS -/
  | ckArgs
  /-- CK_RESULT -/
  | ckResult
  /-- FMT_LEN -/
  | fmtLen
  /-- PD_HOST_LEN -/
  | pdHostLen
  /-- PD_LEN -/
  | pdLen
  /-- PD_RESULT -/
  | pdResult
  /-- TOK_INFO -/
  | tokInfo
  /-- DISC_LEN -/
  | discLen
  /-- DISC_STATUS -/
  | discStatus
  /-- DISC_UID_MAN -/
  | discUidMan
  /-- DISC_UID_DEV -/
  | discUidDev
  /-- NOW_LO -/
  | nowLo
  /-- NOW_HI -/
  | nowHi
  /-- LAST_TS_LO -/
  | lastTsLo
  /-- LAST_TS_HI -/
  | lastTsHi
  /-- TM_STATE -/
  | tmState
  /-- ELAPSED -/
  | elapsed
  /-- REQ_GAP -/
  | reqGap
  /-- REMAIN -/
  | remain
  /-- ALARM_AT_LO -/
  | alarmAtLo
  /-- ALARM_AT_HI -/
  | alarmAtHi
  /-- T_DISC_NR -/
  | tDiscNr
  /-- T_BCAST -/
  | tBcast
  /-- T_REQ_NR -/
  | tReqNr
  /-- T_RESPOND -/
  | tRespond
  /-- T_RESP_LOST -/
  | tRespLost
  /-- DS_STATE -/
  | dsState
  /-- DS_LOWER_MAN -/
  | dsLowerMan
  /-- DS_LOWER_DEV -/
  | dsLowerDev
  /-- DS_UPPER_MAN -/
  | dsUpperMan
  /-- DS_UPPER_DEV -/
  | dsUpperDev
  /-- DS_FOUND_COUNT -/
  | dsFoundCount
  /-- DS_FOUND_MAN -/
  | dsFoundMan
  /-- DS_FOUND_DEV -/
  | dsFoundDev
  /-- DS_ANOM_COUNT -/
  | dsAnomCount
  /-- DS_ANOM_MAN -/
  | dsAnomMan
  /-- DS_ANOM_DEV -/
  | dsAnomDev
  /-- DP_STATE -/
  | dpState
  /-- DP_HANDLER -/
  | dpHandler
  /-- DP_SUBDEV_MAX -/
  | dpSubdevMax
  /-- CONST0 -/
  | const0
  /-- CONST1 -/
  | const1
deriving DecidableEq, Repr

/-- The window offset of a register (10_state.md R56). -/
def Reg.offset : Reg → Nat
  | .id => 0x000
  | .cmd => 0x004
  | .status => 0x008
  | .config => 0x00C
  | .irqEn => 0x010
  | .irqPend => 0x014
  | .portId => 0x018
  | .tnCtr => 0x01C
  | .selfMan => 0x020
  | .selfDev => 0x024
  | .uidaMan => 0x028
  | .uidaDev => 0x02C
  | .uidbMan => 0x030
  | .uidbDev => 0x034
  | .uidResult => 0x038
  | .txDestMan => 0x040
  | .txDestDev => 0x044
  | .txSrcMan => 0x048
  | .txSrcDev => 0x04C
  | .txCtl0 => 0x050
  | .txCtl1 => 0x054
  | .txPdl => 0x058
  | .rxDestMan => 0x060
  | .rxDestDev => 0x064
  | .rxSrcMan => 0x068
  | .rxSrcDev => 0x06C
  | .rxCtl0 => 0x070
  | .rxCtl1 => 0x074
  | .rxPdl => 0x078
  | .rxLen => 0x07C
  | .frStatus => 0x080
  | .frameLen => 0x084
  | .ckArgs => 0x088
  | .ckResult => 0x08C
  | .fmtLen => 0x090
  | .pdHostLen => 0x094
  | .pdLen => 0x098
  | .pdResult => 0x09C
  | .tokInfo => 0x0A0
  | .discLen => 0x0B0
  | .discStatus => 0x0B4
  | .discUidMan => 0x0B8
  | .discUidDev => 0x0BC
  | .nowLo => 0x0C0
  | .nowHi => 0x0C4
  | .lastTsLo => 0x0C8
  | .lastTsHi => 0x0CC
  | .tmState => 0x0D0
  | .elapsed => 0x0D4
  | .reqGap => 0x0D8
  | .remain => 0x0DC
  | .alarmAtLo => 0x0E0
  | .alarmAtHi => 0x0E4
  | .tDiscNr => 0x0E8
  | .tBcast => 0x0EC
  | .tReqNr => 0x0F0
  | .tRespond => 0x0F4
  | .tRespLost => 0x0F8
  | .dsState => 0x100
  | .dsLowerMan => 0x104
  | .dsLowerDev => 0x108
  | .dsUpperMan => 0x10C
  | .dsUpperDev => 0x110
  | .dsFoundCount => 0x114
  | .dsFoundMan => 0x118
  | .dsFoundDev => 0x11C
  | .dsAnomCount => 0x120
  | .dsAnomMan => 0x124
  | .dsAnomDev => 0x128
  | .dpState => 0x140
  | .dpHandler => 0x144
  | .dpSubdevMax => 0x148
  | .const0 => 0x150
  | .const1 => 0x154

/-- Every register, in the order of the map. -/
def allRegs : List Reg :=
  [.id, .cmd, .status, .config, .irqEn, .irqPend, .portId, .tnCtr,
   .selfMan, .selfDev, .uidaMan, .uidaDev, .uidbMan, .uidbDev, .uidResult, .txDestMan,
   .txDestDev, .txSrcMan, .txSrcDev, .txCtl0, .txCtl1, .txPdl, .rxDestMan, .rxDestDev,
   .rxSrcMan, .rxSrcDev, .rxCtl0, .rxCtl1, .rxPdl, .rxLen, .frStatus, .frameLen,
   .ckArgs, .ckResult, .fmtLen, .pdHostLen, .pdLen, .pdResult, .tokInfo, .discLen,
   .discStatus, .discUidMan, .discUidDev, .nowLo, .nowHi, .lastTsLo, .lastTsHi, .tmState,
   .elapsed, .reqGap, .remain, .alarmAtLo, .alarmAtHi, .tDiscNr, .tBcast, .tReqNr,
   .tRespond, .tRespLost, .dsState, .dsLowerMan, .dsLowerDev, .dsUpperMan, .dsUpperDev, .dsFoundCount,
   .dsFoundMan, .dsFoundDev, .dsAnomCount, .dsAnomMan, .dsAnomDev, .dpState, .dpHandler, .dpSubdevMax,
   .const0, .const1]

/-- The register at a window offset, if one is there (10_state.md R55, R56). -/
def regAt (offset : Nat) : Option Reg := allRegs.find? fun r => r.offset == offset

/-! ### Register words -/

/-- The word whose bit `i` is the `i`-th flag. -/
def packBits : List Bool → Word
  | [] => 0
  | b :: bs => (BitVec.ofBool b).setWidth 32 ||| packBits bs <<< 1

/-- Bits 63:32 of a 64-bit value (10_state.md R46). -/
def highWord (t : Time) : Word := t.extractLsb' 32 32

/-- STATUS (10_state.md R33): bit 16 is the interrupt output. -/
def statusWord (s : State) : Word :=
  packBits [s.status.ok, s.status.err, s.status.illegal, s.status.busErr] |||
    s.status.errCode.setWidth 32 <<< 8 ||| packBits [irqOutput s] <<< 16

/-- UID_RESULT (10_state.md R40). -/
def uidResultWord (f : UidFlags) : Word :=
  packBits [f.lt, f.eq, f.gt, false, f.bcast, f.bcastAll, f.null, f.valid, f.target]

/-- TX_CTL0 or RX_CTL0 as a word (10_state.md R41). -/
def Ctl0.word (c : Ctl0) : Word := c.cc ++ c.msgCount ++ c.portRt ++ c.tn

/-- TX_CTL1 or RX_CTL1 as a word (10_state.md R41). -/
def Ctl1.word (c : Ctl1) : Word := c.pid ++ c.subDevice

/-- The fields of a word written to TX_CTL0 (10_state.md R41). -/
def ctl0Of (w : Word) : Ctl0 := ⟨w.extractLsb' 0 8, w.extractLsb' 8 8, w.extractLsb' 16 8, w.extractLsb' 24 8⟩

/-- The fields of a word written to TX_CTL1 (10_state.md R41). -/
def ctl1Of (w : Word) : Ctl1 := ⟨w.extractLsb' 0 16, w.extractLsb' 16 16⟩

/-- A write of X_MAN: bits [15:0] (40_uid.md R200). -/
def Uid.setMan (u : Uid) (w : Word) : Uid := { u with man := w.setWidth 16 }

/-- A write of X_DEV (40_uid.md R200). -/
def Uid.setDev (u : Uid) (w : Word) : Uid := { u with dev := w }

/-- TOK_INFO (10_state.md R44). -/
def tokInfoWord (t : TokInfo) : Word :=
  t.tokens.setWidth 32 ||| t.wFixed.setWidth 32 <<< 8 ||| packBits [t.hasV, t.hasVarA, t.litOnly] <<< 16 |||
    t.hFixed.setWidth 32 <<< 24

/-- TM_STATE (10_state.md R46). -/
def tmStateWord (t : TimingRegs) : Word :=
  t.lastCat.code.setWidth 32 ||| t.lastKind.code.setWidth 32 <<< 4 |||
    packBits [t.ready, t.armed, t.early, t.rwArmed] <<< 8

/-- DS_STATE (10_state.md R47): DEPTH is the length of the stack. -/
def dsStateWord (d : DiscoveryRegs) : Word :=
  d.phase.code.setWidth 32 ||| (BitVec.ofNat 8 d.stack.length).setWidth 32 <<< 8 |||
    packBits [d.flags.found, d.flags.outOfRange, d.flags.collided, d.flags.split, d.flags.anomaly,
      d.flags.overflow] <<< 16

/-- DP_STATE (10_state.md R48). -/
def dpStateWord (d : DispatchRegs) : Word :=
  d.phase.code.setWidth 32 ||| d.action.code.setWidth 32 <<< 4 |||
    packBits [d.suppressed, d.nacked, d.fault, d.notTarget] <<< 6 ||| d.nackReason.setWidth 32 <<< 16

/-- A PID table entry as a word (10_state.md R50). -/
def PidEntry.word (e : PidEntry) : Word :=
  e.pid.setWidth 32 ||| packBits [e.discOk, e.getOk, e.setOk] <<< 16 ||| packBits [e.valid] <<< 31

/-- The entry that a word written to the PID table stores; unnamed bits are dropped (10_state.md R50). -/
def pidEntryOf (w : Word) : PidEntry :=
  ⟨w.setWidth 16, w.getLsbD 16, w.getLsbD 17, w.getLsbD 18, w.getLsbD 31⟩

/-- What a host read of a register returns (10_state.md R54, R56). -/
def readReg (s : State) : Reg → Word
  | .id => Config.idValue
  | .cmd => 0
  | .status => statusWord s
  | .config => packBits [s.config.rspSrcSelf, s.config.earlyEn, s.config.dsRecheck]
  | .irqEn => s.irqEn.setWidth 32
  | .irqPend => s.irqPend.setWidth 32
  | .portId => s.portId.setWidth 32
  | .tnCtr => s.tnCtr.setWidth 32
  | .selfMan => s.uid.self.man.setWidth 32
  | .selfDev => s.uid.self.dev
  | .uidaMan => s.uid.a.man.setWidth 32
  | .uidaDev => s.uid.a.dev
  | .uidbMan => s.uid.b.man.setWidth 32
  | .uidbDev => s.uid.b.dev
  | .uidResult => uidResultWord s.uid.result
  | .txDestMan => s.tx.dest.man.setWidth 32
  | .txDestDev => s.tx.dest.dev
  | .txSrcMan => s.tx.src.man.setWidth 32
  | .txSrcDev => s.tx.src.dev
  | .txCtl0 => s.tx.ctl0.word
  | .txCtl1 => s.tx.ctl1.word
  | .txPdl => s.tx.pdl.setWidth 32
  | .rxDestMan => s.rx.dest.man.setWidth 32
  | .rxDestDev => s.rx.dest.dev
  | .rxSrcMan => s.rx.src.man.setWidth 32
  | .rxSrcDev => s.rx.src.dev
  | .rxCtl0 => s.rx.ctl0.word
  | .rxCtl1 => s.rx.ctl1.word
  | .rxPdl => s.rx.pdl.setWidth 32
  | .rxLen => s.framer.rxLen.setWidth 32
  | .frStatus => packBits [s.framer.frameValid]
  | .frameLen => s.framer.frameLen.setWidth 32
  | .ckArgs => s.framer.ckStart.setWidth 32 ||| s.framer.ckLen.setWidth 32 <<< 16
  | .ckResult => s.framer.ckReceived ++ s.framer.ckComputed
  | .fmtLen => s.codec.fmtLen.setWidth 32
  | .pdHostLen => s.codec.pdHostLen.setWidth 32
  | .pdLen => s.codec.pdLen.setWidth 32
  | .pdResult => s.codec.hostCount.setWidth 32 ||| s.codec.records.setWidth 32 <<< 16
  | .tokInfo => tokInfoWord s.codec.tokInfo
  | .discLen => s.disc.len.setWidth 32
  | .discStatus => packBits [s.disc.valid] ||| s.disc.delimPos.setWidth 32 <<< 4
  | .discUidMan => s.disc.uid.man.setWidth 32
  | .discUidDev => s.disc.uid.dev
  | .nowLo => s.now.setWidth 32
  | .nowHi => s.timing.nowHiLatch
  | .lastTsLo => s.timing.lastTs.setWidth 32
  | .lastTsHi => highWord s.timing.lastTs
  | .tmState => tmStateWord s.timing
  | .elapsed => s.timing.elapsed
  | .reqGap => s.timing.reqGap
  | .remain => s.timing.remain
  | .alarmAtLo => s.timing.alarmAt.setWidth 32
  | .alarmAtHi => highWord s.timing.alarmAt
  | .tDiscNr => BitVec.ofNat 32 Config.tDiscNr
  | .tBcast => BitVec.ofNat 32 Config.tBcast
  | .tReqNr => BitVec.ofNat 32 Config.tReqNr
  | .tRespond => BitVec.ofNat 32 Config.tRespond
  | .tRespLost => BitVec.ofNat 32 Config.tRespLost
  | .dsState => dsStateWord s.discovery
  | .dsLowerMan => s.discovery.lower.man.setWidth 32
  | .dsLowerDev => s.discovery.lower.dev
  | .dsUpperMan => s.discovery.upper.man.setWidth 32
  | .dsUpperDev => s.discovery.upper.dev
  | .dsFoundCount => s.discovery.foundCount
  | .dsFoundMan => s.discovery.found.man.setWidth 32
  | .dsFoundDev => s.discovery.found.dev
  | .dsAnomCount => s.discovery.anomCount
  | .dsAnomMan => s.discovery.anom.man.setWidth 32
  | .dsAnomDev => s.discovery.anom.dev
  | .dpState => dpStateWord s.dispatch
  | .dpHandler => s.dispatch.handlerRt.setWidth 32 ||| s.dispatch.handlerLen.setWidth 32 <<< 16
  | .dpSubdevMax => s.dispatch.subdevMax.setWidth 32
  | .const0 => Config.delim ++ Config.preamble ++ Config.ssc ++ Config.sc
  | .const1 => BitVec.ofNat 8 Config.dsCap ++ BitVec.ofNat 8 Config.maxPdl ++ Config.maskB ++ Config.maskA

/-- What a host write of `w` to a register stores (10_state.md R54): an RO field ignores it, a W1C bit is cleared by a 1.
A write to CMD stores nothing here; it runs a command (20_memory.md R105). -/
def writeReg (s : State) (w : Word) : Reg → State
  | .id => s
  | .cmd => s
  | .status => { s with status := { s.status with busErr := s.status.busErr && !w.getLsbD 3 } }
  | .config => { s with config := ⟨w.getLsbD 0, w.getLsbD 1, w.getLsbD 2⟩ }
  | .irqEn => { s with irqEn := w.setWidth 5 }
  | .irqPend => { s with irqPend := s.irqPend &&& ~~~w.setWidth 5 }
  | .portId => { s with portId := w.setWidth 8 }
  | .tnCtr => { s with tnCtr := w.setWidth 8 }
  | .selfMan => { s with uid := { s.uid with self := s.uid.self.setMan w } }
  | .selfDev => { s with uid := { s.uid with self := s.uid.self.setDev w } }
  | .uidaMan => { s with uid := { s.uid with a := s.uid.a.setMan w } }
  | .uidaDev => { s with uid := { s.uid with a := s.uid.a.setDev w } }
  | .uidbMan => { s with uid := { s.uid with b := s.uid.b.setMan w } }
  | .uidbDev => { s with uid := { s.uid with b := s.uid.b.setDev w } }
  | .uidResult => s
  | .txDestMan => { s with tx := { s.tx with dest := s.tx.dest.setMan w } }
  | .txDestDev => { s with tx := { s.tx with dest := s.tx.dest.setDev w } }
  | .txSrcMan => { s with tx := { s.tx with src := s.tx.src.setMan w } }
  | .txSrcDev => { s with tx := { s.tx with src := s.tx.src.setDev w } }
  | .txCtl0 => { s with tx := { s.tx with ctl0 := ctl0Of w } }
  | .txCtl1 => { s with tx := { s.tx with ctl1 := ctl1Of w } }
  | .txPdl => { s with tx := { s.tx with pdl := w.setWidth 8 } }
  | .rxDestMan => s
  | .rxDestDev => s
  | .rxSrcMan => s
  | .rxSrcDev => s
  | .rxCtl0 => s
  | .rxCtl1 => s
  | .rxPdl => s
  | .rxLen => { s with framer := { s.framer with rxLen := w.setWidth 9 } }
  | .frStatus => s
  | .frameLen => s
  | .ckArgs => { s with framer := { s.framer with ckStart := w.setWidth 9, ckLen := w.extractLsb' 16 9 } }
  | .ckResult => s
  | .fmtLen => { s with codec := { s.codec with fmtLen := w.setWidth 7 } }
  | .pdHostLen => { s with codec := { s.codec with pdHostLen := w.setWidth 10 } }
  | .pdLen => { s with codec := { s.codec with pdLen := w.setWidth 8 } }
  | .pdResult => s
  | .tokInfo => s
  | .discLen => { s with disc := { s.disc with len := w.setWidth 5 } }
  | .discStatus => s
  | .discUidMan => s
  | .discUidDev => s
  | .nowLo => s
  | .nowHi => s
  | .lastTsLo => { s with timing := { s.timing with lastTs := highWord s.timing.lastTs ++ w } }
  | .lastTsHi => { s with timing := { s.timing with lastTs := w ++ s.timing.lastTs.setWidth 32 } }
  | .tmState => s
  | .elapsed => s
  | .reqGap => s
  | .remain => s
  | .alarmAtLo => s
  | .alarmAtHi => s
  | .tDiscNr => s
  | .tBcast => s
  | .tReqNr => s
  | .tRespond => s
  | .tRespLost => s
  | .dsState => s
  | .dsLowerMan => s
  | .dsLowerDev => s
  | .dsUpperMan => s
  | .dsUpperDev => s
  | .dsFoundCount => s
  | .dsFoundMan => s
  | .dsFoundDev => s
  | .dsAnomCount => s
  | .dsAnomMan => s
  | .dsAnomDev => s
  | .dpState => { s with dispatch := { s.dispatch with fault := s.dispatch.fault && !w.getLsbD 8 } }
  | .dpHandler => { s with dispatch := { s.dispatch with handlerRt := w.setWidth 8, handlerLen := w.extractLsb' 16 10 } }
  | .dpSubdevMax => { s with dispatch := { s.dispatch with subdevMax := w.setWidth 16 } }
  | .const0 => s
  | .const1 => s

end Sys2Proof.Machine
end

