-- ==== Sys2Proof/Machine/HostAccess.lean ====
section
/-! DEFINITION. The host's accesses to the window (20_memory.md R100-R106), by offset and by platform address, and the
command that a CMD write runs. -/

namespace Sys2Proof.Machine

/-- The offset of CMD (10_state.md R32). -/
@[simp] def cmdOffset : Offset := 0x004

/-- Offset bits [1:0] are 0 (20_memory.md R104). -/
def aligned (a : Offset) : Bool := a.extractLsb' 0 2 == 0

/-- All 4 bytes of the word at `a` are implemented bytes of a buffer (20_memory.md R105). -/
def bufferWord (a : Nat) : Bool := (List.range 4).all fun i => implementedByte (a + i)

/-- The PID table entry at a window offset (20_memory.md R105). -/
def pidIndex (a : Nat) : Option (Fin 64) :=
  if h : pidBase ≤ a ∧ (a - pidBase) / 4 < 64 then some ⟨(a - pidBase) / 4, h.2⟩ else none

/-- Runs the command that a word written to CMD encodes (10_state.md R32, 46_system.md R502). -/
def runCommand (w : Word) (s : State) : Result :=
  match decode w with
  | .command i => exec i s
  | .illegal _ => .next (illegalCommand s)

/-- A misaligned access: BUS_ERR is set and nothing else (20_memory.md R104). -/
def busError (s : State) : State := { s with status := { s.status with busErr := true } }

/-- The word that an aligned host read returns (20_memory.md R105). -/
def readWord (s : State) (a : Nat) : Word :=
  match regAt a with
  | some r => readReg s r
  | none =>
    if bufferWord a then BitVec.ofNat 32 (leNat (s.memRead a 4))
    else
      match pidIndex a with
      | some i => (s.pidTable[i]).word
      | none => 0

/-- What an aligned host write outside CMD stores (20_memory.md R105). -/
def writeWord (s : State) (a : Nat) (w : Word) : State :=
  match regAt a with
  | some r => writeReg s w r
  | none =>
    if bufferWord a then s.memWrite a (leBytes w.toNat 4)
    else
      match pidIndex a with
      | some i => { s with pidTable := s.pidTable.set i (pidEntryOf w) }
      | none => s

/-- The side effect of a read: NOW_LO copies NOW bits 63:32 into the NOW_HI latch (20_memory.md R106, 43_timing.md
R387). -/
def readEffect (s : State) (a : Nat) : State :=
  if a = Reg.nowLo.offset then { s with timing := { s.timing with nowHiLatch := highWord s.now } } else s

/-- `HostRead(A)` (20_memory.md R104, R105): the word goes to `readData`. -/
def hostRead (a : Offset) (s : State) : State :=
  if aligned a then { readEffect s a.toNat with readData := readWord s a.toNat }
  else { busError s with readData := 0 }

/-- `HostWrite(A, w)` (20_memory.md R104, R105). -/
def hostWrite (a : Offset) (w : Word) (s : State) : Result :=
  if !aligned a then .next (busError s)
  else if a = cmdOffset then runCommand w s
  else .next (writeWord s a.toNat w)

/-! ### Platform addresses (20_memory.md R100, R108) -/

/-- The number of byte offsets of the window (R100). -/
@[simp] def windowSize : Nat := 0x1000

/-- The offset of a platform address in the window at `base`; none for an address of another window or of none (R100,
60_exceptions.md R545). -/
def windowOffset (base address : Nat) : Option Offset :=
  if base ≤ address ∧ address < base + windowSize then some (BitVec.ofNat 12 (address - base)) else none

/-- A load of the host at a platform address, with the window at `base`: outside the window it is no access of this
block (assumption log, entry 9). -/
def hostLoad (base address : Nat) (s : State) : State :=
  match windowOffset base address with
  | some a => hostRead a s
  | none => s

/-- A store of the host at a platform address, with the window at `base`. -/
def hostStore (base address : Nat) (w : Word) (s : State) : Result :=
  match windowOffset base address with
  | some a => hostWrite a w s
  | none => .next s

end Sys2Proof.Machine
end

