-- ==== Sys2Proof/Machine/Agents.lean ====
section
/-! DEFINITION. The steps of the agents (00_scope.md R21), and how a word is placed for the host to write to CMD. -/

namespace Sys2Proof.Machine

/-- The alarm agent's step (43_timing.md R385). A turn of the agent while its step is not enabled changes nothing
(assumption log, entry 3). -/
def alarmStep (s : State) : State :=
  if alarmEnabled s then raiseIrq .alarm { s with timing := { s.timing with armed := false } } else s

/-- The time source's step: NOW increases modulo 2^64 (43_timing.md R372, 93 U2). -/
def tickStep (micros : Nat) (s : State) : State := { s with now := s.now + BitVec.ofNat 64 micros }

/-- The platform reset (70_reset_and_hazards.md R570, R571): the registers' reset values, and the buffer bytes and NOW
that the platform draws. -/
def platformResetStep (bytes : List Host.Cell) (now : Time) (s : State) : State :=
  { resetRegisters s with mem := drawnMemory bytes, now := now }

/-- One agent's step. -/
def agentStep (e : Event) (s : State) : Result :=
  match e with
  | .hostRead a => .next (hostRead a s)
  | .hostWrite a w => hostWrite a w s
  | .hostLoad address => .next (hostLoad Config.base address s)
  | .hostStore address w => hostStore Config.base address w s
  | .tick micros _ => .next (tickStep micros s)
  | .alarm => .next (alarmStep s)
  | .platformReset bytes now => .next (platformResetStep bytes now s)

/-- The step of the agent whose turn is next. When the environment has no further step, the alarm agent takes its step
if it is enabled (43_timing.md R386) and nothing happens otherwise (assumption log, entry 2). -/
def nextStep (s : State) : Result :=
  match s.inputs with
  | [] => .next (alarmStep s)
  | e :: rest => agentStep e { s with inputs := rest }

/-- The host's next access is a CMD write of `w`. -/
def placeCommand (w : Word) (s : State) : State := { s with inputs := .hostWrite cmdOffset w :: s.inputs }

end Sys2Proof.Machine
end

