-- ==== Sys2Proof/Machine/Step.lean ====
section
/-! DEFINITION. One step of the machine. -/

namespace Sys2Proof.Machine

/-- One step of one agent (00_scope.md R21). -/
def step (s : State) : Host.Outcome State Fault Refusal := nextStep s

/-- `s` with the command word `w` as the host's next CMD write, so that the next step runs it. -/
def State.withFetchWord (s : State) (nbits w : Nat) : State := placeCommand (BitVec.ofNat 32 (w % 2 ^ nbits)) s

end Sys2Proof.Machine
end

