-- ==== Sys2Proof/Safety.lean ====
section
/-! DEFINITION. What claims call a safe state of the block: the invariants that every step keeps, and the end of a
run. Then the terms that claims use for a command's outcome, its frame, the wire forms and the format language, each
written from the spec's tables and apart from the functions that the meanings call. -/

namespace Sys2Proof.Machine

/-- The buffers' canonical form: rising addresses of implemented bytes, none equal to what an unlisted one reads as. -/
abbrev MemoryCanonical (s : State) : Prop := Memory.wf s.mem = true ∧ Memory.inBuffers s.mem = true

/-- The number of UIDs of a range less one, `U48(hi) − U48(lo)` (45_discovery.md R460). -/
def Range.span (r : Range) : Nat := r.hi.u48 - r.lo.u48

/-- A range that stands above `below` others: `lo <= hi`, and small enough for the splits on its path (45_discovery.md
R466). -/
def Range.fits (r : Range) (below : Nat) : Bool :=
  decide (r.lo.u48 ≤ r.hi.u48) && decide (below < Config.dsCap) && decide (r.span < 2 ^ (48 - below))

/-- Every range of the stack, top first, fits its place. -/
def stackFits : List Range → Bool
  | [] => true
  | r :: below => r.fits below.length && stackFits below

/-- The discovery stack and the range that is out on the bus can never overflow the stack (10_state.md R51,
45_discovery.md R466). -/
def discoveryFits (s : State) : Bool :=
  stackFits s.discovery.stack &&
    (s.discovery.phase != .wait ||
      Range.fits ⟨s.discovery.lower, s.discovery.upper⟩ s.discovery.stack.length)

/-- STATUS shows one of the patterns of 46_system.md R503, or none has run yet. -/
def statusPattern (s : State) : Bool :=
  let st := s.status
  (st.ok && !st.err && !st.illegal && st.errCode == 0) ||
  (!st.ok && st.err && st.illegal && st.errCode == 0x01) ||
  (!st.ok && st.err && !st.illegal && st.errCode != 0x01 && st.errCode != 0) ||
  (!st.ok && !st.err && !st.illegal && st.errCode == 0)

/-- The dispatch decision agrees with the dispatch state (44_dispatch.md R421, R422, R424, R431): a handler is called
for in VALIDATING only with no NACK decided, a response is prepared in ANSWERING, nothing is sent in SUPPRESSED, and a
suppressed NACK or answer is in SUPPRESSED or, after FR_ENCODE_RSP, IDLE. -/
def dispatchCoherent (s : State) : Bool :=
  match s.dispatch.phase with
  | .idle => true
  | .validating =>
    s.dispatch.action == .callHandler && !s.dispatch.suppressed && !s.dispatch.nacked && !s.dispatch.notTarget
  | .answering => s.dispatch.action == .send && !s.dispatch.suppressed && !s.dispatch.notTarget
  | .suppressed => s.dispatch.action == .none

/-! ### How a command ended and what it left alone -/

/-- The command that took `s` to `t` ended with `done` (00_scope.md R17). -/
def EndsDone (s t : State) : Prop :=
  t.status = { s.status with ok := true, err := false, illegal := false, errCode := 0x00 }

/-- The command that took `s` to `t` ended with `raise CmdError(code)` (00_scope.md R17). -/
def EndsError (code : Byte) (s t : State) : Prop :=
  t.status = { s.status with ok := false, err := true, illegal := code == 0x01, errCode := code }

/-- Nothing but STATUS differs between `s` and `t`. -/
def OnlyStatus (s t : State) : Prop := { t with status := s.status } = s

/-- Every byte of the buffers reads in `t` as in `s`. -/
def KeepsBytes (s t : State) : Prop := ∀ a, Memory.read t.mem a = Memory.read s.mem a

/-- Every byte outside the `n` bytes from window offset `base` reads in `t` as in `s`. -/
def KeepsBytesOutside (base n : Nat) (s t : State) : Prop :=
  ∀ a, a < base ∨ base + n ≤ a → Memory.read t.mem a = Memory.read s.mem a

/-! ### Wire forms (30_encoding.md R160-R163) -/

/-- FRAME[i]. -/
def frameByte (s : State) (i : Nat) : Byte := Memory.read s.mem (0x200 + i)

/-- DISC[i]. -/
def discByte (s : State) (i : Nat) : Byte := Memory.read s.mem (0x640 + i)

/-- The sum of a byte sequence modulo 2^16 (00_scope.md R16). -/
def byteTotal (bs : List Byte) : Nat := (bs.map BitVec.toNat).sum % 2 ^ 16

/-- A 16-bit field on the wire, high byte first. -/
def wireHalf (x : Half) : List Byte := [x.extractLsb' 8 8, x.extractLsb' 0 8]

/-- A UID on the wire: manufacturer, then device, high byte first (40_uid.md R200). -/
def wireUid (u : Uid) : List Byte :=
  wireHalf u.man ++ [u.dev.extractLsb' 24 8, u.dev.extractLsb' 16 8, u.dev.extractLsb' 8 8, u.dev.extractLsb' 0 8]

/-- The 24 header bytes of 30_encoding.md R160 with the message length of R161. -/
def wireHeader (h : HeaderRegs) : List Byte :=
  [0xCC, 0x01, 24 + h.pdl] ++ wireUid h.dest ++ wireUid h.src ++ [h.ctl0.tn, h.ctl0.portRt, h.ctl0.msgCount] ++
    wireHalf h.ctl1.subDevice ++ [h.ctl0.cc] ++ wireHalf h.ctl1.pid ++ [h.pdl]

/-- `t` holds the frame of `h` around the parameter data of `s` (42_framer.md R300): header, checksum, FRAME_LEN and
CK_RESULT.COMPUTED, and no other byte or framer register changed. -/
def Framed (h : HeaderRegs) (s t : State) : Prop :=
  t.memRead 0x200 24 = wireHeader h ∧
  t.framer.ckComputed.toNat = byteTotal (t.memRead 0x200 (24 + h.pdl.toNat)) ∧
  t.memRead (0x218 + h.pdl.toNat) 2 = wireHalf t.framer.ckComputed ∧
  t.framer.frameLen.toNat = 26 + h.pdl.toNat ∧
  t.framer = { s.framer with frameLen := t.framer.frameLen, ckComputed := t.framer.ckComputed } ∧
  ∀ a, ¬(0x200 ≤ a ∧ a < 0x218) → ¬(0x218 + h.pdl.toNat ≤ a ∧ a < 0x218 + h.pdl.toNat + 2) →
    Memory.read t.mem a = Memory.read s.mem a

/-- FRAME holds a frame that FR_DECODE accepts (42_framer.md R307). -/
def ValidFrame (s : State) : Prop :=
  26 ≤ s.framer.rxLen.toNat ∧ s.framer.rxLen.toNat ≤ 260 ∧ frameByte s 0 = 0xCC ∧ frameByte s 1 = 0x01 ∧
  (frameByte s 2).toNat = 24 + (frameByte s 23).toNat ∧ (frameByte s 2).toNat + 2 ≤ s.framer.rxLen.toNat ∧
  byteTotal (s.memRead 0x200 (frameByte s 2).toNat) =
    (frameByte s (frameByte s 2).toNat ++ frameByte s ((frameByte s 2).toNat + 1)).toNat

/-- `p` is the place of the delimiter in DISC[0..DISC_LEN): the least index up to 7 that holds it (42_framer.md
R321). -/
def DelimAt (s : State) (p : Nat) : Prop :=
  p ≤ 7 ∧ p < s.disc.len.toNat ∧ discByte s p = 0xAA ∧ ∀ i, i < p → discByte s i ≠ 0xAA

/-- Every encoded pair behind the delimiter at `p` passes the mask test (42_framer.md R320). -/
def MasksHold (s : State) (p : Nat) : Prop :=
  ∀ i, i < 8 → discByte s (p + 1 + 2 * i) &&& 0xAA = 0xAA ∧ discByte s (p + 2 + 2 * i) &&& 0x55 = 0x55

/-- The `i`-th byte that the pairs behind the delimiter at `p` reconstruct to (42_framer.md R320). -/
def discRaw (s : State) (p i : Nat) : Byte := discByte s (p + 1 + 2 * i) &&& discByte s (p + 2 + 2 * i)

/-- The sum of the 12 encoded UID bytes behind the delimiter at `p` (42_framer.md R311). -/
def discTotal (s : State) (p : Nat) : Nat := byteTotal (s.memRead (0x640 + p + 1) 12)

/-! ### UIDs -/

/-- The predicates of 40_uid.md R202-R204 as that file writes them. -/
def Broadcast (u : Uid) : Prop := u.dev = 0xFFFFFFFF

/-- The address match of 40_uid.md R203. -/
def Targets (self a : Uid) : Prop :=
  a = ⟨0xFFFF, 0xFFFFFFFF⟩ ∨ (Broadcast a ∧ (a.man = self.man ∨ a.man = 0xFFFF)) ∨ a = self

/-- `u` lies in the range, both bounds inclusive (45_discovery.md R460). -/
def Range.Holds (r : Range) (u : Uid) : Prop := r.lo.u48 ≤ u.u48 ∧ u.u48 ≤ r.hi.u48

/-! ### Timing (43_timing.md) -/

/-- The gap required after a packet of each category, in microseconds (43_timing.md R370, 00_scope.md R8). -/
def requiredGap : GapCat → Nat
  | .none => 0
  | .discNr => 5800
  | .bcast => 176
  | .reqNr => 3000
  | .respond => 176

/-! ### Dispatch (44_dispatch.md) -/

/-- `Suppress(nack)` (44_dispatch.md R424). -/
def SuppressHolds (s : State) (isNack : Bool) : Prop :=
  (Broadcast s.rx.dest ∧ s.rx.ctl0.cc ≠ 0x10) ∨ (isNack = true ∧ s.rx.ctl0.cc = 0x10)

/-- The entry of the PID table that `Lookup(pid)` answers (44_dispatch.md R423). -/
def FirstEntry (s : State) (pid : Half) (e : PidEntry) : Prop :=
  ∃ i : Fin 64, s.pidTable[i] = e ∧ e.valid = true ∧ e.pid = pid ∧
    ∀ j : Fin 64, j < i → ¬(s.pidTable[j].valid = true ∧ s.pidTable[j].pid = pid)

/-- `Supports(e, cc)` (44_dispatch.md R423). -/
def EntrySupports (e : PidEntry) (cc : Byte) : Prop :=
  (cc = 0x10 ∧ e.discOk = true) ∨ (cc = 0x20 ∧ e.getOk = true) ∨ (cc = 0x30 ∧ e.setOk = true)

/-- Step 2 of DP_VALIDATE passes the request in the RX registers (44_dispatch.md R422). -/
def FormatOk (s : State) : Prop :=
  s.rx.pdl.toNat ≤ 231 ∧ s.rx.ctl0.portRt ≠ 0 ∧ ¬Broadcast s.rx.src

/-- Step 5 rejects the request in the RX registers (44_dispatch.md R422). -/
def SubDeviceBad (s : State) : Prop :=
  (s.dispatch.subdevMax.toNat < s.rx.ctl1.subDevice.toNat ∧ s.rx.ctl1.subDevice ≠ 0xFFFF) ∨
    (s.rx.ctl1.subDevice = 0xFFFF ∧ s.rx.ctl0.cc = 0x20)

/-- `t` holds the decision `Nack(reason)` on the request of `s` (44_dispatch.md R424), where `d` is what the dispatch
registers hold before it: suppressed, or an answer of type 2 with the reason in PD[0..2). -/
def NackDecided (reason : Half) (d : DispatchRegs) (s t : State) : Prop :=
  (SuppressHolds s true →
    t.dispatch =
      { d with nacked := true, nackReason := reason, suppressed := true, action := .none, phase := .suppressed } ∧
    t.tx = s.tx ∧ KeepsBytes s t) ∧
  (¬SuppressHolds s true →
    t.dispatch = { d with nacked := true, nackReason := reason, action := .send, phase := .answering } ∧
    t.tx = { s.tx with ctl0 := { s.tx.ctl0 with portRt := 0x02 }, pdl := 2 } ∧
    t.memRead 0x218 2 = wireHalf reason ∧ KeepsBytesOutside 0x218 2 s t)

/-! ### The format language (30_encoding.md R170-R173) -/

/-- The decimal digits of a text size as ASCII bytes. -/
def decText (ds : List (Fin 10)) : List Byte := ds.map fun d => BitVec.ofNat 8 (0x30 + d.val)

/-- The number that decimal digits write, most significant first. -/
def decValue (ds : List (Fin 10)) : Nat := ds.foldl (fun x d => 10 * x + d.val) 0

/-- A hexadecimal digit as an ASCII byte, a letter in upper or lower case. -/
def hexChar (d : Fin 16 × Bool) : Byte :=
  BitVec.ofNat 8 (if d.1.val < 10 then 0x30 + d.1.val else if d.2 then 0x41 + d.1.val - 10 else 0x61 + d.1.val - 10)

/-- The hexadecimal digits of a literal as ASCII bytes. -/
def hexText (ds : List (Fin 16 × Bool)) : List Byte := ds.map hexChar

/-- The number that hexadecimal digits write, most significant first. -/
def hexValue (ds : List (Fin 16 × Bool)) : Nat := ds.foldl (fun x d => 16 * x + d.1.val) 0

/-- `f` is a text of the token (30_encoding.md R170-R173). -/
def TokenText : Token → List Byte → Prop
  | .b, f => f = [0x62]
  | .w, f => f = [0x77]
  | .d, f => f = [0x64]
  | .u, f => f = [0x75]
  | .v, f => f = [0x76]
  | .avar, f => f = [0x61]
  | .afix n, f => ∃ ds, ds ≠ [] ∧ f = 0x61 :: decText ds ∧ decValue ds = n ∧ 1 ≤ n ∧ n ≤ 231
  | .lit bytes, f =>
    ∃ ds, 1 ≤ ds.length ∧ ds.length ≤ 16 ∧ f = 0x23 :: (hexText ds ++ [0x68]) ∧
      bytes.length = (ds.length + 1) / 2 ∧ beNat bytes = hexValue ds

/-- `v` and bare `a` stand only at the end (30_encoding.md R171). -/
def FinalLast (toks : List Token) : Prop := ∀ t ∈ toks.dropLast, t ≠ .v ∧ t ≠ .avar

/-! ### Host records (41_codec.md R230) -/

/-- The wire bytes of one record whose host slots are the bytes `r` (41_codec.md R241). -/
def wireOf : List Token → List Byte → List Byte
  | [], _ => []
  | .b :: ts, r => r.take 1 ++ wireOf ts (r.drop 1)
  | .w :: ts, r => (r.take 2).reverse ++ wireOf ts (r.drop 2)
  | .d :: ts, r => (r.take 4).reverse ++ wireOf ts (r.drop 4)
  | .u :: ts, r => (r.take 2).reverse ++ ((r.drop 2).take 4).reverse ++ wireOf ts (r.drop 6)
  | .v :: ts, r =>
    (if (r.take 6).all (· == 0) then [] else (r.take 2).reverse ++ ((r.drop 2).take 4).reverse) ++ wireOf ts (r.drop 6)
  | .afix n :: ts, r =>
    let text := (r.take n).takeWhile (· != 0)
    text ++ List.replicate (n - text.length) 0 ++ wireOf ts (r.drop n)
  | .avar :: _, r => r.takeWhile (· != 0)
  | .lit bytes :: ts, r => bytes ++ wireOf ts r

/-- The host bytes of one record whose wire bytes are `w`, for a format without `v` and bare `a` (41_codec.md R251). -/
def hostOf : List Token → List Byte → List Byte
  | [], _ => []
  | .b :: ts, w => w.take 1 ++ hostOf ts (w.drop 1)
  | .w :: ts, w => (w.take 2).reverse ++ hostOf ts (w.drop 2)
  | .d :: ts, w => (w.take 4).reverse ++ hostOf ts (w.drop 4)
  | .u :: ts, w => (w.take 2).reverse ++ ((w.drop 2).take 4).reverse ++ hostOf ts (w.drop 6)
  | .afix n :: ts, w => w.take n ++ hostOf ts (w.drop n)
  | .lit bytes :: ts, w => hostOf ts (w.drop bytes.length)
  | .v :: _, _ => []
  | .avar :: _, _ => []

/-- `r` is one whole record of legal host slots: a text slot is text, then zeros; a `v` slot holds a UID that is not
null; a bare `a` slot is text, then one zero (41_codec.md R260). -/
def LegalRecord : List Token → List Byte → Prop
  | [], r => r = []
  | .b :: ts, r => 1 ≤ r.length ∧ LegalRecord ts (r.drop 1)
  | .w :: ts, r => 2 ≤ r.length ∧ LegalRecord ts (r.drop 2)
  | .d :: ts, r => 4 ≤ r.length ∧ LegalRecord ts (r.drop 4)
  | .u :: ts, r => 6 ≤ r.length ∧ LegalRecord ts (r.drop 6)
  | .v :: ts, r => 6 ≤ r.length ∧ ¬(r.take 6).all (· == 0) ∧ LegalRecord ts (r.drop 6)
  | .afix n :: ts, r =>
    n ≤ r.length ∧ ((r.take n).dropWhile (· != 0)).all (· == 0) ∧ LegalRecord ts (r.drop n)
  | .avar :: _, r => ∃ text, (∀ b ∈ text, b ≠ 0) ∧ r = text ++ [0]
  | .lit _ :: ts, r => LegalRecord ts r

/-! ### Host accesses (10_state.md R54-R56, 20_memory.md R100) -/

/-- A window offset of an implemented byte of FRAME, HOST, FMT or DISC (20_memory.md R100). -/
def BufferByte (a : Nat) : Prop :=
  (0x200 ≤ a ∧ a < 0x304) ∨ (0x400 ≤ a ∧ a < 0x600) ∨ (0x600 ≤ a ∧ a < 0x640) ∨ (0x640 ≤ a ∧ a < 0x658)

/-- The value of a register right after a reset (10_state.md R56), but for NOW_LO, which shows what the platform
supplies. -/
def Reg.resetValue : Reg → Word
  | .id => 0x52444D01
  | .config => 0x00000002
  | .portId => 0x00000001
  | .dpSubdevMax => 0x00000200
  | .tDiscNr => 5800
  | .tBcast => 176
  | .tReqNr => 3000
  | .tRespond => 176
  | .tRespLost => 2800
  | .const0 => 0xAAFE01CC
  | .const1 => 0x31E755AA
  | _ => 0

/-- The bits of a register that a host write stores (10_state.md R54, R56). -/
def Reg.rwMask : Reg → Word
  | .config => 0x7
  | .irqEn => 0x1F
  | .portId | .tnCtr | .txPdl | .pdLen => 0xFF
  | .selfMan | .uidaMan | .uidbMan | .txDestMan | .txSrcMan | .dpSubdevMax => 0xFFFF
  | .selfDev | .uidaDev | .uidbDev | .txDestDev | .txSrcDev | .txCtl0 | .txCtl1 => 0xFFFFFFFF
  | .rxLen => 0x1FF
  | .ckArgs => 0x01FF01FF
  | .fmtLen => 0x7F
  | .pdHostLen => 0x3FF
  | .discLen => 0x1F
  | .lastTsLo | .lastTsHi => 0xFFFFFFFF
  | .dpHandler => 0x03FF00FF
  | .id | .cmd | .status | .irqPend | .uidResult | .rxDestMan | .rxDestDev | .rxSrcMan | .rxSrcDev => 0
  | .rxCtl0 | .rxCtl1 | .rxPdl | .frStatus | .frameLen | .ckResult | .pdResult | .tokInfo => 0
  | .discStatus | .discUidMan | .discUidDev | .nowLo | .nowHi | .tmState | .elapsed | .reqGap | .remain => 0
  | .alarmAtLo | .alarmAtHi | .tDiscNr | .tBcast | .tReqNr | .tRespond | .tRespLost => 0
  | .dsState | .dsLowerMan | .dsLowerDev | .dsUpperMan | .dsUpperDev | .dsFoundCount | .dsFoundMan => 0
  | .dsFoundDev | .dsAnomCount | .dsAnomMan | .dsAnomDev | .dpState | .const0 | .const1 => 0

/-- The bits of a register that a host write of 1 clears (10_state.md R54, R56). -/
def Reg.w1cMask (r : Reg) : Word :=
  if r = .status then 0x8 else if r = .irqPend then 0x1F else if r = .dpState then 0x100 else 0

/-! ### The end of a run -/

/-- No alarm step can occur any more (70_reset_and_hazards.md R575). -/
abbrev Quiescent (s : State) : Prop := s.timing.armed = false

end Sys2Proof.Machine
end

