-- ==== Sys2Proof/Certificates/Slice0/Obligations.lean ====
section
/-! DEFINITION. The statements for the provers: encodings, every command's result and frame, the host's accesses, the
agents, and the invariants that every step keeps. -/

open Sys2Proof Sys2Proof.Machine

/-! ### Command words (30_encoding.md) -/

/-- Decoding the word of a well-formed command gives the command back (30_encoding.md R140-R142). -/
def Obligations.DecodeOfEncode : Prop :=
  ∀ i : Instr, i.WellFormed → decode (encode i) = .command i

/-- A word that decodes to a command is that command's word: no bit of a legal word is dropped (30_encoding.md R140,
R141). -/
def Obligations.EncodeOfDecode : Prop :=
  ∀ (w : Word) (i : Instr), decode w = .command i → encode i = w ∧ i.WellFormed

/-- A word is legal exactly when it is `match` under `mask` for one row of the opcode table and is not DS_RESULT with
OUTCOME 3 (30_encoding.md R142, R145). -/
def Obligations.LegalWordsMatchOneRow : Prop :=
  ∀ w : Word, (∃ i, decode w = .command i) ↔ rowsMatched w = 1 ∧ w ≠ 0x00000352

/-- Words of 30_encoding.md R144 and of each family, and one word of each case of R145. -/
def Obligations.SampleWordsDecode : Prop :=
  decode 0x00000120 = .command (.frEncodeReq true) ∧ decode 0x00001330 = .command (.tmStamp 3 1) ∧
  decode 0x00005AFF = .command .softReset ∧ decode 0x00000001 = .command .uidCmp ∧
  decode 0x00000011 = .command .pdEncode ∧ decode 0x00000724 = .command (.frDiscEncode 7) ∧
  decode 0x00000041 = .command .dpCheck ∧ decode 0x00000152 = .command (.dsResult 1) ∧
  decode 0x00000003 = .illegal .unknownOpcode ∧ decode 0x00010000 = .illegal .reservedField ∧
  decode 0x00000220 = .illegal .unnamedArgBit ∧ decode 0x00000352 = .illegal .reservedOutcome ∧
  decode 0x000000FF = .illegal .wrongKey

/-- A host write of a command's word to CMD is that command's effect, in the same step, and the word that
`withFetchWord` places is the next one to run (10_state.md R32, 20_memory.md R130; entries 1 and 7). -/
def Obligations.StepRunsDecodedCommand : Prop :=
  (∀ (s : State) (rest : List Event) (w : Word) (i : Instr),
    decode w = .command i → s.inputs = .hostWrite 0x004 w :: rest → step s = exec i { s with inputs := rest }) ∧
  (∀ (s : State) (w : Nat) (i : Instr),
    w < 2 ^ 32 → decode (BitVec.ofNat 32 w) = .command i → step (s.withFetchWord 32 w) = exec i s)

/-- A word that no row of the opcode table matches, or DS_RESULT with OUTCOME 3, is an illegal word: it reports
ILLEGAL_CMD and changes nothing else (46_system.md R502, 30_encoding.md R145). -/
def Obligations.IllegalWordOnlyReports : Prop :=
  ∀ (s : State) (rest : List Event) (w : Word),
    rowsMatched w = 0 ∨ w = 0x00000352 → s.inputs = .hostWrite 0x004 w :: rest →
    ∃ t, step s = .next t ∧ EndsError 0x01 s t ∧ OnlyStatus { s with inputs := rest } t ∧ KeepsBytes s t

/-! ### UID unit (40_uid.md) -/

/-- The order of UIDs is the order of their 48-bit numbers, strict and total (40_uid.md R201). -/
def Obligations.UidOrderTotal : Prop :=
  ∀ a b : Uid,
    (a.lt b = true ↔ a.man.toNat < b.man.toNat ∨ (a.man = b.man ∧ a.dev.toNat < b.dev.toNat)) ∧
    (a.lt b = true ↔ a.u48 < b.u48) ∧
    (a.le b = true ↔ a.lt b = true ∨ a = b) ∧
    ((a.lt b = true ∧ a ≠ b ∧ ¬b.lt a = true) ∨ (¬a.lt b = true ∧ a = b ∧ ¬b.lt a = true) ∨
      (¬a.lt b = true ∧ a ≠ b ∧ b.lt a = true))

/-- UID_CMP writes LT, EQ and GT of A against B and keeps everything else (40_uid.md R205). -/
def Obligations.UidCompare : Prop :=
  ∀ s : State, ∃ t, exec .uidCmp s = .next t ∧ EndsDone s t ∧
    (t.uid.result.lt = true ↔ s.uid.a.u48 < s.uid.b.u48) ∧
    (t.uid.result.eq = true ↔ s.uid.a = s.uid.b) ∧
    (t.uid.result.gt = true ↔ s.uid.b.u48 < s.uid.a.u48) ∧
    t.uid = { s.uid with result :=
      { s.uid.result with lt := t.uid.result.lt, eq := t.uid.result.eq, gt := t.uid.result.gt } } ∧
    { t with status := s.status, uid := s.uid } = s ∧ KeepsBytes s t

/-- UID_CLASSIFY writes BCAST, BCAST_ALL, NULL, VALID and TARGET of A against SELF and keeps everything else (40_uid.md
R202-R204, R206). -/
def Obligations.UidClassify : Prop :=
  ∀ s : State, ∃ t, exec .uidClassify s = .next t ∧ EndsDone s t ∧
    (t.uid.result.bcast = true ↔ Broadcast s.uid.a) ∧
    (t.uid.result.bcastAll = true ↔ s.uid.a = ⟨0xFFFF, 0xFFFFFFFF⟩) ∧
    (t.uid.result.null = true ↔ s.uid.a = ⟨0, 0⟩) ∧
    (t.uid.result.valid = true ↔ s.uid.a.u48 < 0xFFFFFFFFFFFE ∧ ¬Broadcast s.uid.a) ∧
    (t.uid.result.target = true ↔ Targets s.uid.self s.uid.a) ∧
    t.uid = { s.uid with result :=
      { s.uid.result with
        bcast := t.uid.result.bcast, bcastAll := t.uid.result.bcastAll, null := t.uid.result.null,
        valid := t.uid.result.valid, target := t.uid.result.target } } ∧
    { t with status := s.status, uid := s.uid } = s ∧ KeepsBytes s t

/-! ### Codec (41_codec.md) -/

/-- The parser accepts exactly the texts of the token language whose record fits (30_encoding.md R170-R173, 41_codec.md
R232). -/
def Obligations.FormatLanguage : Prop :=
  ∀ (f : List Byte) (toks : List Token), parseString f = .ok toks ↔
    f.length ≤ 64 ∧ toks ≠ [] ∧ FinalLast toks ∧ wFixed toks + (if .v ∈ toks then 6 else 0) ≤ 231 ∧
      ∃ texts, List.Forall₂ TokenText toks texts ∧ f = texts.flatten

/-- The first offending token of a format string decides its error code (41_codec.md R232, 60_exceptions.md R523). -/
def Obligations.ParseReportsFirstOffender : Prop :=
  (∀ f : List Byte, 64 < f.length → parseString f = .error .pFmtLen) ∧
  parseString [] = .error .pEmpty ∧
  (∀ (toks : List Token) (texts : List (List Byte)), toks ≠ [] → FinalLast toks → List.Forall₂ TokenText toks texts →
    texts.flatten.length ≤ 64 → 231 < wFixed toks + (if .v ∈ toks then 6 else 0) →
    parseString texts.flatten = .error .pTooBig) ∧
  (∀ (toks : List Token) (texts : List (List Byte)), (∀ t ∈ toks, t ≠ .v ∧ t ≠ .avar) →
    List.Forall₂ TokenText toks texts →
    (∀ c r, (texts.flatten ++ c :: r).length ≤ 64 → c.toNat < 0x30 ∨ 0x39 < c.toNat →
      c ∉ ([0x62, 0x77, 0x64, 0x75, 0x76, 0x61, 0x23] : List Byte) →
      parseString (texts.flatten ++ c :: r) = .error .pUnknown) ∧
    (∀ c r, (texts.flatten ++ 0x61 :: c :: r).length ≤ 64 → c.toNat < 0x30 ∨ 0x39 < c.toNat →
      parseString (texts.flatten ++ 0x61 :: c :: r) = .error .pVarANotLast) ∧
    (∀ c r, (texts.flatten ++ 0x76 :: c :: r).length ≤ 64 →
      parseString (texts.flatten ++ 0x76 :: c :: r) = .error .pVNotLast) ∧
    (∀ ds r, (texts.flatten ++ 0x61 :: (decText ds ++ r)).length ≤ 64 → ds ≠ [] →
      (∀ c ∈ r.head?, c.toNat < 0x30 ∨ 0x39 < c.toNat) → decValue ds = 0 ∨ 231 < decValue ds →
      parseString (texts.flatten ++ 0x61 :: (decText ds ++ r)) = .error .pASize) ∧
    (∀ ds r, (texts.flatten ++ 0x23 :: (hexText ds ++ r)).length ≤ 64 →
      (∀ c ∈ r.head?, c ≠ 0x68 ∧ ∀ d, c ≠ hexChar d) →
      parseString (texts.flatten ++ 0x23 :: (hexText ds ++ r)) = .error .pLitUnterm) ∧
    (∀ ds r, (texts.flatten ++ 0x23 :: (hexText ds ++ 0x68 :: r)).length ≤ 64 → ds.length = 0 ∨ 16 < ds.length →
      parseString (texts.flatten ++ 0x23 :: (hexText ds ++ 0x68 :: r)) = .error .pLitSize))

/-- PD_PARSE reports the shape of a format string in TOK_INFO, exactly, and 0 with the parse's error otherwise (41_codec.md
R233, R235). -/
def Obligations.ParseReportsShape : Prop :=
  (∀ (s : State) (toks : List Token), parseFmt s = .ok toks →
    ∃ t, exec .pdParse s = .next t ∧ EndsDone s t ∧
      t.codec.tokInfo.tokens.toNat = toks.length ∧ toks.length ≤ 64 ∧
      t.codec.tokInfo.wFixed.toNat = wFixed toks ∧ wFixed toks ≤ 231 ∧
      (t.codec.tokInfo.hasV = true ↔ .v ∈ toks) ∧ (t.codec.tokInfo.hasVarA = true ↔ .avar ∈ toks) ∧
      (t.codec.tokInfo.litOnly = true ↔ ∀ tok ∈ toks, ∃ bytes, tok = .lit bytes) ∧
      t.codec.tokInfo.hFixed.toNat = hFixed toks ∧ hFixed toks ≤ 231 ∧
      hFixed toks + ((toks.filter Token.isLit).map Token.wsize).sum = wFixed toks + (if .v ∈ toks then 6 else 0) ∧
      t.codec = { s.codec with tokInfo := t.codec.tokInfo } ∧
      { t with status := s.status, codec := s.codec } = s ∧ KeepsBytes s t) ∧
  (∀ (s : State) (e : CmdError), parseFmt s = .error e →
    ∃ t, exec .pdParse s = .next t ∧ EndsError e.code s t ∧
      t.codec = { s.codec with tokInfo := ⟨0, 0, false, false, false, 0⟩ } ∧
      { t with status := s.status, codec := s.codec } = s ∧ KeepsBytes s t)

/-- A format string that the parser rejects, or a length beyond its buffer, makes PD_ENCODE and PD_DECODE write no byte
and leave TX_PDL alone (41_codec.md R242, R252, R261). -/
def Obligations.CodecErrorsWriteNothing : Prop :=
  (∀ (s : State) (code : Byte),
    (512 < s.codec.pdHostLen.toNat ∧ code = 0x19) ∨
      (s.codec.pdHostLen.toNat ≤ 512 ∧ ∃ e, parseFmt s = .error e ∧ code = e.code) →
    ∃ t, exec .pdEncode s = .next t ∧ EndsError code s t ∧
      t.codec = { s.codec with tokInfo := ⟨0, 0, false, false, false, 0⟩, pdLen := 0, hostCount := 0, records := 0 } ∧
      { t with status := s.status, codec := s.codec } = s ∧ KeepsBytes s t) ∧
  (∀ (s : State) (code : Byte),
    (512 < s.codec.pdHostLen.toNat ∧ code = 0x19) ∨
      (s.codec.pdHostLen.toNat ≤ 512 ∧ 231 < s.codec.pdLen.toNat ∧ code = 0x1A) ∨
      (s.codec.pdHostLen.toNat ≤ 512 ∧ s.codec.pdLen.toNat ≤ 231 ∧ ∃ e, parseFmt s = .error e ∧ code = e.code) →
    ∃ t, exec .pdDecode s = .next t ∧ EndsError code s t ∧
      t.codec = { s.codec with tokInfo := ⟨0, 0, false, false, false, 0⟩, hostCount := 0, records := 0 } ∧
      { t with status := s.status, codec := s.codec } = s ∧ KeepsBytes s t)

/-- PD_ENCODE writes at most 231 bytes, all of them in PD[0..PD_LEN), leaves every other byte alone, and sets TX_PDL to
the encoded length (41_codec.md R242, R243). -/
def Obligations.EncodeStaysInCap : Prop :=
  ∀ (s : State) (toks : List Token), s.codec.pdHostLen.toNat ≤ 512 → parseFmt s = .ok toks →
    ∃ t, exec .pdEncode s = .next t ∧ EndsDone s t ∧
      t.codec.pdLen.toNat ≤ 231 ∧ t.tx = { s.tx with pdl := t.codec.pdLen } ∧
      t.codec.hostCount.toNat ≤ s.codec.pdHostLen.toNat ∧
      t.codec = { s.codec with
        tokInfo := tokImage toks, pdLen := t.codec.pdLen, hostCount := t.codec.hostCount, records := t.codec.records } ∧
      KeepsBytesOutside 0x218 t.codec.pdLen.toNat s t ∧
      { t with status := s.status, codec := s.codec, tx := s.tx, mem := s.mem } = s

/-- PD_DECODE writes HOST[0..HOST_COUNT), within the room of PD_HOST_LEN, and nothing else in the buffers; PD_LEN, FRAME
and TX_PDL keep their values (41_codec.md R252). -/
def Obligations.DecodeStaysInRoom : Prop :=
  ∀ (s : State) (toks : List Token),
    s.codec.pdHostLen.toNat ≤ 512 → s.codec.pdLen.toNat ≤ 231 → parseFmt s = .ok toks →
    ∃ t, exec .pdDecode s = .next t ∧ EndsDone s t ∧
      t.codec.hostCount.toNat ≤ s.codec.pdHostLen.toNat ∧
      t.codec = { s.codec with
        tokInfo := tokImage toks, hostCount := t.codec.hostCount, records := t.codec.records } ∧
      KeepsBytesOutside 0x400 t.codec.hostCount.toNat s t ∧
      { t with status := s.status, codec := s.codec, mem := s.mem } = s

/-- The parser's bound never cuts a scan off, whatever the string, and the pass bound of 41_codec.md R234 never cuts a
loop off; no command counts more than 231 records (entry 14). -/
def Obligations.PassesBounded : Prop :=
  (∀ (f : List Byte) (more : Nat), parseTokens (f.length + more) none f = parseTokens f.length none f) ∧
  ∀ (f : List Byte) (toks : List Token) (m : Memory) (len cap more : Nat), parseString f = .ok toks →
    (len ≤ 512 →
      encodeLoop m toks len (passFuel + more) ⟨[], 0, 0⟩ = encodeLoop m toks len passFuel ⟨[], 0, 0⟩ ∧
      (encodeLoop m toks len passFuel ⟨[], 0, 0⟩).recs ≤ 231) ∧
    (len ≤ 231 → cap ≤ 512 →
      decodeLoop m toks len cap (passFuel + more) ⟨[], 0, 0⟩ = decodeLoop m toks len cap passFuel ⟨[], 0, 0⟩ ∧
      (decodeLoop m toks len cap passFuel ⟨[], 0, 0⟩).recs ≤ 231)

/-- A format of fixed fields encodes and decodes as many whole records as the input and the output hold, each field in
its byte order (41_codec.md R240-R242, R250-R252). -/
def Obligations.FixedRecords : Prop :=
  ∀ (s : State) (toks : List Token), parseFmt s = .ok toks → .v ∉ toks → .avar ∉ toks →
    (∃ tok ∈ toks, ∀ bytes, tok ≠ .lit bytes) → s.codec.pdHostLen.toNat ≤ 512 →
    (∃ t, exec .pdEncode s = .next t ∧ EndsDone s t ∧
      t.codec.records.toNat = min (s.codec.pdHostLen.toNat / hFixed toks) (231 / wFixed toks) ∧
      t.codec.hostCount.toNat = t.codec.records.toNat * hFixed toks ∧
      t.codec.pdLen.toNat = t.codec.records.toNat * wFixed toks ∧
      ∀ i, i < t.codec.records.toNat →
        t.memRead (0x218 + i * wFixed toks) (wFixed toks) =
          wireOf toks (s.memRead (0x400 + i * hFixed toks) (hFixed toks))) ∧
    (s.codec.pdLen.toNat ≤ 231 → ∃ t, exec .pdDecode s = .next t ∧ EndsDone s t ∧
      t.codec.records.toNat = min (s.codec.pdLen.toNat / wFixed toks) (s.codec.pdHostLen.toNat / hFixed toks) ∧
      t.codec.hostCount.toNat = t.codec.records.toNat * hFixed toks ∧
      ∀ i, i < t.codec.records.toNat →
        t.memRead (0x400 + i * hFixed toks) (hFixed toks) =
          hostOf toks (s.memRead (0x218 + i * wFixed toks) (wFixed toks)))

/-- The forms that FixedRecords leaves out. A literal-only format encodes one record whatever the input, and decodes one
record without comparing a byte when the wire is long enough, none when it is shorter. A final bare `a` makes one record:
it encodes all that remains up to its first zero and the room, and decodes all that remains up to the room, with a zero
behind it. A format with a final `v` encodes as many whole records as fit, each UID absent from the wire when it is null,
and decodes as many as fit, the last one with a null UID when the wire ends before its UID. Too little input or room makes
no record (41_codec.md R240-R242, R250-R252). -/
def Obligations.LiteralsBareTextAndOptionalUid : Prop :=
  (∀ (s : State) (toks : List Token), parseFmt s = .ok toks → (∀ tok ∈ toks, ∃ bytes, tok = .lit bytes) →
    s.codec.pdHostLen.toNat ≤ 512 →
    (∃ t, exec .pdEncode s = .next t ∧ EndsDone s t ∧ t.codec.records = 1 ∧ t.codec.hostCount = 0 ∧
      t.codec.pdLen.toNat = wFixed toks ∧ t.memRead 0x218 (wFixed toks) = wireOf toks []) ∧
    (s.codec.pdLen.toNat ≤ 231 → ∃ t, exec .pdDecode s = .next t ∧ EndsDone s t ∧
      t.codec.records = (if wFixed toks ≤ s.codec.pdLen.toNat then 1 else 0) ∧ t.codec.hostCount = 0 ∧
      KeepsBytes s t)) ∧
  (∀ (s : State) (pre : List Token), parseFmt s = .ok (pre ++ [.avar]) → s.codec.pdHostLen.toNat ≤ 512 →
    (0 < s.codec.pdHostLen.toNat → hFixed pre ≤ s.codec.pdHostLen.toNat →
      ∃ t, exec .pdEncode s = .next t ∧ EndsDone s t ∧ t.codec.records = 1 ∧ t.codec.hostCount = s.codec.pdHostLen ∧
        t.memRead 0x218 t.codec.pdLen.toNat =
          wireOf pre (s.memRead 0x400 (hFixed pre)) ++
            ((s.memRead (0x400 + hFixed pre) (s.codec.pdHostLen.toNat - hFixed pre)).takeWhile (· != 0)).take
              (231 - wFixed pre)) ∧
    (s.codec.pdHostLen = 0 ∨ s.codec.pdHostLen.toNat < hFixed pre →
      ∃ t, exec .pdEncode s = .next t ∧ EndsDone s t ∧ t.codec.records = 0 ∧ t.codec.hostCount = 0 ∧
        t.codec.pdLen = 0)) ∧
  (∀ (s : State) (pre : List Token), parseFmt s = .ok (pre ++ [.avar]) → s.codec.pdHostLen.toNat ≤ 512 →
    s.codec.pdLen.toNat ≤ 231 →
    (0 < s.codec.pdLen.toNat → wFixed pre ≤ s.codec.pdLen.toNat → hFixed pre + 1 ≤ s.codec.pdHostLen.toNat →
      ∃ t, exec .pdDecode s = .next t ∧ EndsDone s t ∧ t.codec.records = 1 ∧
        t.memRead 0x400 t.codec.hostCount.toNat =
          hostOf pre (s.memRead 0x218 (wFixed pre)) ++
            s.memRead (0x218 + wFixed pre)
              (min (s.codec.pdLen.toNat - wFixed pre) (s.codec.pdHostLen.toNat - hFixed pre - 1)) ++ [0]) ∧
    (s.codec.pdLen = 0 ∨ s.codec.pdLen.toNat < wFixed pre ∨ s.codec.pdHostLen.toNat < hFixed pre + 1 →
      ∃ t, exec .pdDecode s = .next t ∧ EndsDone s t ∧ t.codec.records = 0 ∧ t.codec.hostCount = 0)) ∧
  (∀ (s : State) (pre : List Token) (recs : List (List Byte)) (left : List Byte), parseFmt s = .ok (pre ++ [.v]) →
    s.codec.pdHostLen.toNat ≤ 512 → (∀ r ∈ recs, r.length = hFixed pre + 6) → left.length < hFixed pre + 6 →
    s.memRead 0x400 s.codec.pdHostLen.toNat = recs.flatten ++ left →
    ∃ t, exec .pdEncode s = .next t ∧ EndsDone s t ∧ t.codec.records.toNat ≤ recs.length ∧
      t.codec.hostCount.toNat = t.codec.records.toNat * (hFixed pre + 6) ∧ t.codec.pdLen.toNat ≤ 231 ∧
      t.memRead 0x218 t.codec.pdLen.toNat = (recs.take t.codec.records.toNat).flatMap (wireOf (pre ++ [.v])) ∧
      (t.codec.records.toNat < recs.length →
        231 < ((recs.take (t.codec.records.toNat + 1)).flatMap (wireOf (pre ++ [.v]))).length)) ∧
  (∀ (s : State) (pre : List Token), parseFmt s = .ok (pre ++ [.v]) → s.codec.pdHostLen.toNat ≤ 512 →
    s.codec.pdLen.toNat ≤ 231 →
    let size := wFixed pre + 6
    let whole := s.codec.pdLen.toNat / size
    let rest := s.codec.pdLen.toNat % size
    ∃ t, exec .pdDecode s = .next t ∧ EndsDone s t ∧
      t.codec.records.toNat =
        min (whole + if 0 < rest ∧ wFixed pre ≤ rest then 1 else 0) (s.codec.pdHostLen.toNat / (hFixed pre + 6)) ∧
      t.codec.hostCount.toNat = t.codec.records.toNat * (hFixed pre + 6) ∧
      ∀ i, i < t.codec.records.toNat →
        t.memRead (0x400 + i * (hFixed pre + 6)) (hFixed pre + 6) =
          hostOf pre (s.memRead (0x218 + i * size) (wFixed pre)) ++
            if i < whole then hostOf [.u] (s.memRead (0x218 + i * size + wFixed pre) 6) else List.replicate 6 0)

/-- Whole legal records that PD_ENCODE puts in PD come back out of PD_DECODE: the host bytes, their number and the record
count (41_codec.md R260). A record with no wire byte at all, an empty bare text alone, is left out: PD_DECODE reads no
record from an empty PD (R252). -/
def Obligations.RoundTrip : Prop :=
  ∀ (s : State) (toks : List Token) (recs : List (List Byte)), parseFmt s = .ok toks →
    (∀ r ∈ recs, LegalRecord toks r ∧ wireOf toks r ≠ []) →
    (.avar ∈ toks ∨ (∀ tok ∈ toks, ∃ bytes, tok = .lit bytes) → recs.length = 1) →
    s.codec.pdHostLen.toNat = recs.flatten.length → recs.flatten.length ≤ 512 →
    s.memRead 0x400 recs.flatten.length = recs.flatten → (recs.flatMap (wireOf toks)).length ≤ 231 →
    ∃ t, exec .pdEncode s = .next t ∧ EndsDone s t ∧ t.codec.records.toNat = recs.length ∧
      t.codec.hostCount.toNat = recs.flatten.length ∧
      t.codec.pdLen.toNat = (recs.flatMap (wireOf toks)).length ∧
      t.memRead 0x218 t.codec.pdLen.toNat = recs.flatMap (wireOf toks) ∧
      ∀ u : State, parseFmt u = .ok toks → u.codec.pdLen = t.codec.pdLen →
        u.memRead 0x218 u.codec.pdLen.toNat = t.memRead 0x218 t.codec.pdLen.toNat →
        recs.flatten.length ≤ u.codec.pdHostLen.toNat → u.codec.pdHostLen.toNat ≤ 512 →
        ∃ v, exec .pdDecode u = .next v ∧ EndsDone u v ∧ v.codec.records.toNat = recs.length ∧
          v.codec.hostCount.toNat = recs.flatten.length ∧
          v.memRead 0x400 recs.flatten.length = recs.flatten

/-! ### Framer (42_framer.md) -/

/-- FR_CHECKSUM sums a byte range of FRAME, or reports a range that leaves FRAME (42_framer.md R303). -/
def Obligations.ChecksumOfRange : Prop :=
  ∀ s : State,
    (s.framer.ckStart.toNat + s.framer.ckLen.toNat ≤ 260 →
      ∃ t, exec .frChecksum s = .next t ∧ EndsDone s t ∧
        t.framer.ckComputed.toNat = byteTotal (s.memRead (0x200 + s.framer.ckStart.toNat) s.framer.ckLen.toNat) ∧
        t.framer = { s.framer with ckComputed := t.framer.ckComputed } ∧
        { t with status := s.status, framer := s.framer } = s ∧ KeepsBytes s t) ∧
    (260 < s.framer.ckStart.toNat + s.framer.ckLen.toNat →
      ∃ t, exec .frChecksum s = .next t ∧ EndsError 0x27 s t ∧ OnlyStatus s t ∧ KeepsBytes s t)

/-- FR_ENCODE_REQ frames the TX registers: with TNSEL = 0 under TX_CTL0.TN, with TNSEL = 1 under TN_CTR, which advances
modulo 256; a PDL above 231 writes nothing (42_framer.md R300, R304). -/
def Obligations.EncodeRequestBuildsFrame : Prop :=
  ∀ (s : State) (tnsel : Bool),
    (s.tx.pdl.toNat ≤ 231 →
      ∃ t, exec (.frEncodeReq tnsel) s = .next t ∧ EndsDone s t ∧ Framed t.tx s t ∧
        t.tx = { s.tx with ctl0 := { s.tx.ctl0 with tn := if tnsel then s.tnCtr else s.tx.ctl0.tn } } ∧
        t.tnCtr.toNat = (if tnsel then (s.tnCtr.toNat + 1) % 256 else s.tnCtr.toNat) ∧
        { t with status := s.status, tx := s.tx, tnCtr := s.tnCtr, framer := s.framer, mem := s.mem } = s) ∧
    (231 < s.tx.pdl.toNat →
      ∃ t, exec (.frEncodeReq tnsel) s = .next t ∧ EndsError 0x20 s t ∧ OnlyStatus s t ∧ KeepsBytes s t)

/-- FR_ENCODE_RSP frames the response to the request in the RX registers and returns DP_STATE.STATE to IDLE (42_framer.md
R300, R305). -/
def Obligations.EncodeResponseBuildsFrame : Prop :=
  ∀ s : State,
    (s.tx.pdl.toNat ≤ 231 →
      ∃ t, exec .frEncodeRsp s = .next t ∧ EndsDone s t ∧ Framed t.tx s t ∧
        t.tx.dest = s.rx.src ∧ (s.config.rspSrcSelf = true → t.tx.src = s.uid.self) ∧
        (s.config.rspSrcSelf = false → t.tx.src = s.rx.dest) ∧
        t.tx.ctl0.tn = s.rx.ctl0.tn ∧ t.tx.ctl0.cc.toNat = (s.rx.ctl0.cc.toNat + 1) % 256 ∧
        t.tx.ctl0.portRt = s.tx.ctl0.portRt ∧ t.tx.ctl0.msgCount = s.tx.ctl0.msgCount ∧
        t.tx.ctl1 = s.rx.ctl1 ∧ t.tx.pdl = s.tx.pdl ∧
        t.dispatch = { s.dispatch with phase := .idle } ∧
        { t with
          status := s.status, tx := s.tx, framer := s.framer, dispatch := s.dispatch, mem := s.mem } = s) ∧
    (231 < s.tx.pdl.toNat →
      ∃ t, exec .frEncodeRsp s = .next t ∧ EndsError 0x20 s t ∧ OnlyStatus s t ∧ KeepsBytes s t)

/-- FR_DECODE of a valid frame loads the RX registers, PD_LEN, CK_RESULT and FRAME_VALID from its bytes. Of anything else it
reports the first check that fails, clears FRAME_VALID and keeps the RX registers and PD_LEN; only a checksum failure
writes CK_RESULT (42_framer.md R307, R308). -/
def Obligations.FrameDecode : Prop :=
  (∀ s : State, ValidFrame s →
    ∃ t, exec .frDecode s = .next t ∧ EndsDone s t ∧
      t.rx.dest = ⟨frameByte s 3 ++ frameByte s 4,
        frameByte s 5 ++ frameByte s 6 ++ frameByte s 7 ++ frameByte s 8⟩ ∧
      t.rx.src = ⟨frameByte s 9 ++ frameByte s 10,
        frameByte s 11 ++ frameByte s 12 ++ frameByte s 13 ++ frameByte s 14⟩ ∧
      t.rx.ctl0 = ⟨frameByte s 15, frameByte s 16, frameByte s 17, frameByte s 20⟩ ∧
      t.rx.ctl1 = ⟨frameByte s 18 ++ frameByte s 19, frameByte s 21 ++ frameByte s 22⟩ ∧
      t.rx.pdl = frameByte s 23 ∧ t.codec = { s.codec with pdLen := frameByte s 23 } ∧
      t.framer.ckComputed.toNat = byteTotal (s.memRead 0x200 (frameByte s 2).toNat) ∧
      t.framer.ckReceived = t.framer.ckComputed ∧
      t.framer = { s.framer with
        frameValid := true, ckComputed := t.framer.ckComputed, ckReceived := t.framer.ckReceived } ∧
      { t with status := s.status, rx := s.rx, codec := s.codec, framer := s.framer } = s ∧ KeepsBytes s t) ∧
  ∀ s : State, ¬ValidFrame s →
    let n := s.framer.rxLen.toNat
    let ml := (frameByte s 2).toNat
    let code : Byte :=
      if 260 < n then 0x21 else if n < 26 then 0x22 else if frameByte s 0 ≠ 0xCC then 0x23
      else if frameByte s 1 ≠ 0x01 then 0x24 else if ml ≠ 24 + (frameByte s 23).toNat then 0x25
      else if n < ml + 2 then 0x22 else 0x26
    ∃ t, exec .frDecode s = .next t ∧ EndsError code s t ∧
      (code ≠ 0x26 → t.framer = { s.framer with frameValid := false }) ∧
      (code = 0x26 → t.framer.ckComputed.toNat = byteTotal (s.memRead 0x200 ml) ∧
        t.framer.ckReceived = frameByte s ml ++ frameByte s (ml + 1) ∧
        t.framer = { s.framer with
          frameValid := false, ckComputed := t.framer.ckComputed, ckReceived := t.framer.ckReceived }) ∧
      { t with status := s.status, framer := s.framer } = s ∧ KeepsBytes s t

/-- Flipping any one bit of a frame that FR_DECODE accepts makes FR_DECODE reject it: a flip in a start code fails that
check, one in the message length or PDL the length check, and every other one the checksum (42_framer.md R309). -/
def Obligations.SingleBitFlipRejected : Prop :=
  ∀ (s u : State) (i k : Nat), ValidFrame s → s.framer.rxLen.toNat = (frameByte s 2).toNat + 2 →
    i < (frameByte s 2).toNat + 2 → k < 8 → u.framer.rxLen = s.framer.rxLen →
    (∀ j, j < (frameByte s 2).toNat + 2 →
      frameByte u j = if j = i then frameByte s j ^^^ BitVec.ofNat 8 (2 ^ k) else frameByte s j) →
    ∃ t, exec .frDecode u = .next t ∧ t.framer.frameValid = false ∧ t.rx = u.rx ∧
      EndsError (if i = 0 then 0x23 else if i = 1 then 0x24 else if i = 2 ∨ i = 23 then 0x25 else 0x26) u t

/-- The frame that FR_ENCODE_REQ or FR_ENCODE_RSP builds is a frame that FR_DECODE accepts, and the RX registers and
PD_LEN it loads are the TX registers that were framed (42_framer.md R300, R304, R305, R307). -/
def Obligations.RequestFrameDecodes : Prop :=
  ∀ (s t u : State) (i : Instr), (∃ tnsel, i = .frEncodeReq tnsel) ∨ i = .frEncodeRsp → s.tx.pdl.toNat ≤ 231 →
    exec i s = .next t → (∀ j, j < 26 + s.tx.pdl.toNat → frameByte u j = frameByte t j) →
    u.framer.rxLen = t.framer.frameLen →
    ∃ v, exec .frDecode u = .next v ∧ EndsDone u v ∧ v.rx = t.tx ∧ v.codec.pdLen = t.tx.pdl ∧
      v.framer.frameValid = true

/-- FR_DISC_ENCODE builds the discovery response of SELF behind NPRE preamble bytes (30_encoding.md R163, 42_framer.md
R310, R311). -/
def Obligations.DiscEncodeResponse : Prop :=
  ∀ (s : State) (npre : BitVec 3),
    ∃ t, exec (.frDiscEncode npre) s = .next t ∧ EndsDone s t ∧
      (∀ i, i < npre.toNat → discByte t i = 0xFE) ∧ discByte t npre.toNat = 0xAA ∧
      (∀ i, i < 6 → discByte t (npre.toNat + 1 + 2 * i) = (wireUid s.uid.self).getD i 0 ||| 0xAA ∧
        discByte t (npre.toNat + 2 + 2 * i) = (wireUid s.uid.self).getD i 0 ||| 0x55) ∧
      t.framer.ckComputed.toNat = discTotal t npre.toNat ∧
      (∀ i, i < 2 → discByte t (npre.toNat + 13 + 2 * i) = (wireHalf t.framer.ckComputed).getD i 0 ||| 0xAA ∧
        discByte t (npre.toNat + 14 + 2 * i) = (wireHalf t.framer.ckComputed).getD i 0 ||| 0x55) ∧
      t.disc.len.toNat = npre.toNat + 17 ∧ t.disc = { s.disc with len := t.disc.len } ∧
      t.framer = { s.framer with ckComputed := t.framer.ckComputed } ∧
      KeepsBytesOutside 0x640 (npre.toNat + 17) s t ∧
      { t with status := s.status, disc := s.disc, framer := s.framer, mem := s.mem } = s

/-- FR_DISC_DECODE of a complete response whose masks and checksum hold writes DISC_UID, VALID, DELIM_POS and CK_RESULT.
Of anything else it reports the first check that fails and clears VALID; DELIM_POS and CK_RESULT change only where the
check comes after them, DISC_UID never (42_framer.md R321). -/
def Obligations.DiscoveryResponseDecode : Prop :=
  (∀ (s : State) (p : Nat), s.disc.len.toNat ≤ 24 → DelimAt s p → p + 17 ≤ s.disc.len.toNat → MasksHold s p →
    discTotal s p = (discRaw s p 6 ++ discRaw s p 7).toNat →
    ∃ t, exec .frDiscDecode s = .next t ∧ EndsDone s t ∧
      t.disc = { s.disc with
        valid := true, delimPos := BitVec.ofNat 3 p,
        uid := ⟨discRaw s p 0 ++ discRaw s p 1, discRaw s p 2 ++ discRaw s p 3 ++ discRaw s p 4 ++ discRaw s p 5⟩ } ∧
      t.framer = { s.framer with
        ckComputed := BitVec.ofNat 16 (discTotal s p), ckReceived := discRaw s p 6 ++ discRaw s p 7 } ∧
      { t with status := s.status, disc := s.disc, framer := s.framer } = s ∧ KeepsBytes s t) ∧
  (∀ (s : State) (code : Byte),
    (24 < s.disc.len.toNat ∧ code = 0x29) ∨ (s.disc.len.toNat = 0 ∧ code = 0x28) ∨
      (0 < s.disc.len.toNat ∧ s.disc.len.toNat ≤ 24 ∧ (∀ p, ¬DelimAt s p) ∧ code = 0x2A) →
    ∃ t, exec .frDiscDecode s = .next t ∧ EndsError code s t ∧ t.disc = { s.disc with valid := false } ∧
      { t with status := s.status, disc := s.disc } = s ∧ KeepsBytes s t) ∧
  (∀ (s : State) (p : Nat) (code : Byte), s.disc.len.toNat ≤ 24 → DelimAt s p →
    (s.disc.len.toNat < p + 17 ∧ code = 0x2B) ∨
      (p + 17 ≤ s.disc.len.toNat ∧ ¬MasksHold s p ∧ code = 0x2C) →
    ∃ t, exec .frDiscDecode s = .next t ∧ EndsError code s t ∧
      t.disc = { s.disc with valid := false, delimPos := BitVec.ofNat 3 p } ∧
      { t with status := s.status, disc := s.disc } = s ∧ KeepsBytes s t) ∧
  (∀ (s : State) (p : Nat), s.disc.len.toNat ≤ 24 → DelimAt s p → p + 17 ≤ s.disc.len.toNat → MasksHold s p →
    discTotal s p ≠ (discRaw s p 6 ++ discRaw s p 7).toNat →
    ∃ t, exec .frDiscDecode s = .next t ∧ EndsError 0x2D s t ∧
      t.disc = { s.disc with valid := false, delimPos := BitVec.ofNat 3 p } ∧
      t.framer = { s.framer with
        ckComputed := BitVec.ofNat 16 (discTotal s p), ckReceived := discRaw s p 6 ++ discRaw s p 7 } ∧
      { t with status := s.status, disc := s.disc, framer := s.framer } = s ∧ KeepsBytes s t)

/-- The response that FR_DISC_ENCODE builds is one that FR_DISC_DECODE accepts, with SELF as its UID and the delimiter
behind the preamble (42_framer.md R310, R320, R321). -/
def Obligations.DiscoveryResponseDecodes : Prop :=
  ∀ (s t u : State) (npre : BitVec 3), exec (.frDiscEncode npre) s = .next t →
    (∀ i, i < npre.toNat + 17 → discByte u i = discByte t i) → u.disc.len = t.disc.len →
    ∃ v, exec .frDiscDecode u = .next v ∧ EndsDone u v ∧ v.disc.valid = true ∧ v.disc.uid = s.uid.self ∧
      v.disc.delimPos = npre

/-! ### Timing controller (43_timing.md) -/

/-- TM_STAMP records NOW, the category and the kind; TM_SETCAT the category alone; either rejects the categories 5 to 7 and
then writes nothing (43_timing.md R374, R375). -/
def Obligations.StampAndSetCategory : Prop :=
  (∀ (s : State) (cat : BitVec 3) (kind : BitVec 2), cat.toNat ≤ 4 →
    ∃ t, exec (.tmStamp cat kind) s = .next t ∧ EndsDone s t ∧
      t.timing.lastTs = s.now ∧ t.timing.lastCat.code = cat ∧ t.timing.lastKind.code = kind ∧
      t.timing = { s.timing with
        lastTs := t.timing.lastTs, lastCat := t.timing.lastCat, lastKind := t.timing.lastKind } ∧
      { t with status := s.status, timing := s.timing } = s ∧ KeepsBytes s t) ∧
  (∀ (s : State) (cat : BitVec 3), cat.toNat ≤ 4 →
    ∃ t, exec (.tmSetcat cat) s = .next t ∧ EndsDone s t ∧ t.timing.lastCat.code = cat ∧
      t.timing = { s.timing with lastCat := t.timing.lastCat } ∧
      { t with status := s.status, timing := s.timing } = s ∧ KeepsBytes s t) ∧
  (∀ (s : State) (cat : BitVec 3) (kind : BitVec 2) (i : Instr), 4 < cat.toNat →
    i = .tmStamp cat kind ∨ i = .tmSetcat cat →
    ∃ t, exec i s = .next t ∧ EndsError 0x30 s t ∧ OnlyStatus s t ∧ KeepsBytes s t)

/-- TM_GAP_CHECK compares the time since LAST_TS, modulo 2^64, with the gap of the last category, and arms the alarm for
the remaining delta when the gap is short (43_timing.md R370, R376). -/
def Obligations.GapCheck : Prop :=
  ∀ s : State,
    let el := (s.now.toNat + 2 ^ 64 - s.timing.lastTs.toNat) % 2 ^ 64
    let g := requiredGap s.timing.lastCat
    ∃ t, exec .tmGapCheck s = .next t ∧ EndsDone s t ∧
      t.timing.elapsed.toNat = min el (2 ^ 32 - 1) ∧ t.timing.reqGap.toNat = g ∧
      (g ≤ el → t.timing.ready = true ∧ t.timing.remain = 0 ∧
        t.timing = { s.timing with
          ready := true, remain := 0, elapsed := t.timing.elapsed, reqGap := t.timing.reqGap }) ∧
      (el < g → t.timing.remain.toNat = g - el ∧
        t.timing.alarmAt.toNat = (s.timing.lastTs.toNat + g) % 2 ^ 64 ∧
        t.timing = { s.timing with
          ready := false, armed := true, early := false, remain := t.timing.remain, alarmAt := t.timing.alarmAt,
          elapsed := t.timing.elapsed, reqGap := t.timing.reqGap }) ∧
      { t with status := s.status, timing := s.timing } = s ∧ KeepsBytes s t

/-- TM_RESP_WAIT arms the response-lost alarm when it is enabled, the last event was a request or a branch, and no data
has arrived; otherwise it clears RW_ARMED alone. TM_CANCEL disarms the alarm and keeps ALARM_AT and a pending ALARM
(43_timing.md R381, R382). -/
def Obligations.ResponseWaitAndCancel : Prop :=
  (∀ (s : State) (rxd : Bool), ∃ t, exec (.tmRespWait rxd) s = .next t ∧ EndsDone s t ∧
    (s.config.earlyEn = true ∧ (s.timing.lastKind.code = 1 ∨ s.timing.lastKind.code = 2) ∧ rxd = false →
      t.timing.alarmAt.toNat = (s.timing.lastTs.toNat + 2800) % 2 ^ 64 ∧
      t.timing = { s.timing with alarmAt := t.timing.alarmAt, armed := true, early := true, rwArmed := true }) ∧
    (¬(s.config.earlyEn = true ∧ (s.timing.lastKind.code = 1 ∨ s.timing.lastKind.code = 2) ∧ rxd = false) →
      t.timing = { s.timing with rwArmed := false }) ∧
    { t with status := s.status, timing := s.timing } = s ∧ KeepsBytes s t) ∧
  ∀ s : State, ∃ t, exec .tmCancel s = .next t ∧ EndsDone s t ∧
    t.timing = { s.timing with armed := false, early := false } ∧
    { t with status := s.status, timing := s.timing } = s ∧ KeepsBytes s t

/-- A turn of the alarm agent when the alarm is armed and NOW has reached the deadline fires: ARMED falls, IRQ_PEND.ALARM
rises, EARLY stays, so that it cannot fire again until it is armed again (43_timing.md R385). -/
def Obligations.AlarmFiresWhenDue : Prop :=
  ∀ (s : State) (rest : List Event), s.inputs = .alarm :: rest → s.timing.armed = true →
    s.timing.alarmAt.toNat ≤ s.now.toNat →
    ∃ t, step s = .next t ∧ t.timing = { s.timing with armed := false } ∧
      (∀ b, b < 5 → t.irqPend.getLsbD b = (s.irqPend.getLsbD b || b == 0)) ∧
      { t with timing := s.timing, irqPend := s.irqPend } = { s with inputs := rest } ∧ KeepsBytes s t

/-- The other turns of the agents: NOW grows modulo 2^64 and nothing else changes (43_timing.md R372); a turn of the alarm
agent that is not enabled changes nothing, and with no step placed the alarm agent steps if it is enabled and nothing
changes otherwise, an armed alarm that is not due included (the model's choice, entries 2 and 3). -/
def Obligations.AgentTurns : Prop :=
  (∀ (s : State) (rest : List Event) (k : Nat) (h : 0 < k), s.inputs = .tick k h :: rest →
    ∃ t, step s = .next t ∧ t.now.toNat = (s.now.toNat + k) % 2 ^ 64 ∧
      { t with now := s.now } = { s with inputs := rest } ∧ KeepsBytes s t) ∧
  (∀ (s : State) (rest : List Event), s.inputs = .alarm :: rest →
    ¬(s.timing.armed = true ∧ s.timing.alarmAt.toNat ≤ s.now.toNat) → step s = .next { s with inputs := rest }) ∧
  (∀ s : State, s.inputs = [] → s.timing.armed = true → s.timing.alarmAt.toNat ≤ s.now.toNat →
    ∃ t, step s = .next t ∧ t.timing.armed = false ∧ t.irqPend.getLsbD 0 = true) ∧
  (∀ s : State, s.inputs = [] → ¬(s.timing.armed = true ∧ s.timing.alarmAt.toNat ≤ s.now.toNat) → step s = .next s) ∧
  (∀ s : State, s.inputs = [] → Quiescent s → step s = .next s)

/-! ### Dispatch unit (44_dispatch.md) -/

/-- Lookup answers the VALID entry of least index with the PID, and Supports reads the bit of the request's class
(44_dispatch.md R423). -/
def Obligations.LookupLowestIndex : Prop :=
  ∀ (s : State) (pid : Half),
    (∀ e, lookupPid s pid = some e ↔ FirstEntry s pid e) ∧
    (lookupPid s pid = none ↔ ∀ i : Fin 64, ¬(s.pidTable[i].valid = true ∧ s.pidTable[i].pid = pid)) ∧
    ∀ (e : PidEntry) (cc : Byte), e.supports cc = true ↔ EntrySupports e cc

/-- DP_VALIDATE decides by the first failing step of 44_dispatch.md R422, clears the old decision and keeps FAULT; without
an accepted frame it reports SEQ_ERR and writes nothing. -/
def Obligations.ValidateDecides : Prop :=
  (∀ s : State, s.framer.frameValid = false →
    ∃ t, exec .dpValidate s = .next t ∧ EndsError 0x02 s t ∧ OnlyStatus s t ∧ KeepsBytes s t) ∧
  (∀ s : State, s.framer.frameValid = true →
    let d := { s.dispatch with
      action := .none, suppressed := false, nacked := false, notTarget := false, nackReason := 0 }
    ∃ t, exec .dpValidate s = .next t ∧ EndsDone s t ∧
      { t with status := s.status, dispatch := s.dispatch, tx := s.tx, mem := s.mem } = s ∧
      (¬Targets s.uid.self s.rx.dest →
        t.dispatch = { d with notTarget := true, phase := .suppressed } ∧ t.tx = s.tx ∧ KeepsBytes s t) ∧
      (Targets s.uid.self s.rx.dest →
        (¬FormatOk s → NackDecided 0x0001 d s t) ∧
        (FormatOk s →
          ((∀ e, ¬FirstEntry s s.rx.ctl1.pid e) → NackDecided 0x0000 d s t) ∧
          ∀ e, FirstEntry s s.rx.ctl1.pid e →
            (¬EntrySupports e s.rx.ctl0.cc → NackDecided 0x0005 d s t) ∧
            (EntrySupports e s.rx.ctl0.cc →
              (SubDeviceBad s → NackDecided 0x0009 d s t) ∧
              (¬SubDeviceBad s →
                t.dispatch = { d with phase := .validating, action := .callHandler } ∧ t.tx = s.tx ∧
                  KeepsBytes s t)))))

/-- DP_CHECK decides on the handler's output by 44_dispatch.md R431; outside VALIDATING it reports SEQ_ERR and writes
nothing. -/
def Obligations.CheckDecides : Prop :=
  (∀ s : State, s.dispatch.phase ≠ .validating →
    ∃ t, exec .dpCheck s = .next t ∧ EndsError 0x02 s t ∧ OnlyStatus s t ∧ KeepsBytes s t) ∧
  (∀ s : State, s.dispatch.phase = .validating →
    let rt := s.dispatch.handlerRt
    let len := s.dispatch.handlerLen.toNat
    let violation := 231 < len ∨ rt ∉ ([0x00, 0x01, 0x02, 0x03, 0xFF] : List Byte) ∨
      (s.rx.ctl0.cc = 0x10 ∧ rt ≠ 0x00 ∧ rt ≠ 0xFF)
    let d := if rt = 0x02 then
        { s.dispatch with nacked := true, nackReason := if 2 ≤ len then frameByte s 24 ++ frameByte s 25 else 0 }
      else s.dispatch
    ∃ t, exec .dpCheck s = .next t ∧ EndsDone s t ∧
      { t with status := s.status, irqPend := s.irqPend, dispatch := s.dispatch, tx := s.tx, mem := s.mem } = s ∧
      (violation → NackDecided 0x0002 { s.dispatch with fault := true } s t ∧
        ∀ b, b < 5 → t.irqPend.getLsbD b = (s.irqPend.getLsbD b || b == 4)) ∧
      (¬violation → t.irqPend = s.irqPend ∧ KeepsBytes s t ∧
        (rt = 0xFF → t.dispatch = { s.dispatch with action := .none, phase := .suppressed } ∧ t.tx = s.tx) ∧
        (rt ≠ 0xFF → SuppressHolds s (rt == 0x02) →
          t.dispatch = { d with suppressed := true, action := .none, phase := .suppressed } ∧ t.tx = s.tx) ∧
        (rt ≠ 0xFF → ¬SuppressHolds s (rt == 0x02) →
          t.dispatch = { d with action := .send, phase := .answering } ∧
          t.tx.pdl.toNat = len ∧
          t.tx = { s.tx with ctl0 := { s.tx.ctl0 with portRt := rt }, pdl := t.tx.pdl })))

/-- A decision of either command sends only what step 7 lets through, a discovery request is never answered but by an ACK,
and sub-device 0xFFFF reaches the handler for a SET and never for a GET (44_dispatch.md R435). -/
def Obligations.FinalDecisions : Prop :=
  (∀ s t : State, s.framer.frameValid = true → exec .dpValidate s = .next t →
    (t.dispatch.action = .send ∨ t.dispatch.action = .none ∨ t.dispatch.action = .callHandler) ∧
    (t.dispatch.action = .send → t.dispatch.nacked = true ∧ ¬SuppressHolds s true) ∧
    (s.rx.ctl0.cc = 0x10 → t.dispatch.action ≠ .send)) ∧
  (∀ s t : State, s.dispatch.phase = .validating → exec .dpCheck s = .next t →
    (t.dispatch.action = .send ∨ t.dispatch.action = .none) ∧
    (t.dispatch.action = .send → ¬SuppressHolds s (t.tx.ctl0.portRt == 0x02)) ∧
    (s.rx.ctl0.cc = 0x10 → t.dispatch.action = .send → t.tx.ctl0.portRt = 0x00)) ∧
  (∀ (s t : State) (e : PidEntry), s.framer.frameValid = true → exec .dpValidate s = .next t →
    Targets s.uid.self s.rx.dest → FormatOk s → FirstEntry s s.rx.ctl1.pid e → EntrySupports e s.rx.ctl0.cc →
    s.rx.ctl1.subDevice = 0xFFFF →
    (s.rx.ctl0.cc = 0x30 → t.dispatch.action = .callHandler) ∧
    (s.rx.ctl0.cc = 0x20 → t.dispatch.nacked = true ∧ t.dispatch.nackReason = 0x0009))

/-! ### Discovery engine (45_discovery.md) -/

/-- DS_INIT starts a discovery of the full range, from any state (45_discovery.md R463). -/
def Obligations.DiscoveryStarts : Prop :=
  ∀ s : State, ∃ t, exec .dsInit s = .next t ∧ EndsDone s t ∧
    t.discovery.phase = .ready ∧ t.discovery.stack = [⟨⟨0, 0⟩, ⟨0xFFFF, 0xFFFFFFFE⟩⟩] ∧
    t.discovery.flags = ⟨false, false, false, false, false, false⟩ ∧
    t.discovery.foundCount = 0 ∧ t.discovery.anomCount = 0 ∧ t.discovery.lower = ⟨0, 0⟩ ∧
    t.discovery.upper = ⟨0, 0⟩ ∧ t.discovery.found = ⟨0, 0⟩ ∧ t.discovery.anom = ⟨0, 0⟩ ∧
    { t with status := s.status, discovery := s.discovery } = s ∧ KeepsBytes s t

/-- DS_NEXT pops the next range and prepares its DISC_UNIQUE_BRANCH request, ends the discovery on an empty stack, does
nothing when it is done, and reports SEQ_ERR in IDLE and WAIT (45_discovery.md R470). -/
def Obligations.NextBranch : Prop :=
  (∀ s : State, s.discovery.phase = .idle ∨ s.discovery.phase = .wait →
    ∃ t, exec .dsNext s = .next t ∧ EndsError 0x02 s t ∧ OnlyStatus s t ∧ KeepsBytes s t) ∧
  (∀ s : State, s.discovery.phase = .done →
    ∃ t, exec .dsNext s = .next t ∧ EndsDone s t ∧ OnlyStatus s t ∧ KeepsBytes s t) ∧
  (∀ s : State, s.discovery.phase = .ready → s.discovery.stack = [] →
    ∃ t, exec .dsNext s = .next t ∧ EndsDone s t ∧ t.discovery = { s.discovery with phase := .done } ∧
      (∀ b, b < 5 → t.irqPend.getLsbD b = (s.irqPend.getLsbD b || b == 2)) ∧
      { t with status := s.status, irqPend := s.irqPend, discovery := s.discovery } = s ∧ KeepsBytes s t) ∧
  (∀ (s : State) (r : Range) (rest : List Range), s.discovery.phase = .ready → s.discovery.stack = r :: rest →
    ∃ t, exec .dsNext s = .next t ∧ EndsDone s t ∧
      t.discovery = { s.discovery with phase := .wait, lower := r.lo, upper := r.hi, stack := rest } ∧
      t.tx = { dest := ⟨0xFFFF, 0xFFFFFFFF⟩, src := s.uid.self,
               ctl0 := { tn := s.tx.ctl0.tn, portRt := s.portId, msgCount := 0, cc := 0x10 },
               ctl1 := { subDevice := 0, pid := 0x0001 }, pdl := 12 } ∧
      t.codec = { s.codec with pdLen := 12 } ∧ t.memRead 0x218 12 = wireUid r.lo ++ wireUid r.hi ∧
      KeepsBytesOutside 0x218 12 s t ∧
      { t with status := s.status, discovery := s.discovery, tx := s.tx, codec := s.codec, mem := s.mem } = s)

/-- DS_RESULT outside WAIT reports SEQ_ERR; a branch that nobody answered only discards its range (45_discovery.md R471,
R472). Outcome 3, which has no legal word, acts as an illegal word does (the model's choice, entry 13). -/
def Obligations.EmptyBranchDiscarded : Prop :=
  (∀ (s : State) (o : BitVec 2), o ≠ 3 → s.discovery.phase ≠ .wait →
    ∃ t, exec (.dsResult o) s = .next t ∧ EndsError 0x02 s t ∧ OnlyStatus s t ∧ KeepsBytes s t) ∧
  (∀ (s : State) (o : BitVec 2), s.discovery.phase = .wait →
    o = 0 ∨ (o = 1 ∧ s.disc.valid = false ∧ s.disc.len = 0) →
    ∃ t, exec (.dsResult o) s = .next t ∧ EndsDone s t ∧
      t.discovery = { s.discovery with phase := .ready, flags := ⟨false, false, false, false, false, false⟩ } ∧
      { t with status := s.status, discovery := s.discovery } = s ∧ KeepsBytes s t) ∧
  (∀ s : State, ∃ t, exec (.dsResult 3) s = .next t ∧ EndsError 0x01 s t ∧ OnlyStatus s t ∧ KeepsBytes s t)

/-- One valid response: DS_RESULT counts and reports the device, raises DS_FOUND, prepares the DISC_MUTE request to it, and
with DS_RECHECK pushes the range again (45_discovery.md R472, R474). -/
def Obligations.DeviceFound : Prop :=
  ∀ s : State, s.discovery.phase = .wait → s.disc.valid = true →
    let u := s.disc.uid
    let r : Range := ⟨s.discovery.lower, s.discovery.upper⟩
    ∃ t, exec (.dsResult 1) s = .next t ∧ EndsDone s t ∧
      t.discovery.phase = .ready ∧ t.discovery.flags.found = true ∧
      (t.discovery.flags.outOfRange = true ↔ ¬r.Holds u) ∧
      t.discovery.foundCount.toNat = (s.discovery.foundCount.toNat + 1) % 2 ^ 32 ∧
      t.discovery = { s.discovery with
        phase := .ready, flags := ⟨true, t.discovery.flags.outOfRange, false, false, false, false⟩,
        foundCount := t.discovery.foundCount, found := u,
        stack := if s.config.dsRecheck then r :: s.discovery.stack else s.discovery.stack } ∧
      (∀ b, b < 5 → t.irqPend.getLsbD b = (s.irqPend.getLsbD b || b == 1)) ∧
      t.tx = { dest := u, src := s.uid.self,
               ctl0 := { tn := s.tx.ctl0.tn, portRt := s.portId, msgCount := 0, cc := 0x10 },
               ctl1 := { subDevice := 0, pid := 0x0002 }, pdl := 0 } ∧
      t.codec = { s.codec with pdLen := 0 } ∧ KeepsBytes s t ∧
      { t with
        status := s.status, irqPend := s.irqPend, discovery := s.discovery, tx := s.tx, codec := s.codec } = s

/-- A collision: DS_RESULT splits a range of several UIDs at its midpoint, lower half on top; reports a single UID as an
anomaly; and would report S_OVERFLOW, the range lost, on a full stack (45_discovery.md R464, R465, R472, R476). -/
def Obligations.CollisionSplitsOrReports : Prop :=
  ∀ (s : State) (o : BitVec 2), s.discovery.phase = .wait →
    o = 2 ∨ (o = 1 ∧ s.disc.valid = false ∧ s.disc.len ≠ 0) →
    let lo := s.discovery.lower
    let hi := s.discovery.upper
    let m := lo.u48 + (hi.u48 - lo.u48) / 2
    (lo.u48 < hi.u48 → s.discovery.stack.length + 2 ≤ 49 →
      ∃ t, exec (.dsResult o) s = .next t ∧ EndsDone s t ∧
        (∃ mid next : Uid, mid.u48 = m ∧ next.u48 = m + 1 ∧
          t.discovery = { s.discovery with
            phase := .ready, flags := ⟨false, false, true, true, false, false⟩,
            stack := ⟨lo, mid⟩ :: ⟨next, hi⟩ :: s.discovery.stack }) ∧
        { t with status := s.status, discovery := s.discovery } = s ∧ KeepsBytes s t) ∧
    (lo.u48 < hi.u48 → 49 < s.discovery.stack.length + 2 →
      ∃ t, exec (.dsResult o) s = .next t ∧ EndsError 0x50 s t ∧
        t.discovery = { s.discovery with phase := .ready, flags := ⟨false, false, true, false, false, true⟩ } ∧
        { t with status := s.status, discovery := s.discovery } = s ∧ KeepsBytes s t) ∧
    (hi.u48 ≤ lo.u48 →
      ∃ t, exec (.dsResult o) s = .next t ∧ EndsDone s t ∧
        t.discovery.anomCount.toNat = (s.discovery.anomCount.toNat + 1) % 2 ^ 32 ∧
        t.discovery = { s.discovery with
          phase := .ready, flags := ⟨false, false, true, false, true, false⟩, anomCount := t.discovery.anomCount,
          anom := lo } ∧
        (∀ b, b < 5 → t.irqPend.getLsbD b = (s.irqPend.getLsbD b || b == 3)) ∧
        { t with status := s.status, irqPend := s.irqPend, discovery := s.discovery } = s ∧ KeepsBytes s t)

/-- The two halves of a range are non-empty and disjoint, together they are the range, and their sizes are the two halves
of its size, the lower rounded up (45_discovery.md R464). -/
def Obligations.SplitPartitionsRange : Prop :=
  ∀ r : Range, r.lo.u48 < r.hi.u48 →
    let size := fun q : Range => q.hi.u48 - q.lo.u48 + 1
    r.lowerHalf.lo.u48 ≤ r.lowerHalf.hi.u48 ∧ r.upperHalf.lo.u48 ≤ r.upperHalf.hi.u48 ∧
    r.mid.u48 = r.lo.u48 + (r.hi.u48 - r.lo.u48) / 2 ∧
    (∀ u : Uid, r.Holds u ↔ r.lowerHalf.Holds u ∨ r.upperHalf.Holds u) ∧
    (∀ u : Uid, ¬(r.lowerHalf.Holds u ∧ r.upperHalf.Holds u)) ∧
    size r.lowerHalf = (size r + 1) / 2 ∧ size r.upperHalf = size r / 2

/-- Every step keeps the discovery stack and the outstanding range small enough to finish without an overflow; where they
are, the stack has at most 49 ranges and no command reports S_OVERFLOW (10_state.md R51, 45_discovery.md R466). -/
def Obligations.StepKeepsDiscoveryFits : Prop :=
  (∀ s t : State, discoveryFits s = true → step s = .next t → discoveryFits t = true) ∧
  ∀ (s t : State) (i : Instr), discoveryFits s = true → exec i s = .next t →
    s.discovery.stack.length ≤ 49 ∧ t.status.errCode ≠ 0x50

/-! ### Every command, every step -/

/-- Every step keeps the buffers in their canonical form, with implemented bytes only: no command and no host access
stores outside them (20_memory.md R101, 42_framer.md R323). -/
def Obligations.StepKeepsMemoryCanonical : Prop :=
  ∀ s t : State, MemoryCanonical s → step s = .next t → MemoryCanonical t

/-- After every CMD write exactly one of the three patterns of 46_system.md R503 holds, and BUS_ERR is as it was but for
SOFT_RESET; before any command OK, ERR and ILLEGAL are 0, and a misaligned write sets BUS_ERR alone. -/
def Obligations.StatusAfterEveryCommand : Prop :=
  (∀ (s t : State) (rest : List Event) (w : Word), s.inputs = .hostWrite 0x004 w :: rest → step s = .next t →
    (w ≠ 0x00005AFF → t.status.busErr = s.status.busErr) ∧
    ((t.status.ok = true ∧ t.status.err = false ∧ t.status.illegal = false ∧ t.status.errCode = 0x00) ∨
      (t.status.ok = false ∧ t.status.err = true ∧ t.status.illegal = false ∧ t.status.errCode ≠ 0x00 ∧
        t.status.errCode ≠ 0x01) ∨
      (t.status.ok = false ∧ t.status.err = true ∧ t.status.illegal = true ∧ t.status.errCode = 0x01))) ∧
  (State.reset.status.ok = false ∧ State.reset.status.err = false ∧ State.reset.status.illegal = false) ∧
  ∀ (s : State) (rest : List Event) (a : Offset) (w : Word), a.toNat % 4 ≠ 0 → s.inputs = .hostWrite a w :: rest →
    ∃ t, step s = .next t ∧ t.status = { s.status with busErr := true }

/-- STATUS is always one of its patterns, and the dispatch decision agrees with the dispatch state, whatever step is taken
(46_system.md R503, 44_dispatch.md R421). -/
def Obligations.StepKeepsReports : Prop :=
  ∀ s t : State, statusPattern s = true → dispatchCoherent s = true → step s = .next t →
    statusPattern t = true ∧ dispatchCoherent t = true

/-- One command sets at most one pending bit, the one that its rule names, and clears none (60_exceptions.md R530, R532). -/
def Obligations.CommandsSetOneInterrupt : Prop :=
  ∀ (s t : State) (i : Instr), i ≠ .softReset → exec i s = .next t →
    t.irqPend = s.irqPend ∨
    (i = .dsResult 1 ∧ t.irqPend = s.irqPend ||| 0b00010) ∨
    (i = .dsNext ∧ t.irqPend = s.irqPend ||| 0b00100) ∨
    ((i = .dsResult 1 ∨ i = .dsResult 2) ∧ t.irqPend = s.irqPend ||| 0b01000) ∨
    (i = .dpCheck ∧ t.irqPend = s.irqPend ||| 0b10000)

/-- No command but SOFT_RESET writes the host's own registers, the PID table, the NOW_HI latch or BUS_ERR, and none writes
NOW (20_memory.md R130, 43_timing.md R372, 10_state.md R33, R37). -/
def Obligations.CommandsKeepHostRegisters : Prop :=
  ∀ (s t : State) (i : Instr), exec i s = .next t →
    t.now = s.now ∧ t.readData = s.readData ∧ t.inputs = s.inputs ∧
    (i ≠ .softReset →
      t.config = s.config ∧ t.irqEn = s.irqEn ∧ t.portId = s.portId ∧ t.uid.self = s.uid.self ∧ t.uid.a = s.uid.a ∧
      t.uid.b = s.uid.b ∧ t.framer.rxLen = s.framer.rxLen ∧ t.framer.ckStart = s.framer.ckStart ∧
      t.framer.ckLen = s.framer.ckLen ∧ t.codec.fmtLen = s.codec.fmtLen ∧
      t.codec.pdHostLen = s.codec.pdHostLen ∧ t.dispatch.handlerRt = s.dispatch.handlerRt ∧
      t.dispatch.handlerLen = s.dispatch.handlerLen ∧ t.dispatch.subdevMax = s.dispatch.subdevMax ∧
      t.pidTable = s.pidTable ∧ t.timing.nowHiLatch = s.timing.nowHiLatch ∧ t.status.busErr = s.status.busErr ∧
      (i ≠ .frEncodeReq true → t.tnCtr = s.tnCtr))

/-- A command changes only the buffer bytes that its rule names: PD_ENCODE the PD_LEN bytes it encodes, PD_DECODE the
HOST_COUNT bytes it decodes, the framer the header and the checksum of the frame (PD in between keeps its bytes) or the
NPRE + 17 bytes of the response, a NACK its two reason bytes and DS_NEXT the two bounds. No command writes FMT
(20_memory.md R131, 41_codec.md R262, 42_framer.md R300, R310, R323). -/
def Obligations.CommandsWriteNamedBuffers : Prop :=
  ∀ (s t : State) (i : Instr) (a : Nat), exec i s = .next t → Memory.read t.mem a ≠ Memory.read s.mem a →
    (i = .pdEncode ∧ 0x218 ≤ a ∧ a < 0x218 + t.codec.pdLen.toNat) ∨
    (i = .pdDecode ∧ 0x400 ≤ a ∧ a < 0x400 + t.codec.hostCount.toNat) ∨
    (((∃ tnsel, i = .frEncodeReq tnsel) ∨ i = .frEncodeRsp) ∧
      ((0x200 ≤ a ∧ a < 0x218) ∨ (0x218 + s.tx.pdl.toNat ≤ a ∧ a < 0x218 + s.tx.pdl.toNat + 2))) ∨
    (∃ npre, i = .frDiscEncode npre ∧ 0x640 ≤ a ∧ a < 0x640 + (npre.toNat + 17)) ∨
    ((i = .dpValidate ∨ i = .dpCheck) ∧ 0x218 ≤ a ∧ a < 0x218 + 2) ∨
    (i = .dsNext ∧ 0x218 ≤ a ∧ a < 0x218 + 12)

/-- No step stops: every state has a next state (60_exceptions.md R521, 93_implementation_defined.md). -/
def Obligations.StepAlwaysNext : Prop :=
  ∀ s : State, ∃ t, step s = .next t

/-! ### Host accesses (10_state.md R54-R56, 20_memory.md R104-R106) -/

/-- An aligned host write outside CMD stores its word by `writeWord` and does nothing else. A word so written to a buffer
or to the PID table reads back, the PID table without its unnamed bits, and no other word of either changes; where nothing
is implemented, the window reads 0 and ignores writes (10_state.md R50, R55, 20_memory.md R101, R103, R105). -/
def Obligations.WindowReadBack : Prop :=
  (∀ (s : State) (rest : List Event) (a : Offset) (w : Word), s.inputs = .hostWrite a w :: rest → a.toNat % 4 = 0 →
    a ≠ 0x004 → step s = .next (writeWord { s with inputs := rest } a.toNat w)) ∧
  (∀ (s : State) (a : Nat) (w : Word), 4 ∣ a → bufferWord a = true →
    readWord (writeWord s a w) a = w ∧
    (∀ j, j < 4 → Memory.read (writeWord s a w).mem (a + j) = w.extractLsb' (8 * j) 8) ∧
    KeepsBytesOutside a 4 s (writeWord s a w) ∧ { writeWord s a w with mem := s.mem } = s) ∧
  (∀ (s : State) (i : Nat) (w : Word), i < 64 →
    readWord (writeWord s (0x700 + 4 * i) w) (0x700 + 4 * i) = w &&& 0x8007FFFF ∧
    (∀ j, j < 64 → j ≠ i → readWord (writeWord s (0x700 + 4 * i) w) (0x700 + 4 * j) = readWord s (0x700 + 4 * j)) ∧
    { writeWord s (0x700 + 4 * i) w with pidTable := s.pidTable } = s) ∧
  (∀ (s : State) (a : Nat) (w : Word), 4 ∣ a → (∀ r : Reg, r.offset ≠ a) →
    (a < 0x200 ∨ (0x304 ≤ a ∧ a < 0x400) ∨ (0x658 ≤ a ∧ a < 0x700) ∨ 0x800 ≤ a) →
    readWord s a = 0 ∧ writeWord s a w = s)

/-- A register reads back what a host write stores in its RW bits, keeps its RO bits, and clears the W1C bits written as 1;
no other register changes but for the interrupt output in STATUS (10_state.md R54-R56). -/
def Obligations.RegisterReadBack : Prop :=
  ∀ (s : State) (r q : Reg) (w : Word),
    readWord s r.offset = readReg s r ∧ (r ≠ .cmd → writeWord s r.offset w = writeReg s w r) ∧
    readReg (writeReg s w r) r = (readReg s r &&& ~~~(r.rwMask ||| (w &&& r.w1cMask))) ||| (w &&& r.rwMask) ∧
    (q ≠ r → ¬(q = .status ∧ (r = .irqEn ∨ r = .irqPend)) → readReg (writeReg s w r) q = readReg s q) ∧
    KeepsBytes s (writeReg s w r)

/-- A misaligned access sets BUS_ERR and does nothing else; a misaligned read returns 0 (20_memory.md R104). -/
def Obligations.MisalignedOnlyBusError : Prop :=
  ∀ (s : State) (rest : List Event) (a : Offset) (w : Word), a.toNat % 4 ≠ 0 →
    (s.inputs = .hostRead a :: rest → step s =
      .next { s with status := { s.status with busErr := true }, readData := 0, inputs := rest }) ∧
    (s.inputs = .hostWrite a w :: rest → step s =
      .next { s with status := { s.status with busErr := true }, inputs := rest })

/-- A read of NOW_LO returns the low word of NOW and latches its high word in the same step, so that the pair NOW_LO, then
NOW_HI is one sample of NOW, whatever the time source and the alarm agent do between the reads; every other aligned read
changes nothing but the word it returns (20_memory.md R106, 43_timing.md R387; the word stands in `readData`, entry 4). -/
def Obligations.NowReadsAreOneSample : Prop :=
  (∀ (s : State) (rest : List Event), s.inputs = .hostRead 0x0C0 :: rest →
    ∃ t, step s = .next t ∧ t.readData = s.now.extractLsb' 0 32 ∧
      t.timing = { s.timing with nowHiLatch := s.now.extractLsb' 32 32 } ∧
      { t with timing := s.timing, readData := s.readData } = { s with inputs := rest } ∧ KeepsBytes s t) ∧
  (∀ (s t : State) (e : Event) (rest : List Event), s.inputs = e :: rest →
    (e = .alarm ∨ ∃ k h, e = .tick k h) → step s = .next t → t.timing.nowHiLatch = s.timing.nowHiLatch) ∧
  (∀ (s : State) (a : Offset) (rest : List Event), s.inputs = .hostRead a :: rest → a.toNat % 4 = 0 → a ≠ 0x0C0 →
    step s = .next { s with readData := readWord s a.toNat, inputs := rest }) ∧
  (∀ s : State, readWord s 0x0C4 = s.timing.nowHiLatch)

/-- The interrupt output is high exactly when a pending source is enabled, STATUS bit 16 shows it, and of the host's
lines it drives the platform's IRQ_LINE alone, whichever that is (10_state.md R35, 60_exceptions.md R531; entry 9). -/
def Obligations.InterruptOutputLevel : Prop :=
  ∀ s : State,
    (irqOutput s = true ↔ ∃ b, b < 5 ∧ s.irqPend.getLsbD b = true ∧ s.irqEn.getLsbD b = true) ∧
    (readWord s 0x008).getLsbD 16 = irqOutput s ∧
    ∀ n, interruptLine Config.irqLine n s = true ↔ n = Config.irqLine ∧ irqOutput s = true

/-! ### System commands and reset (46_system.md, 70_reset_and_hazards.md) -/

/-- NOP reports success and changes nothing else. SOFT_RESET returns every register, the PID table, the range stack and
the NOW_HI latch to their reset values, keeps every buffer byte and NOW, and reports success; no alarm step is enabled
afterwards (46_system.md R500, R501). -/
def Obligations.SystemCommands : Prop :=
  (∀ s : State, ∃ t, exec .nop s = .next t ∧ EndsDone s t ∧ OnlyStatus s t ∧ KeepsBytes s t) ∧
  ∀ s : State, ∃ t, exec .softReset s = .next t ∧ KeepsBytes s t ∧ t.now = s.now ∧
    readReg t .status = 0x00000001 ∧
    (∀ r : Reg, r ≠ .status → r ≠ .nowLo → readReg t r = readReg State.reset r) ∧
    (∀ i : Fin 64, t.pidTable[i].word = 0) ∧ t.discovery.stack = [] ∧ Quiescent t ∧
    irqOutput t = false ∧ t.inputs = s.inputs ∧ t.readData = s.readData

/-- The platform reset gives every register the reset value of 10_state.md R56, the NOW_HI latch 0, the PID table and the
stack nothing, and NOW and the implemented buffer bytes whatever the platform draws: an implemented byte reads what the
draw's last entry for it says, and 0 where the draw has none (the model's choice, entry 5); every other byte reads 0
(70_reset_and_hazards.md R570, R571). -/
def Obligations.PlatformResetValues : Prop :=
  ∀ (s : State) (rest : List Event) (bytes : List Host.Cell) (now : Time),
    s.inputs = .platformReset bytes now :: rest →
    ∃ t, step s = .next t ∧
      (∀ r : Reg, r ≠ .nowLo → readReg t r = r.resetValue) ∧
      t.now = now ∧ (∀ i : Fin 64, t.pidTable[i].word = 0) ∧ t.discovery.stack = [] ∧ irqOutput t = false ∧
      Quiescent t ∧ MemoryCanonical t ∧
      (∀ (a : Nat) (b : Byte) (before after : List Host.Cell), BufferByte a → bytes = before ++ (a, b) :: after →
        (∀ c ∈ after, c.1 ≠ a) → Memory.read t.mem a = b) ∧
      (∀ a, ¬BufferByte a ∨ (∀ c ∈ bytes, c.1 ≠ a) → Memory.read t.mem a = 0) ∧ t.mem = drawnMemory bytes

/-- The reset state meets every invariant that the other statements keep, and every register, the PID table and the
range stack have the values of 10_state.md R56; NOW_LO reads 0, the model's draw of NOW (entry 6). -/
def Obligations.ResetMeetsInvariants : Prop :=
  MemoryCanonical State.reset ∧ discoveryFits State.reset = true ∧ statusPattern State.reset = true ∧
  dispatchCoherent State.reset = true ∧ Quiescent State.reset ∧
  (∀ r : Reg, readReg State.reset r = r.resetValue) ∧ (∀ i : Fin 64, State.reset.pidTable[i].word = 0) ∧
  State.reset.discovery.stack = [] ∧ irqOutput State.reset = false

/-! ### The OPEN parameters (00_scope.md R8) -/

/-- The window stands at BASE, whatever its value: a load or store at address BASE + a is the read or write at offset a,
and one outside the 4 KiB from BASE is no access of this block, which keeps everything (20_memory.md R100, R108; that the
block ignores it is read from 60_exceptions.md R545, entry 9). -/
def Obligations.WindowStandsAtBase : Prop :=
  (∀ (s : State) (rest : List Event) (a : Offset), s.inputs = .hostLoad (Config.base + a.toNat) :: rest →
    step s = step { s with inputs := .hostRead a :: rest }) ∧
  (∀ (s : State) (rest : List Event) (a : Offset) (w : Word), s.inputs = .hostStore (Config.base + a.toNat) w :: rest →
    step s = step { s with inputs := .hostWrite a w :: rest }) ∧
  ∀ (s : State) (rest : List Event) (x : Nat) (w : Word), x < Config.base ∨ Config.base + 0x1000 ≤ x →
    s.inputs = .hostLoad x :: rest ∨ s.inputs = .hostStore x w :: rest → step s = .next { s with inputs := rest }
end

