-- ==== Sys2Proof/Laws/Memory.lean ====
section
/-! SUPPORT. The laws of buffer memory: read after write, and the canonical form that every operation keeps. -/

namespace Sys2Proof.Machine

@[simp] theorem Memory.read_nil (a : Nat) : Memory.read [] a = unlistedByte := rfl

@[simp] theorem Memory.readBytes_zero (m : Memory) (a : Nat) : Memory.readBytes m a 0 = [] := rfl

theorem Memory.readBytes_succ (m : Memory) (a n : Nat) :
    Memory.readBytes m a (n + 1) = Memory.read m a :: Memory.readBytes m (a + 1) n := rfl

@[simp] theorem Memory.writeBytes_nil (m : Memory) (a : Nat) : Memory.writeBytes m a [] = m := rfl

theorem Memory.writeBytes_cons (m : Memory) (a : Nat) (b : Byte) (bs : List Byte) :
    Memory.writeBytes m a (b :: bs) = Memory.writeBytes (Memory.write m a b) (a + 1) bs := rfl

/-! ### Read after write -/

theorem Memory.read_erase (m : Memory) (a c : Nat) :
    Memory.read (Memory.erase m a) c = if c = a then unlistedByte else Memory.read m c := by
  induction m with
  | nil => simp [Memory.erase]
  | cons h t ih =>
    obtain ⟨x, v⟩ := h
    by_cases hx : x = a
    · subst hx; by_cases hc : c = x
      · subst hc; simpa [Memory.erase] using ih
      · have : ¬x = c := fun e => hc e.symm
        simpa [Memory.erase, Memory.read, hc, this] using ih
    · by_cases hc : x = c
      · subst hc; simp [Memory.erase, Memory.read, hx]
      · simp [Memory.erase, Memory.read, hx, hc, ih]

theorem Memory.erase_ne (m : Memory) (a : Nat) : ∀ c ∈ Memory.erase m a, c.1 ≠ a := by
  induction m with
  | nil => simp [Memory.erase]
  | cons h t ih =>
    obtain ⟨x, v⟩ := h
    by_cases hx : x = a
    · simpa [Memory.erase, hx] using ih
    · simpa [Memory.erase, hx] using ih

theorem Memory.read_insert (m : Memory) (a c : Nat) (b : Byte) (h : ∀ e ∈ m, e.1 ≠ a) :
    Memory.read (Memory.insert m a b) c = if c = a then b else Memory.read m c := by
  induction m with
  | nil =>
    rcases eq_or_ne a c with rfl | hc
    · simp [Memory.insert, Memory.read]
    · simp [Memory.insert, Memory.read, hc, hc.symm]
  | cons e t ih =>
    obtain ⟨x, v⟩ := e
    have hx : x ≠ a := h (x, v) (by simp)
    have ih := ih fun e he => h e (by simp [he])
    by_cases hlt : a < x
    · rcases eq_or_ne a c with rfl | hc
      · simp [Memory.insert, Memory.read, hlt]
      · simp [Memory.insert, Memory.read, hlt, hc, hc.symm]
    · by_cases hxc : x = c
      · subst hxc; simp [Memory.insert, Memory.read, hlt, hx]
      · simp [Memory.insert, Memory.read, hlt, hxc, ih]

/-- What a read gives after the write of one byte. -/
theorem Memory.read_write (m : Memory) (a c : Nat) (b : Byte) :
    Memory.read (Memory.write m a b) c = if c = a then b else Memory.read m c := by
  unfold Memory.write
  split
  next h => subst h; rw [Memory.read_erase]
  next => rw [Memory.read_insert _ _ _ _ (Memory.erase_ne m a), Memory.read_erase]; split <;> rfl

/-- What a read gives after the write of a byte sequence. -/
theorem Memory.read_writeBytes (bs : List Byte) : ∀ (m : Memory) (a c : Nat),
    Memory.read (Memory.writeBytes m a bs) c =
      if a ≤ c ∧ c < a + bs.length then bs.getD (c - a) 0 else Memory.read m c := by
  induction bs with
  | nil =>
    intro m a c
    rw [Memory.writeBytes_nil, if_neg (by simp)]
  | cons b bs ih =>
    intro m a c
    rw [Memory.writeBytes_cons, ih, Memory.read_write]
    by_cases h1 : a + 1 ≤ c ∧ c < a + 1 + bs.length
    · have h2 : a ≤ c ∧ c < a + (b :: bs).length := by simp; omega
      have h3 : c - a = (c - (a + 1)) + 1 := by omega
      rw [if_pos h1, if_pos h2, h3, List.getD_cons_succ]
    · by_cases hc : c = a
      · have h2 : a ≤ c ∧ c < a + (b :: bs).length := by simp; omega
        rw [if_neg h1, if_pos hc, if_pos h2, hc]; simp
      · have h2 : ¬(a ≤ c ∧ c < a + (b :: bs).length) := by simp; omega
        rw [if_neg h1, if_neg hc, if_neg h2]

/-- A write leaves every byte outside its range alone. -/
theorem Memory.read_writeBytes_outside (m : Memory) (a c : Nat) (bs : List Byte) (h : c < a ∨ a + bs.length ≤ c) :
    Memory.read (Memory.writeBytes m a bs) c = Memory.read m c := by
  rw [Memory.read_writeBytes, if_neg (by omega)]

@[simp] theorem Memory.length_readBytes (m : Memory) (a n : Nat) : (Memory.readBytes m a n).length = n := by
  induction n generalizing a with
  | zero => rfl
  | succ n ih => simp [Memory.readBytes_succ, ih]

theorem Memory.getD_readBytes (m : Memory) (n : Nat) : ∀ (a i : Nat), i < n →
    (Memory.readBytes m a n).getD i 0 = Memory.read m (a + i) := by
  induction n with
  | zero => intro a i h; omega
  | succ n ih =>
    intro a i h
    cases i with
    | zero => simp [Memory.readBytes_succ]
    | succ i =>
      rw [Memory.readBytes_succ, List.getD_cons_succ, ih (a + 1) i (by omega)]
      congr 1; omega

/-- A MemRead depends on the bytes of its range alone. -/
theorem Memory.readBytes_congr (m m' : Memory) (n : Nat) : ∀ a : Nat,
    (∀ c, a ≤ c → c < a + n → Memory.read m c = Memory.read m' c) →
    Memory.readBytes m a n = Memory.readBytes m' a n := by
  induction n with
  | zero => intros; rfl
  | succ n ih =>
    intro a h
    rw [Memory.readBytes_succ, Memory.readBytes_succ, h a (by omega) (by omega),
      ih (a + 1) fun c h1 h2 => h c (by omega) (by omega)]

theorem Memory.readBytes_append (m : Memory) (k n : Nat) : ∀ a : Nat,
    Memory.readBytes m a (k + n) = Memory.readBytes m a k ++ Memory.readBytes m (a + k) n := by
  induction k with
  | zero => intro a; simp
  | succ k ih =>
    intro a
    have : k + 1 + n = (k + n) + 1 := by omega
    rw [this, Memory.readBytes_succ, Memory.readBytes_succ, ih (a + 1)]
    have : a + 1 + k = a + (k + 1) := by omega
    rw [this]; rfl

/-- A MemRead of the range just written gives the bytes written. -/
theorem Memory.readBytes_writeBytes_self (m : Memory) (a : Nat) (bs : List Byte) :
    Memory.readBytes (Memory.writeBytes m a bs) a bs.length = bs := by
  apply List.ext_getElem
  · simp
  · intro i h1 h2
    have h := Memory.getD_readBytes (Memory.writeBytes m a bs) bs.length a i h2
    rw [Memory.read_writeBytes, if_pos (by omega)] at h
    have hi : a + i - a = i := by omega
    rw [hi, List.getD_eq_getElem _ _ h1, List.getD_eq_getElem _ _ h2] at h
    exact h

/-- A MemRead of a range apart from the one written gives the bytes before. -/
theorem Memory.readBytes_writeBytes_disjoint (m : Memory) (a b n : Nat) (bs : List Byte)
    (h : b + n ≤ a ∨ a + bs.length ≤ b) :
    Memory.readBytes (Memory.writeBytes m a bs) b n = Memory.readBytes m b n :=
  Memory.readBytes_congr _ _ _ _ fun c h1 h2 => Memory.read_writeBytes_outside _ _ _ _ (by omega)

/-! ### The canonical form -/

theorem Memory.above_erase (m : Memory) (x a : Nat) (h : Memory.above x m = true) :
    Memory.above x (Memory.erase m a) = true := by
  induction m with
  | nil => rfl
  | cons e t ih =>
    obtain ⟨y, v⟩ := e
    simp only [Memory.above, List.all_cons, Bool.and_eq_true] at h
    by_cases hy : y = a
    · simpa [Memory.erase, hy] using ih h.2
    · have := ih h.2
      simp only [Memory.above] at this
      simp [Memory.erase, hy, Memory.above, this]; simpa using h.1

theorem Memory.wf_erase (m : Memory) (a : Nat) (h : Memory.wf m = true) :
    Memory.wf (Memory.erase m a) = true := by
  induction m with
  | nil => rfl
  | cons e t ih =>
    obtain ⟨y, v⟩ := e
    simp only [Memory.wf, Bool.and_eq_true] at h
    by_cases hy : y = a
    · simpa [Memory.erase, hy] using ih h.2
    · simp [Memory.erase, hy, Memory.wf, Memory.above_erase _ _ _ h.1.2, ih h.2]; simpa using h.1.1

theorem Memory.above_insert (m : Memory) (x a : Nat) (b : Byte) (hx : x < a) (h : Memory.above x m = true) :
    Memory.above x (Memory.insert m a b) = true := by
  induction m with
  | nil => simp [Memory.insert, Memory.above, hx]
  | cons e t ih =>
    obtain ⟨y, v⟩ := e
    simp only [Memory.above, List.all_cons, Bool.and_eq_true, decide_eq_true_eq] at h
    have := ih h.2
    simp only [Memory.above] at this
    by_cases hay : a < y
    · simp only [Memory.insert, hay, if_true, Memory.above, List.all_cons, Bool.and_eq_true, decide_eq_true_eq]
      exact ⟨hx, h.1, h.2⟩
    · simp only [Memory.insert, hay, if_false, Memory.above, List.all_cons, Bool.and_eq_true, decide_eq_true_eq]
      exact ⟨h.1, this⟩

theorem Memory.above_of_lt (m : Memory) (a x : Nat) (hax : a < x) (h : Memory.above x m = true) :
    Memory.above a m = true := by
  simp only [Memory.above, List.all_eq_true, decide_eq_true_eq] at h ⊢
  exact fun c hc => Nat.lt_trans hax (h c hc)

theorem Memory.wf_insert (m : Memory) (a : Nat) (b : Byte) (hb : b ≠ unlistedByte) (h : Memory.wf m = true)
    (hne : ∀ e ∈ m, e.1 ≠ a) : Memory.wf (Memory.insert m a b) = true := by
  induction m with
  | nil => simpa [Memory.insert, Memory.wf, Memory.above] using hb
  | cons e t ih =>
    obtain ⟨y, v⟩ := e
    simp only [Memory.wf, Bool.and_eq_true] at h
    have hya : y ≠ a := hne (y, v) (by simp)
    by_cases hay : a < y
    · have h1 := Memory.above_of_lt t a y hay h.1.2
      simp only [Memory.above] at h1
      simp only [Memory.insert, hay, if_true, Memory.wf, Memory.above, List.all_cons, Bool.and_eq_true,
        decide_eq_true_eq, h1, h.2, and_true]
      exact ⟨by simpa using hb, h.1.1, by simpa [Memory.above] using h.1.2⟩
    · have hlt : y < a := by omega
      simp only [Memory.insert, hay, if_false, Memory.wf, Bool.and_eq_true]
      exact ⟨⟨h.1.1, Memory.above_insert t y a b hlt h.1.2⟩, ih h.2 fun e he => hne e (by simp [he])⟩

/-- A write keeps the canonical form. -/
theorem Memory.wf_write (m : Memory) (a : Nat) (b : Byte) (h : Memory.wf m = true) :
    Memory.wf (Memory.write m a b) = true := by
  unfold Memory.write
  split
  next => exact Memory.wf_erase m a h
  next hb => exact Memory.wf_insert _ a b hb (Memory.wf_erase m a h) (Memory.erase_ne m a)

/-- A MemWrite keeps the canonical form. -/
theorem Memory.wf_writeBytes (bs : List Byte) : ∀ (m : Memory) (a : Nat), Memory.wf m = true →
    Memory.wf (Memory.writeBytes m a bs) = true := by
  induction bs with
  | nil => intro m a h; exact h
  | cons b bs ih => intro m a h; exact ih _ _ (Memory.wf_write m a b h)

theorem Memory.inBuffers_erase (m : Memory) (a : Nat) (h : Memory.inBuffers m = true) :
    Memory.inBuffers (Memory.erase m a) = true := by
  induction m with
  | nil => rfl
  | cons e t ih =>
    obtain ⟨y, v⟩ := e
    simp only [Memory.inBuffers, List.all_cons, Bool.and_eq_true] at h
    have := ih h.2
    simp only [Memory.inBuffers] at this
    by_cases hy : y = a
    · simpa [Memory.erase, hy, Memory.inBuffers] using this
    · simp [Memory.erase, hy, Memory.inBuffers, this, h.1]

theorem Memory.inBuffers_insert (m : Memory) (a : Nat) (b : Byte) (ha : implementedByte a = true)
    (h : Memory.inBuffers m = true) : Memory.inBuffers (Memory.insert m a b) = true := by
  induction m with
  | nil => simp [Memory.insert, Memory.inBuffers, ha]
  | cons e t ih =>
    obtain ⟨y, v⟩ := e
    simp only [Memory.inBuffers, List.all_cons, Bool.and_eq_true] at h
    have := ih h.2
    simp only [Memory.inBuffers] at this
    by_cases hay : a < y
    · simp [Memory.insert, hay, Memory.inBuffers, ha, h.1]; simpa using h.2
    · simp [Memory.insert, hay, Memory.inBuffers, this, h.1]

/-- A write to an implemented byte lists implemented bytes only. -/
theorem Memory.inBuffers_write (m : Memory) (a : Nat) (b : Byte) (ha : implementedByte a = true)
    (h : Memory.inBuffers m = true) : Memory.inBuffers (Memory.write m a b) = true := by
  unfold Memory.write
  split
  next => exact Memory.inBuffers_erase m a h
  next => exact Memory.inBuffers_insert _ a b ha (Memory.inBuffers_erase m a h)

/-- A MemWrite to implemented bytes lists implemented bytes only. -/
theorem Memory.inBuffers_writeBytes (bs : List Byte) : ∀ (m : Memory) (a : Nat),
    (∀ i, i < bs.length → implementedByte (a + i) = true) → Memory.inBuffers m = true →
    Memory.inBuffers (Memory.writeBytes m a bs) = true := by
  induction bs with
  | nil => intro m a _ h; exact h
  | cons b bs ih =>
    intro m a hi h
    refine ih _ _ (fun i hlt => ?_) (Memory.inBuffers_write m a b (by simpa using hi 0 (by simp)) h)
    have := hi (i + 1) (by simpa using hlt)
    rwa [show a + 1 + i = a + (i + 1) by omega]

/-- A platform reset's memory has the canonical form. -/
theorem drawnMemory_wf (bytes : List Host.Cell) :
    Memory.wf (drawnMemory bytes) = true ∧ Memory.inBuffers (drawnMemory bytes) = true := by
  have key : ∀ (l : List Host.Cell) (m : Memory), Memory.wf m = true ∧ Memory.inBuffers m = true →
      Memory.wf (l.foldl (fun m c => if implementedByte c.1 then Memory.write m c.1 c.2 else m) m) = true ∧
      Memory.inBuffers (l.foldl (fun m c => if implementedByte c.1 then Memory.write m c.1 c.2 else m) m) = true := by
    intro l
    induction l with
    | nil => intro m h; exact h
    | cons c l ih =>
      intro m h
      refine ih _ ?_
      show Memory.wf (if implementedByte c.1 then Memory.write m c.1 c.2 else m) = true ∧
        Memory.inBuffers (if implementedByte c.1 then Memory.write m c.1 c.2 else m) = true
      split
      next hc => exact ⟨Memory.wf_write m _ _ h.1, Memory.inBuffers_write m _ _ hc h.2⟩
      next => exact h
  exact key bytes [] ⟨rfl, rfl⟩

/-- The memory of the reset state has the canonical form. -/
theorem reset_memory_wf : Memory.wf State.reset.mem = true := rfl

end Sys2Proof.Machine
end

