-- ==== Sys2Proof/Laws/Wire.lean ====
section
/-! SUPPORT. The laws of byte orders and wire layouts: each byte order inverts, and each layout of the model is the table
that 30_encoding.md prints. -/

namespace Sys2Proof.Machine

/-! ### Byte orders -/

@[simp] theorem length_leBytes (v n : Nat) : (leBytes v n).length = n := by
  induction n generalizing v with
  | zero => rfl
  | succ n ih => simp [leBytes, ih]

@[simp] theorem length_beBytes (v n : Nat) : (beBytes v n).length = n := by simp [beBytes]

/-- The little-endian bytes of a number read back as the number modulo 256^n. -/
theorem leNat_leBytes (n v : Nat) : leNat (leBytes v n) = v % 256 ^ n := by
  induction n generalizing v with
  | zero => simp [leBytes, leNat, Nat.mod_one]
  | succ n ih =>
    have h : 256 ^ (n + 1) = 256 * 256 ^ n := by ring
    simp only [leBytes, leNat, ih, BitVec.toNat_ofNat, h, Nat.mod_mul]

theorem leNat_lt (bs : List Byte) : leNat bs < 256 ^ bs.length := by
  induction bs with
  | nil => simp [leNat]
  | cons b bs ih =>
    have := b.isLt
    simp only [leNat, List.length_cons, pow_succ]
    omega

/-- The number that bytes write has those bytes. -/
theorem leBytes_leNat (bs : List Byte) : leBytes (leNat bs) bs.length = bs := by
  induction bs with
  | nil => rfl
  | cons b bs ih =>
    have hb := b.isLt
    have h : (b.toNat + 256 * leNat bs) / 256 = leNat bs := by omega
    simp only [leNat, List.length_cons, leBytes, h, ih, List.cons.injEq, and_true]
    apply BitVec.eq_of_toNat_eq
    simp only [BitVec.toNat_ofNat]
    omega

theorem beNat_beBytes (n v : Nat) : beNat (beBytes v n) = v % 256 ^ n := by
  simp [beNat, beBytes, leNat_leBytes]

theorem beBytes_beNat (bs : List Byte) : beBytes (beNat bs) bs.length = bs := by
  have := leBytes_leNat bs.reverse
  rw [List.length_reverse] at this
  rw [beBytes, beNat, this, List.reverse_reverse]

/-- Converting `n` host bytes to wire order reverses them. -/
theorem beBytes_leNat (bs : List Byte) (n : Nat) (h : bs.length = n) : beBytes (leNat bs) n = bs.reverse := by
  subst h; rw [beBytes, leBytes_leNat]

/-- Converting `n` wire bytes to host order reverses them. -/
theorem leBytes_beNat (bs : List Byte) (n : Nat) (h : bs.length = n) : leBytes (beNat bs) n = bs.reverse := by
  have := leBytes_leNat bs.reverse
  rwa [List.length_reverse, h] at this

theorem byteSum_eq (bs : List Byte) : byteSum bs = (bs.map BitVec.toNat).sum := by
  induction bs with
  | nil => rfl
  | cons b bs ih => simp [byteSum, ih]

/-- `sum16` is the sum modulo 2^16. -/
theorem sum16_toNat (bs : List Byte) : (sum16 bs).toNat = byteTotal bs := by
  simp [sum16, byteTotal, byteSum_eq]

theorem sum16_eq (bs : List Byte) : sum16 bs = BitVec.ofNat 16 (byteTotal bs) := by
  apply BitVec.eq_of_toNat_eq
  rw [sum16_toNat]; simp [byteTotal]

/-! ### Fields -/

theorem extract_byte (n : Nat) (x : BitVec n) (k : Nat) : BitVec.ofNat 8 (x.toNat / 2 ^ k) = x.extractLsb' k 8 := by
  apply BitVec.eq_of_toNat_eq
  simp [BitVec.extractLsb'_toNat, Nat.shiftRight_eq_div_pow]

/-- A 16-bit field's bytes in wire order. -/
theorem beBytes_half (x : Half) : beBytes x.toNat 2 = wireHalf x := by
  have h0 := extract_byte 16 x 0
  have h8 := extract_byte 16 x 8
  simp only [pow_zero, Nat.div_one] at h0
  simp [beBytes, leBytes, wireHalf, ← h0, ← h8]

/-- A UID's bytes in wire order. -/
theorem uidBe_eq (u : Uid) : uidBe u = wireUid u := by
  have h0 := extract_byte 32 u.dev 0
  have h8 := extract_byte 32 u.dev 8
  have h16 := extract_byte 32 u.dev 16
  have h24 := extract_byte 32 u.dev 24
  simp only [pow_zero, Nat.div_one] at h0
  rw [uidBe, beBytes_half, wireUid]
  simp [beBytes, leBytes, ← h0, ← h8, ← h16, ← h24, Nat.div_div_eq_div_mul]

@[simp] theorem length_wireHalf (x : Half) : (wireHalf x).length = 2 := rfl
@[simp] theorem length_wireUid (u : Uid) : (wireUid u).length = 6 := rfl
@[simp] theorem length_uidBe (u : Uid) : (uidBe u).length = 6 := by simp [uidBe]
@[simp] theorem length_uidLe (u : Uid) : (uidLe u).length = 6 := by simp [uidLe]

/-- The number of two bytes in wire order is the 16-bit field they make. -/
theorem beNat_pair (a b : Byte) : BitVec.ofNat 16 (beNat [a, b]) = a ++ b := by
  apply BitVec.eq_of_toNat_eq
  have := a.isLt; have := b.isLt
  have h : (a ++ b).toNat = a.toNat * 256 + b.toNat := by
    rw [BitVec.toNat_append, ← Nat.shiftLeft_add_eq_or_of_lt b.isLt, Nat.shiftLeft_eq]
  rw [h]
  simp only [beNat, List.reverse_cons, List.reverse_nil, List.nil_append, List.cons_append, leNat,
    BitVec.toNat_ofNat]
  omega

/-- The number of four bytes in wire order is the 32-bit field they make. -/
theorem beNat_quad (a b c d : Byte) : BitVec.ofNat 32 (beNat [a, b, c, d]) = a ++ b ++ c ++ d := by
  apply BitVec.eq_of_toNat_eq
  have := a.isLt; have := b.isLt; have := c.isLt; have := d.isLt
  have h : (a ++ b ++ c ++ d).toNat = ((a.toNat * 256 + b.toNat) * 256 + c.toNat) * 256 + d.toNat := by
    simp only [BitVec.toNat_append, Nat.shiftLeft_eq]
    rw [← Nat.shiftLeft_eq, ← Nat.shiftLeft_eq, ← Nat.shiftLeft_eq,
      ← Nat.shiftLeft_add_eq_or_of_lt b.isLt, ← Nat.shiftLeft_add_eq_or_of_lt c.isLt,
      ← Nat.shiftLeft_add_eq_or_of_lt d.isLt]
    simp only [Nat.shiftLeft_eq]
  rw [h]
  simp only [beNat, List.reverse_cons, List.reverse_nil, List.nil_append, List.cons_append, leNat,
    BitVec.toNat_ofNat]
  omega

/-- The UID of six wire bytes. -/
theorem uidOfBe_six (a b c d e f : Byte) : uidOfBe [a, b, c, d, e, f] = ⟨a ++ b, c ++ d ++ e ++ f⟩ := by
  simp only [uidOfBe, List.take_succ_cons, List.take_zero, List.drop_succ_cons, List.drop_zero, beNat_pair,
    beNat_quad]

/-- A UID read from its wire form is the UID. -/
@[simp] theorem uidOfBe_wireUid (u : Uid) : uidOfBe (wireUid u) = u := by
  rw [wireUid, wireHalf, List.cons_append, List.cons_append, List.nil_append, uidOfBe_six]
  have part : ∀ (n k : Nat) (x : BitVec n) (i j : Nat), j + k = i → k < 8 →
      (x.extractLsb' j 8).getLsbD k = x.getLsbD i := by
    intro n k x i j h hk
    simp [hk, h]
  rcases u with ⟨m, d⟩
  simp only [Uid.mk.injEq]
  constructor <;> apply BitVec.eq_of_getLsbD_eq <;> intro i hi <;> simp only [BitVec.getLsbD_append] <;>
    repeat' split
  all_goals exact part _ _ _ _ _ (by omega) (by omega)

/-! ### Frames and discovery responses -/

/-- The model's header bytes are those of 30_encoding.md R160. -/
theorem headerBytes_eq (h : HeaderRegs) : headerBytes h = wireHeader h := by
  have : BitVec.ofNat 8 (Config.hdrLen + h.pdl.toNat) = 24 + h.pdl := by
    apply BitVec.eq_of_toNat_eq; simp [BitVec.toNat_add]
  simp only [headerBytes, wireHeader, uidBe_eq, beBytes_half, this]
  rfl

@[simp] theorem length_headerBytes (h : HeaderRegs) : (headerBytes h).length = 24 := by
  rw [headerBytes_eq]; rfl

/-- The header fields read from header bytes are the fields. -/
theorem headerOfBytes_wireHeader (h : HeaderRegs) (rest : List Byte) : headerOfBytes (wireHeader h ++ rest) = h := by
  rcases h with ⟨d, s, ⟨a, b, c, e⟩, ⟨sub, pid⟩, l⟩
  have hd := uidOfBe_wireUid d
  have hs := uidOfBe_wireUid s
  have half : ∀ x : Half, BitVec.ofNat 16 (beNat (wireHalf x)) = x := by
    intro x; rw [← beBytes_half, beNat_beBytes]
    apply BitVec.eq_of_toNat_eq; have := x.isLt; simp; omega
  have h1 := half sub
  have h2 := half pid
  simp only [wireUid, wireHalf, List.cons_append, List.nil_append] at hd hs h1 h2
  simp [headerOfBytes, wireHeader, wireUid, wireHalf, hd, hs, h1, h2]

@[simp] theorem length_doubledUid (u : Uid) : (doubledUid u).length = 12 := by
  rw [doubledUid, uidBe_eq]; rfl

@[simp] theorem length_discResponse (npre : Nat) (u : Uid) : (discResponse npre u).length = npre + 17 := by
  simp [discResponse, doubled, beBytes_half, wireHalf]

end Sys2Proof.Machine
end

