-- ==== Sys2Proof/Laws/Codec.lean ====
section
/-! SUPPORT. The laws of the codec: what the parser guarantees of a token list, and what one record and the record loops
make of their input. -/

namespace Sys2Proof.Machine

/-- A token of fixed size on both sides: neither `v` nor bare `a`. -/
abbrev Token.Fixed (t : Token) : Prop := t ≠ .v ∧ t ≠ .avar

@[simp] theorem wFixed_nil : wFixed [] = 0 := rfl
@[simp] theorem hFixed_nil : hFixed [] = 0 := rfl
theorem wFixed_cons (t : Token) (ts : List Token) :
    wFixed (t :: ts) = (if t = .v then 0 else t.wsize) + wFixed ts := rfl
theorem hFixed_cons (t : Token) (ts : List Token) : hFixed (t :: ts) = t.hsize + hFixed ts := rfl

theorem wFixed_append (xs ys : List Token) : wFixed (xs ++ ys) = wFixed xs + wFixed ys := by
  induction xs with
  | nil => simp
  | cons t ts ih => simp only [List.cons_append, wFixed_cons, ih]; omega

theorem hFixed_append (xs ys : List Token) : hFixed (xs ++ ys) = hFixed xs + hFixed ys := by
  induction xs with
  | nil => simp
  | cons t ts ih => simp only [List.cons_append, hFixed_cons, ih]; omega

/-! ### Parsing (41_codec.md R232) -/

/-- No token stands behind a `v` or a bare `a`. -/
theorem parseTokens_last (fuel : Nat) : ∀ (last : Option Token) (f : List Byte) (toks : List Token),
    parseTokens fuel last f = .ok toks → FinalLast toks ∧ ((afterLast last).isSome → toks = []) := by
  induction fuel with
  | zero =>
    intro last f toks h
    cases f with
    | nil => simp only [parseTokens, Except.ok.injEq] at h; subst h; simp [FinalLast]
    | cons c r => simp [parseTokens] at h
  | succ n ih =>
    intro last f toks h
    cases f with
    | nil => simp only [parseTokens, Except.ok.injEq] at h; subst h; simp [FinalLast]
    | cons c r =>
      simp only [parseTokens] at h
      split at h
      · cases h
      next hl =>
        split at h
        · cases h
        next t r' _ =>
          split at h
          · cases h
          next ts hts =>
            injection h with h
            subst h
            obtain ⟨h1, h2⟩ := ih _ _ _ hts
            refine ⟨?_, by simp [hl]⟩
            cases ts with
            | nil => simp [FinalLast]
            | cons head tail =>
              intro x hx
              rw [List.dropLast_cons_of_ne_nil (by simp)] at hx
              rcases List.mem_cons.mp hx with rfl | hx
              · refine ⟨?_, ?_⟩ <;> rintro rfl <;> simp [afterLast] at h2
              · exact h1 x hx

/-- What a successful parse guarantees (41_codec.md R231, R232). -/
theorem parseString_ok (f : List Byte) (toks : List Token) (h : parseString f = .ok toks) :
    f.length ≤ 64 ∧ 0 < f.length ∧ parseTokens f.length none f = .ok toks ∧ FinalLast toks ∧
      wFixed toks + (if hasV toks then 6 else 0) ≤ 231 := by
  unfold parseString at h
  split at h
  · cases h
  next h1 =>
    split at h
    · cases h
    next h2 =>
      split at h
      · cases h
      next ts hts =>
        by_cases h3 : wFixed ts + (if hasV ts then 6 else 0) > Config.maxPdl
        · rw [if_pos h3] at h; cases h
        · rw [if_neg h3] at h
          injection h with h
          subst h
          exact ⟨by simpa using h1, by omega, hts, (parseTokens_last _ _ _ _ hts).1, by simpa using h3⟩

/-- A final-position list is a list of fixed tokens, or such a list with one `v` or bare `a` behind it. -/
theorem finalLast_cases (toks : List Token) (h : FinalLast toks) :
    (∀ t ∈ toks, t.Fixed) ∨ ∃ pre, (∀ t ∈ pre, t.Fixed) ∧ (toks = pre ++ [.v] ∨ toks = pre ++ [.avar]) := by
  rcases List.eq_nil_or_concat toks with rfl | ⟨pre, t, rfl⟩
  · exact .inl (by simp)
  · have hp : ∀ x ∈ pre, x.Fixed := fun x hx => h x (by simpa using hx)
    by_cases hv : t = .v
    · exact .inr ⟨pre, hp, .inl (by simp [hv])⟩
    by_cases ha : t = .avar
    · exact .inr ⟨pre, hp, .inr (by simp [ha])⟩
    refine .inl fun x hx => ?_
    rw [List.concat_eq_append] at hx
    rcases List.mem_append.mp hx with hx | hx
    · exact hp x hx
    · obtain rfl : x = t := by simpa using hx
      exact ⟨hv, ha⟩

/-! ### Records (41_codec.md R241, R251) -/

theorem textPrefix_eq (bs : List Byte) : textPrefix bs = bs.takeWhile (· != 0) := by
  induction bs with
  | nil => rfl
  | cons b bs ih => by_cases h : b = 0 <;> simp [textPrefix, List.takeWhile_cons, h, ih]

/-- The wire bytes of a record, token by token. -/
theorem wireOf_cons (t : Token) (ts : List Token) (r : List Byte) (h : t.Fixed) :
    wireOf (t :: ts) r = wireOf [t] (r.take t.hsize) ++ wireOf ts (r.drop t.hsize) := by
  cases t with
  | v => exact absurd rfl h.1
  | avar => exact absurd rfl h.2
  | b | w | d | lit _ => simp [wireOf, Token.hsize]
  | u => simp [wireOf, Token.hsize, List.take_take, List.drop_take]
  | afix n => simp [wireOf, Token.hsize, List.take_take]

theorem hostOf_cons (t : Token) (ts : List Token) (w : List Byte) (h : t.Fixed) :
    hostOf (t :: ts) w = hostOf [t] (w.take t.wsize) ++ hostOf ts (w.drop t.wsize) := by
  cases t with
  | v => exact absurd rfl h.1
  | avar => exact absurd rfl h.2
  | b | w | d | lit _ => simp [hostOf, Token.wsize]
  | u => simp [hostOf, Token.wsize, List.take_take, List.drop_take]
  | afix n => simp [hostOf, Token.wsize, List.take_take]

theorem length_wireOf (ts : List Token) (h : ∀ t ∈ ts, t.Fixed) : ∀ r : List Byte, hFixed ts ≤ r.length →
    (wireOf ts r).length = wFixed ts := by
  induction ts with
  | nil => intro r _; rfl
  | cons t ts ih =>
    intro r hr
    have ht := h t (by simp)
    rw [hFixed_cons] at hr
    rw [wireOf_cons t ts r ht, List.length_append, ih (fun x hx => h x (by simp [hx])) _ (by simp; omega), wFixed_cons,
      if_neg ht.1]
    congr 1
    cases t with
    | v => exact absurd rfl ht.1
    | avar => exact absurd rfl ht.2
    | b | w | d | u | lit _ => simp [wireOf, Token.hsize, Token.wsize] at hr ⊢ <;> omega
    | afix n =>
      have := (List.takeWhile_prefix (p := (· != 0)) (l := r.take n)).length_le
      simp [wireOf, Token.hsize, Token.wsize, List.take_take] at hr this ⊢
      omega

theorem length_hostOf (ts : List Token) (h : ∀ t ∈ ts, t.Fixed) : ∀ w : List Byte, wFixed ts ≤ w.length →
    (hostOf ts w).length = hFixed ts := by
  induction ts with
  | nil => intro r _; rfl
  | cons t ts ih =>
    intro r hr
    have ht := h t (by simp)
    rw [wFixed_cons, if_neg ht.1] at hr
    rw [hostOf_cons t ts r ht, List.length_append, ih (fun x hx => h x (by simp [hx])) _ (by simp; omega), hFixed_cons]
    congr 1
    cases t with
    | v => exact absurd rfl ht.1
    | avar => exact absurd rfl ht.2
    | b | w | d | u | lit _ | afix _ => simp [hostOf, Token.hsize, Token.wsize] at hr ⊢ <;> omega

/-- One fixed token's wire bytes. -/
theorem encodeToken_fixed (m : Memory) (len room j : Nat) (t : Token) (h : t.Fixed) :
    encodeToken m len room j t = (wireOf [t] (Memory.readBytes m (0x400 + j) t.hsize), j + t.hsize) := by
  cases t with
  | v => exact absurd rfl h.1
  | avar => exact absurd rfl h.2
  | b => simp [encodeToken, wireOf, Token.hsize]
  | w => simp [encodeToken, wireOf, Token.hsize, beBytes_leNat]
  | d => simp [encodeToken, wireOf, Token.hsize, beBytes_leNat]
  | u =>
    simp only [encodeToken, wireOf, Token.hsize, uidBe, uidOfLe, BitVec.toNat_ofNat, List.append_nil, Prod.mk.injEq,
      and_true]
    have h1 : ((Memory.readBytes m (hostBase + j) 6).take 2).length = 2 := by simp
    have h2 : ((Memory.readBytes m (hostBase + j) 6).drop 2).length = 4 := by simp
    have l1 := leNat_lt ((Memory.readBytes m (hostBase + j) 6).take 2)
    have l2 := leNat_lt ((Memory.readBytes m (hostBase + j) 6).drop 2)
    rw [h1] at l1
    rw [h2] at l2
    rw [Nat.mod_eq_of_lt (by omega), Nat.mod_eq_of_lt (by omega), beBytes_leNat _ _ h1, beBytes_leNat _ _ h2]
    have h3 : ((Memory.readBytes m (hostBase + j) 6).drop 2).take 4 = (Memory.readBytes m (hostBase + j) 6).drop 2 :=
      List.take_of_length_le (by simp)
    rw [← h3]; rfl
  | afix n => simp [encodeToken, wireOf, Token.hsize, textPrefix_eq, List.take_of_length_le]
  | lit bs => simp [encodeToken, wireOf, Token.hsize]

/-- EncodeRecord of fixed tokens (41_codec.md R241). -/
theorem encodeRecord_fixed (m : Memory) (len out : Nat) (ts : List Token) (h : ∀ t ∈ ts, t.Fixed) :
    ∀ (rest : List Token) (acc : List Byte) (j : Nat),
    encodeRecord m len out (ts ++ rest) acc j =
      encodeRecord m len out rest (acc ++ wireOf ts (Memory.readBytes m (0x400 + j) (hFixed ts))) (j + hFixed ts) := by
  induction ts with
  | nil => intro rest acc j; simp [wireOf]
  | cons t ts ih =>
    intro rest acc j
    have ht := h t (by simp)
    simp only [List.cons_append, encodeRecord, encodeToken_fixed m len _ j t ht]
    rw [ih (fun x hx => h x (by simp [hx])), wireOf_cons t ts _ ht, hFixed_cons, Memory.readBytes_append,
      List.take_left' (by simp), List.drop_left' (by simp)]
    simp only [List.append_assoc, Nat.add_assoc]

/-- One fixed token's host bytes. -/
theorem decodeToken_fixed (m : Memory) (len room p : Nat) (t : Token) (h : t.Fixed) :
    decodeToken m len room p t = (hostOf [t] (Memory.readBytes m (0x218 + p) t.wsize), p + t.wsize, false) := by
  cases t with
  | v => exact absurd rfl h.1
  | avar => exact absurd rfl h.2
  | b => simp [decodeToken, hostOf, Token.wsize]
  | w => simp [decodeToken, hostOf, Token.wsize, leBytes_beNat]
  | d => simp [decodeToken, hostOf, Token.wsize, leBytes_beNat]
  | u =>
    simp only [decodeToken, hostOf, Token.wsize, uidLe, uidOfBe, BitVec.toNat_ofNat, List.append_nil, Prod.mk.injEq,
      and_true]
    have h1 : ((Memory.readBytes m (pdBase + p) 6).take 2).length = 2 := by simp
    have h2 : ((Memory.readBytes m (pdBase + p) 6).drop 2).length = 4 := by simp
    have l1 := leNat_lt ((Memory.readBytes m (pdBase + p) 6).take 2).reverse
    have l2 := leNat_lt ((Memory.readBytes m (pdBase + p) 6).drop 2).reverse
    rw [List.length_reverse, h1] at l1
    rw [List.length_reverse, h2] at l2
    have e1 := leBytes_beNat _ _ h1
    have e2 := leBytes_beNat _ _ h2
    simp only [beNat] at e1 e2 ⊢
    rw [Nat.mod_eq_of_lt (by omega), Nat.mod_eq_of_lt (by omega), e1, e2]
    have h3 : ((Memory.readBytes m (pdBase + p) 6).drop 2).take 4 = (Memory.readBytes m (pdBase + p) 6).drop 2 :=
      List.take_of_length_le (by simp)
    rw [← h3]; rfl
  | afix n => simp [decodeToken, hostOf, Token.wsize, List.take_of_length_le]
  | lit bs => simp [decodeToken, hostOf, Token.wsize]

/-- DecodeRecord of fixed tokens (41_codec.md R251). -/
theorem decodeRecord_fixed (m : Memory) (len room : Nat) (ts : List Token) (h : ∀ t ∈ ts, t.Fixed) :
    ∀ (rest : List Token) (acc : List Byte) (p : Nat) (ended : Bool),
    decodeRecord m len room (ts ++ rest) acc p ended =
      decodeRecord m len room rest (acc ++ hostOf ts (Memory.readBytes m (0x218 + p) (wFixed ts))) (p + wFixed ts)
        ended := by
  induction ts with
  | nil => intro rest acc p ended; simp [hostOf]
  | cons t ts ih =>
    intro rest acc p ended
    have ht := h t (by simp)
    simp only [List.cons_append, decodeRecord, decodeToken_fixed m len _ p t ht, Bool.or_false]
    rw [ih (fun x hx => h x (by simp [hx])), hostOf_cons t ts _ ht, wFixed_cons, if_neg ht.1, Memory.readBytes_append,
      List.take_left' (by simp), List.drop_left' (by simp)]
    simp only [List.append_assoc, Nat.add_assoc]

/-! ### The record loops (41_codec.md R240, R242, R250, R252) -/

/-- One record reads no host byte beyond the input. -/
theorem encodeRecord_pos (m : Memory) (len out : Nat) (ts : List Token) (h : FinalLast ts) (j : Nat)
    (hj : j + hFixed ts ≤ len) : (encodeRecord m len out ts [] j).2 ≤ len := by
  rcases finalLast_cases ts h with hf | ⟨pre, hp, rfl | rfl⟩
  · have := encodeRecord_fixed m len out ts hf [] [] j
    rw [List.append_nil] at this
    rw [this]; exact hj
  · rw [encodeRecord_fixed m len out pre hp]
    rw [hFixed_append] at hj
    simpa [encodeRecord, encodeToken, hFixed, Token.hsize, Nat.add_assoc] using hj
  · rw [encodeRecord_fixed m len out pre hp]
    simp [encodeRecord, encodeToken]

theorem hFixed_of_litOnly (ts : List Token) (h : litOnly ts = true) : hFixed ts = 0 := by
  induction ts with
  | nil => rfl
  | cons t ts ih =>
    simp only [litOnly, List.all_cons, Bool.and_eq_true] at h
    rw [hFixed_cons, ih h.2]
    cases t <;> simp_all [Token.isLit, Token.hsize]

/-- The encode loop stays in the output cap and in its input. -/
theorem encodeLoop_bounds (m : Memory) (toks : List Token) (len : Nat) (h : FinalLast toks) (fuel : Nat) :
    ∀ p : Pass, p.bytes.length ≤ 231 → p.pos ≤ len →
      (encodeLoop m toks len fuel p).bytes.length ≤ 231 ∧ (encodeLoop m toks len fuel p).pos ≤ len := by
  induction fuel with
  | zero => intro p h1 h2; exact ⟨h1, h2⟩
  | succ n ih =>
    intro p h1 h2
    simp only [encodeLoop]
    split
    next hr =>
      have hj : p.pos + hFixed toks ≤ len := by
        unfold encodeMayRun at hr
        split at hr
        next hl => rw [hFixed_of_litOnly _ hl]; omega
        next => simp only [Bool.and_eq_true, decide_eq_true_eq] at hr; omega
      have hpos := encodeRecord_pos m len p.bytes.length toks h p.pos hj
      split
      next hcap => exact ⟨h1, h2⟩
      next hcap =>
        have hb : (p.bytes ++ (encodeRecord m len p.bytes.length toks [] p.pos).1).length ≤ 231 := by
          simp at hcap ⊢; omega
        split
        · exact ⟨hb, hpos⟩
        · exact ih _ hb hpos
    next => exact ⟨h1, h2⟩

/-- One record writes no host byte beyond the room. -/
theorem decodeRecord_room (m : Memory) (len room : Nat) (ts : List Token) (h : FinalLast ts) (p : Nat)
    (hr : hFixed ts + (if hasVarA ts then 1 else 0) ≤ room) :
    (decodeRecord m len room ts [] p false).1.length ≤ room := by
  rcases finalLast_cases ts h with hf | ⟨pre, hp, rfl | rfl⟩
  · have := decodeRecord_fixed m len room ts hf [] [] p false
    rw [List.append_nil] at this
    rw [this, decodeRecord, List.nil_append, length_hostOf ts hf _ (by simp)]
    omega
  · rw [decodeRecord_fixed m len room pre hp]
    rw [hFixed_append] at hr
    have : hFixed [.v] = 6 := rfl
    simp only [decodeRecord, decodeToken]
    split <;> simp [length_hostOf pre hp] <;> omega
  · rw [decodeRecord_fixed m len room pre hp]
    have hl := length_hostOf pre hp (Memory.readBytes m (0x218 + p) (wFixed pre)) (by simp)
    have hv : hasVarA (pre ++ [.avar]) = true := by simp [hasVarA]
    rw [hv, if_pos rfl, hFixed_append] at hr
    simp only [decodeRecord, decodeToken]
    simp [hl]
    omega

/-- The decode loop stays in the room of its output. -/
theorem decodeLoop_bounds (m : Memory) (toks : List Token) (len cap : Nat) (h : FinalLast toks) (fuel : Nat) :
    ∀ p : Pass, p.bytes.length ≤ cap → (decodeLoop m toks len cap fuel p).bytes.length ≤ cap := by
  induction fuel with
  | zero => intro p h1; exact h1
  | succ n ih =>
    intro p h1
    simp only [decodeLoop]
    split
    next hr =>
      have hc : hFixed toks + (if hasVarA toks then 1 else 0) ≤ cap - p.bytes.length := by
        simp only [decodeMayRun, Bool.and_eq_true, decide_eq_true_eq] at hr; exact hr.2
      have hb := decodeRecord_room m len _ toks h p.pos hc
      have : (p.bytes ++ (decodeRecord m len (cap - p.bytes.length) toks [] p.pos false).1).length ≤ cap := by
        rw [List.length_append]; omega
      split
      · exact this
      · exact ih _ this
    next => exact h1

end Sys2Proof.Machine
end

