-- ==== Sys2Proof/Laws/Config.lean ====
section
/-! SUPPORT. The instantiated parameters meet the constraints of 00_scope.md R9. -/

namespace Sys2Proof.Config

theorem legal : Legal := by decide

end Sys2Proof.Config
end

