-- ==== Sys2Proof/Laws/State.lean ====
section
/-! SUPPORT. What every shared update of the state does to every field, one lemma a field, each true by `rfl`. -/

namespace Sys2Proof.Machine

/-! ### done -/

@[simp] theorem done_status (s : State) : (done s).status = s.status.done := rfl
@[simp] theorem done_config (s : State) : (done s).config = s.config := rfl
@[simp] theorem done_irqEn (s : State) : (done s).irqEn = s.irqEn := rfl
@[simp] theorem done_irqPend (s : State) : (done s).irqPend = s.irqPend := rfl
@[simp] theorem done_portId (s : State) : (done s).portId = s.portId := rfl
@[simp] theorem done_tnCtr (s : State) : (done s).tnCtr = s.tnCtr := rfl
@[simp] theorem done_uid (s : State) : (done s).uid = s.uid := rfl
@[simp] theorem done_tx (s : State) : (done s).tx = s.tx := rfl
@[simp] theorem done_rx (s : State) : (done s).rx = s.rx := rfl
@[simp] theorem done_framer (s : State) : (done s).framer = s.framer := rfl
@[simp] theorem done_codec (s : State) : (done s).codec = s.codec := rfl
@[simp] theorem done_disc (s : State) : (done s).disc = s.disc := rfl
@[simp] theorem done_timing (s : State) : (done s).timing = s.timing := rfl
@[simp] theorem done_discovery (s : State) : (done s).discovery = s.discovery := rfl
@[simp] theorem done_dispatch (s : State) : (done s).dispatch = s.dispatch := rfl
@[simp] theorem done_pidTable (s : State) : (done s).pidTable = s.pidTable := rfl
@[simp] theorem done_mem (s : State) : (done s).mem = s.mem := rfl
@[simp] theorem done_now (s : State) : (done s).now = s.now := rfl
@[simp] theorem done_readData (s : State) : (done s).readData = s.readData := rfl
@[simp] theorem done_inputs (s : State) : (done s).inputs = s.inputs := rfl

/-! ### raiseError -/

@[simp] theorem raiseError_status (s : State) (e : CmdError) : (raiseError e s).status = s.status.raised e.code := rfl
@[simp] theorem raiseError_config (s : State) (e : CmdError) : (raiseError e s).config = s.config := rfl
@[simp] theorem raiseError_irqEn (s : State) (e : CmdError) : (raiseError e s).irqEn = s.irqEn := rfl
@[simp] theorem raiseError_irqPend (s : State) (e : CmdError) : (raiseError e s).irqPend = s.irqPend := rfl
@[simp] theorem raiseError_portId (s : State) (e : CmdError) : (raiseError e s).portId = s.portId := rfl
@[simp] theorem raiseError_tnCtr (s : State) (e : CmdError) : (raiseError e s).tnCtr = s.tnCtr := rfl
@[simp] theorem raiseError_uid (s : State) (e : CmdError) : (raiseError e s).uid = s.uid := rfl
@[simp] theorem raiseError_tx (s : State) (e : CmdError) : (raiseError e s).tx = s.tx := rfl
@[simp] theorem raiseError_rx (s : State) (e : CmdError) : (raiseError e s).rx = s.rx := rfl
@[simp] theorem raiseError_framer (s : State) (e : CmdError) : (raiseError e s).framer = s.framer := rfl
@[simp] theorem raiseError_codec (s : State) (e : CmdError) : (raiseError e s).codec = s.codec := rfl
@[simp] theorem raiseError_disc (s : State) (e : CmdError) : (raiseError e s).disc = s.disc := rfl
@[simp] theorem raiseError_timing (s : State) (e : CmdError) : (raiseError e s).timing = s.timing := rfl
@[simp] theorem raiseError_discovery (s : State) (e : CmdError) : (raiseError e s).discovery = s.discovery := rfl
@[simp] theorem raiseError_dispatch (s : State) (e : CmdError) : (raiseError e s).dispatch = s.dispatch := rfl
@[simp] theorem raiseError_pidTable (s : State) (e : CmdError) : (raiseError e s).pidTable = s.pidTable := rfl
@[simp] theorem raiseError_mem (s : State) (e : CmdError) : (raiseError e s).mem = s.mem := rfl
@[simp] theorem raiseError_now (s : State) (e : CmdError) : (raiseError e s).now = s.now := rfl
@[simp] theorem raiseError_readData (s : State) (e : CmdError) : (raiseError e s).readData = s.readData := rfl
@[simp] theorem raiseError_inputs (s : State) (e : CmdError) : (raiseError e s).inputs = s.inputs := rfl

/-! ### raiseIrq -/

@[simp] theorem raiseIrq_status (s : State) (src : IrqSource) : (raiseIrq src s).status = s.status := rfl
@[simp] theorem raiseIrq_config (s : State) (src : IrqSource) : (raiseIrq src s).config = s.config := rfl
@[simp] theorem raiseIrq_irqEn (s : State) (src : IrqSource) : (raiseIrq src s).irqEn = s.irqEn := rfl
@[simp] theorem raiseIrq_irqPend (s : State) (src : IrqSource) :
    (raiseIrq src s).irqPend = s.irqPend ||| src.mask := rfl
@[simp] theorem raiseIrq_portId (s : State) (src : IrqSource) : (raiseIrq src s).portId = s.portId := rfl
@[simp] theorem raiseIrq_tnCtr (s : State) (src : IrqSource) : (raiseIrq src s).tnCtr = s.tnCtr := rfl
@[simp] theorem raiseIrq_uid (s : State) (src : IrqSource) : (raiseIrq src s).uid = s.uid := rfl
@[simp] theorem raiseIrq_tx (s : State) (src : IrqSource) : (raiseIrq src s).tx = s.tx := rfl
@[simp] theorem raiseIrq_rx (s : State) (src : IrqSource) : (raiseIrq src s).rx = s.rx := rfl
@[simp] theorem raiseIrq_framer (s : State) (src : IrqSource) : (raiseIrq src s).framer = s.framer := rfl
@[simp] theorem raiseIrq_codec (s : State) (src : IrqSource) : (raiseIrq src s).codec = s.codec := rfl
@[simp] theorem raiseIrq_disc (s : State) (src : IrqSource) : (raiseIrq src s).disc = s.disc := rfl
@[simp] theorem raiseIrq_timing (s : State) (src : IrqSource) : (raiseIrq src s).timing = s.timing := rfl
@[simp] theorem raiseIrq_discovery (s : State) (src : IrqSource) : (raiseIrq src s).discovery = s.discovery := rfl
@[simp] theorem raiseIrq_dispatch (s : State) (src : IrqSource) : (raiseIrq src s).dispatch = s.dispatch := rfl
@[simp] theorem raiseIrq_pidTable (s : State) (src : IrqSource) : (raiseIrq src s).pidTable = s.pidTable := rfl
@[simp] theorem raiseIrq_mem (s : State) (src : IrqSource) : (raiseIrq src s).mem = s.mem := rfl
@[simp] theorem raiseIrq_now (s : State) (src : IrqSource) : (raiseIrq src s).now = s.now := rfl
@[simp] theorem raiseIrq_readData (s : State) (src : IrqSource) : (raiseIrq src s).readData = s.readData := rfl
@[simp] theorem raiseIrq_inputs (s : State) (src : IrqSource) : (raiseIrq src s).inputs = s.inputs := rfl

/-! ### State.memWrite -/

@[simp] theorem State.memWrite_status (s : State) (a : Nat) (bs : List Byte) :
    (s.memWrite a bs).status = s.status := rfl
@[simp] theorem State.memWrite_config (s : State) (a : Nat) (bs : List Byte) :
    (s.memWrite a bs).config = s.config := rfl
@[simp] theorem State.memWrite_irqEn (s : State) (a : Nat) (bs : List Byte) : (s.memWrite a bs).irqEn = s.irqEn := rfl
@[simp] theorem State.memWrite_irqPend (s : State) (a : Nat) (bs : List Byte) :
    (s.memWrite a bs).irqPend = s.irqPend := rfl
@[simp] theorem State.memWrite_portId (s : State) (a : Nat) (bs : List Byte) :
    (s.memWrite a bs).portId = s.portId := rfl
@[simp] theorem State.memWrite_tnCtr (s : State) (a : Nat) (bs : List Byte) : (s.memWrite a bs).tnCtr = s.tnCtr := rfl
@[simp] theorem State.memWrite_uid (s : State) (a : Nat) (bs : List Byte) : (s.memWrite a bs).uid = s.uid := rfl
@[simp] theorem State.memWrite_tx (s : State) (a : Nat) (bs : List Byte) : (s.memWrite a bs).tx = s.tx := rfl
@[simp] theorem State.memWrite_rx (s : State) (a : Nat) (bs : List Byte) : (s.memWrite a bs).rx = s.rx := rfl
@[simp] theorem State.memWrite_framer (s : State) (a : Nat) (bs : List Byte) :
    (s.memWrite a bs).framer = s.framer := rfl
@[simp] theorem State.memWrite_codec (s : State) (a : Nat) (bs : List Byte) : (s.memWrite a bs).codec = s.codec := rfl
@[simp] theorem State.memWrite_disc (s : State) (a : Nat) (bs : List Byte) : (s.memWrite a bs).disc = s.disc := rfl
@[simp] theorem State.memWrite_timing (s : State) (a : Nat) (bs : List Byte) :
    (s.memWrite a bs).timing = s.timing := rfl
@[simp] theorem State.memWrite_discovery (s : State) (a : Nat) (bs : List Byte) :
    (s.memWrite a bs).discovery = s.discovery := rfl
@[simp] theorem State.memWrite_dispatch (s : State) (a : Nat) (bs : List Byte) :
    (s.memWrite a bs).dispatch = s.dispatch := rfl
@[simp] theorem State.memWrite_pidTable (s : State) (a : Nat) (bs : List Byte) :
    (s.memWrite a bs).pidTable = s.pidTable := rfl
@[simp] theorem State.memWrite_mem (s : State) (a : Nat) (bs : List Byte) :
    (s.memWrite a bs).mem = Memory.writeBytes s.mem a bs := rfl
@[simp] theorem State.memWrite_now (s : State) (a : Nat) (bs : List Byte) : (s.memWrite a bs).now = s.now := rfl
@[simp] theorem State.memWrite_readData (s : State) (a : Nat) (bs : List Byte) :
    (s.memWrite a bs).readData = s.readData := rfl
@[simp] theorem State.memWrite_inputs (s : State) (a : Nat) (bs : List Byte) :
    (s.memWrite a bs).inputs = s.inputs := rfl

/-! ### setTokInfo -/

@[simp] theorem setTokInfo_status (s : State) (t : TokInfo) : (setTokInfo t s).status = s.status := rfl
@[simp] theorem setTokInfo_config (s : State) (t : TokInfo) : (setTokInfo t s).config = s.config := rfl
@[simp] theorem setTokInfo_irqEn (s : State) (t : TokInfo) : (setTokInfo t s).irqEn = s.irqEn := rfl
@[simp] theorem setTokInfo_irqPend (s : State) (t : TokInfo) : (setTokInfo t s).irqPend = s.irqPend := rfl
@[simp] theorem setTokInfo_portId (s : State) (t : TokInfo) : (setTokInfo t s).portId = s.portId := rfl
@[simp] theorem setTokInfo_tnCtr (s : State) (t : TokInfo) : (setTokInfo t s).tnCtr = s.tnCtr := rfl
@[simp] theorem setTokInfo_uid (s : State) (t : TokInfo) : (setTokInfo t s).uid = s.uid := rfl
@[simp] theorem setTokInfo_tx (s : State) (t : TokInfo) : (setTokInfo t s).tx = s.tx := rfl
@[simp] theorem setTokInfo_rx (s : State) (t : TokInfo) : (setTokInfo t s).rx = s.rx := rfl
@[simp] theorem setTokInfo_framer (s : State) (t : TokInfo) : (setTokInfo t s).framer = s.framer := rfl
@[simp] theorem setTokInfo_codec (s : State) (t : TokInfo) :
    (setTokInfo t s).codec = { s.codec with tokInfo := t } := rfl
@[simp] theorem setTokInfo_disc (s : State) (t : TokInfo) : (setTokInfo t s).disc = s.disc := rfl
@[simp] theorem setTokInfo_timing (s : State) (t : TokInfo) : (setTokInfo t s).timing = s.timing := rfl
@[simp] theorem setTokInfo_discovery (s : State) (t : TokInfo) : (setTokInfo t s).discovery = s.discovery := rfl
@[simp] theorem setTokInfo_dispatch (s : State) (t : TokInfo) : (setTokInfo t s).dispatch = s.dispatch := rfl
@[simp] theorem setTokInfo_pidTable (s : State) (t : TokInfo) : (setTokInfo t s).pidTable = s.pidTable := rfl
@[simp] theorem setTokInfo_mem (s : State) (t : TokInfo) : (setTokInfo t s).mem = s.mem := rfl
@[simp] theorem setTokInfo_now (s : State) (t : TokInfo) : (setTokInfo t s).now = s.now := rfl
@[simp] theorem setTokInfo_readData (s : State) (t : TokInfo) : (setTokInfo t s).readData = s.readData := rfl
@[simp] theorem setTokInfo_inputs (s : State) (t : TokInfo) : (setTokInfo t s).inputs = s.inputs := rfl

/-! ### setPdResult -/

@[simp] theorem setPdResult_status (s : State) (n k : Nat) : (setPdResult n k s).status = s.status := rfl
@[simp] theorem setPdResult_config (s : State) (n k : Nat) : (setPdResult n k s).config = s.config := rfl
@[simp] theorem setPdResult_irqEn (s : State) (n k : Nat) : (setPdResult n k s).irqEn = s.irqEn := rfl
@[simp] theorem setPdResult_irqPend (s : State) (n k : Nat) : (setPdResult n k s).irqPend = s.irqPend := rfl
@[simp] theorem setPdResult_portId (s : State) (n k : Nat) : (setPdResult n k s).portId = s.portId := rfl
@[simp] theorem setPdResult_tnCtr (s : State) (n k : Nat) : (setPdResult n k s).tnCtr = s.tnCtr := rfl
@[simp] theorem setPdResult_uid (s : State) (n k : Nat) : (setPdResult n k s).uid = s.uid := rfl
@[simp] theorem setPdResult_tx (s : State) (n k : Nat) : (setPdResult n k s).tx = s.tx := rfl
@[simp] theorem setPdResult_rx (s : State) (n k : Nat) : (setPdResult n k s).rx = s.rx := rfl
@[simp] theorem setPdResult_framer (s : State) (n k : Nat) : (setPdResult n k s).framer = s.framer := rfl
@[simp] theorem setPdResult_codec (s : State) (n k : Nat) :
    (setPdResult n k s).codec = { s.codec with hostCount := BitVec.ofNat 10 n, records := BitVec.ofNat 8 k } := rfl
@[simp] theorem setPdResult_disc (s : State) (n k : Nat) : (setPdResult n k s).disc = s.disc := rfl
@[simp] theorem setPdResult_timing (s : State) (n k : Nat) : (setPdResult n k s).timing = s.timing := rfl
@[simp] theorem setPdResult_discovery (s : State) (n k : Nat) : (setPdResult n k s).discovery = s.discovery := rfl
@[simp] theorem setPdResult_dispatch (s : State) (n k : Nat) : (setPdResult n k s).dispatch = s.dispatch := rfl
@[simp] theorem setPdResult_pidTable (s : State) (n k : Nat) : (setPdResult n k s).pidTable = s.pidTable := rfl
@[simp] theorem setPdResult_mem (s : State) (n k : Nat) : (setPdResult n k s).mem = s.mem := rfl
@[simp] theorem setPdResult_now (s : State) (n k : Nat) : (setPdResult n k s).now = s.now := rfl
@[simp] theorem setPdResult_readData (s : State) (n k : Nat) : (setPdResult n k s).readData = s.readData := rfl
@[simp] theorem setPdResult_inputs (s : State) (n k : Nat) : (setPdResult n k s).inputs = s.inputs := rfl

/-! ### pushRange -/

@[simp] theorem pushRange_status (s : State) (r : Range) : (pushRange r s).status = s.status := rfl
@[simp] theorem pushRange_config (s : State) (r : Range) : (pushRange r s).config = s.config := rfl
@[simp] theorem pushRange_irqEn (s : State) (r : Range) : (pushRange r s).irqEn = s.irqEn := rfl
@[simp] theorem pushRange_irqPend (s : State) (r : Range) : (pushRange r s).irqPend = s.irqPend := rfl
@[simp] theorem pushRange_portId (s : State) (r : Range) : (pushRange r s).portId = s.portId := rfl
@[simp] theorem pushRange_tnCtr (s : State) (r : Range) : (pushRange r s).tnCtr = s.tnCtr := rfl
@[simp] theorem pushRange_uid (s : State) (r : Range) : (pushRange r s).uid = s.uid := rfl
@[simp] theorem pushRange_tx (s : State) (r : Range) : (pushRange r s).tx = s.tx := rfl
@[simp] theorem pushRange_rx (s : State) (r : Range) : (pushRange r s).rx = s.rx := rfl
@[simp] theorem pushRange_framer (s : State) (r : Range) : (pushRange r s).framer = s.framer := rfl
@[simp] theorem pushRange_codec (s : State) (r : Range) : (pushRange r s).codec = s.codec := rfl
@[simp] theorem pushRange_disc (s : State) (r : Range) : (pushRange r s).disc = s.disc := rfl
@[simp] theorem pushRange_timing (s : State) (r : Range) : (pushRange r s).timing = s.timing := rfl
@[simp] theorem pushRange_discovery (s : State) (r : Range) :
    (pushRange r s).discovery = { s.discovery with stack := r :: s.discovery.stack } := rfl
@[simp] theorem pushRange_dispatch (s : State) (r : Range) : (pushRange r s).dispatch = s.dispatch := rfl
@[simp] theorem pushRange_pidTable (s : State) (r : Range) : (pushRange r s).pidTable = s.pidTable := rfl
@[simp] theorem pushRange_mem (s : State) (r : Range) : (pushRange r s).mem = s.mem := rfl
@[simp] theorem pushRange_now (s : State) (r : Range) : (pushRange r s).now = s.now := rfl
@[simp] theorem pushRange_readData (s : State) (r : Range) : (pushRange r s).readData = s.readData := rfl
@[simp] theorem pushRange_inputs (s : State) (r : Range) : (pushRange r s).inputs = s.inputs := rfl

/-! ### branchOver -/

@[simp] theorem branchOver_status (s : State) : (branchOver s).status = s.status := rfl
@[simp] theorem branchOver_config (s : State) : (branchOver s).config = s.config := rfl
@[simp] theorem branchOver_irqEn (s : State) : (branchOver s).irqEn = s.irqEn := rfl
@[simp] theorem branchOver_irqPend (s : State) : (branchOver s).irqPend = s.irqPend := rfl
@[simp] theorem branchOver_portId (s : State) : (branchOver s).portId = s.portId := rfl
@[simp] theorem branchOver_tnCtr (s : State) : (branchOver s).tnCtr = s.tnCtr := rfl
@[simp] theorem branchOver_uid (s : State) : (branchOver s).uid = s.uid := rfl
@[simp] theorem branchOver_tx (s : State) : (branchOver s).tx = s.tx := rfl
@[simp] theorem branchOver_rx (s : State) : (branchOver s).rx = s.rx := rfl
@[simp] theorem branchOver_framer (s : State) : (branchOver s).framer = s.framer := rfl
@[simp] theorem branchOver_codec (s : State) : (branchOver s).codec = s.codec := rfl
@[simp] theorem branchOver_disc (s : State) : (branchOver s).disc = s.disc := rfl
@[simp] theorem branchOver_timing (s : State) : (branchOver s).timing = s.timing := rfl
@[simp] theorem branchOver_discovery (s : State) :
    (branchOver s).discovery = { s.discovery with phase := .ready } := rfl
@[simp] theorem branchOver_dispatch (s : State) : (branchOver s).dispatch = s.dispatch := rfl
@[simp] theorem branchOver_pidTable (s : State) : (branchOver s).pidTable = s.pidTable := rfl
@[simp] theorem branchOver_mem (s : State) : (branchOver s).mem = s.mem := rfl
@[simp] theorem branchOver_now (s : State) : (branchOver s).now = s.now := rfl
@[simp] theorem branchOver_readData (s : State) : (branchOver s).readData = s.readData := rfl
@[simp] theorem branchOver_inputs (s : State) : (branchOver s).inputs = s.inputs := rfl

/-! ### answer -/

@[simp] theorem answer_status (s : State) (rt len : Byte) : (answer rt len s).status = s.status := rfl
@[simp] theorem answer_config (s : State) (rt len : Byte) : (answer rt len s).config = s.config := rfl
@[simp] theorem answer_irqEn (s : State) (rt len : Byte) : (answer rt len s).irqEn = s.irqEn := rfl
@[simp] theorem answer_irqPend (s : State) (rt len : Byte) : (answer rt len s).irqPend = s.irqPend := rfl
@[simp] theorem answer_portId (s : State) (rt len : Byte) : (answer rt len s).portId = s.portId := rfl
@[simp] theorem answer_tnCtr (s : State) (rt len : Byte) : (answer rt len s).tnCtr = s.tnCtr := rfl
@[simp] theorem answer_uid (s : State) (rt len : Byte) : (answer rt len s).uid = s.uid := rfl
@[simp] theorem answer_tx (s : State) (rt len : Byte) :
    (answer rt len s).tx = { s.tx with ctl0 := { s.tx.ctl0 with portRt := rt }, pdl := len } := rfl
@[simp] theorem answer_rx (s : State) (rt len : Byte) : (answer rt len s).rx = s.rx := rfl
@[simp] theorem answer_framer (s : State) (rt len : Byte) : (answer rt len s).framer = s.framer := rfl
@[simp] theorem answer_codec (s : State) (rt len : Byte) : (answer rt len s).codec = s.codec := rfl
@[simp] theorem answer_disc (s : State) (rt len : Byte) : (answer rt len s).disc = s.disc := rfl
@[simp] theorem answer_timing (s : State) (rt len : Byte) : (answer rt len s).timing = s.timing := rfl
@[simp] theorem answer_discovery (s : State) (rt len : Byte) : (answer rt len s).discovery = s.discovery := rfl
@[simp] theorem answer_dispatch (s : State) (rt len : Byte) :
    (answer rt len s).dispatch = { s.dispatch with action := .send, phase := .answering } := rfl
@[simp] theorem answer_pidTable (s : State) (rt len : Byte) : (answer rt len s).pidTable = s.pidTable := rfl
@[simp] theorem answer_mem (s : State) (rt len : Byte) : (answer rt len s).mem = s.mem := rfl
@[simp] theorem answer_now (s : State) (rt len : Byte) : (answer rt len s).now = s.now := rfl
@[simp] theorem answer_readData (s : State) (rt len : Byte) : (answer rt len s).readData = s.readData := rfl
@[simp] theorem answer_inputs (s : State) (rt len : Byte) : (answer rt len s).inputs = s.inputs := rfl

/-! ### suppressResponse -/

@[simp] theorem suppressResponse_status (s : State) : (suppressResponse s).status = s.status := rfl
@[simp] theorem suppressResponse_config (s : State) : (suppressResponse s).config = s.config := rfl
@[simp] theorem suppressResponse_irqEn (s : State) : (suppressResponse s).irqEn = s.irqEn := rfl
@[simp] theorem suppressResponse_irqPend (s : State) : (suppressResponse s).irqPend = s.irqPend := rfl
@[simp] theorem suppressResponse_portId (s : State) : (suppressResponse s).portId = s.portId := rfl
@[simp] theorem suppressResponse_tnCtr (s : State) : (suppressResponse s).tnCtr = s.tnCtr := rfl
@[simp] theorem suppressResponse_uid (s : State) : (suppressResponse s).uid = s.uid := rfl
@[simp] theorem suppressResponse_tx (s : State) : (suppressResponse s).tx = s.tx := rfl
@[simp] theorem suppressResponse_rx (s : State) : (suppressResponse s).rx = s.rx := rfl
@[simp] theorem suppressResponse_framer (s : State) : (suppressResponse s).framer = s.framer := rfl
@[simp] theorem suppressResponse_codec (s : State) : (suppressResponse s).codec = s.codec := rfl
@[simp] theorem suppressResponse_disc (s : State) : (suppressResponse s).disc = s.disc := rfl
@[simp] theorem suppressResponse_timing (s : State) : (suppressResponse s).timing = s.timing := rfl
@[simp] theorem suppressResponse_discovery (s : State) : (suppressResponse s).discovery = s.discovery := rfl
@[simp] theorem suppressResponse_dispatch (s : State) :
    (suppressResponse s).dispatch = { s.dispatch with suppressed := true, action := .none, phase := .suppressed } := rfl
@[simp] theorem suppressResponse_pidTable (s : State) : (suppressResponse s).pidTable = s.pidTable := rfl
@[simp] theorem suppressResponse_mem (s : State) : (suppressResponse s).mem = s.mem := rfl
@[simp] theorem suppressResponse_now (s : State) : (suppressResponse s).now = s.now := rfl
@[simp] theorem suppressResponse_readData (s : State) : (suppressResponse s).readData = s.readData := rfl
@[simp] theorem suppressResponse_inputs (s : State) : (suppressResponse s).inputs = s.inputs := rfl

/-! ### clearDecision -/

@[simp] theorem clearDecision_status (s : State) : (clearDecision s).status = s.status := rfl
@[simp] theorem clearDecision_config (s : State) : (clearDecision s).config = s.config := rfl
@[simp] theorem clearDecision_irqEn (s : State) : (clearDecision s).irqEn = s.irqEn := rfl
@[simp] theorem clearDecision_irqPend (s : State) : (clearDecision s).irqPend = s.irqPend := rfl
@[simp] theorem clearDecision_portId (s : State) : (clearDecision s).portId = s.portId := rfl
@[simp] theorem clearDecision_tnCtr (s : State) : (clearDecision s).tnCtr = s.tnCtr := rfl
@[simp] theorem clearDecision_uid (s : State) : (clearDecision s).uid = s.uid := rfl
@[simp] theorem clearDecision_tx (s : State) : (clearDecision s).tx = s.tx := rfl
@[simp] theorem clearDecision_rx (s : State) : (clearDecision s).rx = s.rx := rfl
@[simp] theorem clearDecision_framer (s : State) : (clearDecision s).framer = s.framer := rfl
@[simp] theorem clearDecision_codec (s : State) : (clearDecision s).codec = s.codec := rfl
@[simp] theorem clearDecision_disc (s : State) : (clearDecision s).disc = s.disc := rfl
@[simp] theorem clearDecision_timing (s : State) : (clearDecision s).timing = s.timing := rfl
@[simp] theorem clearDecision_discovery (s : State) : (clearDecision s).discovery = s.discovery := rfl
@[simp] theorem clearDecision_dispatch (s : State) :
    (clearDecision s).dispatch =
      { s.dispatch with action := .none, suppressed := false, nacked := false, notTarget := false, nackReason := 0 } := rfl
@[simp] theorem clearDecision_pidTable (s : State) : (clearDecision s).pidTable = s.pidTable := rfl
@[simp] theorem clearDecision_mem (s : State) : (clearDecision s).mem = s.mem := rfl
@[simp] theorem clearDecision_now (s : State) : (clearDecision s).now = s.now := rfl
@[simp] theorem clearDecision_readData (s : State) : (clearDecision s).readData = s.readData := rfl
@[simp] theorem clearDecision_inputs (s : State) : (clearDecision s).inputs = s.inputs := rfl

/-! ### prepareRequest -/

@[simp] theorem prepareRequest_status (s : State) (dest : Uid) (pid : Half) (pd : List Byte) :
    (prepareRequest dest pid pd s).status = s.status := rfl
@[simp] theorem prepareRequest_config (s : State) (dest : Uid) (pid : Half) (pd : List Byte) :
    (prepareRequest dest pid pd s).config = s.config := rfl
@[simp] theorem prepareRequest_irqEn (s : State) (dest : Uid) (pid : Half) (pd : List Byte) :
    (prepareRequest dest pid pd s).irqEn = s.irqEn := rfl
@[simp] theorem prepareRequest_irqPend (s : State) (dest : Uid) (pid : Half) (pd : List Byte) :
    (prepareRequest dest pid pd s).irqPend = s.irqPend := rfl
@[simp] theorem prepareRequest_portId (s : State) (dest : Uid) (pid : Half) (pd : List Byte) :
    (prepareRequest dest pid pd s).portId = s.portId := rfl
@[simp] theorem prepareRequest_tnCtr (s : State) (dest : Uid) (pid : Half) (pd : List Byte) :
    (prepareRequest dest pid pd s).tnCtr = s.tnCtr := rfl
@[simp] theorem prepareRequest_uid (s : State) (dest : Uid) (pid : Half) (pd : List Byte) :
    (prepareRequest dest pid pd s).uid = s.uid := rfl
@[simp] theorem prepareRequest_tx (s : State) (dest : Uid) (pid : Half) (pd : List Byte) :
    (prepareRequest dest pid pd s).tx = ⟨dest, s.uid.self, { s.tx.ctl0 with portRt := s.portId, msgCount := 0, cc := Config.ccDisc }, ⟨0, pid⟩,
      BitVec.ofNat 8 pd.length⟩ := rfl
@[simp] theorem prepareRequest_rx (s : State) (dest : Uid) (pid : Half) (pd : List Byte) :
    (prepareRequest dest pid pd s).rx = s.rx := rfl
@[simp] theorem prepareRequest_framer (s : State) (dest : Uid) (pid : Half) (pd : List Byte) :
    (prepareRequest dest pid pd s).framer = s.framer := rfl
@[simp] theorem prepareRequest_codec (s : State) (dest : Uid) (pid : Half) (pd : List Byte) :
    (prepareRequest dest pid pd s).codec = { s.codec with pdLen := BitVec.ofNat 8 pd.length } := rfl
@[simp] theorem prepareRequest_disc (s : State) (dest : Uid) (pid : Half) (pd : List Byte) :
    (prepareRequest dest pid pd s).disc = s.disc := rfl
@[simp] theorem prepareRequest_timing (s : State) (dest : Uid) (pid : Half) (pd : List Byte) :
    (prepareRequest dest pid pd s).timing = s.timing := rfl
@[simp] theorem prepareRequest_discovery (s : State) (dest : Uid) (pid : Half) (pd : List Byte) :
    (prepareRequest dest pid pd s).discovery = s.discovery := rfl
@[simp] theorem prepareRequest_dispatch (s : State) (dest : Uid) (pid : Half) (pd : List Byte) :
    (prepareRequest dest pid pd s).dispatch = s.dispatch := rfl
@[simp] theorem prepareRequest_pidTable (s : State) (dest : Uid) (pid : Half) (pd : List Byte) :
    (prepareRequest dest pid pd s).pidTable = s.pidTable := rfl
@[simp] theorem prepareRequest_mem (s : State) (dest : Uid) (pid : Half) (pd : List Byte) :
    (prepareRequest dest pid pd s).mem = Memory.writeBytes s.mem pdBase pd := rfl
@[simp] theorem prepareRequest_now (s : State) (dest : Uid) (pid : Half) (pd : List Byte) :
    (prepareRequest dest pid pd s).now = s.now := rfl
@[simp] theorem prepareRequest_readData (s : State) (dest : Uid) (pid : Half) (pd : List Byte) :
    (prepareRequest dest pid pd s).readData = s.readData := rfl
@[simp] theorem prepareRequest_inputs (s : State) (dest : Uid) (pid : Half) (pd : List Byte) :
    (prepareRequest dest pid pd s).inputs = s.inputs := rfl

/-! ### buildFrame -/

@[simp] theorem buildFrame_status (s : State) : (buildFrame s).status = s.status := by
  unfold buildFrame; rfl
@[simp] theorem buildFrame_config (s : State) : (buildFrame s).config = s.config := by
  unfold buildFrame; rfl
@[simp] theorem buildFrame_irqEn (s : State) : (buildFrame s).irqEn = s.irqEn := by
  unfold buildFrame; rfl
@[simp] theorem buildFrame_irqPend (s : State) : (buildFrame s).irqPend = s.irqPend := by
  unfold buildFrame; rfl
@[simp] theorem buildFrame_portId (s : State) : (buildFrame s).portId = s.portId := by
  unfold buildFrame; rfl
@[simp] theorem buildFrame_tnCtr (s : State) : (buildFrame s).tnCtr = s.tnCtr := by
  unfold buildFrame; rfl
@[simp] theorem buildFrame_uid (s : State) : (buildFrame s).uid = s.uid := by
  unfold buildFrame; rfl
@[simp] theorem buildFrame_tx (s : State) : (buildFrame s).tx = s.tx := by
  unfold buildFrame; rfl
@[simp] theorem buildFrame_rx (s : State) : (buildFrame s).rx = s.rx := by
  unfold buildFrame; rfl
@[simp] theorem buildFrame_framer (s : State) :
    (buildFrame s).framer = { s.framer with
      frameLen := BitVec.ofNat 9 (Config.hdrLen + 2 + s.tx.pdl.toNat), ckComputed := frameChecksum s } := by
  unfold buildFrame; rfl
@[simp] theorem buildFrame_codec (s : State) : (buildFrame s).codec = s.codec := by
  unfold buildFrame; rfl
@[simp] theorem buildFrame_disc (s : State) : (buildFrame s).disc = s.disc := by
  unfold buildFrame; rfl
@[simp] theorem buildFrame_timing (s : State) : (buildFrame s).timing = s.timing := by
  unfold buildFrame; rfl
@[simp] theorem buildFrame_discovery (s : State) : (buildFrame s).discovery = s.discovery := by
  unfold buildFrame; rfl
@[simp] theorem buildFrame_dispatch (s : State) : (buildFrame s).dispatch = s.dispatch := by
  unfold buildFrame; rfl
@[simp] theorem buildFrame_pidTable (s : State) : (buildFrame s).pidTable = s.pidTable := by
  unfold buildFrame; rfl
@[simp] theorem buildFrame_mem (s : State) :
    (buildFrame s).mem =
    Memory.writeBytes (frameHeaderMemory s) (frameBase + Config.hdrLen + s.tx.pdl.toNat)
      (beBytes (frameChecksum s).toNat 2) := by
  unfold buildFrame; rfl
@[simp] theorem buildFrame_now (s : State) : (buildFrame s).now = s.now := by
  unfold buildFrame; rfl
@[simp] theorem buildFrame_readData (s : State) : (buildFrame s).readData = s.readData := by
  unfold buildFrame; rfl
@[simp] theorem buildFrame_inputs (s : State) : (buildFrame s).inputs = s.inputs := by
  unfold buildFrame; rfl

/-! ### busError -/

@[simp] theorem busError_status (s : State) : (busError s).status = { s.status with busErr := true } := rfl
@[simp] theorem busError_config (s : State) : (busError s).config = s.config := rfl
@[simp] theorem busError_irqEn (s : State) : (busError s).irqEn = s.irqEn := rfl
@[simp] theorem busError_irqPend (s : State) : (busError s).irqPend = s.irqPend := rfl
@[simp] theorem busError_portId (s : State) : (busError s).portId = s.portId := rfl
@[simp] theorem busError_tnCtr (s : State) : (busError s).tnCtr = s.tnCtr := rfl
@[simp] theorem busError_uid (s : State) : (busError s).uid = s.uid := rfl
@[simp] theorem busError_tx (s : State) : (busError s).tx = s.tx := rfl
@[simp] theorem busError_rx (s : State) : (busError s).rx = s.rx := rfl
@[simp] theorem busError_framer (s : State) : (busError s).framer = s.framer := rfl
@[simp] theorem busError_codec (s : State) : (busError s).codec = s.codec := rfl
@[simp] theorem busError_disc (s : State) : (busError s).disc = s.disc := rfl
@[simp] theorem busError_timing (s : State) : (busError s).timing = s.timing := rfl
@[simp] theorem busError_discovery (s : State) : (busError s).discovery = s.discovery := rfl
@[simp] theorem busError_dispatch (s : State) : (busError s).dispatch = s.dispatch := rfl
@[simp] theorem busError_pidTable (s : State) : (busError s).pidTable = s.pidTable := rfl
@[simp] theorem busError_mem (s : State) : (busError s).mem = s.mem := rfl
@[simp] theorem busError_now (s : State) : (busError s).now = s.now := rfl
@[simp] theorem busError_readData (s : State) : (busError s).readData = s.readData := rfl
@[simp] theorem busError_inputs (s : State) : (busError s).inputs = s.inputs := rfl

/-! ### resetRegisters -/

@[simp] theorem resetRegisters_status (s : State) : (resetRegisters s).status = State.reset.status := rfl
@[simp] theorem resetRegisters_config (s : State) : (resetRegisters s).config = State.reset.config := rfl
@[simp] theorem resetRegisters_irqEn (s : State) : (resetRegisters s).irqEn = State.reset.irqEn := rfl
@[simp] theorem resetRegisters_irqPend (s : State) : (resetRegisters s).irqPend = State.reset.irqPend := rfl
@[simp] theorem resetRegisters_portId (s : State) : (resetRegisters s).portId = State.reset.portId := rfl
@[simp] theorem resetRegisters_tnCtr (s : State) : (resetRegisters s).tnCtr = State.reset.tnCtr := rfl
@[simp] theorem resetRegisters_uid (s : State) : (resetRegisters s).uid = State.reset.uid := rfl
@[simp] theorem resetRegisters_tx (s : State) : (resetRegisters s).tx = State.reset.tx := rfl
@[simp] theorem resetRegisters_rx (s : State) : (resetRegisters s).rx = State.reset.rx := rfl
@[simp] theorem resetRegisters_framer (s : State) : (resetRegisters s).framer = State.reset.framer := rfl
@[simp] theorem resetRegisters_codec (s : State) : (resetRegisters s).codec = State.reset.codec := rfl
@[simp] theorem resetRegisters_disc (s : State) : (resetRegisters s).disc = State.reset.disc := rfl
@[simp] theorem resetRegisters_timing (s : State) : (resetRegisters s).timing = State.reset.timing := rfl
@[simp] theorem resetRegisters_discovery (s : State) : (resetRegisters s).discovery = State.reset.discovery := rfl
@[simp] theorem resetRegisters_dispatch (s : State) : (resetRegisters s).dispatch = State.reset.dispatch := rfl
@[simp] theorem resetRegisters_pidTable (s : State) : (resetRegisters s).pidTable = State.reset.pidTable := rfl
@[simp] theorem resetRegisters_mem (s : State) : (resetRegisters s).mem = s.mem := rfl
@[simp] theorem resetRegisters_now (s : State) : (resetRegisters s).now = s.now := rfl
@[simp] theorem resetRegisters_readData (s : State) : (resetRegisters s).readData = s.readData := rfl
@[simp] theorem resetRegisters_inputs (s : State) : (resetRegisters s).inputs = s.inputs := rfl

/-! ### tickStep -/

@[simp] theorem tickStep_status (s : State) (k : Nat) : (tickStep k s).status = s.status := rfl
@[simp] theorem tickStep_config (s : State) (k : Nat) : (tickStep k s).config = s.config := rfl
@[simp] theorem tickStep_irqEn (s : State) (k : Nat) : (tickStep k s).irqEn = s.irqEn := rfl
@[simp] theorem tickStep_irqPend (s : State) (k : Nat) : (tickStep k s).irqPend = s.irqPend := rfl
@[simp] theorem tickStep_portId (s : State) (k : Nat) : (tickStep k s).portId = s.portId := rfl
@[simp] theorem tickStep_tnCtr (s : State) (k : Nat) : (tickStep k s).tnCtr = s.tnCtr := rfl
@[simp] theorem tickStep_uid (s : State) (k : Nat) : (tickStep k s).uid = s.uid := rfl
@[simp] theorem tickStep_tx (s : State) (k : Nat) : (tickStep k s).tx = s.tx := rfl
@[simp] theorem tickStep_rx (s : State) (k : Nat) : (tickStep k s).rx = s.rx := rfl
@[simp] theorem tickStep_framer (s : State) (k : Nat) : (tickStep k s).framer = s.framer := rfl
@[simp] theorem tickStep_codec (s : State) (k : Nat) : (tickStep k s).codec = s.codec := rfl
@[simp] theorem tickStep_disc (s : State) (k : Nat) : (tickStep k s).disc = s.disc := rfl
@[simp] theorem tickStep_timing (s : State) (k : Nat) : (tickStep k s).timing = s.timing := rfl
@[simp] theorem tickStep_discovery (s : State) (k : Nat) : (tickStep k s).discovery = s.discovery := rfl
@[simp] theorem tickStep_dispatch (s : State) (k : Nat) : (tickStep k s).dispatch = s.dispatch := rfl
@[simp] theorem tickStep_pidTable (s : State) (k : Nat) : (tickStep k s).pidTable = s.pidTable := rfl
@[simp] theorem tickStep_mem (s : State) (k : Nat) : (tickStep k s).mem = s.mem := rfl
@[simp] theorem tickStep_now (s : State) (k : Nat) : (tickStep k s).now = s.now + BitVec.ofNat 64 k := rfl
@[simp] theorem tickStep_readData (s : State) (k : Nat) : (tickStep k s).readData = s.readData := rfl
@[simp] theorem tickStep_inputs (s : State) (k : Nat) : (tickStep k s).inputs = s.inputs := rfl

/-! ### placeCommand -/

@[simp] theorem placeCommand_status (s : State) (w : Word) : (placeCommand w s).status = s.status := rfl
@[simp] theorem placeCommand_config (s : State) (w : Word) : (placeCommand w s).config = s.config := rfl
@[simp] theorem placeCommand_irqEn (s : State) (w : Word) : (placeCommand w s).irqEn = s.irqEn := rfl
@[simp] theorem placeCommand_irqPend (s : State) (w : Word) : (placeCommand w s).irqPend = s.irqPend := rfl
@[simp] theorem placeCommand_portId (s : State) (w : Word) : (placeCommand w s).portId = s.portId := rfl
@[simp] theorem placeCommand_tnCtr (s : State) (w : Word) : (placeCommand w s).tnCtr = s.tnCtr := rfl
@[simp] theorem placeCommand_uid (s : State) (w : Word) : (placeCommand w s).uid = s.uid := rfl
@[simp] theorem placeCommand_tx (s : State) (w : Word) : (placeCommand w s).tx = s.tx := rfl
@[simp] theorem placeCommand_rx (s : State) (w : Word) : (placeCommand w s).rx = s.rx := rfl
@[simp] theorem placeCommand_framer (s : State) (w : Word) : (placeCommand w s).framer = s.framer := rfl
@[simp] theorem placeCommand_codec (s : State) (w : Word) : (placeCommand w s).codec = s.codec := rfl
@[simp] theorem placeCommand_disc (s : State) (w : Word) : (placeCommand w s).disc = s.disc := rfl
@[simp] theorem placeCommand_timing (s : State) (w : Word) : (placeCommand w s).timing = s.timing := rfl
@[simp] theorem placeCommand_discovery (s : State) (w : Word) : (placeCommand w s).discovery = s.discovery := rfl
@[simp] theorem placeCommand_dispatch (s : State) (w : Word) : (placeCommand w s).dispatch = s.dispatch := rfl
@[simp] theorem placeCommand_pidTable (s : State) (w : Word) : (placeCommand w s).pidTable = s.pidTable := rfl
@[simp] theorem placeCommand_mem (s : State) (w : Word) : (placeCommand w s).mem = s.mem := rfl
@[simp] theorem placeCommand_now (s : State) (w : Word) : (placeCommand w s).now = s.now := rfl
@[simp] theorem placeCommand_readData (s : State) (w : Word) : (placeCommand w s).readData = s.readData := rfl
@[simp] theorem placeCommand_inputs (s : State) (w : Word) :
    (placeCommand w s).inputs = .hostWrite cmdOffset w :: s.inputs := rfl

end Sys2Proof.Machine
end

