-- ==== Sys2Proof/Laws/Framer.lean ====
section
/-! SUPPORT. What the framer's decoders see: FRAME and DISC byte by byte, and each decoder as its chain of checks. -/

namespace Sys2Proof.Machine

/-- FR_DECODE reads the bytes of FRAME one by one (42_framer.md R307). -/
theorem memRead_getD (s : State) (a n i : Nat) (h : i < n) : (s.memRead a n).getD i 0 = Memory.read s.mem (a + i) :=
  Memory.getD_readBytes _ _ _ _ h

theorem readBytes_take (m : Memory) (a n k : Nat) (h : k ≤ n) :
    (Memory.readBytes m a n).take k = Memory.readBytes m a k := by
  obtain ⟨j, rfl⟩ := Nat.exists_eq_add_of_le h
  rw [Memory.readBytes_append, List.take_left' (by simp)]

theorem readBytes_drop (m : Memory) (a n k : Nat) (h : k ≤ n) :
    (Memory.readBytes m a n).drop k = Memory.readBytes m (a + k) (n - k) := by
  obtain ⟨j, rfl⟩ := Nat.exists_eq_add_of_le h
  rw [Memory.readBytes_append, List.drop_left' (by simp)]; congr 1; omega

theorem readBytes_slice (m : Memory) (a n k j : Nat) (h : k + j ≤ n) :
    ((Memory.readBytes m a n).drop k).take j = Memory.readBytes m (a + k) j := by
  rw [readBytes_drop _ _ _ _ (by omega), readBytes_take _ _ _ _ (by omega)]

theorem execFrDecode_eq (s : State) : execFrDecode s =
    if s.framer.rxLen.toNat > 260 then .next (frDecodeFail .fRxLen s)
    else if s.framer.rxLen.toNat < 26 then .next (frDecodeFail .fTruncated s)
    else if frameByte s 0 ≠ 0xCC then .next (frDecodeFail .fBadSc s)
    else if frameByte s 1 ≠ 0x01 then .next (frDecodeFail .fBadSsc s)
    else if (frameByte s 2).toNat ≠ 24 + (frameByte s 23).toNat then .next (frDecodeFail .fBadLen s)
    else if s.framer.rxLen.toNat < (frameByte s 2).toNat + 2 then .next (frDecodeFail .fTruncated s)
    else
      let c := sum16 (s.memRead 0x200 (frameByte s 2).toNat)
      let r : Half := frameByte s (frameByte s 2).toNat ++ frameByte s ((frameByte s 2).toNat + 1)
      let s₁ := { s with framer := { s.framer with ckComputed := c, ckReceived := r } }
      if c ≠ r then .next (frDecodeFail .fBadChecksum s₁)
      else .next (done (acceptFrame (headerOfBytes (s.memRead 0x200 24)) s₁)) := by
  have g : ∀ i, i < s.framer.rxLen.toNat → (s.memRead frameBase s.framer.rxLen.toNat).getD i 0 = frameByte s i :=
    fun i h => memRead_getD s _ _ i h
  unfold execFrDecode
  simp only []
  by_cases h1 : s.framer.rxLen.toNat > 260
  · rw [if_pos h1, if_pos (by simpa using h1)]
  rw [if_neg h1, if_neg (by simpa using h1)]
  by_cases h2 : s.framer.rxLen.toNat < 26
  · rw [if_pos h2, if_pos (by simpa using h2)]
  rw [if_neg h2, if_neg (by simpa using h2)]
  rw [g 0 (by omega), g 1 (by omega), g 2 (by omega), g 23 (by omega)]
  by_cases h3 : frameByte s 0 ≠ 0xCC
  · rw [if_pos (show frameByte s 0 ≠ Config.sc from h3), if_pos h3]
  rw [if_neg (show ¬frameByte s 0 ≠ Config.sc from h3), if_neg h3]
  by_cases h4 : frameByte s 1 ≠ 0x01
  · rw [if_pos (show frameByte s 1 ≠ Config.ssc from h4), if_pos h4]
  rw [if_neg (show ¬frameByte s 1 ≠ Config.ssc from h4), if_neg h4]
  by_cases h5 : (frameByte s 2).toNat ≠ 24 + (frameByte s 23).toNat
  · rw [if_pos (show (frameByte s 2).toNat ≠ Config.hdrLen + (frameByte s 23).toNat from h5), if_pos h5]
  rw [if_neg (show ¬(frameByte s 2).toNat ≠ Config.hdrLen + (frameByte s 23).toNat from h5), if_neg h5]
  by_cases h6 : s.framer.rxLen.toNat < (frameByte s 2).toNat + 2
  · rw [if_pos h6, if_pos h6]
  rw [if_neg h6, if_neg h6]
  have hl := (frameByte s 2).isLt
  have e1 : (s.memRead frameBase s.framer.rxLen.toNat).take (frameByte s 2).toNat =
      s.memRead 0x200 (frameByte s 2).toNat :=
    readBytes_take _ _ _ _ (by omega)
  have e2 : ((s.memRead frameBase s.framer.rxLen.toNat).drop (frameByte s 2).toNat).take 2 =
      [frameByte s (frameByte s 2).toNat, frameByte s ((frameByte s 2).toNat + 1)] := by
    simp only [State.memRead]
    rw [readBytes_slice _ _ _ _ _ (by omega)]; rfl
  have e3 : headerOfBytes (s.memRead frameBase s.framer.rxLen.toNat) = headerOfBytes (s.memRead 0x200 24) := by
    have w : ∀ i, i < 24 → (s.memRead 0x200 24).getD i 0 = frameByte s i := fun i h => memRead_getD s _ _ i h
    have a1 := fun k j (h : k + j ≤ 24) => readBytes_slice s.mem 0x200 24 k j h
    have a2 := fun k j (h : k + j ≤ s.framer.rxLen.toNat) => readBytes_slice s.mem 0x200 s.framer.rxLen.toNat k j h
    simp only [headerOfBytes, g 15 (by omega), g 16 (by omega), g 17 (by omega), g 20 (by omega), g 23 (by omega),
      w 15 (by omega), w 16 (by omega), w 17 (by omega), w 20 (by omega), w 23 (by omega)]
    simp only [State.memRead, frameBase, a1 3 6 (by omega), a2 3 6 (by omega), a1 9 6 (by omega), a2 9 6 (by omega),
      a1 18 2 (by omega), a2 18 2 (by omega), a1 21 2 (by omega), a2 21 2 (by omega)]
  simp only [e1, e2, e3, beNat_pair]

theorem headerOfBytes_frame (s : State) : headerOfBytes (s.memRead 0x200 24) =
  { dest := ⟨frameByte s 3 ++ frameByte s 4, frameByte s 5 ++ frameByte s 6 ++ frameByte s 7 ++ frameByte s 8⟩
    src := ⟨frameByte s 9 ++ frameByte s 10, frameByte s 11 ++ frameByte s 12 ++ frameByte s 13 ++ frameByte s 14⟩
    ctl0 := ⟨frameByte s 15, frameByte s 16, frameByte s 17, frameByte s 20⟩
    ctl1 := ⟨frameByte s 18 ++ frameByte s 19, frameByte s 21 ++ frameByte s 22⟩
    pdl := frameByte s 23 } := by
  have a1 := fun k j (h : k + j ≤ 24) => readBytes_slice s.mem 0x200 24 k j h
  have w : ∀ i, i < 24 → (Memory.readBytes s.mem 0x200 24).getD i 0 = frameByte s i :=
    fun i h => memRead_getD s _ _ i h
  simp only [headerOfBytes, State.memRead, a1 3 6 (by omega), a1 9 6 (by omega), a1 18 2 (by omega), a1 21 2 (by omega),
    w 15 (by omega), w 16 (by omega), w 17 (by omega), w 20 (by omega), w 23 (by omega)]
  simp only [Memory.readBytes, uidOfBe_six, beNat_pair, frameByte]

/-- The encoded bytes of a discovery response behind the preamble (30_encoding.md R163). -/
def discTail (u : Uid) : List Byte :=
  0xAA :: ((wireUid u).flatMap doubled ++ (wireHalf (sum16 (doubledUid u))).flatMap doubled)

theorem discResponse_eq (n : Nat) (u : Uid) : discResponse n u = List.replicate n 0xFE ++ discTail u := by
  simp only [discResponse, discTail, beBytes_half, Config.preamble, Config.delim, List.append_assoc, List.cons_append,
    List.nil_append]
  rw [doubledUid, uidBe_eq]

theorem discResponse_getD_pre (n i : Nat) (u : Uid) (h : i < n) : (discResponse n u).getD i 0 = 0xFE := by
  rw [discResponse_eq, List.getD_append _ _ _ _ (by simpa using h), List.getD_replicate _ h]

theorem discResponse_getD_tail (n i : Nat) (u : Uid) : (discResponse n u).getD (n + i) 0 = (discTail u).getD i 0 := by
  rw [discResponse_eq, List.getD_append_right _ _ _ _ (by simp)]; simp

theorem discByte_write (s : State) (n i : Nat) (u : Uid) (h : i < n + 17) :
    Memory.read (Memory.writeBytes s.mem 0x640 (discResponse n u)) (0x640 + i) = (discResponse n u).getD i 0 := by
  rw [Memory.read_writeBytes, if_pos ⟨by omega, by rw [length_discResponse]; omega⟩, Nat.add_sub_cancel_left]

/-- The delimiter search of FR_DISC_DECODE finds the least index of DELIM in its window (42_framer.md R321). -/
theorem delimIndex_eq_some (s : State) (h0 : 0 < s.disc.len.toNat) (p : Nat) :
    delimIndex (s.memRead discBase s.disc.len.toNat) = some p ↔ DelimAt s p := by
  have g : ∀ i, i < s.disc.len.toNat → (s.memRead discBase s.disc.len.toNat).getD i 0 = discByte s i :=
    fun i h => memRead_getD s _ _ i h
  rw [delimIndex, List.find?_range_eq_some]
  have hl : (s.memRead discBase s.disc.len.toNat).length = s.disc.len.toNat := Memory.length_readBytes _ _ _
  simp only [hl, Config.maxPreamble, Config.delim, List.mem_range, beq_iff_eq, DelimAt]
  constructor
  · rintro ⟨h1, h2, h3⟩
    rw [g p (by omega)] at h1
    refine ⟨by omega, by omega, h1, fun i hi => ?_⟩
    have := h3 i hi
    rw [g i (by omega)] at this
    simpa using this
  · rintro ⟨h1, h2, h3, h4⟩
    refine ⟨by rw [g p h2]; exact h3, by omega, fun i hi => ?_⟩
    rw [g i (by omega)]
    simpa using h4 i hi

theorem delimIndex_eq_none (s : State) (h0 : 0 < s.disc.len.toNat) :
    delimIndex (s.memRead discBase s.disc.len.toNat) = none ↔ ∀ p, ¬DelimAt s p := by
  rw [Option.eq_none_iff_forall_ne_some]
  exact forall_congr' fun p => not_congr (delimIndex_eq_some s h0 p)

theorem disc_slice (s : State) (p : Nat) (h : p + 17 ≤ s.disc.len.toNat) :
    ((s.memRead discBase s.disc.len.toNat).drop (p + 1)).take 16 = s.memRead (0x640 + p + 1) 16 := by
  rw [State.memRead, readBytes_slice _ _ _ _ _ (by omega)]; rfl

theorem disc_pairs (s : State) (p : Nat) : bytePairs (s.memRead (0x640 + p + 1) 16) =
    (List.range 8).map fun i => (discByte s (p + 1 + 2 * i), discByte s (p + 2 + 2 * i)) := by
  have h : List.range 8 = [0, 1, 2, 3, 4, 5, 6, 7] := by decide
  simp only [State.memRead, Memory.readBytes, bytePairs, h, List.map_cons, List.map_nil, discByte,
    Nat.add_assoc, Nat.reduceAdd, Nat.reduceMul]

theorem disc_masks (s : State) (p : Nat) :
    (bytePairs (s.memRead (0x640 + p + 1) 16)).all maskOk = true ↔ MasksHold s p := by
  rw [disc_pairs]
  simp [MasksHold, maskOk]

theorem disc_unmask (s : State) (p : Nat) :
    (bytePairs (s.memRead (0x640 + p + 1) 16)).map unmask =
      [discRaw s p 0, discRaw s p 1, discRaw s p 2, discRaw s p 3, discRaw s p 4, discRaw s p 5, discRaw s p 6,
        discRaw s p 7] := by
  rw [disc_pairs]
  have h : List.range 8 = [0, 1, 2, 3, 4, 5, 6, 7] := by decide
  rw [h]; rfl

/-- FR_DISC_DECODE behind a complete response's delimiter (42_framer.md R321). -/
theorem execFrDiscDecode_eq (s : State) (p : Nat) (h24 : s.disc.len.toNat ≤ 24) (hp : DelimAt s p) :
    execFrDiscDecode s =
    let s₁ := { s with disc := { s.disc with delimPos := BitVec.ofNat 3 p } }
    if s.disc.len.toNat < p + 17 then .next (frDiscFail .dTruncated s₁)
    else if !(bytePairs (s.memRead (0x640 + p + 1) 16)).all maskOk then .next (frDiscFail .dMask s₁)
    else
      let s₂ := { s₁ with framer :=
        { s₁.framer with
          ckComputed := BitVec.ofNat 16 (discTotal s p), ckReceived := discRaw s p 6 ++ discRaw s p 7 } }
      if discTotal s p ≠ (discRaw s p 6 ++ discRaw s p 7).toNat then .next (frDiscFail .dChecksum s₂)
      else .next (done { s₂ with disc :=
        { s₂.disc with
          uid := ⟨discRaw s p 0 ++ discRaw s p 1, discRaw s p 2 ++ discRaw s p 3 ++ discRaw s p 4 ++ discRaw s p 5⟩
          valid := true } }) := by
  have h0 : 0 < s.disc.len.toNat := by have := hp.2.1; omega
  unfold execFrDiscDecode
  simp only []
  rw [if_neg (by simp; omega), if_neg (by omega), (delimIndex_eq_some s h0 p).mpr hp]
  simp only []
  by_cases ht : s.disc.len.toNat < p + 17
  · rw [if_pos ht, if_pos ht]
  rw [if_neg ht, if_neg ht, disc_slice s p (by omega)]
  cases hm : (bytePairs (s.memRead (0x640 + p + 1) 16)).all maskOk
  · rw [if_pos (by decide), if_pos (by decide)]
  · have h12 : (s.memRead (0x640 + p + 1) 16).take 12 = s.memRead (0x640 + p + 1) 12 :=
      readBytes_take _ _ _ _ (by omega)
    simp only [disc_unmask, h12, List.drop_succ_cons, List.drop_zero, List.take_succ_cons, List.take_zero, beNat_pair,
      uidOfBe_six]
    rw [sum16_eq, ← discTotal]
    by_cases hc : discTotal s p = (discRaw s p 6 ++ discRaw s p 7).toNat
    · rw [if_neg (by decide), if_neg (by rw [hc]; simp), if_neg (by decide), if_neg (by simpa using hc)]
    · have : BitVec.ofNat 16 (discTotal s p) ≠ discRaw s p 6 ++ discRaw s p 7 := by
        intro h
        apply hc
        rw [← h]
        have : discTotal s p < 2 ^ 16 := Nat.mod_lt _ (by norm_num)
        simp; omega
      rw [if_neg (by decide), if_pos this, if_neg (by decide), if_pos hc]

end Sys2Proof.Machine
end

