-- ==== Sys2Proof/Laws/Ops.lean ====
section
/-! SUPPORT. One lemma per shared operation that says everything it can do. -/

namespace Sys2Proof.Machine

/-- The pending bits after one source is raised (60_exceptions.md R530). -/
theorem irq_bits (x m : BitVec 5) (k : Nat) (hk : k < 5) (h : m = BitVec.twoPow 5 k) :
    ∀ b, b < 5 → (x ||| m).getLsbD b = (x.getLsbD b || b == k) := by
  intro b hb
  rw [BitVec.getLsbD_or, h, BitVec.getLsbD_twoPow]
  simp only [hk, decide_true, Bool.true_and]
  congr 1
  rw [Bool.eq_iff_iff]; simp; exact eq_comm

/-- `Suppress(nack)` is the test of 44_dispatch.md R424. -/
theorem suppress_iff (s : State) (b : Bool) : suppress s b = true ↔ SuppressHolds s b := by
  simp [suppress, SuppressHolds, isBroadcast, Broadcast]

/-- `Nack(reason)`: suppressed, or an answer of type 2 with the reason in PD (44_dispatch.md R424). -/
theorem nack_eq (r : Half) (s : State) :
    nack r s =
      if suppress s true then
        { s with dispatch :=
          { s.dispatch with
            nacked := true, nackReason := r, suppressed := true, action := .none, phase := .suppressed } }
      else
        { s with
          mem := Memory.writeBytes s.mem 0x218 (wireHalf r)
          tx := { s.tx with ctl0 := { s.tx.ctl0 with portRt := 0x02 }, pdl := 2 }
          dispatch := { s.dispatch with nacked := true, nackReason := r, action := .send, phase := .answering } } := by
  unfold nack
  simp only [beBytes_half]
  have : suppress { s with dispatch := { s.dispatch with nacked := true, nackReason := r } } true = suppress s true :=
    rfl
  rw [this]; split <;> rfl

theorem nack_decided (r : Half) (s : State) : NackDecided r s.dispatch s (nack r s) := by
  rw [nack_eq]
  constructor
  · intro h; rw [if_pos ((suppress_iff _ _).mpr h)]; exact ⟨rfl, rfl, fun _ => rfl⟩
  · intro h; rw [if_neg (fun c => h ((suppress_iff _ _).mp c))]
    refine ⟨rfl, rfl, ?_, ?_⟩
    · exact Memory.readBytes_writeBytes_self _ _ (wireHalf r)
    · intro a ha; exact Memory.read_writeBytes_outside _ _ _ _ (by simpa using ha)

/-- The registers that `Nack` leaves alone. -/
theorem nack_frame (r : Half) (s : State) :
    { nack r s with dispatch := s.dispatch, tx := s.tx, mem := s.mem } = s := by
  rw [nack_eq]; split <;> rfl

/-- `prepareRequest` writes the parameter data and the TX and PD_LEN registers, and nothing else (45_discovery.md R470,
R474). -/
theorem prepareRequest_frame (dest : Uid) (pid : Half) (pd : List Byte) (s : State) :
    { prepareRequest dest pid pd s with mem := s.mem, tx := s.tx, codec := s.codec } = s ∧
      (prepareRequest dest pid pd s).memRead 0x218 pd.length = pd ∧
      KeepsBytesOutside 0x218 pd.length s (prepareRequest dest pid pd s) :=
  ⟨rfl, Memory.readBytes_writeBytes_self _ _ pd, fun _ h => Memory.read_writeBytes_outside _ _ _ _ h⟩

/-- BuildFrame frames the TX header registers around PD and touches nothing else (42_framer.md R300). -/
theorem buildFrame_framed (s : State) : Framed s.tx s (buildFrame s) := by
  have hl : s.tx.pdl.toNat < 256 := s.tx.pdl.isLt
  have hf : (buildFrame s).framer =
      { s.framer with frameLen := BitVec.ofNat 9 (26 + s.tx.pdl.toNat), ckComputed := frameChecksum s } := by
    rw [buildFrame_framer]; rfl
  have hm : (buildFrame s).mem = Memory.writeBytes (Memory.writeBytes s.mem 0x200 (headerBytes s.tx))
      (0x218 + s.tx.pdl.toNat) (wireHalf (frameChecksum s)) := by
    rw [buildFrame_mem, beBytes_half]; rfl
  have h1 : Memory.readBytes (buildFrame s).mem 0x200 (24 + s.tx.pdl.toNat) =
      Memory.readBytes (Memory.writeBytes s.mem 0x200 (headerBytes s.tx)) 0x200 (24 + s.tx.pdl.toNat) := by
    rw [hm, Memory.readBytes_writeBytes_disjoint _ _ _ _ _ (by omega)]
  unfold Framed State.memRead
  refine ⟨?_, ?_, ?_, ?_, ?_, ?_⟩
  · rw [hm, Memory.readBytes_writeBytes_disjoint _ _ _ _ _ (by omega)]
    have := Memory.readBytes_writeBytes_self s.mem 0x200 (headerBytes s.tx)
    rw [length_headerBytes] at this
    rw [this, headerBytes_eq]
  · rw [h1, hf, ← sum16_toNat]; rfl
  · rw [hm, hf]
    exact Memory.readBytes_writeBytes_self _ _ (wireHalf (frameChecksum s))
  · rw [hf]; simp only [BitVec.toNat_ofNat]; omega
  · rw [hf]
  · intro a ha hb
    rw [hm, Memory.read_writeBytes_outside _ _ _ _ (by simp; omega),
      Memory.read_writeBytes_outside _ _ _ _ (by simp; omega)]

/-- The registers that BuildFrame leaves alone. -/
theorem buildFrame_frame (s : State) : { buildFrame s with framer := s.framer, mem := s.mem } = s := by
  unfold buildFrame; rfl

end Sys2Proof.Machine
end

