-- ==== Sys2Proof/Laws/PerInstr.lean ====
section
/-! SUPPORT. A family of facts about the syntax, one lemma per command: the fields of its command word. -/

namespace Sys2Proof.Laws

/-- RSV of the command word is 0, OP is the command's opcode and ARG its argument (30_encoding.md R140, R141). -/
def EncodeShape.Statement (i : Instr) : Prop :=
  rsvField (encode i) = 0 ∧ opField (encode i) = i.opcode ∧ argField (encode i) = i.argument

/-- The three fields of a word that is built from them. -/
theorem word_fields (arg op : Byte) :
    rsvField ((0 : Half) ++ arg ++ op) = 0 ∧ opField ((0 : Half) ++ arg ++ op) = op ∧
      argField ((0 : Half) ++ arg ++ op) = arg := by
  have h : ((0 : Half) ++ arg ++ op).toNat = arg.toNat * 256 + op.toNat := by
    rw [BitVec.toNat_append, ← Nat.shiftLeft_add_eq_or_of_lt op.isLt, Nat.shiftLeft_eq, BitVec.toNat_append]
    simp
  have := arg.isLt
  have := op.isLt
  refine ⟨?_, ?_, ?_⟩ <;> apply BitVec.eq_of_toNat_eq <;>
    simp only [rsvField, opField, argField, BitVec.extractLsb'_toNat, h, Nat.shiftRight_eq_div_pow] <;> simp <;> omega

theorem EncodeShape.nop : EncodeShape.Statement .nop := word_fields _ _
theorem EncodeShape.uidCmp : EncodeShape.Statement .uidCmp := word_fields _ _
theorem EncodeShape.uidClassify : EncodeShape.Statement .uidClassify := word_fields _ _
theorem EncodeShape.pdParse : EncodeShape.Statement .pdParse := word_fields _ _
theorem EncodeShape.pdEncode : EncodeShape.Statement .pdEncode := word_fields _ _
theorem EncodeShape.pdDecode : EncodeShape.Statement .pdDecode := word_fields _ _
theorem EncodeShape.frEncodeReq (tnsel : Bool) : EncodeShape.Statement (.frEncodeReq tnsel) := word_fields _ _
theorem EncodeShape.frEncodeRsp : EncodeShape.Statement .frEncodeRsp := word_fields _ _
theorem EncodeShape.frDecode : EncodeShape.Statement .frDecode := word_fields _ _
theorem EncodeShape.frChecksum : EncodeShape.Statement .frChecksum := word_fields _ _
theorem EncodeShape.frDiscEncode (npre : BitVec 3) : EncodeShape.Statement (.frDiscEncode npre) := word_fields _ _
theorem EncodeShape.frDiscDecode : EncodeShape.Statement .frDiscDecode := word_fields _ _
theorem EncodeShape.tmStamp (cat : BitVec 3) (kind : BitVec 2) : EncodeShape.Statement (.tmStamp cat kind) :=
  word_fields _ _
theorem EncodeShape.tmSetcat (cat : BitVec 3) : EncodeShape.Statement (.tmSetcat cat) := word_fields _ _
theorem EncodeShape.tmGapCheck : EncodeShape.Statement .tmGapCheck := word_fields _ _
theorem EncodeShape.tmRespWait (rxd : Bool) : EncodeShape.Statement (.tmRespWait rxd) := word_fields _ _
theorem EncodeShape.tmCancel : EncodeShape.Statement .tmCancel := word_fields _ _
theorem EncodeShape.dpValidate : EncodeShape.Statement .dpValidate := word_fields _ _
theorem EncodeShape.dpCheck : EncodeShape.Statement .dpCheck := word_fields _ _
theorem EncodeShape.dsInit : EncodeShape.Statement .dsInit := word_fields _ _
theorem EncodeShape.dsNext : EncodeShape.Statement .dsNext := word_fields _ _
theorem EncodeShape.dsResult (outcome : BitVec 2) : EncodeShape.Statement (.dsResult outcome) := word_fields _ _
theorem EncodeShape.softReset : EncodeShape.Statement .softReset := word_fields _ _
end Sys2Proof.Laws
end

