-- ==== Sys2Proof/Laws/Step.lean ====
section
/-! SUPPORT. What one step is: the next event's, or the alarm agent's when no event is placed. -/

namespace Sys2Proof.Machine

/-- A placed event is the next step. -/
theorem step_cons (s : State) (e : Event) (rest : List Event) (h : s.inputs = e :: rest) :
    step s = agentStep e { s with inputs := rest } := by
  unfold step nextStep; rw [h]

/-- With no event placed the alarm agent has its turn. -/
theorem step_nil (s : State) (h : s.inputs = []) : step s = .next (alarmStep s) := by
  unfold step nextStep; rw [h]

/-- A write of a command's word to CMD runs the command. -/
theorem hostWrite_command (s : State) (w : Word) (i : Instr) (h : decode w = .command i) :
    hostWrite cmdOffset w s = exec i s := by
  simp [hostWrite, aligned, runCommand, h]

/-- The alarm agent fires or does nothing (43_timing.md R385). -/
theorem alarmStep_cases (s : State) :
    (alarmEnabled s = true ∧
      alarmStep s = { s with timing := { s.timing with armed := false }, irqPend := s.irqPend ||| 0b00001 }) ∨
    (alarmEnabled s = false ∧ alarmStep s = s) := by
  unfold alarmStep
  cases h : alarmEnabled s
  · exact .inr ⟨rfl, rfl⟩
  · exact .inl ⟨rfl, rfl⟩

/-- An aligned write outside CMD stores its word; every other write outside CMD only sets BUS_ERR (20_memory.md R104,
R105). -/
theorem hostWrite_cases (a : Offset) (w : Word) (s : State) :
    (aligned a = false ∧ hostWrite a w s = .next (busError s)) ∨
    (a = cmdOffset ∧ hostWrite a w s = runCommand w s) ∨
    (aligned a = true ∧ a ≠ cmdOffset ∧ hostWrite a w s = .next (writeWord s a.toNat w)) := by
  unfold hostWrite
  cases ha : aligned a
  · exact .inl ⟨rfl, rfl⟩
  · by_cases hc : a = cmdOffset
    · exact .inr (.inl ⟨hc, by simp [hc]⟩)
    · exact .inr (.inr ⟨rfl, hc, by rw [if_neg (by simp), if_neg hc]⟩)

/-! ### Platform addresses (20_memory.md R100) -/

/-- The address `BASE + a` has the offset `a`. -/
@[simp] theorem windowOffset_add (base : Nat) (a : Offset) : windowOffset base (base + a.toNat) = some a := by
  have h : a.toNat < 0x1000 := a.isLt
  rw [windowOffset, if_pos ⟨Nat.le_add_right _ _, by simpa using h⟩, Nat.add_sub_cancel_left]
  simp

/-- An address outside the window has no offset. -/
theorem windowOffset_outside (base address : Nat) (h : address < base ∨ base + 0x1000 ≤ address) :
    windowOffset base address = none := by
  rw [windowOffset, if_neg]; simp only [windowSize]; omega

/-- A load is a read at an offset of the window, or no access of the block. -/
theorem hostLoad_cases (base address : Nat) (s : State) :
    (∃ a, windowOffset base address = some a ∧ hostLoad base address s = hostRead a s) ∨
    (windowOffset base address = none ∧ hostLoad base address s = s) := by
  unfold hostLoad
  cases h : windowOffset base address with
  | none => exact .inr ⟨rfl, rfl⟩
  | some a => exact .inl ⟨a, rfl, rfl⟩

/-- A store is a write at an offset of the window, or no access of the block. -/
theorem hostStore_cases (base address : Nat) (w : Word) (s : State) :
    (∃ a, windowOffset base address = some a ∧ hostStore base address w s = hostWrite a w s) ∨
    (windowOffset base address = none ∧ hostStore base address w s = .next s) := by
  unfold hostStore
  cases h : windowOffset base address with
  | none => exact .inr ⟨rfl, rfl⟩
  | some a => exact .inl ⟨a, rfl, rfl⟩

/-- A load at the address of an offset is the read at that offset. -/
@[simp] theorem hostLoad_add (base : Nat) (a : Offset) (s : State) : hostLoad base (base + a.toNat) s = hostRead a s := by
  simp [hostLoad]

/-- A store at the address of an offset is the write at that offset. -/
@[simp] theorem hostStore_add (base : Nat) (a : Offset) (w : Word) (s : State) :
    hostStore base (base + a.toNat) w s = hostWrite a w s := by
  simp [hostStore]

/-- An overdue alarm is one whose step is enabled (43_timing.md R385, R386). -/
theorem alarmEnabled_of_overdue (latency : Nat) (s : State) (h : alarmOverdue latency s = true) :
    alarmEnabled s = true := by
  simp only [alarmOverdue, alarmEnabled, Bool.and_eq_true, decide_eq_true_eq] at *
  exact ⟨h.1, by omega⟩

/-- Every access and every agent answers a next state but for what a command answers, which is run by a write at CMD's
offset or by a store at its address. -/
theorem agentStep_next (e : Event) (s : State) :
    (∃ t, agentStep e s = .next t) ∨
    ∃ w, agentStep e s = runCommand w s ∧
      (e = .hostWrite cmdOffset w ∨ ∃ x, e = .hostStore x w ∧ windowOffset Config.base x = some cmdOffset) := by
  cases e with
  | hostRead a => exact .inl ⟨_, rfl⟩
  | hostLoad x => exact .inl ⟨_, rfl⟩
  | tick k h => exact .inl ⟨_, rfl⟩
  | alarm => exact .inl ⟨_, rfl⟩
  | platformReset bytes now => exact .inl ⟨_, rfl⟩
  | hostWrite a w =>
    rcases hostWrite_cases a w s with ⟨-, h⟩ | ⟨rfl, h⟩ | ⟨-, -, h⟩
    · exact .inl ⟨_, h⟩
    · exact .inr ⟨w, h, .inl rfl⟩
    · exact .inl ⟨_, h⟩
  | hostStore x w =>
    rcases hostStore_cases Config.base x w s with ⟨a, ha, h⟩ | ⟨-, h⟩
    · rcases hostWrite_cases a w s with ⟨-, h'⟩ | ⟨rfl, h'⟩ | ⟨-, -, h'⟩
      · exact .inl ⟨_, h.trans h'⟩
      · exact .inr ⟨w, h.trans h', .inr ⟨x, rfl, ha⟩⟩
      · exact .inl ⟨_, h.trans h'⟩
    · exact .inl ⟨_, h⟩

end Sys2Proof.Machine
end

