-- ==== Sys2Proof/Laws/Uid.lean ====
section
/-! SUPPORT. The laws of UIDs and ranges: the order is that of the 48-bit numbers, and a split cuts at the midpoint. -/

namespace Sys2Proof.Machine

theorem Uid.u48_lt (u : Uid) : u.u48 < 2 ^ 48 := by
  have := u.man.isLt
  have := u.dev.isLt
  simp only [Uid.u48]
  omega

theorem Uid.u48_inj {a b : Uid} (h : a.u48 = b.u48) : a = b := by
  rcases a with ⟨am, ad⟩
  rcases b with ⟨bm, bd⟩
  have := am.isLt
  have := ad.isLt
  have := bm.isLt
  have := bd.isLt
  simp only [Uid.u48] at h
  simp only [Uid.mk.injEq, BitVec.toNat_eq]
  omega

theorem u48_uid48 (x : Nat) (h : x < 2 ^ 48) : (uid48 x).u48 = x := by
  simp only [uid48, Uid.u48, BitVec.toNat_ofNat]
  omega

/-- The order of UIDs is the order of their numbers (40_uid.md R201). -/
theorem Uid.lt_iff (a b : Uid) : a.lt b = true ↔ a.u48 < b.u48 := by
  rcases a with ⟨am, ad⟩
  rcases b with ⟨bm, bd⟩
  have := am.isLt
  have := ad.isLt
  have := bm.isLt
  have := bd.isLt
  simp only [Uid.lt, Uid.u48, BitVec.ult, Bool.or_eq_true, decide_eq_true_eq, Bool.and_eq_true, beq_iff_eq,
    BitVec.toNat_eq]
  omega

theorem Uid.le_iff (a b : Uid) : a.le b = true ↔ a.u48 ≤ b.u48 := by
  simp only [Uid.le, Bool.or_eq_true, Uid.lt_iff, beq_iff_eq]
  constructor
  · rintro (h | rfl) <;> omega
  · intro h
    rcases Nat.lt_or_eq_of_le h with h | h
    · exact .inl h
    · exact .inr (Uid.u48_inj h)

@[simp] theorem Range.lowerHalf_lo (r : Range) : r.lowerHalf.lo = r.lo := rfl
@[simp] theorem Range.lowerHalf_hi (r : Range) : r.lowerHalf.hi = r.mid := rfl
@[simp] theorem Range.upperHalf_hi (r : Range) : r.upperHalf.hi = r.hi := rfl

/-- The midpoint's number (45_discovery.md R464). -/
theorem Range.mid_u48 (r : Range) (h : r.lo.u48 ≤ r.hi.u48) : r.mid.u48 = r.lo.u48 + (r.hi.u48 - r.lo.u48) / 2 := by
  have := r.hi.u48_lt
  rw [Range.mid, u48_uid48 _ (by omega)]

/-- The number of the upper half's lower bound (45_discovery.md R464). -/
theorem Range.upperHalf_lo_u48 (r : Range) (h : r.lo.u48 < r.hi.u48) :
    r.upperHalf.lo.u48 = r.lo.u48 + (r.hi.u48 - r.lo.u48) / 2 + 1 := by
  have := r.hi.u48_lt
  have hm := r.mid_u48 (by omega)
  rw [Range.upperHalf, u48_uid48 _ (by omega), hm]

/-- The predicates of the model are those of 40_uid.md R202 and R203. -/
theorem isBroadcast_iff (u : Uid) : isBroadcast u = true ↔ Broadcast u := by simp [isBroadcast, Broadcast]

theorem isTarget_iff (s a : Uid) : isTarget s a = true ↔ Targets s a := by
  rcases a with ⟨m, d⟩
  simp [isTarget, isBroadcastAll, isBroadcast, Targets, Broadcast]
  tauto

end Sys2Proof.Machine
end

