-- ==== Sys2Proof/Machine/HostProgram.lean ====
section
/-! DEFINITION. The host-program statements of 30_encoding.md R143 and R144, as the accesses they expand to. -/

namespace Sys2Proof.Machine

/-- `wr <offset>, <value>` (R143). -/
def wr (offset : Nat) (value : Word) : Event := .hostWrite (BitVec.ofNat 12 offset) value

/-- `rd <offset> -> t` (R143): `t` is then in `readData`. -/
def rd (offset : Nat) : Event := .hostRead (BitVec.ofNat 12 offset)

/-- `cmd <MNEMONIC> ...` (R144). -/
def cmd (i : Instr) : Event := .hostWrite cmdOffset (encode i)

/-- `wruid X, MMMM:DDDDDDDD`, with the registers X_MAN and X_DEV (R144). -/
def wrUid (manReg devReg : Reg) (u : Uid) : List Event :=
  [wr manReg.offset (u.man.setWidth 32), wr devReg.offset u.dev]

/-- The 4 bytes of a word with the bytes of `bs`, which starts at offset `off`, put over those at `a` to `a + 3`. -/
def overlayWord (a off : Nat) (bs : List Byte) (old : List Byte) : List Byte :=
  (List.range 4).map fun j => if off ≤ a + j ∧ a + j < off + bs.length then bs.getD (a + j - off) 0 else old.getD j 0

/-- The accesses of `wrbytes` to the word at `a` (R144): a fully covered word needs no `rd`. `t`, the value that the
`rd` returns, is read in `s`: no access before it changes that word. -/
def wrBytesWord (s : State) (off : Nat) (bs : List Byte) (a : Nat) : List Event :=
  let store := wr a (BitVec.ofNat 32 (leNat (overlayWord a off bs (leBytes (readWord s a).toNat 4))))
  if off ≤ a ∧ a + 4 ≤ off + bs.length then [store] else [rd a, store]

/-- `wrbytes B+o, b0 b1 ...` issued in state `s`, with `off` the window offset of `B+o` (R144). -/
def wrBytes (s : State) (off : Nat) (bs : List Byte) : List Event :=
  (List.range ((off % 4 + bs.length + 3) / 4)).flatMap fun k => wrBytesWord s off bs (off - off % 4 + 4 * k)

/-- `wrfmt "text"`, with the ASCII bytes of the text (R144). -/
def wrFmt (s : State) (text : List Byte) : List Event :=
  wrBytes s fmtBase text ++ [wr Reg.fmtLen.offset (BitVec.ofNat 32 text.length)]

/-- One poll of `waitirq BIT` (R144); the host repeats it until `irqSeen`. -/
def pollIrq : Event := rd Reg.irqPend.offset

/-- `waitirq BIT` ends on the value that the last poll returned (R144). -/
def irqSeen (bit : Nat) (s : State) : Bool := s.readData.getLsbD bit

/-- `clrirq BIT` (R144). -/
def clrIrq (bit : Nat) : Event := wr Reg.irqPend.offset (1 <<< bit)

end Sys2Proof.Machine
end

