-- ==== Sys2Proof/Tests/Slice0.lean ====
section
/-! SUPPORT. Tests: the ill-formed term, a word of each command, one-step tests with the expected values of
95_test_vectors.md (the vector's name stands in each comment), and a witness for the hypotheses of each statement. -/

namespace Sys2Proof.Tests

open Sys2Proof.Machine

/-! ### The ill-formed term and the command words -/

theorem test_wellFormed_refuses_outcome_3 : (Instr.dsResult 3).wellFormed = false := by decide
/-- G13 and Y2. -/
theorem test_outcome_3_word_is_illegal : decode (encode (.dsResult 3)) = .illegal .reservedOutcome := by decide

theorem test_decode_nop : decode 0x00000000 = .command .nop := by decide
theorem test_decode_uidCmp : decode 0x00000001 = .command .uidCmp := by decide
theorem test_decode_uidClassify : decode 0x00000002 = .command .uidClassify := by decide
theorem test_decode_pdParse : decode 0x00000010 = .command .pdParse := by decide
theorem test_decode_pdEncode : decode 0x00000011 = .command .pdEncode := by decide
theorem test_decode_pdDecode : decode 0x00000012 = .command .pdDecode := by decide
/-- F1 and F9. -/
theorem test_decode_frEncodeReq :
    decode 0x00000120 = .command (.frEncodeReq true) ∧ decode 0x00000020 = .command (.frEncodeReq false) := by decide
theorem test_decode_frEncodeRsp : decode 0x00000021 = .command .frEncodeRsp := by decide
theorem test_decode_frDecode : decode 0x00000022 = .command .frDecode := by decide
theorem test_decode_frChecksum : decode 0x00000023 = .command .frChecksum := by decide
/-- D1. -/
theorem test_decode_frDiscEncode : decode 0x00000724 = .command (.frDiscEncode 7) := by decide
theorem test_decode_frDiscDecode : decode 0x00000025 = .command .frDiscDecode := by decide
/-- T1, T10 and Y3. -/
theorem test_decode_tmStamp :
    decode 0x00001330 = .command (.tmStamp 3 1) ∧ decode 0x00002130 = .command (.tmStamp 1 2) ∧
      decode 0x00000530 = .command (.tmStamp 5 0) := by decide
/-- T1. -/
theorem test_decode_tmSetcat : decode 0x00000431 = .command (.tmSetcat 4) := by decide
theorem test_decode_tmGapCheck : decode 0x00000032 = .command .tmGapCheck := by decide
/-- T9. -/
theorem test_decode_tmRespWait : decode 0x00000133 = .command (.tmRespWait true) := by decide
theorem test_decode_tmCancel : decode 0x00000034 = .command .tmCancel := by decide
theorem test_decode_dpValidate : decode 0x00000040 = .command .dpValidate := by decide
theorem test_decode_dpCheck : decode 0x00000041 = .command .dpCheck := by decide
theorem test_decode_dsInit : decode 0x00000050 = .command .dsInit := by decide
theorem test_decode_dsNext : decode 0x00000051 = .command .dsNext := by decide
/-- G7 and G9. -/
theorem test_decode_dsResult :
    decode 0x00000252 = .command (.dsResult 2) ∧ decode 0x00000152 = .command (.dsResult 1) := by decide
/-- Y12. -/
theorem test_decode_softReset : decode 0x00005AFF = .command .softReset := by decide
/-- The words of Y2. -/
theorem test_decode_illegal_words :
    ([0x00000003, 0x00010000, 0x00000200, 0x00000352, 0x000000FF, 0x00004030, 0x00000221, 0x00005BFF, 0x00000820,
      0x00000F24, 0x00000233, 0x00000134, 0x00000140, 0x00000852, 0x00004031, 0x80000000] : List Word).all
      (fun w => match decode w with | .command _ => false | .illegal _ => true) = true := by decide
theorem test_decodeTableWord : decodeTableWord 32 0x00000724 = some (.frDiscEncode 7) := by decide

/-! ### States -/

/-- What a command answers is a next state that passes `p`. -/
def ends (r : Result) (p : State → Bool) : Bool :=
  match r with
  | .next t => p t
  | .fault _ => false
  | .refused _ => false

def uidA : Uid := ⟨0x05E0, 0x12345678⟩
def uidB : Uid := ⟨0xA000, 0x00000001⟩
def uidC : Uid := ⟨0x7FF0, 0x00000001⟩
def allDevices : Uid := ⟨0xFFFF, 0xFFFFFFFF⟩

/-- The reset state with UIDA, UIDB and SELF. -/
def withUids (self a b : Uid) : State := { State.reset with uid := { State.reset.uid with self := self, a := a, b := b } }

/-- The reset state with a format string in FMT, HOST and PD bytes, and the two lengths. -/
def codecState (fmt host pd : List Byte) (hostLen : BitVec 10) (pdLen : Byte) : State :=
  let s := ((State.reset.memWrite 0x600 fmt).memWrite 0x400 host).memWrite 0x218 pd
  { s with codec :=
    { s.codec with fmtLen := BitVec.ofNat 7 fmt.length, pdHostLen := hostLen, pdLen := pdLen } }

/-- The frame of F1. -/
def f1Frame : List Byte :=
  [0xCC, 0x01, 0x18, 0x05, 0xE0, 0x12, 0x34, 0x56, 0x78, 0x7F, 0xF0, 0x00, 0x00, 0x00, 0x01, 0x00, 0x01, 0x00, 0x00,
   0x00, 0x20, 0x00, 0x60, 0x00, 0x04, 0xCF]

/-- Bytes in FRAME with RX_LEN. -/
def frameState (frame : List Byte) (rxLen : BitVec 9) : State :=
  let s := State.reset.memWrite 0x200 frame
  { s with framer := { s.framer with rxLen := rxLen } }

/-- The TX registers of F1. -/
def f1Tx : State := { State.reset with tx := ⟨uidA, uidC, ⟨0, 1, 0, 0x20⟩, ⟨0, 0x0060⟩, 0⟩ }

/-- The response of D2: no preamble, UID A. -/
def d2Bytes : List Byte :=
  [0xAA, 0xAF, 0x55, 0xEA, 0xF5, 0xBA, 0x57, 0xBE, 0x75, 0xFE, 0x57, 0xFA, 0x7D, 0xAF, 0x57, 0xFB, 0xF7]

/-- Bytes in DISC with DISC_LEN. -/
def discState (bytes : List Byte) (len : BitVec 5) : State :=
  let s := State.reset.memWrite 0x640 bytes
  { s with disc := { s.disc with len := len } }

/-- Time `now` after a stamp of a category and kind at `ts`. -/
def timedState (now ts : Time) (cat : GapCat) (kind : EventKind) : State :=
  { State.reset with
    now := now
    timing := { State.reset.timing with lastTs := ts, lastCat := cat, lastKind := kind } }

/-- The responder of section 7 with a request in the RX registers and an accepted frame. -/
def requestState (dest : Uid) (cc : Byte) (sub pid : Half) : State :=
  { State.reset with
    uid := { State.reset.uid with self := uidA }
    rx := ⟨dest, uidC, ⟨0, 1, 0, cc⟩, ⟨sub, pid⟩, 0⟩
    framer := { State.reset.framer with frameValid := true }
    pidTable := ((Vector.replicate 64 PidEntry.zero).set 0 ⟨0x0060, false, true, true, true⟩).set 1
      ⟨0x0002, true, false, false, true⟩ }

/-- The same in VALIDATING with the handler's output. -/
def handlerState (dest : Uid) (cc : Byte) (sub pid : Half) (rt : Byte) (len : BitVec 10) (pd : List Byte) : State :=
  let s := (requestState dest cc sub pid).memWrite 0x218 pd
  { s with dispatch :=
    { s.dispatch with phase := .validating, action := .callHandler, handlerRt := rt, handlerLen := len } }

/-- A discovery in a phase, with the range out on the bus and the stack. -/
def discoveryState (phase : DsPhase) (lo hi : Uid) (stack : List Range) : State :=
  { State.reset with
    uid := { State.reset.uid with self := uidC }
    discovery := { State.reset.discovery with phase := phase, lower := lo, upper := hi, stack := stack } }

/-- The same in WAIT on the full range, with the response of D2 decoded. -/
def respondedState : State :=
  { discoveryState .wait ⟨0, 0⟩ ⟨0xFFFF, 0xFFFFFFFE⟩ [] with
    portId := 3
    disc := ⟨17, true, 0, uidA⟩ }

/-! ### One step each -/

/-- Y4. -/
theorem test_nop_keeps_busErr :
    ends (exec .nop { State.reset with status := ⟨false, true, false, true, 0x26⟩ })
      (fun t => readReg t .status == 0x00000009) = true := by decide
/-- U1, U3. -/
theorem test_uidCmp :
    ends (exec .uidCmp (withUids nullUid ⟨0x0001, 0⟩ ⟨0x0000, 0xFFFFFFFF⟩))
      (fun t => readReg t .uidResult == 0x4) = true := by decide
theorem test_uidCmp_device_field :
    ends (exec .uidCmp (withUids nullUid ⟨0x05E0, 0x12345677⟩ uidA))
      (fun t => readReg t .uidResult == 0x1) = true := by decide
/-- U7, U13. -/
theorem test_uidClassify_broadcast :
    ends (exec .uidClassify (withUids uidA ⟨0x05E0, 0xFFFFFFFF⟩ nullUid))
      (fun t => readReg t .uidResult == 0x110) = true := by decide
theorem test_uidClassify_limit :
    ends (exec .uidClassify (withUids uidA ⟨0xFFFF, 0xFFFFFFFE⟩ nullUid))
      (fun t => readReg t .uidResult == 0x0) = true := by decide
/-- X1: `#0100hwwdwbbwwb`. -/
theorem test_pdParse_device_info :
    ends (exec .pdParse (codecState
      [0x23, 0x30, 0x31, 0x30, 0x30, 0x68, 0x77, 0x77, 0x64, 0x77, 0x62, 0x62, 0x77, 0x77, 0x62] [] [] 0 0))
      (fun t => readReg t .tokInfo == 0x1100130A) = true := by decide
/-- X29: `ba0x`. -/
theorem test_pdParse_first_error :
    ends (exec .pdParse (codecState [0x62, 0x61, 0x30, 0x78] [] [] 0 0))
      (fun t => readReg t .status == 0x00001502 && readReg t .tokInfo == 0) = true := by decide
/-- E6: `wv`. -/
theorem test_pdEncode_uid :
    ends (exec .pdEncode (codecState [0x77, 0x76] [0x02, 0x01, 0xE0, 0x05, 0x78, 0x56, 0x34, 0x12] [] 8 0))
      (fun t => t.memRead 0x218 8 == [0x01, 0x02, 0x05, 0xE0, 0x12, 0x34, 0x56, 0x78] && t.tx.pdl == 8) = true := by
  decide
/-- E16: `ba`. -/
theorem test_pdEncode_text :
    ends (exec .pdEncode (codecState [0x62, 0x61] [0x05, 0x48, 0x69, 0x00, 0x78] [] 5 0))
      (fun t => t.memRead 0x218 4 == [0x05, 0x48, 0x69, 0x00] && t.codec.pdLen == 3 && t.codec.hostCount == 5) = true := by
  decide
/-- E9: `wv` with three bytes that are too short for the UID. -/
theorem test_pdDecode_short_uid :
    ends (exec .pdDecode (codecState [0x77, 0x76] [] [0x01, 0x02, 0x05, 0xE0, 0x12] 8 5))
      (fun t => t.memRead 0x400 8 == [0x02, 0x01, 0, 0, 0, 0, 0, 0] && t.codec.hostCount == 8) = true := by decide
/-- E18: `a`, cut to the room. -/
theorem test_pdDecode_text_cut :
    ends (exec .pdDecode (codecState [0x61] [] [0x48, 0x65, 0x6C, 0x6C, 0x6F] 3 5))
      (fun t => t.memRead 0x400 4 == [0x48, 0x65, 0x00, 0x00] && t.codec.hostCount == 3) = true := by decide
/-- F1. -/
theorem test_frEncodeReq_frame :
    ends (exec (.frEncodeReq true) f1Tx)
      (fun t => t.memRead 0x200 26 == f1Frame && t.framer.frameLen == 26 && t.tnCtr == 1) = true := by decide +kernel
/-- F8. -/
theorem test_frEncodeReq_too_long :
    ends (exec (.frEncodeReq true) { State.reset with tx := { State.reset.tx with pdl := 232 }, tnCtr := 5 })
      (fun t => readReg t .status == 0x00002002 && t.tnCtr == 5 && t.framer.frameLen == 0) = true := by decide
/-- F24. -/
theorem test_frEncodeRsp_class_wraps :
    ends (exec .frEncodeRsp { State.reset with rx := { State.reset.rx with ctl0 := ⟨0, 0, 0, 0xFF⟩ } })
      (fun t => t.tx.ctl0.cc == 0 && t.memRead 0x218 2 == [0x00, 0xE5]) = true := by decide +kernel
/-- F22 with CONFIG 2: the source is the broadcast address that the request was sent to. -/
theorem test_frEncodeRsp_broadcast_source :
    ends (exec .frEncodeRsp { State.reset with
        rx := ⟨allDevices, uidC, ⟨0, 1, 0, 0x10⟩, ⟨0, 0x0002⟩, 0⟩
        tx := { State.reset.tx with pdl := 2 } })
      (fun t => t.memRead 0x203 12 == [0x7F, 0xF0, 0, 0, 0, 1, 0xFF, 0xFF, 0xFF, 0xFF, 0xFF, 0xFF] &&
        t.memRead 0x21A 2 == [0x08, 0x66]) = true := by decide +kernel
/-- F11. -/
theorem test_frDecode_accepts :
    ends (exec .frDecode (frameState f1Frame 26))
      (fun t => t.rx == ⟨uidA, uidC, ⟨0, 1, 0, 0x20⟩, ⟨0, 0x0060⟩, 0⟩ && readReg t .ckResult == 0x04CF04CF &&
        t.framer.frameValid) = true := by decide +kernel
/-- F18. -/
theorem test_frDecode_checksum :
    ends (exec .frDecode (frameState (f1Frame.set 25 0xD0) 26))
      (fun t => readReg t .status == 0x00002602 && readReg t .ckResult == 0x04D004CF) = true := by decide +kernel
/-- F4, F5. -/
theorem test_frChecksum_sum :
    ends (exec .frChecksum { frameState f1Frame 26 with framer := ⟨26, false, 0, 0, 26, 0, 0⟩ })
      (fun t => t.framer.ckComputed == 0x05A2) = true := by decide +kernel
theorem test_frChecksum_range :
    ends (exec .frChecksum { State.reset with framer := ⟨0, false, 0, 250, 11, 0, 0⟩ })
      (fun t => readReg t .status == 0x00002702) = true := by decide
/-- D2. -/
theorem test_frDiscEncode :
    ends (exec (.frDiscEncode 0) (withUids uidA nullUid nullUid))
      (fun t => t.memRead 0x640 17 == d2Bytes && t.disc.len == 17 && t.framer.ckComputed == 0x07F3) = true := by
  decide +kernel
/-- D5. -/
theorem test_frDiscEncode_preamble :
    ends (exec (.frDiscEncode 7) (withUids uidC nullUid nullUid))
      (fun t => t.memRead 0x646 4 == [0xFE, 0xAA, 0xFF, 0x7F] && t.framer.ckComputed == 0x076A) = true := by
  decide +kernel
/-- D7. -/
theorem test_frDiscDecode_accepts :
    ends (exec .frDiscDecode (discState d2Bytes 17))
      (fun t => t.disc.uid == uidA && readReg t .discStatus == 0x1 && readReg t .ckResult == 0x07F307F3) = true := by
  decide +kernel
/-- D13, without the preamble. -/
theorem test_frDiscDecode_mask :
    ends (exec .frDiscDecode (discState (d2Bytes.set 1 0x2F) 17))
      (fun t => readReg t .status == 0x00002C02 && !t.disc.valid) = true := by decide +kernel
/-- T1, T2. -/
theorem test_tmStamp :
    ends (exec (.tmStamp 3 1) { State.reset with now := 1000 })
      (fun t => readReg t .lastTsLo == 1000 && readReg t .tmState == 0x13) = true := by decide
theorem test_tmStamp_reserved :
    ends (exec (.tmStamp 5 0) { State.reset with now := 1000 })
      (fun t => readReg t .status == 0x00003002 && readReg t .lastTsLo == 0) = true := by decide
/-- T1, T2. -/
theorem test_tmSetcat :
    ends (exec (.tmSetcat 4) (timedState 2000 1000 .reqNr .sentRequest))
      (fun t => readReg t .tmState == 0x14 && readReg t .lastTsLo == 1000) = true := by decide
theorem test_tmSetcat_reserved :
    ends (exec (.tmSetcat 7) State.reset) (fun t => readReg t .status == 0x00003002) = true := by decide
/-- T3, T5. -/
theorem test_tmGapCheck_arms :
    ends (exec .tmGapCheck (timedState 2000 1000 .reqNr .sentRequest))
      (fun t => readReg t .remain == 2000 && readReg t .alarmAtLo == 4000 && readReg t .tmState == 0x213) = true := by
  decide
theorem test_tmGapCheck_wraps :
    ends (exec .tmGapCheck (timedState 500 600 .discNr .received))
      (fun t => readReg t .elapsed == 0xFFFFFFFF && readReg t .tmState == 0x101) = true := by decide
/-- T7, T11. -/
theorem test_tmRespWait_arms :
    ends (exec (.tmRespWait false) (timedState 1000 1000 .reqNr .sentRequest))
      (fun t => readReg t .alarmAtLo == 3800 && readReg t .tmState == 0xE13) = true := by decide
theorem test_tmRespWait_after_receive :
    ends (exec (.tmRespWait false) (timedState 1000 1000 .respond .received))
      (fun t => readReg t .tmState == 0x04) = true := by decide
/-- T8. -/
theorem test_tmCancel :
    ends (exec .tmCancel { State.reset with timing := ⟨0, 1000, .reqNr, .sentRequest, false, true, true, true, 0, 0, 0, 3800⟩ })
      (fun t => readReg t .tmState == 0x813 && readReg t .alarmAtLo == 3800) = true := by decide
/-- H10, H7. -/
theorem test_dpValidate_sub_device :
    ends (exec .dpValidate (requestState uidA 0x20 0x201 0x0060))
      (fun t => readReg t .dpState == 0x00090092 && t.memRead 0x218 2 == [0x00, 0x09]) = true := by decide +kernel
theorem test_dpValidate_discovery_nack :
    ends (exec .dpValidate (requestState uidA 0x10 0 0x0060))
      (fun t => readReg t .dpState == 0x000500C3) = true := by decide +kernel
/-- H26, H33a. -/
theorem test_dpCheck_nack :
    ends (exec .dpCheck (handlerState uidA 0x20 0 0x0060 0x02 2 [0x00, 0x06]))
      (fun t => readReg t .dpState == 0x00060092) = true := by decide +kernel
theorem test_dpCheck_discovery_violation :
    ends (exec .dpCheck (handlerState uidA 0x10 0 0x0002 0x01 0 []))
      (fun t => readReg t .dpState == 0x000201C3 && t.irqPend == 0x10) = true := by decide +kernel
/-- G14. -/
theorem test_dsInit_restarts :
    ends (exec .dsInit (discoveryState .wait uidA uidB [])) (fun t => readReg t .dsState == 0x00000101) = true := by
  decide
/-- G4. -/
theorem test_dsNext_request :
    ends (exec .dsNext (discoveryState .ready nullUid nullUid [fullRange]))
      (fun t => readReg t .dsState == 0x2 && readReg t .txCtl0 == 0x10000100 && readReg t .txCtl1 == 0x00010000 &&
        t.memRead 0x218 12 == [0, 0, 0, 0, 0, 0, 0xFF, 0xFF, 0xFF, 0xFF, 0xFF, 0xFE]) = true := by decide +kernel
/-- G7, item 4. -/
theorem test_dsNext_done :
    ends (exec .dsNext (discoveryState .ready nullUid nullUid []))
      (fun t => readReg t .dsState == 0x3 && t.irqPend == 0x4) = true := by decide
/-- G7. -/
theorem test_dsResult_split :
    ends (exec (.dsResult 2) (discoveryState .wait ⟨0, 0⟩ ⟨0xFFFF, 0xFFFFFFFE⟩ []))
      (fun t => readReg t .dsState == 0x000C0201 && t.discovery.stack ==
        [⟨⟨0, 0⟩, ⟨0x7FFF, 0xFFFFFFFF⟩⟩, ⟨⟨0x8000, 0⟩, ⟨0xFFFF, 0xFFFFFFFE⟩⟩]) = true := by decide +kernel
/-- G9. -/
theorem test_dsResult_found :
    ends (exec (.dsResult 1) respondedState)
      (fun t => readReg t .dsState == 0x00010001 && t.discovery.found == uidA && t.irqPend == 0x2 &&
        t.tx == ⟨uidA, uidC, ⟨0, 3, 0, 0x10⟩, ⟨0, 0x0002⟩, 0⟩) = true := by decide +kernel
/-- Y12. -/
theorem test_softReset :
    ends (exec .softReset { handlerState uidA 0x20 0 0x0060 0 0 [0x07] with irqPend := 0x1F, portId := 9 })
      (fun t => readReg t .status == 0x1 && t.irqPend == 0 && t.portId == 1 && t.memRead 0x218 1 == [0x07]) = true := by
  decide +kernel

/-! ### Host accesses and agents -/

/-- Y4: a misaligned read returns 0 and sets BUS_ERR. -/
theorem test_misaligned_read :
    ends (step { State.reset with inputs := [.hostRead 0x00D], readData := 7 })
      (fun t => t.readData == 0 && readReg t .status == 0x8) = true := by decide
/-- Y8: a PID table entry keeps its named bits. -/
theorem test_pidTable_mask :
    readWord (writeWord State.reset 0x77C 0xFFFFFFFF) 0x77C = 0x8007FFFF := by decide +kernel
/-- Y10: the last word of FRAME, and the word behind it. -/
theorem test_frame_edge :
    readWord (writeWord State.reset 0x300 0x11223344) 0x300 = 0x11223344 ∧
      writeWord State.reset 0x304 0x11223344 = State.reset := by decide +kernel
/-- Y9. -/
theorem test_irq_output : readReg { State.reset with irqEn := 1, irqPend := 1 } .status = 0x00010000 := by decide
/-- T3: the alarm fires at its deadline. -/
theorem test_alarm_fires :
    ends (step { timedState 4000 1000 .reqNr .sentRequest with
        timing := ⟨0, 1000, .reqNr, .sentRequest, false, true, false, false, 0, 0, 0, 4000⟩, inputs := [.alarm] })
      (fun t => readReg t .tmState == 0x13 && t.irqPend == 0x1) = true := by decide
/-- T16: NOW_LO latches the high word. -/
theorem test_now_latch :
    ends (step { State.reset with now := 0x100000005, inputs := [.hostRead 0x0C0] })
      (fun t => t.readData == 5 && t.timing.nowHiLatch == 1) = true := by decide
/-- R100: a store at BASE + 0x004 of a command's word runs it, whatever BASE is. -/
theorem test_store_at_base_runs :
    ∀ base, ends (hostStore base (base + 0x004) 0x00000050 State.reset) (fun t => readReg t .dsState == 0x00000101) = true := by
  intro base
  rw [show base + 0x004 = base + cmdOffset.toNat from rfl, hostStore_add]
  decide
theorem test_withFetchWord_runs :
    ends (step (State.reset.withFetchWord 32 0x00000050)) (fun t => readReg t .dsState == 0x00000101) = true :=
  by decide

/-! ### Witnesses: for each statement with hypotheses, a concrete state and operands that meet them together -/

theorem witness_DecodeOfEncode : (Instr.tmStamp 7 3).WellFormed := by decide
theorem witness_EncodeOfDecode : decode 0x00001330 = .command (.tmStamp 3 1) := by decide
theorem witness_StepRunsDecodedCommand :
    decode 0x00000152 = .command (.dsResult 1) ∧
      { State.reset with inputs := [.hostWrite 0x004 0x00000152, .alarm] }.inputs =
        .hostWrite 0x004 0x00000152 :: [.alarm] ∧
      (0x00000724 < 2 ^ 32 ∧ decode (BitVec.ofNat 32 0x00000724) = .command (.frDiscEncode 7)) := by decide
theorem witness_IllegalWordOnlyReports :
    rowsMatched 0x00004030 = 0 ∧ rowsMatched 0x00000352 = 1 ∧
      { State.reset with inputs := [.hostWrite 0x004 0x00004030] }.inputs = .hostWrite 0x004 0x00004030 :: [] := by
  decide

/-- A format string of 65 bytes; `a226v`; and `b` before each kind of offending token, with text sizes 0 and 232 and
literals of no digit and of 17 digits. -/
theorem witness_ParseReportsFirstOffender_length : 64 < (List.replicate 65 (0x62 : Byte)).length := by decide
theorem witness_ParseReportsFirstOffender_size :
    ([.afix 226, .v] : List Token) ≠ [] ∧ FinalLast [.afix 226, .v] ∧
      List.Forall₂ TokenText [.afix 226, .v] [[0x61, 0x32, 0x32, 0x36], [0x76]] ∧
      ([[0x61, 0x32, 0x32, 0x36], [0x76]] : List (List Byte)).flatten.length ≤ 64 ∧
      231 < wFixed [.afix 226, .v] + (if .v ∈ ([.afix 226, .v] : List Token) then 6 else 0) := by
  refine ⟨by decide, by unfold FinalLast; decide, .cons ⟨[2, 2, 6], by decide⟩ (.cons rfl .nil), by decide, by decide⟩
theorem witness_ParseReportsFirstOffender_prefix :
    (∀ t ∈ ([.b] : List Token), t ≠ .v ∧ t ≠ .avar) ∧ List.Forall₂ TokenText [.b] [[0x62]] :=
  ⟨by decide, .cons rfl .nil⟩
theorem witness_ParseReportsFirstOffender_unknown :
    ([0x62, 0x78] : List Byte).length ≤ 64 ∧ (0x39 : Nat) < (0x78 : Byte).toNat ∧
      (0x78 : Byte) ∉ ([0x62, 0x77, 0x64, 0x75, 0x76, 0x61, 0x23] : List Byte) := by decide
theorem witness_ParseReportsFirstOffender_textSize :
    ([0] : List (Fin 10)) ≠ [] ∧ decValue [0] = 0 ∧ ([2, 3, 2] : List (Fin 10)) ≠ [] ∧ 231 < decValue [2, 3, 2] ∧
      (∀ c ∈ ([0x78] : List Byte).head?, c.toNat < 0x30 ∨ 0x39 < c.toNat) ∧
      ([0x62] ++ 0x61 :: (decText [2, 3, 2] ++ [0x78])).length ≤ 64 := by decide
theorem witness_ParseReportsFirstOffender_literal :
    (∀ c ∈ ([0x78] : List Byte).head?, c ≠ 0x68 ∧ ∀ d, c ≠ hexChar d) ∧
      ([0x62] ++ 0x23 :: (hexText [(1, false), (10, true)] ++ [0x78])).length ≤ 64 ∧
      16 < (List.replicate 17 ((1 : Fin 16), false)).length ∧
      ([0x62] ++ 0x23 :: (hexText (List.replicate 17 (1, false)) ++ 0x68 :: [])).length ≤ 64 := by decide

/-- `wv`, `x` and the codec states around the bounds of the lengths. -/
def wvState : State := codecState [0x77, 0x76] [0x02, 0x01] [0x01, 0x02, 0x05] 512 231
def badFormatState (hostLen : BitVec 10) (pdLen : Byte) : State := codecState [0x78] [] [] hostLen pdLen
theorem witness_ParseReportsShape :
    parseFmt wvState = .ok [.w, .v] ∧ parseFmt (badFormatState 0 0) = .error .pUnknown := by decide
theorem witness_CodecErrorsWriteNothing :
    512 < (badFormatState 513 0).codec.pdHostLen.toNat ∧ (badFormatState 512 232).codec.pdHostLen.toNat ≤ 512 ∧
      231 < (badFormatState 512 232).codec.pdLen.toNat ∧ (badFormatState 512 231).codec.pdLen.toNat ≤ 231 ∧
      parseFmt (badFormatState 512 231) = .error .pUnknown := by decide
theorem witness_EncodeStaysInCap : wvState.codec.pdHostLen.toNat ≤ 512 ∧ parseFmt wvState = .ok [.w, .v] := by decide
theorem witness_DecodeStaysInRoom :
    wvState.codec.pdHostLen.toNat ≤ 512 ∧ wvState.codec.pdLen.toNat ≤ 231 ∧ parseFmt wvState = .ok [.w, .v] := by decide
theorem witness_PassesBounded : parseString [0x62] = .ok [.b] ∧ 512 ≤ 512 ∧ 231 ≤ 231 := by decide
/-- `#AAhb` (E24), with both lengths at their bounds. -/
theorem witness_FixedRecords :
    let s := codecState [0x23, 0x41, 0x41, 0x68, 0x62] [0x01, 0x02, 0x03] [] 512 231
    parseFmt s = .ok [.lit [0xAA], .b] ∧ .v ∉ ([.lit [0xAA], .b] : List Token) ∧
      .avar ∉ ([.lit [0xAA], .b] : List Token) ∧
      (∃ tok ∈ ([.lit [0xAA], .b] : List Token), ∀ bytes, tok ≠ .lit bytes) ∧ s.codec.pdHostLen.toNat ≤ 512 ∧
      s.codec.pdLen.toNat ≤ 231 := by
  refine ⟨by decide, by decide, by decide, ⟨.b, by decide, fun _ h => by cases h⟩, by decide, by decide⟩
/-- `#0100h`, with the longest wire; `ba` with one host byte and the least room, and with too little of each; `wv` with a
null record, a whole one and 7 bytes left, and at both bounds of its lengths. -/
theorem witness_LiteralsBareTextAndOptionalUid_literal :
    let s := codecState [0x23, 0x30, 0x31, 0x30, 0x30, 0x68] [] [] 512 231
    parseFmt s = .ok [.lit [0x01, 0x00]] ∧ (∀ tok ∈ ([.lit [0x01, 0x00]] : List Token), ∃ bytes, tok = .lit bytes) ∧
      s.codec.pdHostLen.toNat ≤ 512 ∧ s.codec.pdLen.toNat ≤ 231 :=
  ⟨by decide, fun tok h => ⟨[0x01, 0x00], by simpa using h⟩, by decide, by decide⟩
theorem witness_LiteralsBareTextAndOptionalUid_text :
    let s := codecState [0x62, 0x61] [0x05] [] 1 0
    let u := codecState [0x62, 0x61] [] [0x05] 2 1
    parseFmt s = .ok ([.b] ++ [.avar]) ∧ s.codec.pdHostLen.toNat ≤ 512 ∧ 0 < s.codec.pdHostLen.toNat ∧
      hFixed [.b] ≤ s.codec.pdHostLen.toNat ∧
      parseFmt u = .ok ([.b] ++ [.avar]) ∧ u.codec.pdHostLen.toNat ≤ 512 ∧ u.codec.pdLen.toNat ≤ 231 ∧
      0 < u.codec.pdLen.toNat ∧ wFixed [.b] ≤ u.codec.pdLen.toNat ∧ hFixed [.b] + 1 ≤ u.codec.pdHostLen.toNat := by
  decide
theorem witness_LiteralsBareTextAndOptionalUid_noText :
    (codecState [0x62, 0x61] [] [] 0 0).codec.pdHostLen = 0 ∧
      (codecState [0x77, 0x61] [] [] 1 0).codec.pdHostLen.toNat < hFixed [.w] ∧
      (codecState [0x77, 0x61] [] [] 1 0).codec.pdLen = 0 ∧
      (codecState [0x77, 0x61] [] [] 3 1).codec.pdLen.toNat < wFixed [.w] ∧
      (codecState [0x77, 0x61] [] [] 2 2).codec.pdHostLen.toNat < hFixed [.w] + 1 ∧
      parseFmt (codecState [0x77, 0x61] [] [] 2 2) = .ok ([.w] ++ [.avar]) := by decide
theorem witness_LiteralsBareTextAndOptionalUid_uid :
    let recs : List (List Byte) := [List.replicate 8 0, [0x02, 0x01, 0xE0, 0x05, 0x78, 0x56, 0x34, 0x12]]
    let s := codecState [0x77, 0x76] (recs.flatten ++ List.replicate 7 0x11) [] 23 0
    let u := codecState [0x77, 0x76] [] [0x01, 0x02] 512 231
    parseFmt s = .ok ([.w] ++ [.v]) ∧ s.codec.pdHostLen.toNat ≤ 512 ∧ (∀ r ∈ recs, r.length = hFixed [.w] + 6) ∧
      (List.replicate 7 (0x11 : Byte)).length < hFixed [.w] + 6 ∧
      s.memRead 0x400 s.codec.pdHostLen.toNat = recs.flatten ++ List.replicate 7 0x11 ∧
      parseFmt u = .ok ([.w] ++ [.v]) ∧ u.codec.pdHostLen.toNat ≤ 512 ∧ u.codec.pdLen.toNat ≤ 231 := by decide

/-- E6: one record of `wv`, and a state that holds its wire bytes. -/
def e6Host : List Byte := [0x02, 0x01, 0xE0, 0x05, 0x78, 0x56, 0x34, 0x12]
def e6Wire : List Byte := [0x01, 0x02, 0x05, 0xE0, 0x12, 0x34, 0x56, 0x78]
theorem witness_RoundTrip :
    let s := codecState [0x77, 0x76] e6Host [] 8 0
    let u := codecState [0x77, 0x76] [] e6Wire 8 8
    parseFmt s = .ok [.w, .v] ∧
      (∀ r ∈ [e6Host], LegalRecord [.w, .v] r ∧ wireOf [.w, .v] r ≠ []) ∧
      (.avar ∈ ([.w, .v] : List Token) ∨ (∀ tok ∈ ([.w, .v] : List Token), ∃ bytes, tok = .lit bytes) →
        [e6Host].length = 1) ∧
      s.codec.pdHostLen.toNat = [e6Host].flatten.length ∧ [e6Host].flatten.length ≤ 512 ∧
      s.memRead 0x400 [e6Host].flatten.length = [e6Host].flatten ∧
      ([e6Host].flatMap (wireOf [.w, .v])).length ≤ 231 ∧
      parseFmt u = .ok [.w, .v] ∧ u.memRead 0x218 8 = [e6Host].flatMap (wireOf [.w, .v]) ∧
      [e6Host].flatten.length ≤ u.codec.pdHostLen.toNat ∧ u.codec.pdHostLen.toNat ≤ 512 := by
  refine ⟨by decide, ?_, fun _ => rfl, by decide, by decide, by decide, by decide, by decide, by decide, by decide,
    by decide⟩
  intro r h
  obtain rfl : r = e6Host := by simpa using h
  exact ⟨⟨by decide, by decide, by decide, rfl⟩, by decide⟩

/-- A range that ends with FRAME, and one byte more. -/
theorem witness_ChecksumOfRange :
    (259 : BitVec 9).toNat + (1 : BitVec 9).toNat ≤ 260 ∧ 260 < (250 : BitVec 9).toNat + (11 : BitVec 9).toNat := by
  decide
def longTx (pdl : Byte) : State := { State.reset with tx := { State.reset.tx with pdl := pdl } }
theorem witness_EncodeRequestBuildsFrame : (longTx 231).tx.pdl.toNat ≤ 231 ∧ 231 < (longTx 232).tx.pdl.toNat :=
  by decide
theorem witness_EncodeResponseBuildsFrame :
    (longTx 231).tx.pdl.toNat ≤ 231 ∧ 231 < (longTx 232).tx.pdl.toNat ∧
      { longTx 0 with config := ⟨true, false, false⟩ }.config.rspSrcSelf = true ∧
      (longTx 0).config.rspSrcSelf = false := by decide
theorem witness_FrameDecode_valid : ValidFrame (frameState f1Frame 26) := by unfold ValidFrame; decide +kernel
/-- F13 to F18 and F19: a frame for each failing check. -/
theorem witness_FrameDecode_invalid :
    ∀ s ∈ [frameState f1Frame 261, frameState f1Frame 25, frameState (f1Frame.set 0 0xCD) 26,
      frameState (f1Frame.set 1 0x02) 26, frameState (f1Frame.set 2 0x19) 26,
      frameState ((f1Frame.set 2 0x19).set 23 0x01) 26, frameState (f1Frame.set 25 0xD0) 26], ¬ValidFrame s := by
  unfold ValidFrame; decide +kernel
theorem witness_SingleBitFlipRejected :
    let s := frameState f1Frame 26
    let u := frameState (f1Frame.set 15 0x01) 26
    ValidFrame s ∧ s.framer.rxLen.toNat = (frameByte s 2).toNat + 2 ∧ 15 < (frameByte s 2).toNat + 2 ∧ 0 < 8 ∧
      u.framer.rxLen = s.framer.rxLen ∧
      ∀ j, j < (frameByte s 2).toNat + 2 →
        frameByte u j = if j = 15 then frameByte s j ^^^ BitVec.ofNat 8 (2 ^ 0) else frameByte s j := by
  unfold ValidFrame; decide +kernel
theorem witness_RequestFrameDecodes_request :
    ∃ s t u : State, s.tx.pdl.toNat ≤ 231 ∧ exec (.frEncodeReq true) s = .next t ∧
      (∀ i, i < 26 + s.tx.pdl.toNat → frameByte u i = frameByte t i) ∧ u.framer.rxLen = t.framer.frameLen := by
  refine ⟨f1Tx, done (buildFrame (selectTn true f1Tx)),
    { done (buildFrame (selectTn true f1Tx)) with framer := ⟨26, false, 0, 0, 0, 0, 0⟩ }, by decide, ?_, fun _ _ => rfl, ?_⟩
  · simp only [exec, execFrEncodeReq]; rw [if_neg (by decide)]
  · decide
theorem witness_RequestFrameDecodes_response :
    ∃ s t u : State, s.tx.pdl.toNat ≤ 231 ∧ exec .frEncodeRsp s = .next t ∧
      (∀ i, i < 26 + s.tx.pdl.toNat → frameByte u i = frameByte t i) ∧ u.framer.rxLen = t.framer.frameLen := by
  obtain ⟨t, ht, hl⟩ : ∃ t, exec .frEncodeRsp f1Tx = .next t ∧ t.framer.frameLen = 26 := by
    simp only [exec, execFrEncodeRsp]; rw [if_neg (by decide)]; exact ⟨_, rfl, by decide⟩
  exact ⟨f1Tx, t, { t with framer := ⟨26, false, 0, 0, 0, 0, 0⟩ }, by decide, ht, fun _ _ => rfl, hl.symm⟩
/-- The delimiter at 0 and at 7, a complete response, and each failing check. -/
theorem witness_DiscoveryResponseDecode_accepts :
    let s := discState (List.replicate 7 0xFE ++ d2Bytes) 24
    s.disc.len.toNat ≤ 24 ∧ DelimAt s 7 ∧ 7 + 17 ≤ s.disc.len.toNat ∧ MasksHold s 7 ∧
      discTotal s 7 = (discRaw s 7 6 ++ discRaw s 7 7).toNat := by
  unfold DelimAt MasksHold; decide +kernel
theorem witness_DiscoveryResponseDecode_noDelimiter :
    24 < (discState [] 25).disc.len.toNat ∧ (discState [] 0).disc.len.toNat = 0 ∧
      (0 < (discState [0xFE] 1).disc.len.toNat ∧ ∀ p, ¬DelimAt (discState [0xFE] 1) p) := by
  refine ⟨by decide, by decide, by decide, ?_⟩
  rintro p ⟨-, hp, hd, -⟩
  obtain rfl : p = 0 := by simpa [discState] using hp
  exact absurd hd (by decide)
theorem witness_DiscoveryResponseDecode_rejects :
    let s := discState [0xAA] 16
    let u := discState (d2Bytes.set 1 0x2F) 17
    let v := discState (d2Bytes.set 2 0x57) 17
    (s.disc.len.toNat ≤ 24 ∧ DelimAt s 0 ∧ s.disc.len.toNat < 0 + 17) ∧
      (DelimAt u 0 ∧ 0 + 17 ≤ u.disc.len.toNat ∧ ¬MasksHold u 0) ∧
      (DelimAt v 0 ∧ 0 + 17 ≤ v.disc.len.toNat ∧ MasksHold v 0 ∧
        discTotal v 0 ≠ (discRaw v 0 6 ++ discRaw v 0 7).toNat) := by
  unfold DelimAt MasksHold; decide +kernel
theorem witness_DiscoveryResponseDecodes :
    ∃ s t u : State, exec (.frDiscEncode 3) s = .next t ∧
      (∀ i, i < (3 : BitVec 3).toNat + 17 → discByte u i = discByte t i) ∧ u.disc.len = t.disc.len :=
  ⟨withUids uidA nullUid nullUid, _, _, rfl, fun _ _ => rfl, rfl⟩

theorem witness_StampAndSetCategory : (4 : BitVec 3).toNat ≤ 4 ∧ 4 < (5 : BitVec 3).toNat := by decide
/-- T6: one microsecond short of the gap, and the gap. -/
theorem witness_GapCheck :
    let el := fun s : State => (s.now.toNat + 2 ^ 64 - s.timing.lastTs.toNat) % 2 ^ 64
    let short := timedState 15799 10000 .discNr .received
    let full := timedState 15800 10000 .discNr .received
    el short < requiredGap short.timing.lastCat ∧ requiredGap full.timing.lastCat ≤ el full := by decide
theorem witness_ResponseWaitAndCancel :
    let s := timedState 1000 1000 .discNr .sentBranch
    let u := timedState 1000 1000 .respond .received
    (s.config.earlyEn = true ∧ (s.timing.lastKind.code = 1 ∨ s.timing.lastKind.code = 2) ∧ false = false) ∧
      ¬(u.config.earlyEn = true ∧ (u.timing.lastKind.code = 1 ∨ u.timing.lastKind.code = 2) ∧ false = false) :=
  by decide
def armedState (now : Time) (inputs : List Event) : State :=
  { State.reset with
    now := now
    timing := ⟨0, 1000, .reqNr, .sentRequest, false, true, false, false, 0, 0, 0, 4000⟩
    inputs := inputs }
theorem witness_AlarmFiresWhenDue :
    let s := armedState 4000 [.alarm]
    s.inputs = .alarm :: [] ∧ s.timing.armed = true ∧ s.timing.alarmAt.toNat ≤ s.now.toNat := by decide
theorem witness_AgentTurns :
    (armedState 0 [.tick 1 (by decide)]).inputs = .tick 1 (by decide) :: [] ∧
      (let s := armedState 3999 [.alarm]
       s.inputs = .alarm :: [] ∧ ¬(s.timing.armed = true ∧ s.timing.alarmAt.toNat ≤ s.now.toNat)) ∧
      (let s := armedState 4000 []
       s.inputs = [] ∧ s.timing.armed = true ∧ s.timing.alarmAt.toNat ≤ s.now.toNat) ∧
      (let s := armedState 3999 []
       s.inputs = [] ∧ s.timing.armed = true ∧ ¬(s.timing.armed = true ∧ s.timing.alarmAt.toNat ≤ s.now.toNat)) ∧
      (State.reset.inputs = [] ∧ Quiescent State.reset) := by decide

/-- H2, H3, H4, H5, H6, H11 and H1: a request for each outcome of DP_VALIDATE. -/
theorem entry_0060 (s : State) (h : s.pidTable = (requestState uidA 0 0 0).pidTable) :
    FirstEntry s 0x0060 ⟨0x0060, false, true, true, true⟩ := by
  refine ⟨0, by rw [h]; decide +kernel, rfl, rfl, fun j hj => absurd hj (by simp)⟩
theorem witness_ValidateDecides_outcomes :
    State.reset.framer.frameValid = false ∧ (requestState uidA 0x20 0 0x0060).framer.frameValid = true ∧
      ¬Targets uidA (requestState ⟨0x05E0, 0x12345679⟩ 0x20 0 0x0060).rx.dest ∧
      Targets uidA (requestState uidA 0x20 0 0x0060).rx.dest ∧
      (let s := requestState uidA 0x20 0 0x0060
       ¬FormatOk { s with rx := { s.rx with ctl0 := ⟨0, 0, 0, 0x20⟩ } } ∧ FormatOk s) ∧
      ¬SubDeviceBad (requestState uidA 0x20 0x200 0x0060) ∧ SubDeviceBad (requestState uidA 0x20 0x201 0x0060) ∧
      SubDeviceBad (requestState uidA 0x20 0xFFFF 0x0060) := by
  unfold Targets FormatOk SubDeviceBad Broadcast; decide +kernel
theorem witness_ValidateDecides_entries :
    FirstEntry (requestState uidA 0x20 0 0x0060) 0x0060 ⟨0x0060, false, true, true, true⟩ ∧
      EntrySupports ⟨0x0060, false, true, true, true⟩ 0x20 ∧ ¬EntrySupports ⟨0x0060, false, true, true, true⟩ 0x10 ∧
      ∀ e, ¬FirstEntry (requestState uidA 0x20 0 0x1234) 0x1234 e := by
  refine ⟨entry_0060 _ rfl, by unfold EntrySupports; decide, by unfold EntrySupports; decide, ?_⟩
  rintro e ⟨i, rfl, -, h, -⟩
  revert h i
  decide +kernel
theorem witness_CheckDecides :
    State.reset.dispatch.phase ≠ .validating ∧
      (handlerState uidA 0x20 0 0x0060 0x00 231 []).dispatch.phase = .validating ∧
      231 < (handlerState uidA 0x20 0 0x0060 0x00 232 []).dispatch.handlerLen.toNat ∧
      (handlerState uidA 0x20 0 0x0060 0x04 0 []).dispatch.handlerRt ∉ ([0x00, 0x01, 0x02, 0x03, 0xFF] : List Byte) ∧
      SuppressHolds (handlerState allDevices 0x30 0 0x0060 0x00 0 []) false ∧
      ¬SuppressHolds (handlerState uidA 0x20 0 0x0060 0x02 2 []) true := by
  unfold SuppressHolds Broadcast; decide +kernel
theorem witness_FinalDecisions :
    (∃ t, (requestState uidA 0x20 0 0x1234).framer.frameValid = true ∧
      exec .dpValidate (requestState uidA 0x20 0 0x1234) = .next t) ∧
    (∃ t, (handlerState uidA 0x10 0 0x0002 0x00 2 []).dispatch.phase = .validating ∧
      exec .dpCheck (handlerState uidA 0x10 0 0x0002 0x00 2 []) = .next t) ∧
    (∃ t, let s := requestState uidA 0x30 0xFFFF 0x0060
      s.framer.frameValid = true ∧ exec .dpValidate s = .next t ∧ Targets s.uid.self s.rx.dest ∧ FormatOk s ∧
        FirstEntry s s.rx.ctl1.pid ⟨0x0060, false, true, true, true⟩ ∧
        EntrySupports ⟨0x0060, false, true, true, true⟩ s.rx.ctl0.cc ∧ s.rx.ctl1.subDevice = 0xFFFF) := by
  refine ⟨⟨_, rfl, rfl⟩, ⟨_, rfl, rfl⟩, _, rfl, rfl, ?_, ?_, entry_0060 _ rfl, ?_, rfl⟩
  · unfold Targets Broadcast; decide
  · unfold FormatOk Broadcast; decide
  · unfold EntrySupports; decide

theorem witness_NextBranch :
    State.reset.discovery.phase = .idle ∧ (discoveryState .wait uidA uidB []).discovery.phase = .wait ∧
      (discoveryState .done uidA uidB []).discovery.phase = .done ∧
      ((discoveryState .ready uidA uidB []).discovery.phase = .ready ∧
        (discoveryState .ready uidA uidB []).discovery.stack = []) ∧
      (discoveryState .ready nullUid nullUid [fullRange]).discovery.stack = fullRange :: [] := by decide
theorem witness_EmptyBranchDiscarded :
    (2 : BitVec 2) ≠ 3 ∧ (discoveryState .ready uidA uidB []).discovery.phase ≠ .wait ∧
      (discoveryState .wait uidA uidB []).discovery.phase = .wait ∧
      (discoveryState .wait uidA uidB []).disc.valid = false ∧ (discoveryState .wait uidA uidB []).disc.len = 0 :=
  by decide
theorem witness_DeviceFound : respondedState.discovery.phase = .wait ∧ respondedState.disc.valid = true := by decide
/-- A range of two UIDs under 47 ranges and under 48, and a range of one. -/
theorem witness_CollisionSplitsOrReports :
    let two := discoveryState .wait ⟨0, 0⟩ ⟨0, 1⟩ (List.replicate 47 fullRange)
    let full := discoveryState .wait ⟨0, 0⟩ ⟨0, 1⟩ (List.replicate 48 fullRange)
    let one := { discoveryState .wait ⟨0, 0⟩ ⟨0, 0⟩ [] with disc := ⟨5, false, 0, nullUid⟩ }
    (two.discovery.phase = .wait ∧ two.discovery.lower.u48 < two.discovery.upper.u48 ∧
        two.discovery.stack.length + 2 ≤ 49) ∧
      (full.discovery.lower.u48 < full.discovery.upper.u48 ∧ 49 < full.discovery.stack.length + 2) ∧
      (one.disc.valid = false ∧ one.disc.len ≠ 0 ∧ one.discovery.upper.u48 ≤ one.discovery.lower.u48) := by decide
theorem witness_SplitPartitionsRange : fullRange.lo.u48 < fullRange.hi.u48 := by decide
theorem witness_StepKeepsDiscoveryFits :
    discoveryFits (discoveryState .wait ⟨0, 0⟩ ⟨0xFFFF, 0xFFFFFFFE⟩ []) = true ∧
      (∃ t, step { discoveryState .wait ⟨0, 0⟩ ⟨0xFFFF, 0xFFFFFFFE⟩ [] with
        inputs := [.hostWrite 0x004 0x00000252] } = .next t) ∧
      (∃ t, exec (.dsResult 2) (discoveryState .wait ⟨0, 0⟩ ⟨0xFFFF, 0xFFFFFFFE⟩ []) = .next t) :=
  ⟨by decide, ⟨_, rfl⟩, ⟨_, rfl⟩⟩

theorem witness_StepKeepsMemoryCanonical :
    MemoryCanonical (frameState f1Frame 26) ∧
      ∃ t, step { frameState f1Frame 26 with inputs := [.hostWrite 0x300 0x11223344] } = .next t :=
  ⟨by decide +kernel, ⟨_, rfl⟩⟩
theorem witness_StatusAfterEveryCommand :
    ∃ t, { State.reset with inputs := [.hostWrite 0x004 0x00000252] }.inputs = .hostWrite 0x004 0x00000252 :: [] ∧
      step { State.reset with inputs := [.hostWrite 0x004 0x00000252] } = .next t ∧ (0x00000252 : Word) ≠ 0x00005AFF ∧
      (0x006 : Offset).toNat % 4 ≠ 0 ∧
      { State.reset with inputs := [.hostWrite 0x006 0] }.inputs = .hostWrite 0x006 0 :: [] :=
  ⟨_, rfl, rfl, by decide, by decide, rfl⟩
theorem witness_StepKeepsReports :
    let s := { handlerState uidA 0x20 0 0x0060 0x02 2 [] with inputs := [.hostWrite 0x004 0x00000041] }
    statusPattern s = true ∧ dispatchCoherent s = true ∧ ∃ t, step s = .next t :=
  ⟨by decide, by decide, ⟨_, rfl⟩⟩
theorem witness_CommandsSetOneInterrupt :
    ∃ t, Instr.dsNext ≠ .softReset ∧ exec .dsNext (discoveryState .ready nullUid nullUid []) = .next t :=
  ⟨_, by decide, rfl⟩
theorem witness_CommandsKeepHostRegisters :
    ∃ t, exec .dpCheck (handlerState uidA 0x20 0 0x0060 0x02 2 []) = .next t ∧ Instr.dpCheck ≠ .softReset :=
  ⟨_, rfl, by decide⟩
/-- PD_DECODE of `b` writes the first byte of HOST. -/
theorem witness_CommandsWriteNamedBuffers :
    ends (exec .pdDecode (codecState [0x62] [] [0x07] 1 1)) (fun t => Memory.read t.mem 0x400 !=
      Memory.read (codecState [0x62] [] [0x07] 1 1).mem 0x400) = true := by decide
/-- DS_NEXT writes the last byte of the upper bound. -/
theorem witness_CommandsWriteNamedBuffers_bounds :
    ends (exec .dsNext (discoveryState .ready nullUid nullUid [fullRange])) (fun t => Memory.read t.mem 0x223 !=
      Memory.read (discoveryState .ready nullUid nullUid [fullRange]).mem 0x223) = true := by decide +kernel
theorem witness_WindowReadBack_write :
    { State.reset with inputs := [.hostWrite 0x300 1] }.inputs = .hostWrite 0x300 1 :: [] ∧
      (0x300 : Offset).toNat % 4 = 0 ∧ (0x300 : Offset) ≠ 0x004 := by decide
theorem witness_WindowReadBack :
    (4 ∣ 0x300 ∧ bufferWord 0x300 = true) ∧ (4 ∣ 0x654 ∧ bufferWord 0x654 = true) ∧
      (4 ∣ 0x03C ∧ (∀ r : Reg, r.offset ≠ 0x03C) ∧ 0x03C < 0x200) ∧
      (4 ∣ 0x304 ∧ ∀ r : Reg, r.offset ≠ 0x304) := by
  refine ⟨by decide, by decide, ⟨by decide, ?_, by decide⟩, by decide, ?_⟩ <;> intro r <;> cases r <;> decide
theorem witness_MisalignedOnlyBusError :
    (0x00D : Offset).toNat % 4 ≠ 0 ∧ { State.reset with inputs := [.hostRead 0x00D] }.inputs = .hostRead 0x00D :: [] ∧
      { State.reset with inputs := [.hostWrite 0x005 0x00000120] }.inputs = .hostWrite 0x005 0x00000120 :: [] := by
  decide
theorem witness_NowReadsAreOneSample :
    { State.reset with inputs := [.hostRead 0x0C0] }.inputs = .hostRead 0x0C0 :: [] ∧
      (∃ t, step (armedState 4000 [.alarm]) = .next t) ∧
      ((0x0C4 : Offset).toNat % 4 = 0 ∧ (0x0C4 : Offset) ≠ 0x0C0) :=
  ⟨by decide, ⟨_, rfl⟩, by decide⟩
/-- A draw that names FRAME[0] twice and a byte behind FRAME. -/
theorem witness_PlatformResetValues :
    let bytes : List Host.Cell := [(0x200, 0x11), (0x304, 0x22), (0x200, 0xCC), (0x657, 0x33)]
    { State.reset with inputs := [.platformReset bytes 77] }.inputs = .platformReset bytes 77 :: [] ∧
      BufferByte 0x200 ∧ bytes = [(0x200, 0x11), (0x304, 0x22)] ++ (0x200, 0xCC) :: [(0x657, 0x33)] ∧
      (∀ c ∈ ([(0x657, 0x33)] : List Host.Cell), c.1 ≠ 0x200) ∧ BufferByte 0x657 ∧ ¬BufferByte 0x304 ∧
      ∀ c ∈ bytes, c.1 ≠ 0x303 := by
  unfold BufferByte; decide
/-- The first and the last word of the window, and the address behind it. -/
theorem witness_WindowStandsAtBase :
    { State.reset with inputs := [.hostLoad (Config.base + (0xFFC : Offset).toNat)] }.inputs =
        .hostLoad (Config.base + (0xFFC : Offset).toNat) :: [] ∧
      { State.reset with inputs := [.hostStore (Config.base + (0x000 : Offset).toNat) 5] }.inputs =
        .hostStore (Config.base + (0x000 : Offset).toNat) 5 :: [] ∧
      Config.base + 0x1000 ≤ Config.base + 0x1000 ∧
      { State.reset with inputs := [.hostStore (Config.base + 0x1000) 5] }.inputs =
        .hostStore (Config.base + 0x1000) 5 :: [] :=
  ⟨rfl, rfl, Nat.le_refl _, rfl⟩

end Sys2Proof.Tests
end

section
/-! The window at BASE (20_memory.md R100, R108): a host access by platform address is the access at its offset, or none
of this block. -/

namespace Sys2Proof.Machine

/-! ### Accesses outside the window (60_exceptions.md R545, entry 9) -/

theorem hostLoad_outside (base address : Nat) (s : State) (h : address < base ∨ base + 0x1000 ≤ address) :
    hostLoad base address s = s := by
  rw [hostLoad, windowOffset_outside base address h]

theorem hostStore_outside (base address : Nat) (w : Word) (s : State)
    (h : address < base ∨ base + 0x1000 ≤ address) : hostStore base address w s = .next s := by
  rw [hostStore, windowOffset_outside base address h]

/-! ### Agents that act alike step alike -/

/-- A step depends on the placed event only by what its agent does. -/
theorem step_eq_of_agentStep_eq (s : State) (e e' : Event) (rest : List Event) (hs : s.inputs = e :: rest)
    (he : ∀ t, agentStep e t = agentStep e' t) : step s = step { s with inputs := e' :: rest } :=
  calc step s = agentStep e { s with inputs := rest } := step_cons s e rest hs
    _ = agentStep e' { s with inputs := rest } := he _
    _ = step { s with inputs := e' :: rest } := (step_cons { s with inputs := e' :: rest } e' rest rfl).symm

theorem agentStep_hostLoad_add (a : Offset) (s : State) :
    agentStep (.hostLoad (Config.base + a.toNat)) s = agentStep (.hostRead a) s :=
  congrArg Host.Outcome.next (hostLoad_add Config.base a s)

theorem agentStep_hostStore_add (a : Offset) (w : Word) (s : State) :
    agentStep (.hostStore (Config.base + a.toNat) w) s = agentStep (.hostWrite a w) s :=
  hostStore_add Config.base a w s

theorem agentStep_hostLoad_outside (x : Nat) (s : State) (h : x < Config.base ∨ Config.base + 0x1000 ≤ x) :
    agentStep (.hostLoad x) s = .next s :=
  congrArg Host.Outcome.next (hostLoad_outside Config.base x s h)

theorem agentStep_hostStore_outside (x : Nat) (w : Word) (s : State)
    (h : x < Config.base ∨ Config.base + 0x1000 ≤ x) : agentStep (.hostStore x w) s = .next s :=
  hostStore_outside Config.base x w s h

/-- Settles O60: inside the window the agents of the two accesses act alike, outside it the agent does nothing. -/
theorem windowStandsAtBase : Obligations.WindowStandsAtBase := by
  refine ⟨fun s rest a hs => ?load, fun s rest a w hs => ?store, fun s rest x w hx hs => ?outside⟩
  case load => exact step_eq_of_agentStep_eq s _ _ rest hs (agentStep_hostLoad_add a)
  case store => exact step_eq_of_agentStep_eq s _ _ rest hs (agentStep_hostStore_add a w)
  case outside =>
    obtain hload | hstore := hs
    · exact (step_cons s _ rest hload).trans (agentStep_hostLoad_outside x _ hx)
    · exact (step_cons s _ rest hstore).trans (agentStep_hostStore_outside x w _ hx)

end Sys2Proof.Machine
end

section
/-! The register map (10_state.md R54-R56): what a host write to a register leaves in each part of the state. -/

namespace Sys2Proof.Machine

/-! ### The parts that a register write never touches -/

@[simp] theorem writeReg_rx (s : State) (w : Word) (r : Reg) : (writeReg s w r).rx = s.rx := by
  cases r <;> rfl
@[simp] theorem writeReg_discovery (s : State) (w : Word) (r : Reg) : (writeReg s w r).discovery = s.discovery := by
  cases r <;> rfl
@[simp] theorem writeReg_mem (s : State) (w : Word) (r : Reg) : (writeReg s w r).mem = s.mem := by
  cases r <;> rfl
@[simp] theorem writeReg_now (s : State) (w : Word) (r : Reg) : (writeReg s w r).now = s.now := by
  cases r <;> rfl

/-! ### The parts that it may touch -/

theorem writeReg_status (s : State) (w : Word) (r : Reg) :
    (writeReg s w r).status =
      if r = .status then { s.status with busErr := s.status.busErr && !w.getLsbD 3 } else s.status := by
  cases r <;> rfl
theorem writeReg_config (s : State) (w : Word) (r : Reg) :
    (writeReg s w r).config = if r = .config then ⟨w.getLsbD 0, w.getLsbD 1, w.getLsbD 2⟩ else s.config := by
  cases r <;> rfl
theorem writeReg_irqEn (s : State) (w : Word) (r : Reg) :
    (writeReg s w r).irqEn = if r = .irqEn then w.setWidth 5 else s.irqEn := by
  cases r <;> rfl
theorem writeReg_irqPend (s : State) (w : Word) (r : Reg) :
    (writeReg s w r).irqPend = if r = .irqPend then s.irqPend &&& ~~~w.setWidth 5 else s.irqPend := by
  cases r <;> rfl
theorem writeReg_portId (s : State) (w : Word) (r : Reg) :
    (writeReg s w r).portId = if r = .portId then w.setWidth 8 else s.portId := by
  cases r <;> rfl
theorem writeReg_tnCtr (s : State) (w : Word) (r : Reg) :
    (writeReg s w r).tnCtr = if r = .tnCtr then w.setWidth 8 else s.tnCtr := by
  cases r <;> rfl
theorem writeReg_uid (s : State) (w : Word) (r : Reg) :
    (writeReg s w r).uid =
      ⟨⟨if r = .selfMan then w.setWidth 16 else s.uid.self.man, if r = .selfDev then w else s.uid.self.dev⟩,
        ⟨if r = .uidaMan then w.setWidth 16 else s.uid.a.man, if r = .uidaDev then w else s.uid.a.dev⟩,
        ⟨if r = .uidbMan then w.setWidth 16 else s.uid.b.man, if r = .uidbDev then w else s.uid.b.dev⟩,
        s.uid.result⟩ := by
  cases r <;> rfl
theorem writeReg_tx (s : State) (w : Word) (r : Reg) :
    (writeReg s w r).tx =
      ⟨⟨if r = .txDestMan then w.setWidth 16 else s.tx.dest.man, if r = .txDestDev then w else s.tx.dest.dev⟩,
        ⟨if r = .txSrcMan then w.setWidth 16 else s.tx.src.man, if r = .txSrcDev then w else s.tx.src.dev⟩,
        if r = .txCtl0 then ctl0Of w else s.tx.ctl0, if r = .txCtl1 then ctl1Of w else s.tx.ctl1,
        if r = .txPdl then w.setWidth 8 else s.tx.pdl⟩ := by
  cases r <;> rfl
theorem writeReg_framer (s : State) (w : Word) (r : Reg) :
    (writeReg s w r).framer = { s.framer with
      rxLen := if r = .rxLen then w.setWidth 9 else s.framer.rxLen
      ckStart := if r = .ckArgs then w.setWidth 9 else s.framer.ckStart
      ckLen := if r = .ckArgs then w.extractLsb' 16 9 else s.framer.ckLen } := by
  cases r <;> rfl
theorem writeReg_codec (s : State) (w : Word) (r : Reg) :
    (writeReg s w r).codec = { s.codec with
      fmtLen := if r = .fmtLen then w.setWidth 7 else s.codec.fmtLen
      pdHostLen := if r = .pdHostLen then w.setWidth 10 else s.codec.pdHostLen
      pdLen := if r = .pdLen then w.setWidth 8 else s.codec.pdLen } := by
  cases r <;> rfl
theorem writeReg_disc (s : State) (w : Word) (r : Reg) :
    (writeReg s w r).disc = { s.disc with len := if r = .discLen then w.setWidth 5 else s.disc.len } := by
  cases r <;> rfl
theorem writeReg_timing (s : State) (w : Word) (r : Reg) :
    (writeReg s w r).timing = { s.timing with
      lastTs :=
        if r = .lastTsLo then highWord s.timing.lastTs ++ w
        else if r = .lastTsHi then w ++ s.timing.lastTs.setWidth 32
        else s.timing.lastTs } := by
  cases r <;> rfl
theorem writeReg_dispatch (s : State) (w : Word) (r : Reg) :
    (writeReg s w r).dispatch = { s.dispatch with
      fault := if r = .dpState then s.dispatch.fault && !w.getLsbD 8 else s.dispatch.fault
      handlerRt := if r = .dpHandler then w.setWidth 8 else s.dispatch.handlerRt
      handlerLen := if r = .dpHandler then w.extractLsb' 16 10 else s.dispatch.handlerLen
      subdevMax := if r = .dpSubdevMax then w.setWidth 16 else s.dispatch.subdevMax } := by
  cases r <;> rfl

/-! ### The registers that it leaves as they read -/

theorem irqOutput_congr {s t : State} (hpend : t.irqPend = s.irqPend) (hen : t.irqEn = s.irqEn) :
    irqOutput t = irqOutput s := by
  unfold irqOutput; rw [hpend, hen]

/-- The interrupt output follows a write of IRQ_EN or IRQ_PEND alone. -/
theorem irqOutput_writeReg (s : State) (w : Word) (r : Reg) (hen : r ≠ .irqEn) (hpend : r ≠ .irqPend) :
    irqOutput (writeReg s w r) = irqOutput s :=
  irqOutput_congr (by rw [writeReg_irqPend, if_neg hpend]) (by rw [writeReg_irqEn, if_neg hen])

theorem highWord_append (hi lo : Word) : highWord (hi ++ lo) = hi := BitVec.extractLsb'_append_eq_left

/-- A write of one register leaves every other register as it reads, but for the interrupt output in STATUS. -/
theorem readReg_writeReg_of_ne (s : State) (w : Word) (r q : Reg) (hqr : q ≠ r)
    (hirq : ¬(q = .status ∧ (r = .irqEn ∨ r = .irqPend))) : readReg (writeReg s w r) q = readReg s q := by
  have hne : r ≠ q := hqr.symm
  cases q
  case status =>
    have hout := irqOutput_writeReg s w r (fun h => hirq ⟨rfl, .inl h⟩) (fun h => hirq ⟨rfl, .inr h⟩)
    simp only [readReg, statusWord, writeReg_status, if_neg hne, hout]
  case lastTsLo =>
    by_cases hr : r = .lastTsHi
    · simpa [readReg, writeReg_timing, hr] using BitVec.setWidth_append_eq_right
    · simp [readReg, writeReg_timing, hr, hne]
  case lastTsHi =>
    by_cases hr : r = .lastTsLo
    · simp [readReg, writeReg_timing, hr, highWord_append]
    · simp [readReg, writeReg_timing, hr, hne]
  all_goals
    simp only [readReg, tmStateWord, dpStateWord, writeReg_config, writeReg_irqEn, writeReg_irqPend, writeReg_portId,
      writeReg_tnCtr, writeReg_uid, writeReg_tx, writeReg_framer, writeReg_codec, writeReg_disc, writeReg_timing,
      writeReg_dispatch, writeReg_rx, writeReg_discovery, writeReg_now, if_neg hne]

/-! ### The stored word (10_state.md R54) -/

/-- What a register holds after the write of `w`, with `old` before it: the RW bits are those of `w`, a W1C bit is
cleared by a 1, and every other bit stays. -/
def storedWord (rw w1c old w : Word) : Word := (old &&& ~~~(rw ||| (w &&& w1c))) ||| (w &&& rw)

theorem getElem_storedWord (rw w1c old w : Word) (i : Nat) (hi : i < 32) :
    (storedWord rw w1c old w)[i] = (old[i] && !(rw[i] || w[i] && w1c[i]) || w[i] && rw[i]) := by
  simp [storedWord]

theorem storedWord_readOnly (old w : Word) : storedWord 0 0 old w = old := by
  ext i hi; simp [getElem_storedWord]

/-- A field of `k` bits from bit 0. -/
theorem storedWord_field (k : Nat) (old : BitVec k) (rw w : Word) (hrw : rw = (BitVec.allOnes k).setWidth 32) :
    storedWord rw 0 (old.setWidth 32) w = (w.setWidth k).setWidth 32 := by
  subst hrw
  ext i hi
  by_cases hk : i < k
  · simp [getElem_storedWord, hi, hk]
  · simp [getElem_storedWord, hk, BitVec.getLsbD_of_ge old i (Nat.le_of_not_lt hk)]

theorem storedWord_readWrite (old w : Word) : storedWord 0xFFFFFFFF 0 old w = w := by
  simpa using storedWord_field 32 old 0xFFFFFFFF w (by decide)

/-- A field of at most 16 bits from bit 0 and another from bit 16. -/
theorem storedWord_fields (k n : Nat) (x : BitVec k) (y : BitVec n) (rw w : Word) (hk : k ≤ 16)
    (hrw : rw = (BitVec.allOnes k).setWidth 32 ||| (BitVec.allOnes n).setWidth 32 <<< 16) :
    storedWord rw 0 (x.setWidth 32 ||| y.setWidth 32 <<< 16) w =
      (w.setWidth k).setWidth 32 ||| (w.extractLsb' 16 n).setWidth 32 <<< 16 := by
  subst hrw
  ext i hi
  by_cases hlow : i < 16
  · by_cases hik : i < k
    · simp [getElem_storedWord, hlow, hik, hi]
    · simp [getElem_storedWord, hlow, hik, BitVec.getLsbD_of_ge x i (by omega)]
  · by_cases hin : i - 16 < n
    · simp [getElem_storedWord, hlow, hin, hi, show ¬i < k by omega, show 16 + (i - 16) = i by omega]
    · simp [getElem_storedWord, hlow, hin, show ¬i < k by omega, BitVec.getLsbD_of_ge x i (by omega),
        BitVec.getLsbD_of_ge y (i - 16) (by omega)]

/-- A field of `k` bits from bit 0 that a host write of 1 clears. -/
theorem storedWord_clear (k : Nat) (old : BitVec k) (w1c w : Word) (hw1c : w1c = (BitVec.allOnes k).setWidth 32) :
    storedWord 0 w1c (old.setWidth 32) w = (old &&& ~~~w.setWidth k).setWidth 32 := by
  subst hw1c
  ext i hi
  by_cases hk : i < k
  · simp [getElem_storedWord, hi, hk]
  · simp [getElem_storedWord, hk, BitVec.getLsbD_of_ge old i (Nat.le_of_not_lt hk)]

theorem getElem_packBits (bs : List Bool) (i : Nat) (hi : i < 32) : (packBits bs)[i] = bs.getD i false := by
  induction bs generalizing i with
  | nil => simp [packBits]
  | cons b bs ih =>
    cases i with
    | zero => simp [packBits]
    | succ i => simp [packBits, ih i (by omega)]

/-- CONFIG is three RW bits (10_state.md R34). -/
theorem storedWord_config (a b c : Bool) (w : Word) :
    storedWord 0x7 0 (packBits [a, b, c]) w = packBits [w.getLsbD 0, w.getLsbD 1, w.getLsbD 2] := by
  have mask : (0x7 : Word) = packBits [true, true, true] := by decide
  ext i hi
  rw [getElem_storedWord, mask, getElem_packBits, getElem_packBits, getElem_packBits]
  match i with
  | 0 | 1 | 2 | _ + 3 => simp

/-- One bit that a host write of 1 clears. -/
theorem storedWord_clearBit (k : Nat) (hk : k < 32) (old new w : Word) (hbit : new[k] = (old[k] && !w.getLsbD k))
    (hrest : ∀ i (hi : i < 32), i ≠ k → new[i] = old[i]) : storedWord 0 (BitVec.twoPow 32 k) old w = new := by
  ext i hi
  by_cases h : i = k
  · subst h; simp [getElem_storedWord, hbit, hk]
  · simp [getElem_storedWord, hrest i hi h, h]

/-- STATUS.BUS_ERR is bit 3 (10_state.md R33). -/
theorem storedWord_status (s : State) (w : Word) :
    storedWord 0 0x8 (statusWord s) w =
      statusWord { s with status := { s.status with busErr := s.status.busErr && !w.getLsbD 3 } } := by
  refine storedWord_clearBit 3 (by decide) _ _ w ?_ fun i hi hne => ?_
  · simp [statusWord, getElem_packBits]
  · simp only [statusWord, BitVec.getElem_or, getElem_packBits]
    match i with
    | 0 | 1 | 2 | _ + 4 => rfl
    | 3 => exact absurd rfl hne

/-- DP_STATE.FAULT is bit 8 (10_state.md R48). -/
theorem storedWord_dpState (d : DispatchRegs) (w : Word) :
    storedWord 0 0x100 (dpStateWord d) w = dpStateWord { d with fault := d.fault && !w.getLsbD 8 } := by
  refine storedWord_clearBit 8 (by decide) _ _ w ?_ fun i hi hne => ?_
  · simp [dpStateWord, getElem_packBits]
  · simp only [dpStateWord, BitVec.getElem_or, BitVec.getElem_shiftLeft, getElem_packBits]
    match i with
    | 0 | 1 | 2 | 3 | 4 | 5 | 6 | 7 | _ + 9 => rfl
    | 8 => exact absurd rfl hne

theorem ctl0Of_word (w : Word) : (ctl0Of w).word = w := by
  show w.extractLsb' 24 8 ++ w.extractLsb' 16 8 ++ w.extractLsb' 8 8 ++ w.extractLsb' 0 8 = w
  rw [BitVec.extractLsb'_append_extractLsb'_eq_extractLsb' (by rfl),
    BitVec.extractLsb'_append_extractLsb'_eq_extractLsb' (by rfl)]
  exact BitVec.extractLsb'_append_extractLsb'

theorem ctl1Of_word (w : Word) : (ctl1Of w).word = w := BitVec.extractLsb'_append_extractLsb'

/-- A register reads back as its RW, RO and W1C bits say, one case per width of field. -/
theorem readReg_writeReg_self (s : State) (w : Word) (r : Reg) :
    readReg (writeReg s w r) r = storedWord r.rwMask r.w1cMask (readReg s r) w := by
  cases r
  case status => exact (storedWord_status s w).symm
  case config => exact (storedWord_config _ _ _ w).symm
  case irqEn => exact (storedWord_field 5 _ _ w (by decide)).symm
  case irqPend => exact (storedWord_clear 5 _ _ w (by decide)).symm
  case portId | tnCtr | txPdl | pdLen => exact (storedWord_field 8 _ _ w (by decide)).symm
  case selfMan | uidaMan | uidbMan | txDestMan | txSrcMan | dpSubdevMax =>
    exact (storedWord_field 16 _ _ w (by decide)).symm
  case selfDev | uidaDev | uidbDev | txDestDev | txSrcDev => exact (storedWord_readWrite _ w).symm
  case txCtl0 => exact (ctl0Of_word w).trans (storedWord_readWrite _ w).symm
  case txCtl1 => exact (ctl1Of_word w).trans (storedWord_readWrite _ w).symm
  case rxLen => exact (storedWord_field 9 _ _ w (by decide)).symm
  case ckArgs => exact (storedWord_fields 9 9 _ _ _ w (by decide) (by decide)).symm
  case fmtLen => exact (storedWord_field 7 _ _ w (by decide)).symm
  case pdHostLen => exact (storedWord_field 10 _ _ w (by decide)).symm
  case discLen => exact (storedWord_field 5 _ _ w (by decide)).symm
  case lastTsLo => exact BitVec.setWidth_append_eq_right.trans (storedWord_readWrite _ w).symm
  case lastTsHi => exact (highWord_append _ _).trans (storedWord_readWrite _ w).symm
  case dpState => exact (storedWord_dpState _ w).symm
  case dpHandler => exact (storedWord_fields 8 10 _ _ _ w (by decide) (by decide)).symm
  all_goals exact (storedWord_readOnly _ w).symm

/-! ### Where a register stands in the window -/

theorem regAt_offset (r : Reg) : regAt r.offset = some r := by
  cases r <;> rfl

/-- The register map ends below the buffers. -/
theorem Reg.offset_lt (r : Reg) : r.offset < 0x200 := by
  cases r <;> decide

theorem regAt_eq_none (a : Nat) (h : ∀ r : Reg, r.offset ≠ a) : regAt a = none :=
  List.find?_eq_none.mpr fun r _ => by simpa using h r

theorem regAt_eq_none_of_le (a : Nat) (h : 0x200 ≤ a) : regAt a = none :=
  regAt_eq_none a fun r hr => absurd r.offset_lt (by omega)

theorem readWord_offset (s : State) (r : Reg) : readWord s r.offset = readReg s r := by
  rw [readWord, regAt_offset]

theorem writeWord_offset (s : State) (w : Word) (r : Reg) : writeWord s r.offset w = writeReg s w r := by
  rw [writeWord, regAt_offset]

/-! ### The statement -/

/-- Settles O53: the stored word and the registers that a write leaves alone. -/
theorem registerReadBack : Obligations.RegisterReadBack := by
  intro s r q w
  exact ⟨readWord_offset s r, fun _ => writeWord_offset s w r, readReg_writeReg_self s w r,
    readReg_writeReg_of_ne s w r q, fun a => by rw [writeReg_mem]⟩

end Sys2Proof.Machine
end

section
/-! The window as the host reads and writes it (20_memory.md R101-R105, 10_state.md R50), and the interrupt output
(10_state.md R35). -/

namespace Sys2Proof.Machine

/-! ### Which word stands where -/

theorem aligned_iff (a : Offset) : aligned a = true ↔ a.toNat % 4 = 0 := by
  simp only [aligned, beq_iff_eq, BitVec.toNat_eq, BitVec.extractLsb'_toNat]
  simp

theorem implementedByte_iff (a : Nat) : implementedByte a = true ↔ BufferByte a := by
  simp only [implementedByte, BufferByte, Bool.or_eq_true, Bool.and_eq_true, decide_eq_true_eq, or_assoc]
  exact Iff.rfl

theorem bufferByte_of_bufferWord {a : Nat} (h : bufferWord a = true) : BufferByte a := by
  rw [bufferWord, List.all_eq_true] at h
  simpa using (implementedByte_iff _).mp (h 0 (by simp))

theorem bufferWord_eq_false {a : Nat} (h : ¬BufferByte a) : bufferWord a = false :=
  Bool.eq_false_iff.mpr fun hw => h (bufferByte_of_bufferWord hw)

theorem regAt_of_bufferWord {a : Nat} (h : bufferWord a = true) : regAt a = none := by
  have hbyte := bufferByte_of_bufferWord h
  unfold BufferByte at hbyte
  exact regAt_eq_none_of_le a (by omega)

/-! ### Words of a buffer (20_memory.md R101, R102) -/

theorem readWord_buffer (s : State) {a : Nat} (h : bufferWord a = true) :
    readWord s a = BitVec.ofNat 32 (leNat (s.memRead a 4)) := by
  rw [readWord, regAt_of_bufferWord h]; simp [h]

theorem writeWord_buffer (s : State) {a : Nat} (w : Word) (h : bufferWord a = true) :
    writeWord s a w = s.memWrite a (leBytes w.toNat 4) := by
  rw [writeWord, regAt_of_bufferWord h]; simp [h]

theorem leBytes_getD (n : Nat) : ∀ v j : Nat, j < n → (leBytes v n).getD j 0 = BitVec.ofNat 8 (v / 256 ^ j) := by
  induction n with
  | zero => intro v j h; omega
  | succ n ih =>
    intro v j h
    cases j with
    | zero => simp [leBytes]
    | succ j => rw [leBytes, List.getD_cons_succ, ih _ _ (by omega), Nat.pow_succ', Nat.div_div_eq_div_mul]

theorem leBytes_word_getD (w : Word) (j : Nat) (h : j < 4) :
    (leBytes w.toNat 4).getD j 0 = w.extractLsb' (8 * j) 8 := by
  rw [leBytes_getD 4 _ j h, ← extract_byte, Nat.pow_mul]

theorem ofNat_leNat_leBytes (w : Word) : BitVec.ofNat 32 (leNat (leBytes w.toNat 4)) = w := by
  rw [leNat_leBytes, Nat.mod_eq_of_lt (show w.toNat < 256 ^ 4 from w.isLt), BitVec.ofNat_toNat, BitVec.setWidth_eq]

/-! ### Words of the PID table (10_state.md R50) -/

theorem pidIndex_eq (i : Fin 64) : pidIndex (0x700 + 4 * i.val) = some i := by
  have h : pidBase ≤ 0x700 + 4 * i.val ∧ (0x700 + 4 * i.val - pidBase) / 4 < 64 := by
    have := i.isLt
    simp only [pidBase]; omega
  rw [pidIndex, dif_pos h]
  congr 1; ext; simp

theorem not_bufferByte_pid (i : Fin 64) : ¬BufferByte (0x700 + 4 * i.val) := by
  unfold BufferByte; omega

theorem readWord_pid (s : State) (i : Fin 64) : readWord s (0x700 + 4 * i.val) = s.pidTable[i].word := by
  rw [readWord, regAt_eq_none_of_le _ (by omega)]
  simp [bufferWord_eq_false (not_bufferByte_pid i), pidIndex_eq]

theorem writeWord_pid (s : State) (i : Fin 64) (w : Word) :
    writeWord s (0x700 + 4 * i.val) w = { s with pidTable := s.pidTable.set i (pidEntryOf w) } := by
  rw [writeWord, regAt_eq_none_of_le _ (by omega)]
  simp [bufferWord_eq_false (not_bufferByte_pid i), pidIndex_eq]

theorem pidEntryOf_word (w : Word) : (pidEntryOf w).word = w &&& 0x8007FFFF := by
  have mask_low : ∀ i (hi : i < 32), i < 16 → (0x8007FFFF : Word)[i] = true := by decide
  ext i hi
  by_cases hlow : i < 16
  · rw [BitVec.getElem_and, mask_low i hi hlow]
    simpa [PidEntry.word, pidEntryOf, hlow, show i < 31 by omega] using BitVec.getLsbD_eq_getElem hi
  · obtain ⟨j, rfl⟩ := Nat.exists_eq_add_of_le (Nat.le_of_not_lt hlow)
    have hj : j < 16 := by omega
    interval_cases j <;> simp [PidEntry.word, pidEntryOf, getElem_packBits]

/-! ### Words where nothing is implemented (20_memory.md R105, 10_state.md R55) -/

theorem pidIndex_eq_none {a : Nat} (h : a < 0x700 ∨ 0x800 ≤ a) : pidIndex a = none := by
  rw [pidIndex, dif_neg]
  simp only [pidBase]; omega

theorem readWord_nothing (s : State) {a : Nat} (hreg : ∀ r : Reg, r.offset ≠ a) (hbuf : ¬BufferByte a)
    (hpid : a < 0x700 ∨ 0x800 ≤ a) : readWord s a = 0 := by
  rw [readWord, regAt_eq_none a hreg]
  simp [bufferWord_eq_false hbuf, pidIndex_eq_none hpid]

theorem writeWord_nothing (s : State) (w : Word) {a : Nat} (hreg : ∀ r : Reg, r.offset ≠ a) (hbuf : ¬BufferByte a)
    (hpid : a < 0x700 ∨ 0x800 ≤ a) : writeWord s a w = s := by
  rw [writeWord, regAt_eq_none a hreg]
  simp [bufferWord_eq_false hbuf, pidIndex_eq_none hpid]

/-! ### The statements -/

/-- An aligned write outside CMD is one step that stores its word. -/
theorem step_hostWrite (s : State) (rest : List Event) (a : Offset) (w : Word) (hs : s.inputs = .hostWrite a w :: rest)
    (ha : a.toNat % 4 = 0) (hcmd : a ≠ cmdOffset) :
    step s = .next (writeWord { s with inputs := rest } a.toNat w) := by
  rw [step_cons s _ rest hs]
  obtain ⟨hfalse, -⟩ | ⟨rfl, -⟩ | ⟨-, -, h⟩ := hostWrite_cases a w { s with inputs := rest }
  · rw [(aligned_iff a).mpr ha] at hfalse; cases hfalse
  · exact absurd rfl hcmd
  · exact h

theorem buffer_readBack (s : State) (a : Nat) (w : Word) (h : bufferWord a = true) :
    readWord (writeWord s a w) a = w ∧
    (∀ j, j < 4 → Memory.read (writeWord s a w).mem (a + j) = w.extractLsb' (8 * j) 8) ∧
    KeepsBytesOutside a 4 s (writeWord s a w) ∧ { writeWord s a w with mem := s.mem } = s := by
  have hread := Memory.readBytes_writeBytes_self s.mem a (leBytes w.toNat 4)
  rw [length_leBytes] at hread
  refine ⟨?_, fun j hj => ?_, fun c hc => ?_, ?_⟩
  · rw [readWord_buffer _ h, writeWord_buffer s w h, State.memRead, State.memWrite_mem, hread, ofNat_leNat_leBytes]
  · rw [writeWord_buffer s w h, State.memWrite_mem, Memory.read_writeBytes, if_pos (by simp; omega),
      Nat.add_sub_cancel_left, leBytes_word_getD w j hj]
  · rw [writeWord_buffer s w h]
    exact Memory.read_writeBytes_outside _ _ _ _ (by simpa using hc)
  · rw [writeWord_buffer s w h]; rfl

theorem pidTable_readBack (s : State) (i : Fin 64) (w : Word) :
    readWord (writeWord s (0x700 + 4 * i.val) w) (0x700 + 4 * i.val) = w &&& 0x8007FFFF ∧
    (∀ j : Fin 64, j ≠ i →
      readWord (writeWord s (0x700 + 4 * i.val) w) (0x700 + 4 * j.val) = readWord s (0x700 + 4 * j.val)) ∧
    { writeWord s (0x700 + 4 * i.val) w with pidTable := s.pidTable } = s := by
  refine ⟨?_, fun j hj => ?_, ?_⟩
  · rw [readWord_pid, writeWord_pid, ← pidEntryOf_word]; simp
  · have hne : i.val ≠ j.val := fun h => hj (Fin.ext h.symm)
    rw [readWord_pid, readWord_pid, writeWord_pid]; simp [hne]
  · rw [writeWord_pid]

/-- Settles O52, by what stands at the word's offset: a buffer, the PID table or nothing. -/
theorem windowReadBack : Obligations.WindowReadBack := by
  refine ⟨step_hostWrite, fun s a w _ h => buffer_readBack s a w h, fun s i w hi => ?pid,
    fun s a w _ hreg ha => ?none⟩
  case pid =>
    obtain ⟨hself, hother, hframe⟩ := pidTable_readBack s ⟨i, hi⟩ w
    exact ⟨hself, fun j hj hne => hother ⟨j, hj⟩ (fun h => hne (congrArg Fin.val h)), hframe⟩
  case none =>
    have hbuf : ¬BufferByte a := by unfold BufferByte; omega
    exact ⟨readWord_nothing s hreg hbuf (by omega), writeWord_nothing s w hreg hbuf (by omega)⟩

end Sys2Proof.Machine
end

section
/-! The command of a CMD write (20_memory.md R130), the interrupt output (10_state.md R35) and the reset state
(70_reset_and_hazards.md R570). -/

namespace Sys2Proof.Machine

/-! ### A command in a step -/

theorem step_command (s : State) (rest : List Event) (w : Word) (i : Instr) (hw : decode w = .command i)
    (hs : s.inputs = .hostWrite cmdOffset w :: rest) : step s = exec i { s with inputs := rest } :=
  (step_cons s _ rest hs).trans (hostWrite_command _ w i hw)

/-- Settles O5: the placed word is the next event, and CMD's event runs its word. -/
theorem stepRunsDecodedCommand : Obligations.StepRunsDecodedCommand := by
  refine ⟨step_command, fun s w i hlt hw => ?_⟩
  rw [State.withFetchWord, Nat.mod_eq_of_lt hlt]
  exact step_command (placeCommand (BitVec.ofNat 32 w) s) s.inputs _ i hw rfl

/-! ### The interrupt output -/

theorem irqOutput_iff (s : State) :
    irqOutput s = true ↔ ∃ b, b < 5 ∧ s.irqPend.getLsbD b = true ∧ s.irqEn.getLsbD b = true := by
  have bits : s.irqPend &&& s.irqEn = 0 ↔ ∀ b, b < 5 → (s.irqPend &&& s.irqEn).getLsbD b = false :=
    ⟨fun h b _ => by rw [h]; simp, fun h => BitVec.eq_of_getLsbD_eq fun b hb => by rw [h b hb]; simp⟩
  rw [irqOutput, bne_iff_ne, Ne, bits]
  simp

theorem statusWord_irq (s : State) : (statusWord s).getLsbD 16 = irqOutput s := by
  rw [BitVec.getLsbD_eq_getElem (by decide)]
  simp [statusWord, getElem_packBits]

theorem interruptLine_iff (line n : Nat) (s : State) :
    interruptLine line n s = true ↔ n = line ∧ irqOutput s = true := by
  simp [interruptLine]

/-- Settles O56: a pending and enabled source bit makes the level, which STATUS bit 16 and IRQ_LINE show. -/
theorem interruptOutputLevel : Obligations.InterruptOutputLevel := fun s =>
  ⟨irqOutput_iff s, (congrArg (·.getLsbD 16) (readWord_offset s .status)).trans (statusWord_irq s),
    fun n => interruptLine_iff Config.irqLine n s⟩

/-! ### The reset state -/

theorem readReg_reset (r : Reg) : readReg State.reset r = r.resetValue := by
  cases r <;> rfl

theorem pidTable_reset (i : Fin 64) : State.reset.pidTable[i].word = 0 := by
  simp [State.reset, PidEntry.zero, PidEntry.word, packBits]

/-- Settles O59: the invariants and the flags evaluate, the registers one by one. -/
theorem resetMeetsInvariants : Obligations.ResetMeetsInvariants :=
  ⟨⟨reset_memory_wf, rfl⟩, rfl, rfl, rfl, rfl, readReg_reset, pidTable_reset, rfl, rfl⟩

end Sys2Proof.Machine
end

section
/-! What a command can do to the registers of the host, to the discovery engine and to STATUS (20_memory.md R130,
00_scope.md R17): one lemma per command. -/

namespace Sys2Proof.Machine

/-! ### The registers that commands leave to the host (20_memory.md R130) -/

/-- The registers that only the host writes, the counter TN_CTR, the PID table, the NOW_HI latch and the environment's
part of the state. -/
structure HostView where
  config : ConfigReg
  irqEn : BitVec 5
  portId : Byte
  tnCtr : Byte
  self : Uid
  a : Uid
  b : Uid
  rxLen : BitVec 9
  ckStart : BitVec 9
  ckLen : BitVec 9
  fmtLen : BitVec 7
  pdHostLen : BitVec 10
  handlerRt : Byte
  handlerLen : BitVec 10
  subdevMax : Half
  pidTable : Vector PidEntry 64
  nowHiLatch : Word
  now : Time
  readData : Word
  inputs : List Event

/-- The host's part of a state. -/
def hostView (s : State) : HostView where
  config := s.config
  irqEn := s.irqEn
  portId := s.portId
  tnCtr := s.tnCtr
  self := s.uid.self
  a := s.uid.a
  b := s.uid.b
  rxLen := s.framer.rxLen
  ckStart := s.framer.ckStart
  ckLen := s.framer.ckLen
  fmtLen := s.codec.fmtLen
  pdHostLen := s.codec.pdHostLen
  handlerRt := s.dispatch.handlerRt
  handlerLen := s.dispatch.handlerLen
  subdevMax := s.dispatch.subdevMax
  pidTable := s.pidTable
  nowHiLatch := s.timing.nowHiLatch
  now := s.now
  readData := s.readData
  inputs := s.inputs

/-! ### How a command ends -/

/-- A command took `s` to `t`: the host's part is kept, the discovery engine is left at `d`, and STATUS reports success
or an error that is not S_OVERFLOW. -/
structure CommandTo (s : State) (d : DiscoveryRegs) (t : State) : Prop where
  host : hostView t = hostView s
  discovery : t.discovery = d
  report : EndsDone s t ∨ ∃ e : CmdError, e ≠ .sOverflow ∧ EndsError e.code s t

theorem CommandTo.of_done {s x : State} {d : DiscoveryRegs} (hhost : hostView x = hostView s)
    (hd : x.discovery = d) (hst : x.status = s.status) : CommandTo s d (done x) :=
  ⟨hhost, hd, .inl (congrArg Status.done hst)⟩

theorem CommandTo.of_error {s x : State} {d : DiscoveryRegs} {e : CmdError} (he : e ≠ .sOverflow)
    (hhost : hostView x = hostView s) (hd : x.discovery = d) (hst : x.status = s.status) :
    CommandTo s d (raiseError e x) :=
  ⟨hhost, hd, .inr ⟨e, he, congrArg (Status.raised · e.code) hst⟩⟩

/-- An operation inside a command took `s` to `x` and kept the host's part, the discovery engine and STATUS. -/
structure KeepsHost (s x : State) : Prop where
  host : hostView x = hostView s
  discovery : x.discovery = s.discovery
  status : x.status = s.status

theorem KeepsHost.refl (s : State) : KeepsHost s s := ⟨rfl, rfl, rfl⟩

theorem KeepsHost.trans {s x y : State} (h : KeepsHost s x) (h' : KeepsHost x y) : KeepsHost s y :=
  ⟨h'.host.trans h.host, h'.discovery.trans h.discovery, h'.status.trans h.status⟩

theorem KeepsHost.done {s x : State} (h : KeepsHost s x) : CommandTo s s.discovery (done x) :=
  .of_done h.host h.discovery h.status

theorem KeepsHost.buildFrame {s x : State} (h : KeepsHost s x) : KeepsHost s (buildFrame x) :=
  h.trans ⟨by simp [hostView], buildFrame_discovery x, buildFrame_status x⟩

theorem KeepsHost.nack {s x : State} (h : KeepsHost s x) (r : Half) : KeepsHost s (nack r x) := by
  refine h.trans ?_
  rw [nack_eq]; split <;> exact ⟨rfl, rfl, rfl⟩

/-- What a command answers is a next state with the property `p`. -/
def Answers (p : State → Prop) : Result → Prop
  | .next t => p t
  | .fault _ => False
  | .refused _ => False

theorem Answers.of_eq {p : State → Prop} {r : Result} {t : State} (h : Answers p r) (hr : r = .next t) : p t := by
  subst hr; exact h

theorem Answers.imp {p q : State → Prop} {r : Result} (h : Answers p r) (hpq : ∀ t, p t → q t) : Answers q r :=
  match r, h with
  | .next t, h => hpq t h

theorem Answers.ite {p : State → Prop} {c : Prop} [Decidable c] {a b : Result} (ha : c → Answers p a)
    (hb : ¬c → Answers p b) : Answers p (if c then a else b) := by
  split
  next h => exact ha h
  next h => exact hb h

/-! ### No parse reports S_OVERFLOW (41_codec.md R232) -/

theorem parseToken_ne_overflow (c : Byte) (rest : List Byte) : parseToken c rest ≠ .error .sOverflow := by
  unfold parseToken
  repeat' split
  all_goals simp

theorem afterLast_ne_overflow (last : Option Token) : afterLast last ≠ some .sOverflow := by
  unfold afterLast
  split <;> simp

theorem parseTokens_ne_overflow (fuel : Nat) (last : Option Token) (f : List Byte) :
    parseTokens fuel last f ≠ .error .sOverflow := by
  fun_induction parseTokens fuel last f with
  | case1 | case2 => simp
  | case3 _ last _ _ e he => rintro ⟨⟩; exact afterLast_ne_overflow last he
  | case4 _ _ c rest _ e he => rintro ⟨⟩; exact parseToken_ne_overflow c rest he
  | case5 _ _ _ _ _ _ _ _ e he ih => rintro ⟨⟩; exact ih he
  | case6 => simp

theorem parseString_ne_overflow (f : List Byte) : parseString f ≠ .error .sOverflow := by
  unfold parseString
  have scan := parseTokens_ne_overflow f.length none f
  repeat' split
  all_goals simp_all

theorem parseFmt_ne_overflow {s : State} {e : CmdError} (h : parseFmt s = .error e) : e ≠ .sOverflow := by
  rintro rfl; exact parseString_ne_overflow _ h

/-! ### The codec, the framer and the discovery responses -/

theorem execPdParse_commandTo (s : State) : Answers (CommandTo s s.discovery) (execPdParse s) := by
  unfold execPdParse
  split
  next h => exact .of_error (parseFmt_ne_overflow h) rfl rfl rfl
  next => exact .of_done rfl rfl rfl

theorem execPdEncode_commandTo (s : State) : Answers (CommandTo s s.discovery) (execPdEncode s) := by
  refine .ite (fun _ => .of_error (by decide) rfl rfl rfl) fun _ => ?_
  split
  next h => exact .of_error (parseFmt_ne_overflow h) rfl rfl rfl
  next => exact .of_done (by simp [hostView]) rfl rfl

theorem execPdDecode_commandTo (s : State) : Answers (CommandTo s s.discovery) (execPdDecode s) := by
  refine .ite (fun _ => .of_error (by decide) rfl rfl rfl) fun _ =>
    .ite (fun _ => .of_error (by decide) rfl rfl rfl) fun _ => ?_
  split
  next h => exact .of_error (parseFmt_ne_overflow h) rfl rfl rfl
  next => exact .of_done (by simp [hostView]) rfl rfl

theorem execFrChecksum_commandTo (s : State) : Answers (CommandTo s s.discovery) (execFrChecksum s) :=
  .ite (fun _ => .of_error (by decide) rfl rfl rfl) fun _ => .of_done rfl rfl rfl

theorem execFrEncodeRsp_commandTo (s : State) : Answers (CommandTo s s.discovery) (execFrEncodeRsp s) :=
  have framed : KeepsHost s (buildFrame { s with tx := responseHeader s }) := .buildFrame ⟨rfl, rfl, rfl⟩
  .ite (fun _ => .of_error (by decide) rfl rfl rfl) fun _ => .of_done framed.host framed.discovery framed.status

theorem execFrDecode_commandTo (s : State) : Answers (CommandTo s s.discovery) (execFrDecode s) := by
  rw [execFrDecode_eq]
  have fails (e : CmdError) (he : e ≠ .sOverflow) : CommandTo s s.discovery (frDecodeFail e s) :=
    .of_error he rfl rfl rfl
  refine .ite (fun _ => fails _ (by decide)) fun _ => .ite (fun _ => fails _ (by decide)) fun _ =>
    .ite (fun _ => fails _ (by decide)) fun _ => .ite (fun _ => fails _ (by decide)) fun _ =>
    .ite (fun _ => fails _ (by decide)) fun _ => .ite (fun _ => fails _ (by decide)) fun _ => ?_
  exact .ite (fun _ => .of_error (by decide) rfl rfl rfl) fun _ => .of_done rfl rfl rfl

theorem execFrDiscEncode_commandTo (npre : BitVec 3) (s : State) :
    Answers (CommandTo s s.discovery) (execFrDiscEncode npre s) :=
  .of_done (by simp [hostView]) rfl rfl

theorem execFrDiscDecode_commandTo (s : State) : Answers (CommandTo s s.discovery) (execFrDiscDecode s) := by
  refine .ite (fun _ => .of_error (by decide) rfl rfl rfl) fun _ =>
    .ite (fun _ => .of_error (by decide) rfl rfl rfl) fun _ => ?_
  split
  next => exact .of_error (by decide) rfl rfl rfl
  next =>
    exact .ite (fun _ => .of_error (by decide) rfl rfl rfl) fun _ =>
      .ite (fun _ => .of_error (by decide) rfl rfl rfl) fun _ =>
      .ite (fun _ => .of_error (by decide) rfl rfl rfl) fun _ => .of_done rfl rfl rfl

/-! ### The UID unit, the timing unit and the system commands -/

theorem execUidCmp_commandTo (s : State) : Answers (CommandTo s s.discovery) (execUidCmp s) := .of_done rfl rfl rfl

theorem execUidClassify_commandTo (s : State) : Answers (CommandTo s s.discovery) (execUidClassify s) :=
  .of_done rfl rfl rfl

theorem execTmStamp_commandTo (cat : BitVec 3) (kind : BitVec 2) (s : State) :
    Answers (CommandTo s s.discovery) (execTmStamp cat kind s) := by
  unfold execTmStamp
  split
  next => exact .of_error (by decide) rfl rfl rfl
  next => exact .of_done rfl rfl rfl

theorem execTmSetcat_commandTo (cat : BitVec 3) (s : State) :
    Answers (CommandTo s s.discovery) (execTmSetcat cat s) := by
  unfold execTmSetcat
  split
  next => exact .of_error (by decide) rfl rfl rfl
  next => exact .of_done rfl rfl rfl

theorem execTmGapCheck_commandTo (s : State) : Answers (CommandTo s s.discovery) (execTmGapCheck s) :=
  .ite (fun _ => .of_done rfl rfl rfl) fun _ => .of_done rfl rfl rfl

theorem execTmRespWait_commandTo (rxd : Bool) (s : State) : Answers (CommandTo s s.discovery) (execTmRespWait rxd s) :=
  .ite (fun _ => .of_done rfl rfl rfl) fun _ => .of_done rfl rfl rfl

theorem execTmCancel_commandTo (s : State) : Answers (CommandTo s s.discovery) (execTmCancel s) := .of_done rfl rfl rfl

theorem execNop_commandTo (s : State) : Answers (CommandTo s s.discovery) (execNop s) := .of_done rfl rfl rfl

/-! ### The dispatch unit -/

theorem validateRequest_keepsHost (s : State) : KeepsHost s (validateRequest s) := by
  unfold validateRequest
  split
  · exact ⟨rfl, rfl, rfl⟩
  split
  · exact (KeepsHost.refl s).nack _
  split
  · exact (KeepsHost.refl s).nack _
  split
  · exact (KeepsHost.refl s).nack _
  split
  · exact (KeepsHost.refl s).nack _
  · exact ⟨rfl, rfl, rfl⟩

theorem execDpValidate_commandTo (s : State) : Answers (CommandTo s s.discovery) (execDpValidate s) :=
  have cleared : KeepsHost s (clearDecision s) := ⟨rfl, rfl, rfl⟩
  .ite (fun _ => .of_error (by decide) rfl rfl rfl) fun _ =>
    (cleared.trans (validateRequest_keepsHost (clearDecision s))).done

theorem recordHandlerNack_keepsHost (s : State) : KeepsHost s (recordHandlerNack s) := by
  unfold recordHandlerNack; split <;> exact ⟨rfl, rfl, rfl⟩

theorem checkHandler_keepsHost (s : State) : KeepsHost s (checkHandler s) := by
  unfold checkHandler
  split
  · have faulted : KeepsHost s (raiseIrq .dpFault { s with dispatch := { s.dispatch with fault := true } }) :=
      ⟨rfl, rfl, rfl⟩
    exact faulted.nack _
  split
  · exact ⟨rfl, rfl, rfl⟩
  dsimp only
  split
  · exact (recordHandlerNack_keepsHost s).trans ⟨rfl, rfl, rfl⟩
  · exact (recordHandlerNack_keepsHost s).trans ⟨rfl, rfl, rfl⟩

theorem execDpCheck_commandTo (s : State) : Answers (CommandTo s s.discovery) (execDpCheck s) :=
  .ite (fun _ => .of_error (by decide) rfl rfl rfl) fun _ => (checkHandler_keepsHost s).done

/-! ### The discovery engine -/

/-- What a command does to the phase and the stack of the discovery engine (45_discovery.md R463, R470, R472, R474). -/
inductive EngineStep (d : DiscoveryRegs) : DiscoveryRegs → Prop
  | kept : EngineStep d d
  | started (d' : DiscoveryRegs) (hphase : d'.phase = .ready) (hstack : d'.stack = [fullRange]) : EngineStep d d'
  | finished : EngineStep d { d with phase := .done }
  /-- The top range goes out on the bus. -/
  | asked (r : Range) (rest : List Range) (hstack : d.stack = r :: rest) :
    EngineStep d { d with phase := .wait, lower := r.lo, upper := r.hi, stack := rest }
  /-- The range that is out on the bus is dropped, pushed again or split. -/
  | answered (d' : DiscoveryRegs) (hwait : d.phase = .wait) (hphase : d'.phase = .ready)
    (hstack : d'.stack = d.stack ∨ d'.stack = ⟨d.lower, d.upper⟩ :: d.stack ∨
      d.lower.u48 < d.upper.u48 ∧
        d'.stack = Range.lowerHalf ⟨d.lower, d.upper⟩ :: Range.upperHalf ⟨d.lower, d.upper⟩ :: d.stack) :
    EngineStep d d'

/-- What the command `i` does when it takes `s` to `t`. -/
inductive ExecOf (i : Instr) (s t : State) : Prop
  | ran (d : DiscoveryRegs) (h : CommandTo s d t) (hd : EngineStep s.discovery d)
  | counted (hi : i = .frEncodeReq true) (h : CommandTo (selectTn true s) s.discovery t)
  /-- A split finds no room on the stack (45_discovery.md R472). -/
  | overflow (hwait : s.discovery.phase = .wait) (hsplit : s.discovery.lower.u48 < s.discovery.upper.u48)
    (hfull : Config.dsCap < s.discovery.stack.length + 2) (hhost : hostView t = hostView s)
    (hreport : EndsError CmdError.sOverflow.code s t)
  | reset (hi : i = .softReset) (ht : t = done (resetRegisters s))

theorem execOf_of_kept {i : Instr} {s : State} {r : Result} (h : Answers (CommandTo s s.discovery) r) :
    Answers (ExecOf i s) r :=
  h.imp fun _ ht => .ran _ ht .kept

theorem execFrEncodeReq_execOf (tnsel : Bool) (s : State) :
    Answers (ExecOf (.frEncodeReq tnsel) s) (execFrEncodeReq tnsel s) := by
  refine .ite (fun _ => .ran _ (.of_error (by decide) rfl rfl rfl) .kept) fun _ => ?_
  cases tnsel with
  | false => exact .ran _ (KeepsHost.refl s).buildFrame.done .kept
  | true => exact .counted rfl (KeepsHost.refl (selectTn true s)).buildFrame.done

theorem execDsInit_execOf (s : State) : Answers (ExecOf .dsInit s) (execDsInit s) :=
  .ran _ (.of_done rfl rfl rfl) (.started _ rfl rfl)

theorem execDsNext_execOf (s : State) : Answers (ExecOf .dsNext s) (execDsNext s) := by
  unfold execDsNext
  split
  · exact .ran _ (.of_error (by decide) rfl rfl rfl) .kept
  · exact .ran _ (.of_error (by decide) rfl rfl rfl) .kept
  · exact .ran _ (.of_done rfl rfl rfl) .kept
  split
  · exact .ran _ (.of_done rfl rfl rfl) .finished
  next r rest hstack => exact .ran _ (.of_done (by simp [hostView]) rfl rfl) (.asked r rest hstack)

/-- A collision, whatever flags the branch has so far. -/
theorem collided_execOf (i : Instr) (s : State) (flags : DsFlags) (hwait : s.discovery.phase = .wait) :
    Answers (ExecOf i s) (collided { s with discovery := { s.discovery with flags := flags } }) := by
  refine .ite (fun hlt => .ite (fun hfull => ?full) fun _ => ?split) fun _ => ?one
  case full => exact .overflow hwait ((Uid.lt_iff _ _).mp hlt) hfull rfl rfl
  case split =>
    have hsplit := (Uid.lt_iff _ _).mp hlt
    exact .ran _ (.of_done (by simp [hostView]) rfl rfl) (.answered _ hwait rfl (.inr (.inr ⟨hsplit, rfl⟩)))
  case one => exact .ran _ (.of_done rfl rfl rfl) (.answered _ hwait rfl (.inl rfl))

/-- A found device, whatever flags the branch has so far: its range is pushed again or not. -/
theorem foundDevice_execOf (i : Instr) (u : Uid) (s : State) (flags : DsFlags) (hwait : s.discovery.phase = .wait) :
    ExecOf i s (done (branchOver (foundDevice u { s with discovery := { s.discovery with flags := flags } }))) := by
  unfold foundDevice
  dsimp only
  split
  · exact .ran _ (.of_done rfl rfl rfl) (.answered _ hwait rfl (.inr (.inl rfl)))
  · exact .ran _ (.of_done rfl rfl rfl) (.answered _ hwait rfl (.inl rfl))

theorem execDsResult_execOf (outcome : BitVec 2) (s : State) :
    Answers (ExecOf (.dsResult outcome) s) (execDsResult outcome s) := by
  refine .ite (fun _ => .ran _ (.of_error (by decide) rfl rfl rfl) .kept) fun _ =>
    .ite (fun _ => .ran _ (.of_error (by decide) rfl rfl rfl) .kept) fun hwait => ?_
  replace hwait : s.discovery.phase = .wait := not_not.mp hwait
  have dropped : ExecOf (.dsResult outcome) s
      (done (branchOver { s with discovery := { s.discovery with flags := DsFlags.clear } })) :=
    .ran _ (.of_done rfl rfl rfl) (.answered _ hwait rfl (.inl rfl))
  refine .ite (fun _ => dropped) fun _ => .ite (fun _ => ?_) fun _ => collided_execOf _ s _ hwait
  exact .ite (fun _ => foundDevice_execOf _ _ s _ hwait) fun _ =>
    .ite (fun _ => dropped) fun _ => collided_execOf _ s _ hwait

/-! ### Every command -/

/-- What any command can do, one lemma per command behind it. -/
theorem exec_execOf (i : Instr) (s : State) : Answers (ExecOf i s) (exec i s) := by
  cases i with
  | nop => exact execOf_of_kept (execNop_commandTo s)
  | uidCmp => exact execOf_of_kept (execUidCmp_commandTo s)
  | uidClassify => exact execOf_of_kept (execUidClassify_commandTo s)
  | pdParse => exact execOf_of_kept (execPdParse_commandTo s)
  | pdEncode => exact execOf_of_kept (execPdEncode_commandTo s)
  | pdDecode => exact execOf_of_kept (execPdDecode_commandTo s)
  | frEncodeReq tnsel => exact execFrEncodeReq_execOf tnsel s
  | frEncodeRsp => exact execOf_of_kept (execFrEncodeRsp_commandTo s)
  | frDecode => exact execOf_of_kept (execFrDecode_commandTo s)
  | frChecksum => exact execOf_of_kept (execFrChecksum_commandTo s)
  | frDiscEncode npre => exact execOf_of_kept (execFrDiscEncode_commandTo npre s)
  | frDiscDecode => exact execOf_of_kept (execFrDiscDecode_commandTo s)
  | tmStamp cat kind => exact execOf_of_kept (execTmStamp_commandTo cat kind s)
  | tmSetcat cat => exact execOf_of_kept (execTmSetcat_commandTo cat s)
  | tmGapCheck => exact execOf_of_kept (execTmGapCheck_commandTo s)
  | tmRespWait rxd => exact execOf_of_kept (execTmRespWait_commandTo rxd s)
  | tmCancel => exact execOf_of_kept (execTmCancel_commandTo s)
  | dpValidate => exact execOf_of_kept (execDpValidate_commandTo s)
  | dpCheck => exact execOf_of_kept (execDpCheck_commandTo s)
  | dsInit => exact execDsInit_execOf s
  | dsNext => exact execDsNext_execOf s
  | dsResult outcome => exact execDsResult_execOf outcome s
  | softReset => exact .reset rfl rfl

theorem execOf_of_next {i : Instr} {s t : State} (h : exec i s = .next t) : ExecOf i s t := (exec_execOf i s).of_eq h

end Sys2Proof.Machine
end

section
/-! The registers of the host under every command (20_memory.md R130, 43_timing.md R372). -/

namespace Sys2Proof.Machine

/-! ### Commands and the host's registers -/

theorem EndsDone.busErr {s t : State} (h : EndsDone s t) : t.status.busErr = s.status.busErr := by
  rw [show t.status = _ from h]

theorem EndsError.busErr {code : Byte} {s t : State} (h : EndsError code s t) : t.status.busErr = s.status.busErr := by
  rw [show t.status = _ from h]

theorem CommandTo.busErr {s t : State} {d : DiscoveryRegs} (h : CommandTo s d t) :
    t.status.busErr = s.status.busErr := by
  obtain hdone | ⟨e, -, herror⟩ := h.report
  · exact hdone.busErr
  · exact herror.busErr

theorem HostView.eq_with_tnCtr {v v' : HostView} (h : v = v') : v = { v' with tnCtr := v.tnCtr } := by
  subst h; rfl

/-- No command but SOFT_RESET touches the host's part, but for TN_CTR, or BUS_ERR. -/
theorem hostView_of_exec {i : Instr} {s t : State} (h : exec i s = .next t) (hi : i ≠ .softReset) :
    hostView t = { hostView s with tnCtr := t.tnCtr } ∧ t.status.busErr = s.status.busErr := by
  cases execOf_of_next h with
  | ran d hto => exact ⟨HostView.eq_with_tnCtr hto.host, hto.busErr⟩
  | counted _ hto => exact ⟨(HostView.eq_with_tnCtr hto.host).trans rfl, hto.busErr⟩
  | overflow _ _ _ hhost hreport => exact ⟨HostView.eq_with_tnCtr hhost, hreport.busErr⟩
  | reset hreset => exact absurd hreset hi

theorem tnCtr_of_exec {i : Instr} {s t : State} (h : exec i s = .next t) (hi : i ≠ .softReset)
    (hreq : i ≠ .frEncodeReq true) : t.tnCtr = s.tnCtr := by
  cases execOf_of_next h with
  | ran d hto => exact congrArg HostView.tnCtr hto.host
  | counted hcount => exact absurd hcount hreq
  | overflow _ _ _ hhost => exact congrArg HostView.tnCtr hhost
  | reset hreset => exact absurd hreset hi

/-- Settles O49: the host's part of a state is kept, and SOFT_RESET keeps the environment's part of it. -/
theorem commandsKeepHostRegisters : Obligations.CommandsKeepHostRegisters := by
  intro s t i h
  by_cases hi : i = .softReset
  · subst hi
    obtain rfl : done (resetRegisters s) = t := Host.Outcome.next.inj h
    exact ⟨rfl, rfl, rfl, fun hne => absurd rfl hne⟩
  · obtain ⟨hview, hbus⟩ := hostView_of_exec h hi
    simp only [hostView, HostView.mk.injEq, true_and] at hview
    obtain ⟨hconfig, hirqEn, hportId, hself, ha, hb, hrxLen, hckStart, hckLen, hfmtLen, hpdHostLen, hhandlerRt,
      hhandlerLen, hsubdevMax, hpidTable, hlatch, hnow, hreadData, hinputs⟩ := hview
    exact ⟨hnow, hreadData, hinputs, fun _ => ⟨hconfig, hirqEn, hportId, hself, ha, hb, hrxLen, hckStart, hckLen,
      hfmtLen, hpdHostLen, hhandlerRt, hhandlerLen, hsubdevMax, hpidTable, hlatch, hbus, tnCtr_of_exec h hi⟩⟩

end Sys2Proof.Machine
end

section
/-! The discovery stack never overflows (10_state.md R51, 45_discovery.md R466): a range that stands above `k` others is
cut to fewer than 2^(48 - k) UIDs, so that no range of more than one UID stands above 48 others. -/

namespace Sys2Proof.Machine

/-! ### Ranges that fit -/

theorem Range.fits_iff (r : Range) (k : Nat) :
    r.fits k = true ↔ r.lo.u48 ≤ r.hi.u48 ∧ k < 49 ∧ r.hi.u48 - r.lo.u48 < 2 ^ (48 - k) := by
  simp only [Range.fits, Bool.and_eq_true, decide_eq_true_eq, and_assoc]
  exact Iff.rfl

theorem fullRange_fits : fullRange.fits 0 = true := by decide

/-- A range of two UIDs or more that fits has room for its halves (45_discovery.md R466). -/
theorem Range.room_of_fits {r : Range} {k : Nat} (h : r.fits k = true) (hlt : r.lo.u48 < r.hi.u48) : k + 2 ≤ 49 := by
  obtain ⟨-, hk, hspan⟩ := (r.fits_iff k).mp h
  by_contra hfull
  obtain rfl : k = 48 := by omega
  omega

/-- The upper half fits where the range stood (45_discovery.md R464). -/
theorem Range.upperHalf_fits {r : Range} {k : Nat} (h : r.fits k = true) (hlt : r.lo.u48 < r.hi.u48) :
    r.upperHalf.fits k = true := by
  obtain ⟨-, hk, hspan⟩ := (r.fits_iff k).mp h
  rw [Range.fits_iff, Range.upperHalf_lo_u48 r hlt, Range.upperHalf_hi]
  omega

/-- The lower half fits one place higher (45_discovery.md R464). -/
theorem Range.lowerHalf_fits {r : Range} {k : Nat} (h : r.fits k = true) (hlt : r.lo.u48 < r.hi.u48) :
    r.lowerHalf.fits (k + 1) = true := by
  have hroom := Range.room_of_fits h hlt
  obtain ⟨-, hk, hspan⟩ := (r.fits_iff k).mp h
  have hpow : 2 ^ (48 - k) = 2 * 2 ^ (48 - (k + 1)) := by
    rw [← Nat.pow_succ']; congr 1; omega
  rw [Range.fits_iff, Range.lowerHalf_lo, Range.lowerHalf_hi, Range.mid_u48 r (Nat.le_of_lt hlt)]
  omega

theorem stackFits_cons (r : Range) (below : List Range) :
    stackFits (r :: below) = true ↔ r.fits below.length = true ∧ stackFits below = true := by
  simp [stackFits]

theorem stackFits_length {stack : List Range} (h : stackFits stack = true) : stack.length ≤ 49 := by
  cases stack with
  | nil => simp
  | cons r below =>
    obtain ⟨-, hlt, -⟩ := (r.fits_iff _).mp ((stackFits_cons r below).mp h).1
    simpa using hlt

/-! ### The engine -/

theorem discoveryFits_iff (s : State) :
    discoveryFits s = true ↔ stackFits s.discovery.stack = true ∧
      (s.discovery.phase = .wait →
        Range.fits ⟨s.discovery.lower, s.discovery.upper⟩ s.discovery.stack.length = true) := by
  unfold discoveryFits
  cases s.discovery.phase <;> simp

theorem discoveryFits_congr {s t : State} (h : t.discovery = s.discovery) : discoveryFits t = discoveryFits s := by
  unfold discoveryFits; rw [h]

/-- Outside WAIT the stack alone has to fit. -/
theorem discoveryFits_of_stack {s : State} (hphase : s.discovery.phase ≠ .wait)
    (hstack : stackFits s.discovery.stack = true) : discoveryFits s = true :=
  (discoveryFits_iff s).mpr ⟨hstack, fun hwait => absurd hwait hphase⟩

theorem discoveryFits_of_engineStep {s t : State} (h : EngineStep s.discovery t.discovery)
    (hs : discoveryFits s = true) : discoveryFits t = true := by
  obtain ⟨hstack, hout⟩ := (discoveryFits_iff s).mp hs
  generalize hd : t.discovery = d at h
  cases h with
  | kept => exact (discoveryFits_congr hd).trans hs
  | started _ hphase hfull =>
    subst hd
    refine discoveryFits_of_stack (by simp [hphase]) ?_
    rw [hfull]; decide
  | finished => exact discoveryFits_of_stack (by simp [hd]) (by simpa [hd] using hstack)
  | asked r rest hcons =>
    rw [hcons, stackFits_cons] at hstack
    rw [discoveryFits_iff, hd]
    exact ⟨hstack.2, fun _ => hstack.1⟩
  | answered _ hwait hphase hpushed =>
    subst hd
    have hfits := hout hwait
    refine discoveryFits_of_stack (by simp [hphase]) ?_
    obtain hsame | hagain | ⟨hlt, hsplit⟩ := hpushed
    · rw [hsame]; exact hstack
    · rw [hagain, stackFits_cons]; exact ⟨hfits, hstack⟩
    · rw [hsplit, stackFits_cons, stackFits_cons]
      exact ⟨Range.lowerHalf_fits hfits hlt, Range.upperHalf_fits hfits hlt, hstack⟩

/-- Where the stack and the outstanding range fit, a split finds room. -/
theorem no_overflow {s : State} (hs : discoveryFits s = true) (hwait : s.discovery.phase = .wait)
    (hsplit : s.discovery.lower.u48 < s.discovery.upper.u48) : s.discovery.stack.length + 2 ≤ Config.dsCap :=
  Range.room_of_fits (((discoveryFits_iff s).mp hs).2 hwait) hsplit

/-! ### Commands and steps -/

theorem exec_keeps_discoveryFits {i : Instr} {s t : State} (hs : discoveryFits s = true) (h : exec i s = .next t) :
    discoveryFits t = true := by
  cases execOf_of_next h with
  | ran d hto hd => exact discoveryFits_of_engineStep (hto.discovery ▸ hd) hs
  | counted _ hto => exact (discoveryFits_congr hto.discovery).trans hs
  | overflow hwait hsplit hfull => exact absurd (no_overflow hs hwait hsplit) (Nat.not_le_of_lt hfull)
  | reset _ ht => subst ht; rfl

theorem CmdError.code_ne_overflow {e : CmdError} (h : e ≠ .sOverflow) : e.code ≠ 0x50 := by
  cases e <;> revert h <;> decide

theorem CommandTo.errCode_ne_overflow {s t : State} {d : DiscoveryRegs} (h : CommandTo s d t) :
    t.status.errCode ≠ 0x50 := by
  obtain hdone | ⟨e, he, herror⟩ := h.report
  · rw [show t.status = _ from hdone]; show (0 : Byte) ≠ 0x50; decide
  · rw [show t.status = _ from herror]; exact CmdError.code_ne_overflow he

theorem exec_errCode_ne_overflow {i : Instr} {s t : State} (hs : discoveryFits s = true) (h : exec i s = .next t) :
    t.status.errCode ≠ 0x50 := by
  cases execOf_of_next h with
  | ran d hto => exact hto.errCode_ne_overflow
  | counted _ hto => exact hto.errCode_ne_overflow
  | overflow hwait hsplit hfull => exact absurd (no_overflow hs hwait hsplit) (Nat.not_le_of_lt hfull)
  | reset _ ht => subst ht; show (0 : Byte) ≠ 0x50; decide

theorem writeWord_discovery (s : State) (a : Nat) (w : Word) : (writeWord s a w).discovery = s.discovery := by
  unfold writeWord
  repeat' split
  all_goals simp

theorem readEffect_discovery (s : State) (a : Nat) : (readEffect s a).discovery = s.discovery := by
  unfold readEffect; split <;> rfl

theorem hostRead_discovery (a : Offset) (s : State) : (hostRead a s).discovery = s.discovery := by
  unfold hostRead
  split
  · exact readEffect_discovery s _
  · rfl

theorem alarmStep_discovery (s : State) : (alarmStep s).discovery = s.discovery := by
  obtain ⟨-, h⟩ | ⟨-, h⟩ := alarmStep_cases s <;> rw [h]

theorem runCommand_keeps_discoveryFits {w : Word} {s t : State} (hs : discoveryFits s = true)
    (h : runCommand w s = .next t) : discoveryFits t = true := by
  unfold runCommand at h
  split at h
  next => exact exec_keeps_discoveryFits hs h
  next => obtain rfl := Host.Outcome.next.inj h; exact hs

theorem hostWrite_keeps_discoveryFits {a : Offset} {w : Word} {s t : State} (hs : discoveryFits s = true)
    (h : hostWrite a w s = .next t) : discoveryFits t = true := by
  obtain ⟨-, hbus⟩ | ⟨-, hcmd⟩ | ⟨-, -, hstore⟩ := hostWrite_cases a w s
  · obtain rfl := Host.Outcome.next.inj (hbus.symm.trans h); exact hs
  · exact runCommand_keeps_discoveryFits hs (hcmd.symm.trans h)
  · obtain rfl := Host.Outcome.next.inj (hstore.symm.trans h)
    exact (discoveryFits_congr (writeWord_discovery s _ w)).trans hs

theorem agentStep_keeps_discoveryFits {e : Event} {s t : State} (hs : discoveryFits s = true)
    (h : agentStep e s = .next t) : discoveryFits t = true := by
  cases e with
  | hostRead a =>
    obtain rfl := Host.Outcome.next.inj h
    exact (discoveryFits_congr (hostRead_discovery a s)).trans hs
  | hostWrite a w => exact hostWrite_keeps_discoveryFits hs h
  | hostLoad x =>
    obtain rfl := Host.Outcome.next.inj h
    obtain ⟨a, -, hread⟩ | ⟨-, hnone⟩ := hostLoad_cases Config.base x s
    · rw [hread]; exact (discoveryFits_congr (hostRead_discovery a s)).trans hs
    · rw [hnone]; exact hs
  | hostStore x w =>
    obtain ⟨a, -, hwrite⟩ | ⟨-, hnone⟩ := hostStore_cases Config.base x w s
    · exact hostWrite_keeps_discoveryFits hs (hwrite.symm.trans h)
    · obtain rfl := Host.Outcome.next.inj (hnone.symm.trans h); exact hs
  | tick k _ => obtain rfl := Host.Outcome.next.inj h; exact hs
  | alarm =>
    obtain rfl := Host.Outcome.next.inj h
    exact (discoveryFits_congr (alarmStep_discovery s)).trans hs
  | platformReset bytes now => obtain rfl := Host.Outcome.next.inj h; rfl

theorem step_keeps_discoveryFits {s t : State} (hs : discoveryFits s = true) (h : step s = .next t) :
    discoveryFits t = true := by
  cases hin : s.inputs with
  | nil =>
    obtain rfl := Host.Outcome.next.inj ((step_nil s hin).symm.trans h)
    exact (discoveryFits_congr (alarmStep_discovery s)).trans hs
  | cons e rest =>
    have hagent := (step_cons s e rest hin).symm.trans h
    exact agentStep_keeps_discoveryFits (s := { s with inputs := rest }) hs hagent

/-- Settles O44: the invariant is kept, bounds the stack and leaves a split its room. -/
theorem stepKeepsDiscoveryFits : Obligations.StepKeepsDiscoveryFits :=
  ⟨fun _ _ hs h => step_keeps_discoveryFits hs h, fun s _ _ hs h =>
    ⟨stackFits_length ((discoveryFits_iff s).mp hs).1, exec_errCode_ne_overflow hs h⟩⟩

end Sys2Proof.Machine
end

section
/-! The buffer bytes that each command stores (20_memory.md R131): every store is a MemWrite of implemented bytes that
the command's rule names, so its canonical form and its frame both follow from one account of its stores. -/

namespace Sys2Proof.Machine

/-! ### Stores -/

/-- `m'` is `m` after MemWrites of bytes that the block implements and that `named` allows. -/
inductive Stores (named : Nat → Prop) (m : Memory) : Memory → Prop
  | kept : Stores named m m
  | write {m' : Memory} (a : Nat) (bs : List Byte) (h : Stores named m m')
    (hbytes : ∀ c, a ≤ c → c < a + bs.length → BufferByte c ∧ named c) : Stores named m (Memory.writeBytes m' a bs)

/-- Stores of implemented bytes keep the canonical form (20_memory.md R101). -/
theorem Stores.canonical {named : Nat → Prop} {m m' : Memory} (h : Stores named m m')
    (hm : Memory.wf m = true ∧ Memory.inBuffers m = true) : Memory.wf m' = true ∧ Memory.inBuffers m' = true := by
  induction h with
  | kept => exact hm
  | write a bs _ hbytes ih =>
    have implemented (i : Nat) (hi : i < bs.length) : implementedByte (a + i) = true :=
      (implementedByte_iff _).mpr (hbytes (a + i) (by omega) (by omega)).1
    exact ⟨Memory.wf_writeBytes bs _ a ih.1, Memory.inBuffers_writeBytes bs _ a implemented ih.2⟩

/-- A byte that stores change is one of those they name. -/
theorem Stores.named_of_read_ne {named : Nat → Prop} {m m' : Memory} (h : Stores named m m') {c : Nat}
    (hc : Memory.read m' c ≠ Memory.read m c) : named c := by
  induction h with
  | kept => exact absurd rfl hc
  | write a bs _ hbytes ih =>
    by_cases hin : a ≤ c ∧ c < a + bs.length
    · exact (hbytes c hin.1 hin.2).2
    · rw [Memory.read_writeBytes_outside _ _ _ _ (by omega)] at hc
      exact ih hc

theorem Stores.imp {p q : Nat → Prop} {m m' : Memory} (h : Stores p m m') (hpq : ∀ c, p c → q c) : Stores q m m' := by
  induction h with
  | kept => exact .kept
  | write a bs _ hbytes ih =>
    exact .write a bs ih fun c hlo hhi => ⟨(hbytes c hlo hhi).1, hpq c (hbytes c hlo hhi).2⟩

/-! ### The bytes that a command's rule names -/

/-- The byte at `a` is one that the rule of a command lets it change when it takes `s` to `t` (20_memory.md R131). -/
def NamedByte (s t : State) (a : Nat) : Instr → Prop
  | .pdEncode => 0x218 ≤ a ∧ a < 0x218 + t.codec.pdLen.toNat
  | .pdDecode => 0x400 ≤ a ∧ a < 0x400 + t.codec.hostCount.toNat
  | .frEncodeReq _ | .frEncodeRsp =>
    (0x200 ≤ a ∧ a < 0x218) ∨ (0x218 + s.tx.pdl.toNat ≤ a ∧ a < 0x218 + s.tx.pdl.toNat + 2)
  | .frDiscEncode npre => 0x640 ≤ a ∧ a < 0x640 + (npre.toNat + 17)
  | .dpValidate | .dpCheck => 0x218 ≤ a ∧ a < 0x218 + 2
  | .dsNext => 0x218 ≤ a ∧ a < 0x218 + 12
  | _ => False

/-- The stores of the command `i` that takes `s` to `t` are those that its rule names. -/
def StoresNamed (i : Instr) (s t : State) : Prop := Stores (fun a => NamedByte s t a i) s.mem t.mem

/-- A command that leaves the memory alone stores nothing. -/
theorem storesNamed_of_kept {i : Instr} {s : State} {r : Result} (h : Answers (fun t => t.mem = s.mem) r) :
    Answers (StoresNamed i s) r :=
  h.imp fun t (ht : t.mem = s.mem) => by rw [StoresNamed, ht]; exact .kept

/-! ### The codec (41_codec.md R242, R252) -/

theorem execPdParse_mem (s : State) : Answers (fun t => t.mem = s.mem) (execPdParse s) := by
  unfold execPdParse; split <;> rfl

theorem finalLast_of_parseFmt {s : State} {toks : List Token} (h : parseFmt s = .ok toks) : FinalLast toks := by
  obtain ⟨-, -, -, hfinal, -⟩ := parseString_ok _ _ h
  exact hfinal

theorem execPdEncode_stores (s : State) : Answers (StoresNamed .pdEncode s) (execPdEncode s) := by
  refine .ite (fun _ => .kept) fun _ => ?_
  split
  next => exact .kept
  next toks htoks =>
    have hlen := (encodeLoop_bounds s.mem toks s.codec.pdHostLen.toNat (finalLast_of_parseFmt htoks) passFuel
      ⟨[], 0, 0⟩ (Nat.zero_le _) (Nat.zero_le _)).1
    refine .write 0x218 _ .kept fun c hlo hhi => ⟨by unfold BufferByte; omega, hlo, ?_⟩
    show c < 0x218 + (BitVec.ofNat 8 _).toNat
    rw [BitVec.toNat_ofNat, Nat.mod_eq_of_lt (by omega)]
    exact hhi

theorem execPdDecode_stores (s : State) : Answers (StoresNamed .pdDecode s) (execPdDecode s) := by
  refine .ite (fun _ => .kept) fun hcap => .ite (fun _ => .kept) fun _ => ?_
  split
  next => exact .kept
  next toks htoks =>
    have hlen := decodeLoop_bounds s.mem toks s.codec.pdLen.toNat s.codec.pdHostLen.toNat (finalLast_of_parseFmt htoks)
      passFuel ⟨[], 0, 0⟩ (Nat.zero_le _)
    replace hcap : s.codec.pdHostLen.toNat ≤ 512 := Nat.le_of_not_lt hcap
    refine .write 0x400 _ .kept fun c hlo hhi => ⟨by unfold BufferByte; omega, hlo, ?_⟩
    show c < 0x400 + (BitVec.ofNat 10 _).toNat
    rw [BitVec.toNat_ofNat, Nat.mod_eq_of_lt (by omega)]
    exact hhi

/-! ### The framer and the discovery responses (42_framer.md R300, R310, R323) -/

/-- BuildFrame stores the header and the checksum behind PD, and both fit FRAME for every legal PDL. -/
theorem buildFrame_stores (s : State) (hpdl : s.tx.pdl.toNat ≤ 231) :
    Stores (fun a => (0x200 ≤ a ∧ a < 0x218) ∨ (0x218 + s.tx.pdl.toNat ≤ a ∧ a < 0x218 + s.tx.pdl.toNat + 2)) s.mem
      (buildFrame s).mem := by
  rw [buildFrame_mem]
  refine .write _ _ (.write _ _ .kept fun c hlo hhi => ?header) fun c hlo hhi => ?checksum
  case header =>
    simp only [frameBase, length_headerBytes] at hlo hhi
    exact ⟨by unfold BufferByte; omega, .inl ⟨hlo, hhi⟩⟩
  case checksum =>
    simp only [frameBase, Config.hdrLen, length_beBytes] at hlo hhi
    exact ⟨by unfold BufferByte; omega, .inr ⟨hlo, hhi⟩⟩

theorem selectTn_mem (tnsel : Bool) (s : State) : (selectTn tnsel s).mem = s.mem := by cases tnsel <;> rfl

theorem selectTn_pdl (tnsel : Bool) (s : State) : (selectTn tnsel s).tx.pdl = s.tx.pdl := by cases tnsel <;> rfl

theorem execFrEncodeReq_stores (tnsel : Bool) (s : State) :
    Answers (StoresNamed (.frEncodeReq tnsel) s) (execFrEncodeReq tnsel s) := by
  refine .ite (fun _ => .kept) fun hpdl => ?_
  have framed := buildFrame_stores (selectTn tnsel s) (by rw [selectTn_pdl]; exact Nat.le_of_not_lt hpdl)
  rw [selectTn_mem, selectTn_pdl] at framed
  exact framed

theorem execFrEncodeRsp_stores (s : State) : Answers (StoresNamed .frEncodeRsp s) (execFrEncodeRsp s) :=
  .ite (fun _ => .kept) fun hpdl => buildFrame_stores { s with tx := responseHeader s } (Nat.le_of_not_lt hpdl)

theorem execFrDecode_mem (s : State) : Answers (fun t => t.mem = s.mem) (execFrDecode s) := by
  rw [execFrDecode_eq]
  exact .ite (fun _ => rfl) fun _ => .ite (fun _ => rfl) fun _ => .ite (fun _ => rfl) fun _ =>
    .ite (fun _ => rfl) fun _ => .ite (fun _ => rfl) fun _ => .ite (fun _ => rfl) fun _ =>
    .ite (fun _ => rfl) fun _ => rfl

theorem execFrChecksum_mem (s : State) : Answers (fun t => t.mem = s.mem) (execFrChecksum s) :=
  .ite (fun _ => rfl) fun _ => rfl

theorem execFrDiscEncode_stores (npre : BitVec 3) (s : State) :
    Answers (StoresNamed (.frDiscEncode npre) s) (execFrDiscEncode npre s) := by
  refine .write 0x640 _ .kept fun c hlo hhi => ?_
  have hnpre : npre.toNat < 8 := npre.isLt
  rw [length_discResponse] at hhi
  exact ⟨by unfold BufferByte; omega, hlo, hhi⟩

theorem execFrDiscDecode_mem (s : State) : Answers (fun t => t.mem = s.mem) (execFrDiscDecode s) := by
  refine .ite (fun _ => rfl) fun _ => .ite (fun _ => rfl) fun _ => ?_
  split
  next => rfl
  next =>
    exact .ite (fun _ => rfl) fun _ => .ite (fun _ => rfl) fun _ => .ite (fun _ => rfl) fun _ => rfl

/-! ### The timing unit -/

theorem execTmStamp_mem (cat : BitVec 3) (kind : BitVec 2) (s : State) :
    Answers (fun t => t.mem = s.mem) (execTmStamp cat kind s) := by
  unfold execTmStamp; split <;> rfl

theorem execTmSetcat_mem (cat : BitVec 3) (s : State) : Answers (fun t => t.mem = s.mem) (execTmSetcat cat s) := by
  unfold execTmSetcat; split <;> rfl

theorem execTmGapCheck_mem (s : State) : Answers (fun t => t.mem = s.mem) (execTmGapCheck s) :=
  .ite (fun _ => rfl) fun _ => rfl

theorem execTmRespWait_mem (rxd : Bool) (s : State) : Answers (fun t => t.mem = s.mem) (execTmRespWait rxd s) :=
  .ite (fun _ => rfl) fun _ => rfl

/-! ### The dispatch unit (44_dispatch.md R424) -/

/-- Stores of the two reason bytes of a NACK at most. -/
abbrev StoresReason (s t : State) : Prop := Stores (fun a => 0x218 ≤ a ∧ a < 0x218 + 2) s.mem t.mem

theorem nack_stores (r : Half) (s : State) : StoresReason s (nack r s) := by
  rw [nack_eq]
  split
  · exact .kept
  · refine .write 0x218 _ .kept fun c hlo hhi => ?_
    rw [length_wireHalf] at hhi
    exact ⟨by unfold BufferByte; omega, hlo, hhi⟩

theorem validateRequest_stores (s : State) : StoresReason s (validateRequest s) := by
  unfold validateRequest
  split
  · exact .kept
  split
  · exact nack_stores _ s
  split
  · exact nack_stores _ s
  split
  · exact nack_stores _ s
  split
  · exact nack_stores _ s
  · exact .kept

theorem execDpValidate_stores (s : State) : Answers (StoresNamed .dpValidate s) (execDpValidate s) :=
  .ite (fun _ => .kept) fun _ => validateRequest_stores (clearDecision s)

theorem recordHandlerNack_mem (s : State) : (recordHandlerNack s).mem = s.mem := by
  unfold recordHandlerNack; split <;> rfl

theorem checkHandler_stores (s : State) : StoresReason s (checkHandler s) := by
  have recorded : StoresReason s (recordHandlerNack s) := by rw [StoresReason, recordHandlerNack_mem]; exact .kept
  unfold checkHandler
  split
  · exact nack_stores _ (raiseIrq .dpFault { s with dispatch := { s.dispatch with fault := true } })
  split
  · exact .kept
  dsimp only
  split
  · exact recorded
  · exact recorded

theorem execDpCheck_stores (s : State) : Answers (StoresNamed .dpCheck s) (execDpCheck s) :=
  .ite (fun _ => .kept) fun _ => checkHandler_stores s

/-! ### The discovery engine (45_discovery.md R470, R472, R474) -/

theorem execDsNext_stores (s : State) : Answers (StoresNamed .dsNext s) (execDsNext s) := by
  unfold execDsNext
  split
  · exact .kept
  · exact .kept
  · exact .kept
  split
  · exact .kept
  next r rest _ =>
    refine .write 0x218 (uidBe r.lo ++ uidBe r.hi) .kept fun c hlo hhi => ?_
    simp only [List.length_append, length_uidBe] at hhi
    exact ⟨by unfold BufferByte; omega, hlo, hhi⟩

/-- The mute request has no parameter data. -/
theorem foundDevice_mem (u : Uid) (s : State) : (foundDevice u s).mem = s.mem := by
  unfold foundDevice; dsimp only; split <;> rfl

theorem collided_mem (s : State) : Answers (fun t => t.mem = s.mem) (collided s) :=
  .ite (fun _ => .ite (fun _ => rfl) fun _ => rfl) fun _ => rfl

theorem fromDecode_mem (s : State) : Answers (fun t => t.mem = s.mem) (fromDecode s) :=
  .ite (fun _ => foundDevice_mem s.disc.uid s) fun _ => .ite (fun _ => rfl) fun _ => collided_mem s

theorem execDsResult_mem (outcome : BitVec 2) (s : State) :
    Answers (fun t => t.mem = s.mem) (execDsResult outcome s) :=
  .ite (fun _ => rfl) fun _ => .ite (fun _ => rfl) fun _ => .ite (fun _ => rfl) fun _ =>
    .ite (fun _ => fromDecode_mem { s with discovery := { s.discovery with flags := DsFlags.clear } }) fun _ =>
      collided_mem { s with discovery := { s.discovery with flags := DsFlags.clear } }

/-! ### Every command -/

/-- What any command stores. -/
theorem exec_stores (i : Instr) (s : State) : Answers (StoresNamed i s) (exec i s) := by
  cases i with
  | nop | uidCmp | uidClassify | tmCancel | dsInit | softReset => exact .kept
  | pdParse => exact storesNamed_of_kept (execPdParse_mem s)
  | pdEncode => exact execPdEncode_stores s
  | pdDecode => exact execPdDecode_stores s
  | frEncodeReq tnsel => exact execFrEncodeReq_stores tnsel s
  | frEncodeRsp => exact execFrEncodeRsp_stores s
  | frDecode => exact storesNamed_of_kept (execFrDecode_mem s)
  | frChecksum => exact storesNamed_of_kept (execFrChecksum_mem s)
  | frDiscEncode npre => exact execFrDiscEncode_stores npre s
  | frDiscDecode => exact storesNamed_of_kept (execFrDiscDecode_mem s)
  | tmStamp cat kind => exact storesNamed_of_kept (execTmStamp_mem cat kind s)
  | tmSetcat cat => exact storesNamed_of_kept (execTmSetcat_mem cat s)
  | tmGapCheck => exact storesNamed_of_kept (execTmGapCheck_mem s)
  | tmRespWait rxd => exact storesNamed_of_kept (execTmRespWait_mem rxd s)
  | dpValidate => exact execDpValidate_stores s
  | dpCheck => exact execDpCheck_stores s
  | dsNext => exact execDsNext_stores s
  | dsResult outcome => exact storesNamed_of_kept (execDsResult_mem outcome s)

/-- Settles O50: a byte that a command changes is one that it stores, and its stores are those that its rule names. -/
theorem commandsWriteNamedBuffers : Obligations.CommandsWriteNamedBuffers := by
  intro s t i a h hne
  have hnamed : NamedByte s t a i := ((exec_stores i s).of_eq h).named_of_read_ne hne
  cases i with
  | pdEncode => exact .inl ⟨rfl, hnamed⟩
  | pdDecode => exact .inr (.inl ⟨rfl, hnamed⟩)
  | frEncodeReq tnsel => exact .inr (.inr (.inl ⟨.inl ⟨tnsel, rfl⟩, hnamed⟩))
  | frEncodeRsp => exact .inr (.inr (.inl ⟨.inr rfl, hnamed⟩))
  | frDiscEncode npre => exact .inr (.inr (.inr (.inl ⟨npre, rfl, hnamed⟩)))
  | dpValidate => exact .inr (.inr (.inr (.inr (.inl ⟨.inl rfl, hnamed⟩))))
  | dpCheck => exact .inr (.inr (.inr (.inr (.inl ⟨.inr rfl, hnamed⟩))))
  | dsNext => exact .inr (.inr (.inr (.inr (.inr ⟨rfl, hnamed⟩))))
  | _ => exact hnamed.elim

end Sys2Proof.Machine
end

section
/-! The buffers under every step (20_memory.md R101): what the host, the agents and the commands store, and the
platform's draw. -/

namespace Sys2Proof.Machine

/-! ### Stores of a step -/

/-- An agent that took `s` to `t` stored implemented bytes only. -/
abbrev StoresBuffers (s t : State) : Prop := Stores (fun _ => True) s.mem t.mem

theorem bufferByte_of_mem_bufferWord {a c : Nat} (h : bufferWord a = true) (hlo : a ≤ c) (hhi : c < a + 4) :
    BufferByte c := by
  rw [bufferWord, List.all_eq_true] at h
  have hbyte := (implementedByte_iff _).mp (h (c - a) (List.mem_range.mpr (by omega)))
  rwa [Nat.add_sub_cancel' hlo] at hbyte

/-- A host write stores a word where all 4 bytes are implemented, and no byte elsewhere (20_memory.md R105). -/
theorem writeWord_stores (s : State) (a : Nat) (w : Word) : StoresBuffers s (writeWord s a w) := by
  unfold writeWord
  split
  next r _ => rw [StoresBuffers, writeReg_mem]; exact .kept
  split
  next hword =>
    refine .write a _ .kept fun c hlo hhi => ⟨?_, trivial⟩
    rw [length_leBytes] at hhi
    exact bufferByte_of_mem_bufferWord hword hlo hhi
  split
  · exact .kept
  · exact .kept

theorem runCommand_stores (w : Word) (s : State) : Answers (StoresBuffers s) (runCommand w s) := by
  unfold runCommand
  split
  next i _ => exact (exec_stores i s).imp fun _ h => Stores.imp h fun _ _ => trivial
  next => exact .kept

theorem hostWrite_stores (a : Offset) (w : Word) (s : State) : Answers (StoresBuffers s) (hostWrite a w s) := by
  obtain ⟨-, hbus⟩ | ⟨-, hcmd⟩ | ⟨-, -, hstore⟩ := hostWrite_cases a w s
  · rw [hbus]; exact .kept
  · rw [hcmd]; exact runCommand_stores w s
  · rw [hstore]; exact writeWord_stores s a.toNat w

theorem hostRead_mem (a : Offset) (s : State) : (hostRead a s).mem = s.mem := by
  unfold hostRead readEffect
  split
  · dsimp only; split <;> rfl
  · rfl

theorem alarmStep_mem (s : State) : (alarmStep s).mem = s.mem := by
  obtain ⟨-, h⟩ | ⟨-, h⟩ := alarmStep_cases s <;> rw [h]

/-! ### The canonical form -/

theorem agentStep_keeps_canonical (e : Event) (s : State) (hs : MemoryCanonical s) :
    Answers MemoryCanonical (agentStep e s) := by
  have of_stores {t : State} (h : StoresBuffers s t) : MemoryCanonical t := Stores.canonical h hs
  have of_kept {t : State} (h : t.mem = s.mem) : MemoryCanonical t := by rw [MemoryCanonical, h]; exact hs
  cases e with
  | hostRead a => exact of_kept (hostRead_mem a s)
  | hostWrite a w => exact (hostWrite_stores a w s).imp fun _ => of_stores
  | hostLoad x =>
    obtain ⟨a, -, hread⟩ | ⟨-, hnone⟩ := hostLoad_cases Config.base x s
    · rw [agentStep, hread]; exact of_kept (hostRead_mem a s)
    · rw [agentStep, hnone]; exact hs
  | hostStore x w =>
    obtain ⟨a, -, hwrite⟩ | ⟨-, hnone⟩ := hostStore_cases Config.base x w s
    · rw [agentStep, hwrite]; exact (hostWrite_stores a w s).imp fun _ => of_stores
    · rw [agentStep, hnone]; exact hs
  | tick k _ => exact hs
  | alarm => exact of_kept (alarmStep_mem s)
  | platformReset bytes now => exact drawnMemory_wf bytes

/-- Settles O45: an agent stores implemented bytes only, and a platform reset's draw is canonical. -/
theorem stepKeepsMemoryCanonical : Obligations.StepKeepsMemoryCanonical := by
  intro s t hs h
  cases hin : s.inputs with
  | nil =>
    obtain rfl := Host.Outcome.next.inj ((step_nil s hin).symm.trans h)
    rw [MemoryCanonical, alarmStep_mem]; exact hs
  | cons e rest =>
    exact (agentStep_keeps_canonical e { s with inputs := rest } hs).of_eq ((step_cons s e rest hin).symm.trans h)

end Sys2Proof.Machine
end

section
/-! Misaligned accesses (20_memory.md R104) and the reads of NOW (20_memory.md R106, 43_timing.md R387). -/

namespace Sys2Proof.Machine

/-! ### Misaligned accesses -/

theorem aligned_eq_false {a : Offset} (h : a.toNat % 4 ≠ 0) : aligned a = false :=
  Bool.eq_false_iff.mpr fun ha => h ((aligned_iff a).mp ha)

theorem hostRead_misaligned {a : Offset} (s : State) (h : a.toNat % 4 ≠ 0) :
    hostRead a s = { busError s with readData := 0 } := by
  simp [hostRead, aligned_eq_false h]

theorem hostWrite_misaligned {a : Offset} (w : Word) (s : State) (h : a.toNat % 4 ≠ 0) :
    hostWrite a w s = .next (busError s) := by
  simp [hostWrite, aligned_eq_false h]

/-- Settles O54, for the read and for the write. -/
theorem misalignedOnlyBusError : Obligations.MisalignedOnlyBusError := by
  intro s rest a w ha
  refine ⟨fun hread => ?_, fun hwrite => ?_⟩
  · rw [step_cons s _ rest hread]
    exact congrArg Host.Outcome.next (hostRead_misaligned _ ha)
  · rw [step_cons s _ rest hwrite]
    exact hostWrite_misaligned w _ ha

/-! ### The reads of NOW -/

theorem hostRead_aligned {a : Offset} (s : State) (h : a.toNat % 4 = 0) :
    hostRead a s = { readEffect s a.toNat with readData := readWord s a.toNat } := by
  simp [hostRead, (aligned_iff a).mpr h]

/-- The steps still to come are no part of what the host reads. -/
theorem readWord_inputs (s : State) (rest : List Event) (a : Nat) :
    readWord { s with inputs := rest } a = readWord s a := rfl

theorem readEffect_of_ne {a : Offset} (s : State) (h : a ≠ 0x0C0) : readEffect s a.toNat = s :=
  if_neg fun ha => h (BitVec.eq_of_toNat_eq ha)

/-- A read of NOW_LO answers the low word and latches the high word of the same NOW. -/
theorem hostRead_nowLo (s : State) :
    hostRead 0x0C0 s =
      { s with timing := { s.timing with nowHiLatch := highWord s.now }, readData := s.now.setWidth 32 } := by
  rw [hostRead_aligned s (by decide), show (0x0C0 : Offset).toNat = Reg.nowLo.offset from rfl, readWord_offset]
  rfl

theorem alarmStep_nowHiLatch (s : State) : (alarmStep s).timing.nowHiLatch = s.timing.nowHiLatch := by
  obtain ⟨-, h⟩ | ⟨-, h⟩ := alarmStep_cases s <;> rw [h]

/-- Settles O55: the read of NOW_LO, the agents between the reads, every other aligned read, and what NOW_HI returns. -/
theorem nowReadsAreOneSample : Obligations.NowReadsAreOneSample := by
  refine ⟨fun s rest hs => ?sample, fun s t e rest hs he h => ?agents, fun s a rest hs ha hne => ?other,
    fun s => readWord_offset s .nowHi⟩
  case sample =>
    have hstep := (step_cons s _ rest hs).trans (congrArg Host.Outcome.next (hostRead_nowLo { s with inputs := rest }))
    refine ⟨_, hstep, ?_, rfl, rfl, fun _ => rfl⟩
    exact BitVec.setWidth_eq_extractLsb' (show 32 ≤ 64 by decide)
  case agents =>
    have hagent := (step_cons s e rest hs).symm.trans h
    obtain rfl | ⟨k, hk, rfl⟩ := he
    · obtain rfl := Host.Outcome.next.inj hagent; exact alarmStep_nowHiLatch { s with inputs := rest }
    · obtain rfl := Host.Outcome.next.inj hagent; rfl
  case other =>
    rw [step_cons s _ rest hs]
    refine congrArg Host.Outcome.next ?_
    rw [hostRead_aligned _ ha, readEffect_of_ne _ hne, readWord_inputs]

end Sys2Proof.Machine
end

section
/-! Command words (30_encoding.md R140-R145): the decoder and the encoder invert each other, and the legal words are
those of the opcode table. -/

namespace Sys2Proof

/-! ### The fields of a word (30_encoding.md R140) -/

theorem encode_fields (i : Instr) :
    rsvField (encode i) = 0 ∧ opField (encode i) = i.opcode ∧ argField (encode i) = i.argument :=
  Laws.word_fields _ _

/-- A word is its three fields. -/
theorem fields_append (w : Word) : rsvField w ++ argField w ++ opField w = w := by
  have harg : rsvField w ++ argField w = w.extractLsb' 8 24 :=
    BitVec.extractLsb'_append_extractLsb'_eq_extractLsb' rfl
  have hop : w.extractLsb' 8 24 ++ opField w = w.extractLsb' 0 32 :=
    BitVec.extractLsb'_append_extractLsb'_eq_extractLsb' rfl
  rw [harg, hop, BitVec.extractLsb'_eq_self]

theorem decode_of_rsvField {w : Word} (h : rsvField w = 0) : decode w = decodeOp (opField w) (argField w) := if_pos h

theorem decode_encode (i : Instr) : decode (encode i) = decodeOp i.opcode i.argument := by
  obtain ⟨hrsv, hop, harg⟩ := encode_fields i
  rw [decode_of_rsvField hrsv, hop, harg]

/-- A word with a reserved bit is no command's. -/
theorem decode_eq_command_iff (w : Word) (i : Instr) :
    decode w = .command i ↔ rsvField w = 0 ∧ decodeOp (opField w) (argField w) = .command i := by
  unfold decode
  split
  next h => exact (and_iff_right h).symm
  next h => exact ⟨nofun, fun hc => absurd hc.1 h⟩

/-! ### Argument sub-fields (30_encoding.md R141) -/

theorem withArgBits_eq_command_iff (named arg : Byte) (i j : Instr) :
    withArgBits named arg i = .command j ↔ arg &&& ~~~named = 0 ∧ i = j := by
  unfold withArgBits
  split
  next h => rw [Decoded.command.injEq, and_iff_right h]
  next h => exact ⟨nofun, fun hc => absurd hc.1 h⟩

/-- An argument byte without unnamed bits is its named bits. -/
theorem and_named_of_unnamed_eq_zero {named arg : Byte} (h : arg &&& ~~~named = 0) : arg &&& named = arg := by
  have hbits : (arg &&& named) ||| (arg &&& ~~~named) = arg := by
    rw [← BitVec.and_or_distrib_left, BitVec.or_not_self, BitVec.and_allOnes]
  exact (BitVec.or_zero.symm.trans (congrArg _ h.symm)).trans hbits

/-- A sub-field at the low end of the argument is the argument's bits under its mask. -/
theorem zeroExtend_lowField (arg : Byte) (k : Nat) :
    (arg.extractLsb' 0 k).zeroExtend 8 = arg &&& (BitVec.allOnes k).zeroExtend 8 := by
  ext i hi
  simp [hi, Bool.and_comm]

theorem zeroExtend_flag (arg : Byte) : (BitVec.ofBool (arg.getLsbD 0)).zeroExtend 8 = arg &&& 0x01 := by
  have hflag : BitVec.ofBool (arg.getLsbD 0) = arg.extractLsb' 0 1 := by ext i hi; simp [show i = 0 by omega]
  rw [hflag]
  exact zeroExtend_lowField arg 1

/-- CAT and KIND at their places are the argument's bits under the mask of TM_STAMP. -/
theorem stampFields_append (arg : Byte) :
    (arg.extractLsb' 0 3).zeroExtend 8 ||| (arg.extractLsb' 4 2).zeroExtend 8 <<< 4 = arg &&& 0x37 := by
  revert arg; decide

/-! ### The opcodes (30_encoding.md R142) -/

theorem decodeOp_argument (i : Instr) (h : i.WellFormed) : decodeOp i.opcode i.argument = .command i := by
  cases i with
  | frEncodeReq tnsel => cases tnsel <;> rfl
  | frDiscEncode npre => revert npre; decide
  | tmStamp cat kind => revert cat kind; decide
  | tmSetcat cat => revert cat; decide
  | tmRespWait rxd => cases rxd <;> rfl
  | dsResult outcome => revert outcome; decide
  | _ => rfl

/-- Settles O1. -/
theorem decodeOfEncode : Obligations.DecodeOfEncode := fun i h => (decode_encode i).trans (decodeOp_argument i h)

/-- What an arm of the decoder reads is the command of that opcode and argument. -/
theorem fields_of_withArgBits {op named arg : Byte} {i j : Instr} (h : withArgBits named arg j = .command i)
    (hop : op.toNat = j.opcode.toNat) (harg : j.argument = arg &&& named) (hwf : j.WellFormed) :
    i.opcode = op ∧ i.argument = arg ∧ i.WellFormed := by
  obtain ⟨hnamed, rfl⟩ := (withArgBits_eq_command_iff named arg j i).mp h
  exact ⟨BitVec.eq_of_toNat_eq hop.symm, harg.trans (and_named_of_unnamed_eq_zero hnamed), hwf⟩

theorem fields_of_decodeOp {op arg : Byte} {i : Instr} (h : decodeOp op arg = .command i) :
    i.opcode = op ∧ i.argument = arg ∧ i.WellFormed := by
  unfold decodeOp at h
  split at h
  case h_7 hop => exact fields_of_withArgBits h hop (zeroExtend_flag arg) rfl
  case h_11 hop => exact fields_of_withArgBits h hop (zeroExtend_lowField arg 3) rfl
  case h_13 hop => exact fields_of_withArgBits h hop (stampFields_append arg) rfl
  case h_14 hop => exact fields_of_withArgBits h hop (zeroExtend_lowField arg 3) rfl
  case h_16 hop => exact fields_of_withArgBits h hop (zeroExtend_flag arg) rfl
  case h_22 hop =>
    split at h
    next => cases h
    next houtcome => exact fields_of_withArgBits h hop (zeroExtend_lowField arg 2) (bne_iff_ne.mpr houtcome)
  case h_23 hop =>
    split at h
    next hkey => cases h; exact ⟨BitVec.eq_of_toNat_eq hop.symm, hkey.symm, rfl⟩
    next => cases h
  case h_24 => cases h
  all_goals exact fields_of_withArgBits h ‹_› BitVec.and_zero.symm rfl

/-- Settles O2: the command's fields are the word's. -/
theorem encodeOfDecode : Obligations.EncodeOfDecode := by
  intro w i h
  obtain ⟨hrsv, hcommand⟩ := (decode_eq_command_iff w i).mp h
  obtain ⟨hop, harg, hwf⟩ := fields_of_decodeOp hcommand
  refine ⟨?_, hwf⟩
  calc encode i = rsvField w ++ argField w ++ opField w := by rw [encode, hrsv, hop, harg]
    _ = w := fields_append w

/-! ### The opcode table (30_encoding.md R142) -/

/-- A row's mask takes RSV and OP whole. -/
theorem tableRows_masks : ∀ r ∈ tableRows,
    rsvField r.mask = 0xFFFF ∧ opField r.mask = 0xFF ∧ rsvField r.pattern = 0 := by decide

theorem tableRows_opcodes_nodup : (tableRows.map fun r => opField r.pattern).Nodup := by decide

/-- The words of a row have its opcode, RSV 0 and the row's argument bits. -/
theorem fields_of_row {r : TableRow} (hr : r ∈ tableRows) {w : Word} (h : w &&& r.mask = r.pattern) :
    rsvField w = 0 ∧ opField w = opField r.pattern ∧ argField w &&& argField r.mask = argField r.pattern := by
  obtain ⟨hrsv, hop, hzero⟩ := tableRows_masks r hr
  have field (start len : Nat) :
      w.extractLsb' start len &&& r.mask.extractLsb' start len = r.pattern.extractLsb' start len := by
    rw [← BitVec.extractLsb'_and, h]
  have hrsvW : rsvField w &&& rsvField r.mask = rsvField r.pattern := field 16 16
  have hopW : opField w &&& opField r.mask = opField r.pattern := field 0 8
  rw [hrsv, hzero] at hrsvW
  rw [hop] at hopW
  exact ⟨BitVec.and_allOnes.symm.trans hrsvW, BitVec.and_allOnes.symm.trans hopW, field 8 8⟩

/-- No word matches two rows: their opcodes differ. -/
theorem rowsMatched_le_one (w : Word) : rowsMatched w ≤ 1 := by
  have hsameOp : ∀ r ∈ tableRows, (w &&& r.mask == r.pattern) = true → (opField r.pattern == opField w) = true :=
    fun r hr h =>
      have ⟨_, hop, _⟩ := fields_of_row hr (beq_iff_eq.mp h)
      beq_iff_eq.mpr hop.symm
  calc rowsMatched w = tableRows.countP fun r => w &&& r.mask == r.pattern := List.countP_eq_length_filter.symm
    _ ≤ tableRows.countP fun r => opField r.pattern == opField w := List.countP_mono_left hsameOp
    _ = (tableRows.map fun r => opField r.pattern).count (opField w) := by
      rw [List.count_eq_countP, List.countP_map]; rfl
    _ ≤ 1 := List.nodup_iff_count_le_one.mp tableRows_opcodes_nodup _

theorem rowsMatched_eq_one_iff (w : Word) : rowsMatched w = 1 ↔ ∃ r ∈ tableRows, w &&& r.mask = r.pattern := by
  have hle := rowsMatched_le_one w
  have hpos : 0 < rowsMatched w ↔ ∃ r ∈ tableRows, w &&& r.mask = r.pattern := by
    simp only [rowsMatched, List.length_filter_pos_iff, beq_iff_eq]
  exact Iff.trans (by omega) hpos

theorem encode_matches_row (i : Instr) : ∃ r ∈ tableRows, encode i &&& r.mask = r.pattern := by
  cases i with
  | frEncodeReq tnsel => revert tnsel; decide
  | frDiscEncode npre => revert npre; decide
  | tmStamp cat kind => revert cat kind; decide
  | tmSetcat cat => revert cat; decide
  | tmRespWait rxd => revert rxd; decide
  | dsResult outcome => revert outcome; decide
  | _ => decide

/-- Each row's opcode and argument bits name a command, but for DS_RESULT with OUTCOME 3. -/
theorem decodeOp_of_row {r : TableRow} (hr : r ∈ tableRows) {arg : Byte}
    (h : arg &&& argField r.mask = argField r.pattern) :
    (∃ i, decodeOp (opField r.pattern) arg = .command i) ∨ (opField r.pattern = 0x52 ∧ arg = 0x03) := by
  simp only [tableRows, List.mem_cons, List.not_mem_nil, or_false] at hr
  obtain rfl | rfl | rfl | rfl | rfl | rfl | rfl | rfl | rfl | rfl | rfl | rfl | rfl | rfl | rfl | rfl | rfl | rfl |
    rfl | rfl | rfl | rfl | rfl := hr
  any_goals exact .inl ⟨_, if_pos h⟩
  · by_cases houtcome : arg.extractLsb' 0 2 = 3
    · have harg : arg = (arg.extractLsb' 0 2).zeroExtend 8 :=
        ((zeroExtend_lowField arg 2).trans (and_named_of_unnamed_eq_zero h)).symm
      exact .inr ⟨rfl, harg.trans (congrArg _ houtcome)⟩
    · exact .inl ⟨_, (if_neg houtcome).trans (if_pos h)⟩
  · exact .inl ⟨_, if_pos (BitVec.and_allOnes.symm.trans h)⟩

theorem decode_of_row {r : TableRow} (hr : r ∈ tableRows) {w : Word} (h : w &&& r.mask = r.pattern)
    (hw : w ≠ 0x00000352) : ∃ i, decode w = .command i := by
  obtain ⟨hrsv, hop, harg⟩ := fields_of_row hr h
  rw [decode_of_rsvField hrsv, hop]
  refine (decodeOp_of_row hr harg).resolve_right fun ⟨hopcode, houtcome⟩ => hw ?_
  rw [← fields_append w, hrsv, hop, hopcode, houtcome]; rfl

/-- Settles O3: a command's word matches its row, and no word matches two. -/
theorem legalWordsMatchOneRow : Obligations.LegalWordsMatchOneRow := by
  intro w
  rw [rowsMatched_eq_one_iff]
  constructor
  · rintro ⟨i, h⟩
    obtain ⟨rfl, -⟩ := encodeOfDecode w i h
    refine ⟨encode_matches_row i, fun hw => ?_⟩
    rw [hw] at h
    exact nomatch (show Decoded.illegal .reservedOutcome = .command i from h)
  · rintro ⟨⟨r, hr, h⟩, hw⟩
    exact decode_of_row hr h hw

/-! ### The sample words (30_encoding.md R144, R145) -/

/-- Settles O4: each legal word is the word of its command. -/
theorem sampleWordsDecode : Obligations.SampleWordsDecode :=
  ⟨decodeOfEncode (.frEncodeReq true) rfl, decodeOfEncode (.tmStamp 3 1) rfl, decodeOfEncode .softReset rfl,
    decodeOfEncode .uidCmp rfl, decodeOfEncode .pdEncode rfl, decodeOfEncode (.frDiscEncode 7) rfl,
    decodeOfEncode .dpCheck rfl, decodeOfEncode (.dsResult 1) rfl, rfl, rfl, rfl, rfl, rfl⟩

end Sys2Proof
end

section
/-! The format language (30_encoding.md R170-R173, 41_codec.md R232): the scan of the parser takes the texts of the
token language apart. -/

namespace Sys2Proof.Machine

/-! ### Digits (30_encoding.md R170) -/

/-- The ASCII byte of a decimal digit. -/
def decChar (d : Fin 10) : Byte := BitVec.ofNat 8 (0x30 + d.val)

theorem decText_cons (d : Fin 10) (ds : List (Fin 10)) : decText (d :: ds) = decChar d :: decText ds := rfl

theorem decDigit?_decChar (d : Fin 10) : decDigit? (decChar d) = some d.val := by revert d; decide

theorem exists_decChar {c : Byte} {v : Nat} (h : decDigit? c = some v) : ∃ d, c = decChar d := by
  unfold decDigit? at h
  split at h
  next hc =>
    refine ⟨⟨c.toNat - 0x30, by omega⟩, BitVec.eq_of_toNat_eq ?_⟩
    simp only [decChar, BitVec.toNat_ofNat]
    omega
  next => cases h

theorem hexDigit?_hexChar (d : Fin 16 × Bool) : hexDigit? (hexChar d) = some d.1.val := by
  obtain ⟨d, upper⟩ := d
  revert d upper; decide

theorem exists_hexChar {c : Byte} {v : Nat} (h : hexDigit? c = some v) : ∃ d, c = hexChar d := by
  have of_toNat (d : Fin 16 × Bool) (hd : (hexChar d).toNat = c.toNat) : ∃ d, c = hexChar d :=
    ⟨d, BitVec.eq_of_toNat_eq hd.symm⟩
  unfold hexDigit? at h
  split at h
  next =>
    refine of_toNat (⟨c.toNat - 0x30, by omega⟩, false) ?_
    have hdigit : c.toNat - 0x30 < 10 := by omega
    simp only [hexChar, hdigit, if_true, BitVec.toNat_ofNat]
    omega
  next =>
    split at h
    next =>
      refine of_toNat (⟨c.toNat - 0x61 + 10, by omega⟩, false) ?_
      simp only [hexChar, Nat.not_lt.mpr (Nat.le_add_left 10 _), if_false, Bool.false_eq_true, BitVec.toNat_ofNat]
      omega
    next =>
      split at h
      next =>
        refine of_toNat (⟨c.toNat - 0x41 + 10, by omega⟩, true) ?_
        simp only [hexChar, Nat.not_lt.mpr (Nat.le_add_left 10 _), if_false, if_true, BitVec.toNat_ofNat]
        omega
      next => cases h

/-- A string is digits of an alphabet and a rest that begins with none of them. -/
theorem exists_digits_append {Digit : Type} {char : Digit → Byte} {digit? : Byte → Option Nat}
    (exists_char : ∀ {c v}, digit? c = some v → ∃ d, c = char d) (f : List Byte) :
    ∃ (ds : List Digit) (r : List Byte), f = ds.map char ++ r ∧ ∀ c ∈ r.head?, digit? c = none := by
  induction f with
  | nil => exact ⟨[], [], rfl, nofun⟩
  | cons c f ih =>
    cases hc : digit? c with
    | none => exact ⟨[], c :: f, rfl, by simpa using hc⟩
    | some v =>
      obtain ⟨d, rfl⟩ := exists_char hc
      obtain ⟨ds, r, rfl, hr⟩ := ih
      exact ⟨d :: ds, r, rfl, hr⟩

theorem takeDec_stop (x k : Nat) {r : List Byte} (hr : ∀ c ∈ r.head?, decDigit? c = none) :
    takeDec x k r = (x, k, r) := by
  cases r with
  | nil => rfl
  | cons c r => rw [takeDec, hr c rfl]

theorem takeHex_stop (x k : Nat) {r : List Byte} (hr : ∀ c ∈ r.head?, hexDigit? c = none) :
    takeHex x k r = (x, k, r) := by
  cases r with
  | nil => rfl
  | cons c r => rw [takeHex, hr c rfl]

/-- Reading decimal digits behind a number `x`: the number they extend it to, saturated at 1000. -/
theorem takeDec_decText_from (ds : List (Fin 10)) {r : List Byte} (hr : ∀ c ∈ r.head?, decDigit? c = none) :
    ∀ x k, takeDec (min 1000 x) k (decText ds ++ r) =
      (min 1000 (ds.foldl (fun x d => 10 * x + d.val) x), k + ds.length, r) := by
  induction ds with
  | nil => exact fun x k => takeDec_stop _ _ hr
  | cons d ds ih =>
    intro x k
    have hsat : min 1000 (10 * min 1000 x + d.val) = min 1000 (10 * x + d.val) := by omega
    rw [decText_cons, List.cons_append, takeDec, decDigit?_decChar]
    simp only [hsat, ih, List.foldl_cons, List.length_cons]
    rw [Nat.add_right_comm, Nat.add_assoc]

theorem takeDec_decText (ds : List (Fin 10)) {r : List Byte} (hr : ∀ c ∈ r.head?, decDigit? c = none) :
    takeDec 0 0 (decText ds ++ r) = (min 1000 (decValue ds), ds.length, r) := by
  simpa [decValue] using takeDec_decText_from ds hr 0 0

/-- Reading hexadecimal digits behind a number `x`: the number they extend it to. -/
theorem takeHex_hexText_from (ds : List (Fin 16 × Bool)) {r : List Byte} (hr : ∀ c ∈ r.head?, hexDigit? c = none) :
    ∀ x k, takeHex x k (hexText ds ++ r) = (ds.foldl (fun x d => 16 * x + d.1.val) x, k + ds.length, r) := by
  induction ds with
  | nil => exact fun x k => takeHex_stop _ _ hr
  | cons d ds ih =>
    intro x k
    rw [show hexText (d :: ds) ++ r = hexChar d :: (hexText ds ++ r) from rfl, takeHex, hexDigit?_hexChar]
    simp only [ih, List.foldl_cons, List.length_cons]
    rw [Nat.add_right_comm, Nat.add_assoc]

theorem takeHex_hexText (ds : List (Fin 16 × Bool)) {r : List Byte} (hr : ∀ c ∈ r.head?, hexDigit? c = none) :
    takeHex 0 0 (hexText ds ++ r) = (hexValue ds, ds.length, r) := by
  simpa [hexValue] using takeHex_hexText_from ds hr 0 0

theorem hexValue_from_lt (ds : List (Fin 16 × Bool)) :
    ∀ x, ds.foldl (fun x d => 16 * x + d.1.val) x < (x + 1) * 16 ^ ds.length := by
  induction ds with
  | nil => intro x; simp
  | cons d ds ih =>
    intro x
    calc (d :: ds).foldl (fun x d => 16 * x + d.1.val) x < (16 * x + d.1.val + 1) * 16 ^ ds.length := ih _
      _ ≤ (16 * (x + 1)) * 16 ^ ds.length := Nat.mul_le_mul_right _ (by omega)
      _ = (x + 1) * 16 ^ (d :: ds).length := by rw [List.length_cons]; ring

/-- The digits of a literal fit in its bytes. -/
theorem hexValue_lt (ds : List (Fin 16 × Bool)) : hexValue ds < 256 ^ ((ds.length + 1) / 2) :=
  calc hexValue ds < (0 + 1) * 16 ^ ds.length := hexValue_from_lt ds 0
    _ ≤ 16 ^ (2 * ((ds.length + 1) / 2)) := by
      rw [Nat.zero_add, Nat.one_mul]
      exact Nat.pow_le_pow_right (by decide) (by omega)
    _ = 256 ^ ((ds.length + 1) / 2) := by rw [Nat.pow_mul]

/-- The bytes of a literal are those of its digits, big-endian. -/
theorem literal_bytes_iff (bytes : List Byte) (ds : List (Fin 16 × Bool)) :
    bytes.length = (ds.length + 1) / 2 ∧ beNat bytes = hexValue ds ↔
      bytes = beBytes (hexValue ds) ((ds.length + 1) / 2) := by
  constructor
  · rintro ⟨hlen, hval⟩
    rw [← hval, ← hlen, beBytes_beNat]
  · rintro rfl
    exact ⟨length_beBytes _ _, (beNat_beBytes _ _).trans (Nat.mod_eq_of_lt (hexValue_lt ds))⟩

/-! ### One token (30_encoding.md R171-R173) -/

/-- Behind the letter `a`, the digits decide which token it is. -/
theorem parseToken_a (ds : List (Fin 10)) {r : List Byte} (hr : ∀ c ∈ r.head?, decDigit? c = none) :
    parseToken 0x61 (decText ds ++ r) =
      if ds = [] then .ok (.avar, r)
      else if 1 ≤ decValue ds ∧ decValue ds ≤ 231 then .ok (.afix (decValue ds), r)
      else .error .pASize := by
  have hread : parseToken 0x61 (decText ds ++ r) =
      if ds.length = 0 then .ok (.avar, r)
      else if min 1000 (decValue ds) = 0 ∨ 231 < min 1000 (decValue ds) then .error .pASize
      else .ok (.afix (min 1000 (decValue ds)), r) := by
    simp only [parseToken, takeDec_decText ds hr]; rfl
  simp only [hread, List.length_eq_zero_iff]
  by_cases hsize : 1 ≤ decValue ds ∧ decValue ds ≤ 231
  · have hsat : min 1000 (decValue ds) = decValue ds := by omega
    have hfits : ¬(decValue ds = 0 ∨ 231 < decValue ds) := by omega
    simp only [hsat, hsize, hfits, and_self, if_true, if_false]
  · have hbad : min 1000 (decValue ds) = 0 ∨ 231 < min 1000 (decValue ds) := by omega
    simp only [hbad, hsize, if_true, if_false]

/-- Behind `#`, the byte that ends the digits decides whether it is a literal. -/
theorem parseToken_hash (ds : List (Fin 16 × Bool)) {c : Byte} (hc : hexDigit? c = none) (r : List Byte) :
    parseToken 0x23 (hexText ds ++ c :: r) =
      if c ≠ 0x68 then .error .pLitUnterm
      else if ds.length = 0 ∨ 16 < ds.length then .error .pLitSize
      else .ok (.lit (beBytes (hexValue ds) ((ds.length + 1) / 2)), r) := by
  have hread := takeHex_hexText ds (r := c :: r) (by simpa using hc)
  have hh : c.toNat ≠ 0x68 ↔ c ≠ 0x68 := not_congr (BitVec.toNat_inj (y := 0x68#8))
  simp only [← hh]
  unfold parseToken
  simp [hread]

theorem parseToken_hash_end (ds : List (Fin 16 × Bool)) : parseToken 0x23 (hexText ds) = .error .pLitUnterm := by
  have hread := takeHex_hexText ds (r := []) nofun
  rw [List.append_nil] at hread
  simp [parseToken, hread]

theorem hexDigit?_h : hexDigit? 0x68 = none := by decide

theorem text_of_parseToken_a {rest r : List Byte} {t : Token} (h : parseToken 0x61 rest = .ok (t, r)) :
    ∃ text, TokenText t text ∧ 0x61 :: rest = text ++ r := by
  obtain ⟨ds, r', rfl, hr⟩ := exists_digits_append exists_decChar rest
  replace h := (parseToken_a ds hr).symm.trans h
  split at h
  next hds => cases h; exact ⟨[0x61], rfl, by rw [hds]; rfl⟩
  next hds =>
    split at h
    next hsize => cases h; exact ⟨0x61 :: decText ds, ⟨ds, hds, rfl, rfl, hsize⟩, rfl⟩
    next => cases h

theorem text_of_parseToken_hash {rest r : List Byte} {t : Token} (h : parseToken 0x23 rest = .ok (t, r)) :
    ∃ text, TokenText t text ∧ 0x23 :: rest = text ++ r := by
  obtain ⟨ds, r', rfl, hr⟩ := exists_digits_append exists_hexChar rest
  cases r' with
  | nil =>
    rw [List.append_nil] at h
    cases (parseToken_hash_end ds).symm.trans h
  | cons c r' =>
    replace h := (parseToken_hash ds (hr c rfl) r').symm.trans h
    split at h
    next => cases h
    next hc =>
      obtain rfl : c = 0x68 := not_not.mp hc
      split at h
      next => cases h
      next hsize =>
        cases h
        have hbytes := (literal_bytes_iff _ ds).mpr rfl
        refine ⟨0x23 :: (hexText ds ++ [0x68]), ⟨ds, by omega, by omega, rfl, hbytes⟩, ?_⟩
        rw [List.cons_append, List.append_assoc]; rfl

/-- The parser takes a text of the token that it answers off the string. -/
theorem text_of_parseToken {c : Byte} {rest r : List Byte} {t : Token} (h : parseToken c rest = .ok (t, r)) :
    ∃ text, TokenText t text ∧ c :: rest = text ++ r := by
  have hparse := h
  unfold parseToken at h
  split at h
  case h_6 hc =>
    obtain rfl : c = 0x61 := BitVec.eq_of_toNat_eq hc
    exact text_of_parseToken_a hparse
  case h_7 hc =>
    obtain rfl : c = 0x23 := BitVec.eq_of_toNat_eq hc
    exact text_of_parseToken_hash hparse
  case h_8 => cases h
  all_goals
    cases h
    exact ⟨[_], rfl, congrArg (· :: rest) (BitVec.eq_of_toNat_eq ‹_›)⟩

/-- A text of a token in front of no digit is read as that token. -/
theorem parseToken_of_text {t : Token} {text r : List Byte} (h : TokenText t text)
    (hr : ∀ c ∈ r.head?, decDigit? c = none) :
    ∃ c rest, text = c :: rest ∧ decDigit? c = none ∧ parseToken c (rest ++ r) = .ok (t, r) := by
  cases t with
  | b | w | d | u | v => obtain rfl := h; exact ⟨_, [], rfl, by decide, rfl⟩
  | avar => obtain rfl := h; exact ⟨_, [], rfl, by decide, parseToken_a [] hr⟩
  | afix n =>
    obtain ⟨ds, hds, rfl, rfl, hsize⟩ := h
    exact ⟨_, _, rfl, by decide, (parseToken_a ds hr).trans ((if_neg hds).trans (if_pos hsize))⟩
  | lit bytes =>
    obtain ⟨ds, hmin, hmax, rfl, hbytes⟩ := h
    obtain rfl := (literal_bytes_iff bytes ds).mp hbytes
    refine ⟨_, _, rfl, by decide, ?_⟩
    rw [List.append_assoc, List.singleton_append, parseToken_hash ds hexDigit?_h, if_neg (not_not.mpr rfl),
      if_neg (by omega)]

/-! ### The scan (41_codec.md R232) -/

/-- The text of a token list begins with no digit: an `a` in front of it ends there. -/
theorem flatten_texts_head {toks : List Token} {texts : List (List Byte)} (h : List.Forall₂ TokenText toks texts) :
    ∀ c ∈ texts.flatten.head?, decDigit? c = none := by
  cases h with
  | nil => exact nofun
  | cons htext =>
    obtain ⟨c, rest, rfl, hc, -⟩ := parseToken_of_text (r := []) htext nofun
    simpa using hc

theorem finalLast_cons_iff (t : Token) (ts : List Token) :
    FinalLast (t :: ts) ↔ (ts = [] ∨ t.Fixed) ∧ FinalLast ts := by
  cases ts with
  | nil => simp [FinalLast]
  | cons next rest => simp [FinalLast]

theorem afterLast_of_fixed {t : Token} (h : t.Fixed) : afterLast (some t) = none := by
  obtain ⟨hv, ha⟩ := h
  cases t with
  | v => exact absurd rfl hv
  | avar => exact absurd rfl ha
  | _ => rfl

theorem texts_of_parseTokens {fuel : Nat} {last : Option Token} {f : List Byte} {toks : List Token}
    (h : parseTokens fuel last f = .ok toks) : ∃ texts, List.Forall₂ TokenText toks texts ∧ f = texts.flatten := by
  fun_induction parseTokens fuel last f generalizing toks with
  | case1 => cases h; exact ⟨[], .nil, rfl⟩
  | case2 | case3 | case4 | case5 => cases h
  | case6 _ _ c rest _ t r htoken ts hts ih =>
    cases h
    obtain ⟨text, htext, hsplit⟩ := text_of_parseToken htoken
    obtain ⟨texts, htexts, rfl⟩ := ih hts
    exact ⟨text :: texts, .cons htext htexts, hsplit⟩

/-- Texts of tokens are read as those tokens where none stands behind a final one. -/
theorem parseTokens_of_texts {toks : List Token} {texts : List (List Byte)} (h : List.Forall₂ TokenText toks texts) :
    ∀ {fuel : Nat} {last : Option Token}, FinalLast toks → toks = [] ∨ afterLast last = none →
      texts.flatten.length ≤ fuel → parseTokens fuel last texts.flatten = .ok toks := by
  induction h with
  | nil => intro fuel last _ _ _; simp [parseTokens]
  | @cons t text ts texts htext htexts ih =>
    intro fuel last hfinal hlast hfuel
    obtain ⟨hfixed, hfinal⟩ := (finalLast_cons_iff t ts).mp hfinal
    obtain ⟨c, rest, rfl, -, htoken⟩ := parseToken_of_text htext (flatten_texts_head htexts)
    have hlast : afterLast last = none := hlast.resolve_left (List.cons_ne_nil t ts)
    obtain ⟨fuel, rfl⟩ : ∃ n, fuel = n + 1 := Nat.exists_eq_succ_of_ne_zero (by rintro rfl; simp at hfuel)
    have hscan := ih (fuel := fuel) hfinal (hfixed.imp_right afterLast_of_fixed) (by simp at hfuel ⊢; omega)
    rw [List.flatten_cons, List.cons_append, parseTokens]
    simp only [hlast, htoken, hscan]

/-- The parser's tests of length and size, and its scan (41_codec.md R232). -/
theorem parseString_eq_ok_iff (f : List Byte) (toks : List Token) :
    parseString f = .ok toks ↔ f.length ≤ 64 ∧ f ≠ [] ∧ parseTokens f.length none f = .ok toks ∧
      wFixed toks + (if .v ∈ toks then 6 else 0) ≤ 231 := by
  have hhasV (ts : List Token) : hasV ts = true ↔ .v ∈ ts := List.contains_iff_mem
  simp only [← hhasV]
  constructor
  · intro h
    obtain ⟨hlen, hpos, hscan, -, hsize⟩ := parseString_ok f toks h
    exact ⟨hlen, List.ne_nil_of_length_pos hpos, hscan, hsize⟩
  · rintro ⟨hlen, hne, hscan, hsize⟩
    rw [parseString, if_neg (show ¬f.length > Config.fmtBufSize from Nat.not_lt.mpr hlen),
      if_neg (mt List.length_eq_zero_iff.mp hne), hscan]
    exact if_neg (Nat.not_lt.mpr hsize)

/-- Settles O10: the scan takes a string apart into texts, and reads the texts of a token list back. -/
theorem formatLanguage : Obligations.FormatLanguage := by
  intro f toks
  rw [parseString_eq_ok_iff]
  constructor
  · rintro ⟨hlen, hne, hscan, hsize⟩
    obtain ⟨hfinal, -⟩ := parseTokens_last _ _ _ _ hscan
    obtain ⟨texts, htexts, rfl⟩ := texts_of_parseTokens hscan
    refine ⟨hlen, ?_, hfinal, hsize, texts, htexts, rfl⟩
    rintro rfl
    cases htexts
    exact hne rfl
  · rintro ⟨hlen, hne, hfinal, hsize, texts, htexts, rfl⟩
    have hscan := parseTokens_of_texts htexts (last := none) hfinal (.inr rfl) le_rfl
    refine ⟨hlen, fun hnil => ?_, hscan, hsize⟩
    rw [hnil] at hscan
    cases hscan
    exact hne rfl

end Sys2Proof.Machine
end

section
/-! The UID unit (40_uid.md R201-R206): the order of UIDs, the predicates, and the commands that write UID_RESULT. -/

namespace Sys2Proof.Machine

/-! ### The order of UIDs (R201) -/

/-- The manufacturers decide; the devices do where the manufacturers are equal. -/
theorem Uid.lt_iff_man_dev (a b : Uid) :
    a.lt b = true ↔ a.man.toNat < b.man.toNat ∨ (a.man = b.man ∧ a.dev.toNat < b.dev.toNat) := by
  simp [Uid.lt, BitVec.ult]

theorem Uid.le_iff_lt_or_eq (a b : Uid) : a.le b = true ↔ a.lt b = true ∨ a = b := by
  simp [Uid.le]

theorem Uid.not_lt_self (a : Uid) : ¬a.lt a = true := fun h => Nat.lt_irrefl a.u48 ((Uid.lt_iff a a).mp h)

theorem Uid.ne_of_lt {a b : Uid} (h : a.lt b = true) : a ≠ b := by
  rintro rfl
  exact Uid.not_lt_self a h

theorem Uid.not_lt_of_lt {a b : Uid} (h : a.lt b = true) : ¬b.lt a = true := fun h' =>
  Nat.lt_asymm ((Uid.lt_iff a b).mp h) ((Uid.lt_iff b a).mp h')

theorem Uid.lt_or_eq_or_gt (a b : Uid) : a.lt b = true ∨ a = b ∨ b.lt a = true := by
  obtain h | h | h := Nat.lt_trichotomy a.u48 b.u48
  · exact .inl ((Uid.lt_iff a b).mpr h)
  · exact .inr (.inl (Uid.u48_inj h))
  · exact .inr (.inr ((Uid.lt_iff b a).mpr h))

/-- Settles O7: the order is strict because that of the 48-bit numbers is, and total because they tell UIDs apart. -/
theorem uidOrderTotal : Obligations.UidOrderTotal := by
  intro a b
  refine ⟨Uid.lt_iff_man_dev a b, Uid.lt_iff a b, Uid.le_iff_lt_or_eq a b, ?_⟩
  obtain hlt | rfl | hgt := Uid.lt_or_eq_or_gt a b
  · exact .inl ⟨hlt, Uid.ne_of_lt hlt, Uid.not_lt_of_lt hlt⟩
  · exact .inr (.inl ⟨Uid.not_lt_self a, rfl, Uid.not_lt_self a⟩)
  · exact .inr (.inr ⟨Uid.not_lt_of_lt hgt, (Uid.ne_of_lt hgt).symm, hgt⟩)

/-! ### The predicates (R202, R204) -/

theorem Uid.eq_mk_iff (u : Uid) (m : Half) (d : Word) : u = ⟨m, d⟩ ↔ u.man = m ∧ u.dev = d := by
  cases u
  rw [Uid.mk.injEq]

theorem isBroadcastAll_iff (u : Uid) : isBroadcastAll u = true ↔ u = ⟨0xFFFF, 0xFFFFFFFF⟩ := by
  simp [isBroadcastAll, Uid.eq_mk_iff]

theorem isNull_iff (u : Uid) : isNull u = true ↔ u = ⟨0, 0⟩ := by
  simp [isNull, Uid.eq_mk_iff]

theorem isValidDevice_iff (u : Uid) : isValidDevice u = true ↔ u.u48 < 0xFFFFFFFFFFFE ∧ ¬Broadcast u := by
  rw [isValidDevice, Bool.and_eq_true, decide_eq_true_eq, Bool.not_eq_true', ← isBroadcast_iff, Bool.not_eq_true]

/-! ### The commands (R205, R206) -/

/-- Both commands end in a state that differs from `s` in STATUS and UID_RESULT alone. -/
theorem done_uidResult_frame (s : State) (r : UidFlags) :
    let t := done { s with uid := { s.uid with result := r } }
    EndsDone s t ∧ { t with status := s.status, uid := s.uid } = s ∧ KeepsBytes s t :=
  ⟨rfl, rfl, fun _ => rfl⟩

/-- Settles O8: the two comparisons are the order of the numbers. -/
theorem uidCompare : Obligations.UidCompare := by
  intro s
  obtain ⟨hdone, hframe, hbytes⟩ := done_uidResult_frame s (s.uid.result.compared s.uid.a s.uid.b)
  exact ⟨_, rfl, hdone, Uid.lt_iff s.uid.a s.uid.b, beq_iff_eq, Uid.lt_iff s.uid.b s.uid.a, rfl, hframe, hbytes⟩

/-- Settles O9: each flag is the model's predicate, which its `iff` ties to the one of the spec. -/
theorem uidClassify : Obligations.UidClassify := by
  intro s
  obtain ⟨hdone, hframe, hbytes⟩ := done_uidResult_frame s (s.uid.result.classified s.uid.self s.uid.a)
  exact ⟨_, rfl, hdone, isBroadcast_iff s.uid.a, isBroadcastAll_iff s.uid.a, isNull_iff s.uid.a,
    isValidDevice_iff s.uid.a, isTarget_iff s.uid.self s.uid.a, rfl, hframe, hbytes⟩

end Sys2Proof.Machine
end

section
/-! The parser (41_codec.md R232-R235): the first offending token decides the error, a token takes a byte at least, and
what the sizes of a parsed format are. -/

namespace Sys2Proof.Machine

/-! ### The first offending token (R232) -/

theorem decDigit?_eq_none_iff (c : Byte) : decDigit? c = none ↔ c.toNat < 0x30 ∨ 0x39 < c.toNat := by
  unfold decDigit?
  split
  next h => simp only [reduceCtorEq, false_iff]; omega
  next h => simp only [true_iff]; omega

theorem hexDigit?_eq_none {c : Byte} (h : ∀ d, c ≠ hexChar d) : hexDigit? c = none := by
  cases hc : hexDigit? c with
  | none => rfl
  | some v =>
    obtain ⟨d, hd⟩ := exists_hexChar hc
    exact absurd hd (h d)

theorem parseToken_unknown {c : Byte} (rest : List Byte)
    (hc : c ∉ ([0x62, 0x77, 0x64, 0x75, 0x76, 0x61, 0x23] : List Byte)) : parseToken c rest = .error .pUnknown := by
  have hcodes : c.toNat ∉ [0x62, 0x77, 0x64, 0x75, 0x76, 0x61, 0x23] := fun hmem =>
    hc (by simpa [← BitVec.toNat_inj] using hmem)
  unfold parseToken
  split
  case h_8 => rfl
  all_goals exact absurd (by rw [‹c.toNat = _›]; decide) hcodes

/-- The scan from `f` on reports `e`, whatever fixed token stands before. -/
def ScanReports (e : CmdError) (f : List Byte) : Prop :=
  ∀ (fuel : Nat) (last : Option Token), afterLast last = none → f.length ≤ fuel → parseTokens fuel last f = .error e

theorem scanReports_of_token {c : Byte} {rest : List Byte} {e : CmdError} (h : parseToken c rest = .error e) :
    ScanReports e (c :: rest) := by
  rintro (_ | fuel) last hlast hfuel
  · simp at hfuel
  · simp only [parseTokens, hlast, h]

/-- A string that goes on behind a bare `a` or a `v`. -/
theorem scanReports_of_behind {c d : Byte} {rest r : List Byte} {t : Token} {e : CmdError}
    (h : parseToken c rest = .ok (t, d :: r)) (he : afterLast (some t) = some e) (hrest : rest ≠ []) :
    ScanReports e (c :: rest) := by
  have hpos := List.length_pos_iff.mpr hrest
  rintro (_ | _ | fuel) last hlast hfuel
  · simp at hfuel
  · rw [List.length_cons] at hfuel
    omega
  · simp only [parseTokens, hlast, h, he]

/-- The scan comes through the texts of fixed tokens to the first offender. -/
theorem ScanReports.texts_append {toks : List Token} {texts : List (List Byte)} {c : Byte} {r : List Byte}
    {e : CmdError} (h : ScanReports e (c :: r)) (hc : decDigit? c = none) (hfixed : ∀ t ∈ toks, t.Fixed)
    (htexts : List.Forall₂ TokenText toks texts) : ScanReports e (texts.flatten ++ c :: r) := by
  induction htexts with
  | nil => exact h
  | @cons t text ts texts htext htexts ih =>
    rintro fuel last hlast hfuel
    have hhead : ∀ x ∈ (texts.flatten ++ c :: r).head?, decDigit? x = none := by
      have hx := flatten_texts_head htexts
      cases hflat : texts.flatten with
      | nil => simpa using hc
      | cons x xs => simpa [hflat] using hx
    obtain ⟨x, rest, rfl, -, htoken⟩ := parseToken_of_text htext hhead
    obtain ⟨fuel, rfl⟩ : ∃ n, fuel = n + 1 := Nat.exists_eq_succ_of_ne_zero (by rintro rfl; simp at hfuel)
    have hscan := ih (fun t ht => hfixed t (by simp [ht])) fuel (some t) (afterLast_of_fixed (hfixed t (by simp)))
      (by simp at hfuel ⊢; omega)
    rw [List.flatten_cons, List.append_assoc, List.cons_append, parseTokens]
    simp only [hlast, htoken, hscan]

/-- A string whose length is legal reports what its scan does. -/
theorem ScanReports.parseString {f : List Byte} {e : CmdError} (h : ScanReports e f) (hlen : f.length ≤ 64)
    (hne : f ≠ []) : parseString f = .error e := by
  rw [Machine.parseString, if_neg (show ¬f.length > Config.fmtBufSize from Nat.not_lt.mpr hlen),
    if_neg (mt List.length_eq_zero_iff.mp hne), h _ none rfl le_rfl]

theorem ScanReports.parseString_texts_append {toks : List Token} {texts : List (List Byte)} {c : Byte}
    {r : List Byte} {e : CmdError} (h : ScanReports e (c :: r)) (hc : decDigit? c = none)
    (hfixed : ∀ t ∈ toks, t.Fixed) (htexts : List.Forall₂ TokenText toks texts)
    (hlen : (texts.flatten ++ c :: r).length ≤ 64) : Machine.parseString (texts.flatten ++ c :: r) = .error e :=
  (h.texts_append hc hfixed htexts).parseString hlen (by simp)

theorem hasV_iff (toks : List Token) : hasV toks = true ↔ .v ∈ toks := List.contains_iff_mem

theorem parseString_tooBig {toks : List Token} {texts : List (List Byte)} (hne : toks ≠ []) (hfinal : FinalLast toks)
    (htexts : List.Forall₂ TokenText toks texts) (hlen : texts.flatten.length ≤ 64)
    (hsize : 231 < wFixed toks + (if .v ∈ toks then 6 else 0)) : parseString texts.flatten = .error .pTooBig := by
  have hscan := parseTokens_of_texts htexts (last := none) hfinal (.inr rfl) le_rfl
  have hnil : texts.flatten ≠ [] := by
    intro hnil
    rw [hnil] at hscan
    cases hscan
    exact hne rfl
  rw [parseString, if_neg (show ¬texts.flatten.length > Config.fmtBufSize from Nat.not_lt.mpr hlen),
    if_neg (mt List.length_eq_zero_iff.mp hnil), hscan]
  simp only [← hasV_iff] at hsize
  exact if_pos hsize

theorem parseToken_hash_unterminated (ds : List (Fin 16 × Bool)) {r : List Byte}
    (hr : ∀ c ∈ r.head?, c ≠ 0x68 ∧ ∀ d, c ≠ hexChar d) :
    parseToken 0x23 (hexText ds ++ r) = .error .pLitUnterm := by
  cases r with
  | nil => rw [List.append_nil]; exact parseToken_hash_end ds
  | cons c r =>
    obtain ⟨hh, hhex⟩ := hr c rfl
    exact (parseToken_hash ds (hexDigit?_eq_none hhex) r).trans (if_pos hh)

/-- Settles O11: the scan comes through the texts before the offender, and the offender's own token reports. -/
theorem parseReportsFirstOffender : Obligations.ParseReportsFirstOffender := by
  refine ⟨fun f hlen => if_pos hlen, rfl, fun toks texts => parseString_tooBig, fun toks texts hfixed htexts => ?_⟩
  refine ⟨?unknown, ?varA, ?v, ?textSize, ?unterminated, ?literalSize⟩
  case unknown =>
    intro c r hlen hdigit hletter
    exact (scanReports_of_token (parseToken_unknown r hletter)).parseString_texts_append
      ((decDigit?_eq_none_iff c).mpr hdigit) hfixed htexts hlen
  case varA =>
    intro c r hlen hdigit
    have htoken : parseToken 0x61 (c :: r) = .ok (.avar, c :: r) :=
      parseToken_a [] (r := c :: r) (by simpa using (decDigit?_eq_none_iff c).mpr hdigit)
    exact (scanReports_of_behind htoken rfl (by simp)).parseString_texts_append (by decide) hfixed htexts hlen
  case v =>
    intro c r hlen
    exact (scanReports_of_behind (rest := c :: r) (t := .v) rfl rfl (by simp)).parseString_texts_append (by decide)
      hfixed htexts hlen
  case textSize =>
    intro ds r hlen hds hr hsize
    have htoken : parseToken 0x61 (decText ds ++ r) = .error .pASize :=
      (parseToken_a ds fun c hc => (decDigit?_eq_none_iff c).mpr (hr c hc)).trans
        ((if_neg hds).trans (if_neg (by omega)))
    exact (scanReports_of_token htoken).parseString_texts_append (by decide) hfixed htexts hlen
  case unterminated =>
    intro ds r hlen hr
    exact (scanReports_of_token (parseToken_hash_unterminated ds hr)).parseString_texts_append (by decide) hfixed
      htexts hlen
  case literalSize =>
    intro ds r hlen hsize
    have htoken : parseToken 0x23 (hexText ds ++ 0x68 :: r) = .error .pLitSize :=
      (parseToken_hash ds hexDigit?_h r).trans ((if_neg (not_not.mpr rfl)).trans (if_pos hsize))
    exact (scanReports_of_token htoken).parseString_texts_append (by decide) hfixed htexts hlen

/-! ### The bound of the scan (assumption log, entry 14) -/

theorem tokenText_ne_nil {t : Token} {text : List Byte} (h : TokenText t text) : text ≠ [] := by
  obtain ⟨c, rest, rfl, -⟩ := parseToken_of_text (r := []) h nofun
  exact List.cons_ne_nil c rest

/-- A token takes a byte at least. -/
theorem length_of_parseToken {c : Byte} {rest r : List Byte} {t : Token} (h : parseToken c rest = .ok (t, r)) :
    r.length ≤ rest.length := by
  obtain ⟨text, htext, hsplit⟩ := text_of_parseToken h
  have hpos := List.length_pos_iff.mpr (tokenText_ne_nil htext)
  have hlen := congrArg List.length hsplit
  simp only [List.length_cons, List.length_append] at hlen
  omega

/-- Any bound of the string's length gives the same scan. -/
theorem parseTokens_fuel {fuel : Nat} {last : Option Token} {f : List Byte} (h : f.length ≤ fuel) (more : Nat) :
    parseTokens (fuel + more) last f = parseTokens fuel last f := by
  induction fuel generalizing last f with
  | zero => obtain rfl := List.length_eq_zero_iff.mp (Nat.le_zero.mp h); simp only [parseTokens]
  | succ fuel ih =>
    cases f with
    | nil => simp only [parseTokens]
    | cons c rest =>
      rw [Nat.add_right_comm, parseTokens, parseTokens]
      cases hlast : afterLast last with
      | some e => rfl
      | none =>
        cases htoken : parseToken c rest with
        | error e => rfl
        | ok tr =>
          obtain ⟨t, r⟩ := tr
          have hr : r.length ≤ fuel := (length_of_parseToken htoken).trans (Nat.le_of_succ_le_succ h)
          simp only [ih hr]

/-! ### The sizes of a parsed format (R231, R233) -/

theorem hasVarA_iff (toks : List Token) : hasVarA toks = true ↔ .avar ∈ toks := List.contains_iff_mem

theorem Token.isLit_iff (t : Token) : t.isLit = true ↔ ∃ bytes, t = .lit bytes := by
  cases t <;> simp [Token.isLit]

theorem litOnly_iff (toks : List Token) : litOnly toks = true ↔ ∀ t ∈ toks, ∃ bytes, t = .lit bytes := by
  simp only [litOnly, List.all_eq_true, Token.isLit_iff]

/-- Every token but bare `a` has wire bytes. -/
abbrev Token.Sized (t : Token) : Prop := t ≠ .avar → 1 ≤ t.wsize

theorem sized_of_text {t : Token} {text : List Byte} (h : TokenText t text) : t.Sized := by
  intro ha
  cases t with
  | avar => exact absurd rfl ha
  | b | w | d | u | v => decide
  | afix n => obtain ⟨ds, -, -, -, hn, -⟩ := h; exact hn
  | lit bytes =>
    obtain ⟨ds, hmin, -, -, hbytes, -⟩ := h
    show 1 ≤ bytes.length
    omega

theorem sized_of_texts {toks : List Token} {texts : List (List Byte)} (h : List.Forall₂ TokenText toks texts) :
    ∀ t ∈ toks, t.Sized := by
  induction h with
  | nil => exact nofun
  | cons htext _ ih => exact List.forall_mem_cons.mpr ⟨sized_of_text htext, ih⟩

theorem length_le_of_texts {toks : List Token} {texts : List (List Byte)} (h : List.Forall₂ TokenText toks texts) :
    toks.length ≤ texts.flatten.length := by
  induction h with
  | nil => exact le_rfl
  | cons htext _ ih =>
    have hpos := List.length_pos_iff.mpr (tokenText_ne_nil htext)
    simp only [List.length_cons, List.flatten_cons, List.length_append]
    omega

/-- What a successful parse says of the tokens (R231-R233). -/
structure Parsed (toks : List Token) : Prop where
  count : toks.length ≤ 64
  nonempty : toks ≠ []
  finalLast : FinalLast toks
  sized : ∀ t ∈ toks, t.Sized
  size : wFixed toks + (if .v ∈ toks then 6 else 0) ≤ 231

theorem parsed_of_parseString {f : List Byte} {toks : List Token} (h : parseString f = .ok toks) : Parsed toks := by
  obtain ⟨hlen, hne, hfinal, hsize, texts, htexts, rfl⟩ := (formatLanguage f toks).mp h
  exact ⟨(length_le_of_texts htexts).trans hlen, hne, hfinal, sized_of_texts htexts, hsize⟩

theorem parsed_of_parseFmt {s : State} {toks : List Token} (h : parseFmt s = .ok toks) : Parsed toks :=
  parsed_of_parseString h

theorem hsize_add_literal_eq_wsize (t : Token) : t.hsize + (if t.isLit then t.wsize else 0) = t.wsize := by
  cases t <;> simp [Token.hsize, Token.isLit, Token.wsize]

/-- H_FIXED and the literals make up W_FIXED with the `v`s (R233). -/
theorem hFixed_add_literals (toks : List Token) :
    hFixed toks + ((toks.filter Token.isLit).map Token.wsize).sum = wFixed toks + 6 * toks.count .v := by
  induction toks with
  | nil => rfl
  | cons t ts ih =>
    have hlit : (((t :: ts).filter Token.isLit).map Token.wsize).sum =
        (if t.isLit then t.wsize else 0) + ((ts.filter Token.isLit).map Token.wsize).sum := by
      rw [List.filter_cons]; split <;> simp
    have hv : (if t = .v then 0 else t.wsize) + 6 * (t :: ts).count .v = t.wsize + 6 * ts.count .v := by
      rw [List.count_cons]
      by_cases h : t = .v
      · subst h; simp [Token.wsize]; omega
      · simp [h]
    have ht := hsize_add_literal_eq_wsize t
    rw [hlit, hFixed_cons, wFixed_cons]
    omega

/-- A final-position list has one `v` at most. -/
theorem count_v_of_finalLast {toks : List Token} (h : FinalLast toks) :
    toks.count .v = if .v ∈ toks then 1 else 0 := by
  have hcount {pre : List Token} (hpre : ∀ t ∈ pre, t.Fixed) : pre.count .v = 0 :=
    List.count_eq_zero.mpr fun hv => (hpre _ hv).1 rfl
  obtain hfixed | ⟨pre, hpre, rfl | rfl⟩ := finalLast_cases toks h
  · rw [hcount hfixed, if_neg (List.count_eq_zero.mp (hcount hfixed))]
  · simp [hcount hpre]
  · simp [hcount hpre, List.count_eq_zero.mp (hcount hpre)]

theorem Parsed.hFixed_add_literals {toks : List Token} (h : Parsed toks) :
    hFixed toks + ((toks.filter Token.isLit).map Token.wsize).sum = wFixed toks + (if .v ∈ toks then 6 else 0) := by
  rw [Machine.hFixed_add_literals, count_v_of_finalLast h.finalLast, mul_ite, Nat.mul_zero]

theorem Parsed.wFixed_le {toks : List Token} (h : Parsed toks) : wFixed toks ≤ 231 :=
  (Nat.le_add_right _ _).trans h.size

theorem Parsed.hFixed_le {toks : List Token} (h : Parsed toks) : hFixed toks ≤ 231 :=
  calc hFixed toks ≤ wFixed toks + (if .v ∈ toks then 6 else 0) := h.hFixed_add_literals ▸ Nat.le_add_right _ _
    _ ≤ 231 := h.size

/-- The TOK_INFO image holds every count exactly: each fits its field. -/
theorem Parsed.tokImage {toks : List Token} (h : Parsed toks) :
    (tokImage toks).tokens.toNat = toks.length ∧ (tokImage toks).wFixed.toNat = wFixed toks ∧
      (tokImage toks).hFixed.toNat = hFixed toks := by
  have hcount := h.count
  have hw := h.wFixed_le
  have hh := h.hFixed_le
  simp only [Machine.tokImage, BitVec.toNat_ofNat]
  omega

/-- Settles O12: TOK_INFO gets the image of the parse, and nothing else changes. -/
theorem parseReportsShape : Obligations.ParseReportsShape := by
  constructor
  · intro s toks hparse
    have hparsed := parsed_of_parseFmt hparse
    have hexec : exec .pdParse s = .next (done (setTokInfo (tokImage toks) s)) := by
      show execPdParse s = _
      rw [execPdParse, hparse]
    obtain ⟨htokens, hwFixed, hhFixed⟩ := hparsed.tokImage
    exact ⟨_, hexec, rfl, htokens, hparsed.count, hwFixed, hparsed.wFixed_le, hasV_iff toks, hasVarA_iff toks,
      litOnly_iff toks, hhFixed, hparsed.hFixed_le, hparsed.hFixed_add_literals, rfl, rfl, fun _ => rfl⟩
  · intro s e hparse
    have hexec : exec .pdParse s = .next (raiseError e (setTokInfo TokInfo.zero s)) := by
      show execPdParse s = _
      rw [execPdParse, hparse]
    exact ⟨_, hexec, rfl, rfl, rfl, fun _ => rfl⟩

end Sys2Proof.Machine
end

section
/-! Records on both sides (41_codec.md R230, R241, R251, R260): what EncodeRecord and DecodeRecord make of each form of
format, and how the two sides of one record determine each other. -/

namespace Sys2Proof.Machine

/-! ### Null UIDs (R241) -/

/-- A UID slot reads as the null UID exactly when it is all zeros. -/
theorem uidOfLe_eq_nullUid_iff {bs : List Byte} (h : bs.length = 6) :
    uidOfLe bs = nullUid ↔ bs.all (· == 0) = true := by
  have hzeros : bs.all (· == 0) = true ↔ bs = List.replicate 6 0 := by
    rw [List.eq_replicate_iff]
    simp [h]
  rw [hzeros]
  constructor
  · intro hnull
    match bs, h with
    | [a, b, c, d, e, f], _ =>
      have hman : BitVec.ofNat 16 (leNat [a, b]) = 0 := congrArg Uid.man hnull
      have hdev : BitVec.ofNat 32 (leNat [c, d, e, f]) = 0 := congrArg Uid.dev hnull
      have bytes_zero : ∀ x ∈ [a, b, c, d, e, f], x = 0 := by
        simp only [← BitVec.toNat_inj, BitVec.ofNat_eq_ofNat, BitVec.toNat_ofNat, leNat] at hman hdev
        simp only [← BitVec.toNat_inj, BitVec.ofNat_eq_ofNat, BitVec.toNat_ofNat, List.mem_cons, List.not_mem_nil,
          or_false]
        omega
      exact List.eq_replicate_iff.mpr ⟨rfl, bytes_zero⟩
  · rintro rfl
    decide

/-- The wire bytes of an optional UID are those of a UID, absent when it is null. -/
theorem encodeToken_v (m : Memory) (len room j : Nat) :
    encodeToken m len room j .v = (wireOf [.v] (Memory.readBytes m (0x400 + j) 6), j + 6) := by
  have hu : uidBe (uidOfLe (Memory.readBytes m (0x400 + j) 6)) = wireOf [.u] (Memory.readBytes m (0x400 + j) 6) :=
    congrArg Prod.fst (encodeToken_fixed m len room j .u (by decide))
  have hnull := uidOfLe_eq_nullUid_iff (Memory.length_readBytes m (0x400 + j) 6)
  have htake : (Memory.readBytes m (0x400 + j) 6).take 6 = Memory.readBytes m (0x400 + j) 6 :=
    List.take_of_length_le (by simp)
  by_cases h : uidOfLe (Memory.readBytes m (0x400 + j) 6) = nullUid
  · simp only [encodeToken, wireOf, hostBase, htake, h, if_true, if_pos (hnull.mp h), List.append_nil]
  · simp only [encodeToken, wireOf, hostBase, htake, if_neg h, if_neg (mt hnull.mpr h), hu, List.append_nil]

/-! ### Formats with every optional UID on the wire -/

/-- The format whose records carry on the wire each UID that those of `toks` may leave out. -/
def present (toks : List Token) : List Token := toks.map fun t => if t = .v then .u else t

theorem present_of_fixed {toks : List Token} (h : ∀ t ∈ toks, t.Fixed) : present toks = toks :=
  (List.map_congr_left fun t ht => if_neg (h t ht).1).trans (List.map_id toks)

theorem present_append_v {pre : List Token} (h : ∀ t ∈ pre, t.Fixed) : present (pre ++ [.v]) = pre ++ [.u] := by
  rw [present, List.map_append, ← present, present_of_fixed h]; rfl

/-- A final-position list without bare `a` is a list of fixed tokens, or such a list with a `v` behind it. -/
theorem finalLast_noText_cases {toks : List Token} (h : FinalLast toks) (ha : .avar ∉ toks) :
    (∀ t ∈ toks, t.Fixed) ∨ ∃ pre, (∀ t ∈ pre, t.Fixed) ∧ toks = pre ++ [.v] := by
  obtain hfixed | ⟨pre, hpre, rfl | rfl⟩ := finalLast_cases toks h
  · exact .inl hfixed
  · exact .inr ⟨pre, hpre, rfl⟩
  · simp at ha

/-- A bare `a` in a final-position list stands behind fixed tokens alone. -/
theorem exists_text_of_mem {toks : List Token} (h : FinalLast toks) (ha : .avar ∈ toks) :
    ∃ pre, (∀ t ∈ pre, t.Fixed) ∧ toks = pre ++ [.avar] := by
  obtain hfixed | ⟨pre, hpre, rfl | rfl⟩ := finalLast_cases toks h
  · exact absurd rfl (hfixed _ ha).2
  · obtain hmem | hmem := List.mem_append.mp ha
    · exact absurd rfl (hpre _ hmem).2
    · simp at hmem
  · exact ⟨pre, hpre, rfl⟩

theorem fixed_present {toks : List Token} (ha : .avar ∉ toks) : ∀ t ∈ present toks, t.Fixed := by
  intro t ht
  obtain ⟨x, hx, rfl⟩ := List.mem_map.mp ht
  by_cases hv : x = .v
  · rw [if_pos hv]; decide
  · rw [if_neg hv]; exact ⟨hv, fun h => ha (h ▸ hx)⟩

theorem hFixed_present (toks : List Token) : hFixed (present toks) = hFixed toks := by
  induction toks with
  | nil => rfl
  | cons t ts ih =>
    rw [present, List.map_cons, ← present, hFixed_cons, hFixed_cons, ih]
    by_cases hv : t = .v
    · subst hv; rfl
    · rw [if_neg hv]

theorem wFixed_present {toks : List Token} (h : FinalLast toks) :
    wFixed (present toks) = wFixed toks + (if .v ∈ toks then 6 else 0) := by
  have hcount : wFixed (present toks) = wFixed toks + 6 * toks.count .v := by
    clear h
    induction toks with
    | nil => rfl
    | cons t ts ih =>
      rw [present, List.map_cons, ← present, wFixed_cons, wFixed_cons, ih, List.count_cons]
      by_cases hv : t = .v
      · subst hv; simp [Token.wsize]; omega
      · by_cases hu : t = .u <;> simp [hv, hu] <;> omega
  rw [hcount, count_v_of_finalLast h, mul_ite, Nat.mul_zero]

/-! ### Records of an appended format -/

theorem wireOf_append {pre : List Token} (h : ∀ t ∈ pre, t.Fixed) (rest : List Token) (r : List Byte) :
    wireOf (pre ++ rest) r = wireOf pre (r.take (hFixed pre)) ++ wireOf rest (r.drop (hFixed pre)) := by
  induction pre generalizing r with
  | nil => rfl
  | cons t ts ih =>
    obtain ⟨ht, hts⟩ := List.forall_mem_cons.mp h
    rw [List.cons_append, wireOf_cons t _ r ht, ih hts, wireOf_cons t ts _ ht, hFixed_cons, List.take_take,
      Nat.min_eq_left (Nat.le_add_right _ _), List.drop_take, Nat.add_sub_cancel_left, List.drop_drop,
      List.append_assoc]

theorem hostOf_append {pre : List Token} (h : ∀ t ∈ pre, t.Fixed) (rest : List Token) (w : List Byte) :
    hostOf (pre ++ rest) w = hostOf pre (w.take (wFixed pre)) ++ hostOf rest (w.drop (wFixed pre)) := by
  induction pre generalizing w with
  | nil => rfl
  | cons t ts ih =>
    obtain ⟨ht, hts⟩ := List.forall_mem_cons.mp h
    rw [List.cons_append, hostOf_cons t _ w ht, ih hts, hostOf_cons t ts _ ht, wFixed_cons, if_neg ht.1, List.take_take,
      Nat.min_eq_left (Nat.le_add_right _ _), List.drop_take, Nat.add_sub_cancel_left, List.drop_drop,
      List.append_assoc]

/-! ### EncodeRecord and DecodeRecord of each form (R241, R251) -/

/-- A record without bare `a` encodes to its wire bytes, whatever the room. -/
theorem encodeRecord_noText {toks : List Token} (h : FinalLast toks) (ha : .avar ∉ toks) (m : Memory)
    (len out j : Nat) : encodeRecord m len out toks [] j =
      (wireOf toks (Memory.readBytes m (0x400 + j) (hFixed toks)), j + hFixed toks) := by
  obtain hfixed | ⟨pre, hpre, rfl⟩ := finalLast_noText_cases h ha
  · have hrec := encodeRecord_fixed m len out toks hfixed [] [] j
    rwa [List.append_nil, List.nil_append] at hrec
  · have hsize : hFixed (pre ++ [.v]) = hFixed pre + 6 := hFixed_append pre [.v]
    rw [encodeRecord_fixed m len out pre hpre, List.nil_append, wireOf_append hpre, hsize, Memory.readBytes_append,
      List.take_left' (by simp), List.drop_left' (by simp)]
    simp only [encodeRecord, encodeToken_v, Nat.add_assoc]

/-- A record with a final bare `a` encodes the rest of its input, up to the first zero and the room. -/
theorem encodeRecord_text {pre : List Token} (h : ∀ t ∈ pre, t.Fixed) (m : Memory) (len out j : Nat) :
    encodeRecord m len out (pre ++ [.avar]) [] j =
      (wireOf pre (Memory.readBytes m (0x400 + j) (hFixed pre)) ++
        (Memory.readBytes m (0x400 + j + hFixed pre)
          (min (len - (j + hFixed pre)) (231 - out - wFixed pre))).takeWhile (· != 0), len) := by
  have hwire := length_wireOf pre h (Memory.readBytes m (0x400 + j) (hFixed pre)) (by simp)
  rw [encodeRecord_fixed m len out pre h, List.nil_append]
  simp only [encodeRecord, encodeToken, hwire, textPrefix_eq, hostBase, Nat.add_assoc, Config.maxPdl]

/-- A record without bare `a` decodes to its host bytes when the wire holds it whole. -/
theorem decodeRecord_whole {toks : List Token} (h : FinalLast toks) (ha : .avar ∉ toks) (m : Memory)
    {len room p : Nat} (hsize : wFixed (present toks) ≤ len - p) : decodeRecord m len room toks [] p false =
      (hostOf (present toks) (Memory.readBytes m (0x218 + p) (wFixed (present toks))), p + wFixed (present toks),
        false) := by
  obtain hfixed | ⟨pre, hpre, rfl⟩ := finalLast_noText_cases h ha
  · have hrec := decodeRecord_fixed m len room toks hfixed [] [] p false
    rw [present_of_fixed hfixed]
    rwa [List.append_nil, List.nil_append] at hrec
  · have hwhole : wFixed (pre ++ [.u]) = wFixed pre + 6 := wFixed_append pre [.u]
    have hu := decodeToken_fixed m len (room - hFixed pre) (p + wFixed pre) .u (by decide)
    rw [present_append_v hpre, hwhole] at hsize ⊢
    have huid : decodeToken m len (room - hFixed pre) (p + wFixed pre) .v =
        decodeToken m len (room - hFixed pre) (p + wFixed pre) .u := if_pos (by omega)
    have hhost := length_hostOf pre hpre (Memory.readBytes m (0x218 + p) (wFixed pre)) (by simp)
    rw [decodeRecord_fixed m len room pre hpre, List.nil_append, hostOf_append hpre, Memory.readBytes_append,
      List.take_left' (by simp), List.drop_left' (by simp)]
    simp only [decodeRecord, hhost, huid, hu, Token.wsize, Bool.or_self, Nat.add_assoc]

/-- A record whose optional UID is beyond the end of the wire decodes to a null UID and ends. -/
theorem decodeRecord_noUid {pre : List Token} (h : ∀ t ∈ pre, t.Fixed) (m : Memory) {len room p : Nat}
    (hshort : len - p < wFixed pre + 6) : decodeRecord m len room (pre ++ [.v]) [] p false =
      (hostOf pre (Memory.readBytes m (0x218 + p) (wFixed pre)) ++ List.replicate 6 0, p + wFixed pre, true) := by
  have huid (r : Nat) : decodeToken m len r (p + wFixed pre) .v = (List.replicate 6 0, p + wFixed pre, true) :=
    if_neg (by omega)
  rw [decodeRecord_fixed m len room pre h, List.nil_append]
  simp only [decodeRecord, huid, Bool.or_true]

/-- A record with a final bare `a` decodes the rest of the wire, up to the room, and ends. -/
theorem decodeRecord_text {pre : List Token} (h : ∀ t ∈ pre, t.Fixed) (m : Memory) (len room p : Nat) :
    ∃ pos, decodeRecord m len room (pre ++ [.avar]) [] p false =
      (hostOf pre (Memory.readBytes m (0x218 + p) (wFixed pre)) ++
        Memory.readBytes m (0x218 + p + wFixed pre) (min (len - (p + wFixed pre)) (room - hFixed pre - 1)) ++ [0],
        pos, true) := by
  have hhost := length_hostOf pre h (Memory.readBytes m (0x218 + p) (wFixed pre)) (by simp)
  rw [decodeRecord_fixed m len room pre h, List.nil_append]
  simp only [decodeRecord, decodeToken, hhost, pdBase, Nat.add_assoc, Bool.or_true, List.append_assoc]
  exact ⟨_, rfl⟩

/-! ### Legal records (R260) -/

theorem legalRecord_cons_iff {t : Token} (ht : t.Fixed) (ts : List Token) (r : List Byte) :
    LegalRecord (t :: ts) r ↔
      t.hsize ≤ r.length ∧ LegalRecord [t] (r.take t.hsize) ∧ LegalRecord ts (r.drop t.hsize) := by
  cases t with
  | v => exact absurd rfl ht.1
  | avar => exact absurd rfl ht.2
  | b | w | d | u => simp [LegalRecord, Token.hsize]
  | afix n => simp [LegalRecord, Token.hsize, List.take_take]; tauto
  | lit bytes => simp [LegalRecord, Token.hsize]

theorem legalRecord_append_iff {pre : List Token} (h : ∀ t ∈ pre, t.Fixed) (rest : List Token) (r : List Byte) :
    LegalRecord (pre ++ rest) r ↔ hFixed pre ≤ r.length ∧ LegalRecord pre (r.take (hFixed pre)) ∧
      LegalRecord rest (r.drop (hFixed pre)) := by
  induction pre generalizing r with
  | nil => simp [LegalRecord]
  | cons t ts ih =>
    obtain ⟨ht, hts⟩ := List.forall_mem_cons.mp h
    rw [List.cons_append, legalRecord_cons_iff ht, ih hts, hFixed_cons, legalRecord_cons_iff ht ts, List.take_take,
      Nat.min_eq_left (Nat.le_add_right _ _), List.drop_take, Nat.add_sub_cancel_left, List.drop_drop]
    simp only [List.length_drop, List.length_take]
    constructor
    · rintro ⟨h1, h2, h3, h4, h5⟩; exact ⟨by omega, ⟨by omega, h2, h4⟩, h5⟩
    · rintro ⟨h1, ⟨h2, h3, h4⟩, h5⟩; exact ⟨by omega, h3, by omega, h4, h5⟩

/-- A legal record whose UIDs are all present is legal, and has the same wire bytes, when they may be absent. -/
theorem LegalRecord.present {toks : List Token} (ha : .avar ∉ toks) {r : List Byte} (h : LegalRecord toks r) :
    LegalRecord (present toks) r ∧ wireOf (Machine.present toks) r = wireOf toks r := by
  induction toks generalizing r with
  | nil => exact ⟨h, rfl⟩
  | cons t ts ih =>
    have htail : .avar ∉ ts := fun hmem => ha (List.mem_cons_of_mem t hmem)
    by_cases hv : t = .v
    · subst hv
      obtain ⟨hlen, hnull, hrest⟩ := h
      obtain ⟨hlegal, hwire⟩ := ih htail hrest
      refine ⟨⟨hlen, hlegal⟩, ?_⟩
      rw [show Machine.present (.v :: ts) = .u :: Machine.present ts from rfl]
      simp only [wireOf, if_neg hnull, hwire]
    · have ht : t.Fixed := ⟨hv, fun h => ha (h ▸ List.mem_cons_self)⟩
      obtain ⟨hlen, hslot, hrest⟩ := (legalRecord_cons_iff ht ts r).mp h
      obtain ⟨hlegal, hwire⟩ := ih htail hrest
      rw [Machine.present, List.map_cons, if_neg hv, ← Machine.present, wireOf_cons t _ r ht, wireOf_cons t ts r ht,
        hwire]
      exact ⟨(legalRecord_cons_iff ht _ r).mpr ⟨hlen, hslot, hlegal⟩, rfl⟩

theorem length_of_legalRecord {toks : List Token} (h : ∀ t ∈ toks, t.Fixed) {r : List Byte}
    (hr : LegalRecord toks r) : r.length = hFixed toks := by
  have happend := (legalRecord_append_iff h [] r).mp (by rwa [List.append_nil])
  obtain ⟨hlen, -, hrest⟩ := happend
  have hdrop : (r.drop (hFixed toks)).length = 0 := List.length_eq_zero_iff.mpr hrest
  rw [List.length_drop] at hdrop
  omega

/-- A text slot of text, then zeros, is its text with zeros behind it. -/
theorem text_append_zeros {s : List Byte} (h : (s.dropWhile (· != 0)).all (· == 0) = true) :
    s.takeWhile (· != 0) ++ List.replicate (s.length - (s.takeWhile (· != 0)).length) 0 = s := by
  have hsplit : s.takeWhile (· != 0) ++ s.dropWhile (· != 0) = s := List.takeWhile_append_dropWhile
  have hlen := congrArg List.length hsplit
  rw [List.length_append] at hlen
  have hzeros : s.dropWhile (· != 0) = List.replicate (s.length - (s.takeWhile (· != 0)).length) 0 :=
    List.eq_replicate_iff.mpr ⟨by omega, by simpa using h⟩
  rw [← hzeros, hsplit]

theorem hostOf_wireOf_token {t : Token} (ht : t.Fixed) {r : List Byte} (hlen : r.length = t.hsize)
    (hr : LegalRecord [t] r) : hostOf [t] (wireOf [t] r) = r := by
  cases t with
  | v => exact absurd rfl ht.1
  | avar => exact absurd rfl ht.2
  | b => match r, hlen with | [_], _ => rfl
  | w => match r, hlen with | [_, _], _ => rfl
  | d => match r, hlen with | [_, _, _, _], _ => rfl
  | u => match r, hlen with | [_, _, _, _, _, _], _ => rfl
  | lit bytes => simpa [hostOf, Token.hsize] using (List.length_eq_zero_iff.mp hlen).symm
  | afix n =>
    obtain rfl : r.length = n := hlen
    obtain ⟨-, htext, -⟩ := hr
    rw [List.take_length] at htext
    have hzeros := text_append_zeros htext
    simp only [hostOf, wireOf, List.take_length, List.append_nil, hzeros]

/-- A legal record of fixed fields comes back from its wire bytes. -/
theorem hostOf_wireOf {toks : List Token} (h : ∀ t ∈ toks, t.Fixed) {r : List Byte} (hr : LegalRecord toks r) :
    hostOf toks (wireOf toks r) = r := by
  induction toks generalizing r with
  | nil => exact Eq.symm hr
  | cons t ts ih =>
    obtain ⟨ht, hts⟩ := List.forall_mem_cons.mp h
    obtain ⟨hlen, hslot, hrest⟩ := (legalRecord_cons_iff ht ts r).mp hr
    have hhost : (r.take t.hsize).length = t.hsize := List.length_take_of_le hlen
    have hwire : (wireOf [t] (r.take t.hsize)).length = t.wsize := by
      have hone := length_wireOf [t] (by simpa using ht) (r.take t.hsize) (by simp [hFixed_cons, hhost])
      simpa [wFixed_cons, ht.1] using hone
    rw [hostOf_cons t ts _ ht, wireOf_cons t ts r ht, List.take_left' hwire, List.drop_left' hwire,
      hostOf_wireOf_token ht hhost hslot, ih hts hrest, List.take_append_drop]

end Sys2Proof.Machine
end

section
/-! The record loops (41_codec.md R234, R240, R242, R250, R252): each is a run of passes that ends before its bound, and
what a run has made is pieces, one a record. -/

namespace Sys2Proof.Machine

/-! ### Pieces of equal size -/

/-- The pieces `f 0`, …, `f (n - 1)`, back to back. -/
def pieces (f : Nat → List Byte) (n : Nat) : List Byte := (List.range n).flatMap f

@[simp] theorem pieces_zero (f : Nat → List Byte) : pieces f 0 = [] := rfl

theorem pieces_succ (f : Nat → List Byte) (n : Nat) : pieces f (n + 1) = pieces f n ++ f n := by
  simp [pieces, List.range_succ]

theorem pieces_congr {f g : Nat → List Byte} {n : Nat} (h : ∀ i, i < n → f i = g i) : pieces f n = pieces g n :=
  List.flatMap_congr fun i hi => h i (List.mem_range.mp hi)

theorem length_pieces {f : Nat → List Byte} {size n : Nat} (h : ∀ i, i < n → (f i).length = size) :
    (pieces f n).length = n * size := by
  induction n with
  | zero => simp
  | succ n ih =>
    rw [pieces_succ, List.length_append, ih fun i hi => h i (by omega), h n (Nat.lt_succ_self n), Nat.succ_mul]

theorem length_pieces_mono (f : Nat → List Byte) {k n : Nat} (h : k ≤ n) :
    (pieces f k).length ≤ (pieces f n).length := by
  induction h with
  | refl => exact le_rfl
  | step _ ih => rw [pieces_succ, List.length_append]; omega

/-- Where memory reads as pieces of equal size, each piece stands at its multiple. -/
theorem readBytes_piece {m : Memory} {a size n : Nat} {f : Nat → List Byte}
    (h : Memory.readBytes m a (n * size) = pieces f n) (hsize : ∀ i, i < n → (f i).length = size) {i : Nat}
    (hi : i < n) : Memory.readBytes m (a + i * size) size = f i := by
  induction n with
  | zero => omega
  | succ n ih =>
    have hlen := length_pieces fun i hi => hsize i (Nat.lt_succ_of_lt hi)
    rw [Nat.succ_mul, Memory.readBytes_append, pieces_succ] at h
    obtain ⟨hinit, hlast⟩ := List.append_inj h (by rw [Memory.length_readBytes, hlen])
    obtain hlt | rfl := Nat.lt_succ_iff_lt_or_eq.mp hi
    · exact ih hinit (fun i hi => hsize i (Nat.lt_succ_of_lt hi)) hlt
    · exact hlast

theorem flatMap_take_eq_pieces (g : List Byte → List Byte) (recs : List (List Byte)) {n : Nat}
    (h : n ≤ recs.length) : (recs.take n).flatMap g = pieces (fun i => g (recs.getD i [])) n := by
  induction n with
  | zero => rfl
  | succ n ih =>
    have hget : recs.getD n [] = recs[n] := List.getD_eq_getElem recs [] h
    rw [pieces_succ, List.take_succ_eq_append_getElem h, List.flatMap_append, ih (Nat.le_of_lt h), hget,
      List.flatMap_singleton]

theorem flatMap_eq_pieces (g : List Byte → List Byte) (recs : List (List Byte)) :
    recs.flatMap g = pieces (fun i => g (recs.getD i [])) recs.length := by
  rw [← flatMap_take_eq_pieces g recs le_rfl, List.take_length]

theorem flatten_eq_pieces (recs : List (List Byte)) : recs.flatten = pieces (fun i => recs.getD i []) recs.length := by
  exact List.flatMap_id.symm.trans (flatMap_eq_pieces id recs)

/-- Records of equal size that memory holds back to back stand at the multiples of their size. -/
theorem readBytes_record {m : Memory} {a size : Nat} {recs : List (List Byte)} (hsize : ∀ r ∈ recs, r.length = size)
    (h : Memory.readBytes m a recs.flatten.length = recs.flatten) {i : Nat} (hi : i < recs.length) :
    Memory.readBytes m (a + i * size) size = recs.getD i [] := by
  have hget (i : Nat) (hi : i < recs.length) : (recs.getD i []).length = size :=
    hsize _ (List.getD_eq_getElem recs [] hi ▸ List.getElem_mem hi)
  have hlen := length_pieces hget
  rw [flatten_eq_pieces recs, hlen] at h
  exact readBytes_piece h hget hi

/-! ### Runs of passes -/

/-- From `p` the passes that `next` makes end in `q`, after `n` of them: no further pass may run, or the last one ended
the loop. -/
inductive Runs (next : Pass → Option (Pass × Bool)) : Nat → Pass → Pass → Prop
  | halt {p : Pass} (h : next p = none) : Runs next 0 p p
  | last {p q : Pass} (h : next p = some (q, true)) : Runs next 1 p q
  | more {n : Nat} {p p' q : Pass} (h : next p = some (p', false)) (rest : Runs next n p' q) : Runs next (n + 1) p q

/-- A loop over the passes of `next` ends where a run of them does, whatever its bound. -/
theorem Runs.loop_eq {next : Pass → Option (Pass × Bool)} {loop : Nat → Pass → Pass} (hzero : ∀ p, loop 0 p = p)
    (hsucc : ∀ fuel p, loop (fuel + 1) p = (next p).elim p fun r => if r.2 then r.1 else loop fuel r.1)
    {n : Nat} {p q : Pass} (h : Runs next n p q) {fuel : Nat} (hn : n ≤ fuel) : loop fuel p = q := by
  induction h generalizing fuel with
  | halt h =>
    cases fuel with
    | zero => exact hzero _
    | succ fuel => rw [hsucc, h]; rfl
  | last h =>
    obtain ⟨fuel, rfl⟩ := Nat.exists_eq_add_of_le' hn
    rw [hsucc, h]; rfl
  | more h _ ih =>
    obtain ⟨fuel, rfl⟩ := Nat.exists_eq_succ_of_ne_zero (Nat.ne_of_gt (Nat.lt_of_lt_of_le (Nat.succ_pos _) hn))
    rw [hsucc, h]
    exact ih (Nat.le_of_succ_le_succ hn)

/-- Where every pass counts one record, a run counts its passes. -/
theorem Runs.recs_eq {next : Pass → Option (Pass × Bool)}
    (hrecs : ∀ {p p' : Pass} {last : Bool}, next p = some (p', last) → p'.recs = p.recs + 1) {n : Nat} {p q : Pass}
    (h : Runs next n p q) : q.recs = p.recs + n := by
  induction h with
  | halt => rfl
  | last h => exact hrecs h
  | more h _ ih => rw [ih, hrecs h, Nat.add_right_comm, Nat.add_assoc]

/-- A run has one length and one end. -/
theorem Runs.unique {next : Pass → Option (Pass × Bool)} {n k : Nat} {p q q' : Pass} (h : Runs next n p q)
    (h' : Runs next k p q') : n = k ∧ q = q' := by
  induction h generalizing k with
  | halt h =>
    cases h' with
    | halt => exact ⟨rfl, rfl⟩
    | last h' | more h' => rw [h] at h'; cases h'
  | last h =>
    cases h' with
    | last h' => rw [h] at h'; cases h'; exact ⟨rfl, rfl⟩
    | halt h' | more h' => rw [h] at h'; cases h'
  | more h _ ih =>
    cases h' with
    | halt h' | last h' => rw [h] at h'; cases h'
    | more h' rest' =>
      rw [h] at h'
      cases h'
      obtain ⟨rfl, rfl⟩ := ih rest'
      exact ⟨rfl, rfl⟩

/-- A run goes through the passes that lead to where it starts. -/
theorem Runs.of_passes {next : Pass → Option (Pass × Bool)} {passAt : Nat → Pass} {n k : Nat} {q : Pass}
    (hpasses : ∀ i, i < n → next (passAt i) = some (passAt (i + 1), false)) (h : Runs next k (passAt n) q) :
    Runs next (n + k) (passAt 0) q := by
  induction n generalizing k with
  | zero => rwa [Nat.zero_add]
  | succ n ih =>
    have hmore := Runs.more (hpasses n (Nat.lt_succ_self n)) h
    rw [Nat.add_right_comm, Nat.add_assoc]
    exact ih (fun i hi => hpasses i (Nat.lt_succ_of_lt hi)) hmore

/-- Before the first pass. -/
def Pass.start : Pass := ⟨[], 0, 0⟩

/-! ### The passes of PD_ENCODE (R240, R242) -/

/-- The next pass of PD_ENCODE, where one may run and its record fits, and whether it is the last. -/
def encodePass (m : Memory) (toks : List Token) (len : Nat) (p : Pass) : Option (Pass × Bool) :=
  if encodeMayRun toks len p = true ∧
      p.bytes.length + (encodeRecord m len p.bytes.length toks [] p.pos).1.length ≤ 231 then
    some (⟨p.bytes ++ (encodeRecord m len p.bytes.length toks [] p.pos).1,
      (encodeRecord m len p.bytes.length toks [] p.pos).2, p.recs + 1⟩, hasVarA toks)
  else none

theorem encodeLoop_succ (m : Memory) (toks : List Token) (len fuel : Nat) (p : Pass) :
    encodeLoop m toks len (fuel + 1) p =
      (encodePass m toks len p).elim p fun r => if r.2 then r.1 else encodeLoop m toks len fuel r.1 := by
  rw [encodeLoop, encodePass]
  by_cases hrun : encodeMayRun toks len p = true
  · by_cases hfits : p.bytes.length + (encodeRecord m len p.bytes.length toks [] p.pos).1.length ≤ 231
    · rw [if_pos hrun, if_pos ⟨hrun, hfits⟩]
      exact if_neg (Nat.not_lt.mpr hfits)
    · rw [if_pos hrun, if_neg fun h => hfits h.2]
      exact if_pos (Nat.lt_of_not_le hfits)
  · rw [if_neg hrun, if_neg fun h => hrun h.1]
    rfl

theorem encodeLoop_of_runs {m : Memory} {toks : List Token} {len n fuel : Nat} {p q : Pass}
    (h : Runs (encodePass m toks len) n p q) (hn : n ≤ fuel) : encodeLoop m toks len fuel p = q :=
  h.loop_eq (fun _ => rfl) (encodeLoop_succ m toks len) hn

theorem encodePass_recs {m : Memory} {toks : List Token} {len : Nat} {p p' : Pass} {last : Bool}
    (h : encodePass m toks len p = some (p', last)) : p'.recs = p.recs + 1 := by
  unfold encodePass at h
  split at h
  · cases h; rfl
  · cases h

theorem encodePass_eq_none {m : Memory} {toks : List Token} {len : Nat} {p : Pass}
    (h : ¬encodeMayRun toks len p = true) : encodePass m toks len p = none :=
  if_neg fun hrun => h hrun.1

theorem encodeMayRun_litOnly {toks : List Token} (h : litOnly toks = true) (len : Nat) (p : Pass) :
    encodeMayRun toks len p = true ↔ p.recs = 0 := by
  rw [encodeMayRun, if_pos h, beq_iff_eq]

theorem encodeMayRun_iff {toks : List Token} (h : litOnly toks = false) (len : Nat) (p : Pass) :
    encodeMayRun toks len p = true ↔ p.pos < len ∧ hFixed toks ≤ len - p.pos := by
  simp only [encodeMayRun, h, Bool.false_eq_true, if_false, Bool.and_eq_true, decide_eq_true_eq]

/-- The pass of PD_ENCODE over a record without bare `a`. -/
theorem encodePass_noText {toks : List Token} (hfinal : FinalLast toks) (ha : .avar ∉ toks) (m : Memory) (len : Nat)
    (p : Pass) : encodePass m toks len p =
      if encodeMayRun toks len p = true ∧
          (p.bytes ++ wireOf toks (Memory.readBytes m (0x400 + p.pos) (hFixed toks))).length ≤ 231 then
        some (⟨p.bytes ++ wireOf toks (Memory.readBytes m (0x400 + p.pos) (hFixed toks)), p.pos + hFixed toks,
          p.recs + 1⟩, false)
      else none := by
  have hvar : hasVarA toks = false := Bool.eq_false_iff.mpr (mt (hasVarA_iff toks).mp ha)
  simp only [encodePass, encodeRecord_noText hfinal ha, hvar, List.length_append]

/-- What PD_ENCODE has made of the first `n` records of HOST, for a format without bare `a`. -/
def encoded (m : Memory) (toks : List Token) (n : Nat) : Pass :=
  ⟨pieces (fun i => wireOf toks (Memory.readBytes m (0x400 + i * hFixed toks) (hFixed toks))) n, n * hFixed toks, n⟩

theorem encoded_zero (m : Memory) (toks : List Token) : encoded m toks 0 = Pass.start := by
  rw [encoded, Nat.zero_mul]; rfl

/-- A pass of PD_ENCODE takes one record more, while the input holds one and its wire bytes fit. -/
theorem encodePass_encoded {toks : List Token} (hfinal : FinalLast toks) (ha : .avar ∉ toks)
    (hlit : litOnly toks = false) (hpos : 0 < hFixed toks) (m : Memory) (len n : Nat) :
    encodePass m toks len (encoded m toks n) =
      if n < len / hFixed toks ∧ (encoded m toks (n + 1)).bytes.length ≤ 231 then
        some (encoded m toks (n + 1), false)
      else none := by
  have hrun : encodeMayRun toks len (encoded m toks n) = true ↔ n < len / hFixed toks := by
    have hp : (encoded m toks n).pos = n * hFixed toks := rfl
    rw [encodeMayRun_iff hlit, hp, ← Nat.add_one_le_iff (m := len / hFixed toks), Nat.le_div_iff_mul_le hpos,
      Nat.succ_mul]
    omega
  rw [encodePass_noText hfinal ha]
  refine if_congr (and_congr hrun ?_) ?_ rfl <;> simp only [encoded, pieces_succ, Nat.succ_mul]

/-- A property of 0 holds up to `k` of a number behind which it fails, or of `k`. -/
theorem exists_last {P : Nat → Prop} [DecidablePred P] (h0 : P 0) (k : Nat) :
    ∃ n, n ≤ k ∧ P n ∧ (n < k → ¬P (n + 1)) :=
  ⟨Nat.findGreatest P k, Nat.findGreatest_le k, Nat.findGreatest_spec (Nat.zero_le k) h0,
    Nat.findGreatest_is_greatest (Nat.lt_succ_self _)⟩

/-- PD_ENCODE of a format without bare `a` takes the records of HOST until one does not fit. -/
theorem runs_encode {toks : List Token} (hfinal : FinalLast toks) (ha : .avar ∉ toks) (hlit : litOnly toks = false)
    (hpos : 0 < hFixed toks) (m : Memory) (len : Nat) :
    ∃ n, n ≤ len / hFixed toks ∧ (encoded m toks n).bytes.length ≤ 231 ∧
      (n < len / hFixed toks → 231 < (encoded m toks (n + 1)).bytes.length) ∧
      Runs (encodePass m toks len) n Pass.start (encoded m toks n) := by
  obtain ⟨n, hn, hfits, hmax⟩ := exists_last (P := fun n => (encoded m toks n).bytes.length ≤ 231)
    (Nat.zero_le _) (len / hFixed toks)
  refine ⟨n, hn, hfits, fun h => Nat.lt_of_not_le (hmax h), ?_⟩
  have hhalt : encodePass m toks len (encoded m toks n) = none := by
    rw [encodePass_encoded hfinal ha hlit hpos]
    exact if_neg fun h => hmax h.1 h.2
  have hrun := Runs.of_passes (passAt := encoded m toks) (n := n) (fun i hi => by
    rw [encodePass_encoded hfinal ha hlit hpos]
    exact if_pos ⟨by omega, (length_pieces_mono _ (Nat.succ_le_of_lt hi)).trans hfits⟩) (.halt hhalt)
  rwa [encoded_zero] at hrun

theorem fixed_of_litOnly {toks : List Token} (h : litOnly toks = true) : ∀ t ∈ toks, t.Fixed := by
  intro t ht
  obtain ⟨bytes, rfl⟩ := (litOnly_iff toks).mp h t ht
  exact ⟨nofun, nofun⟩

/-- PD_ENCODE of a literal-only format makes one record of any input. -/
theorem runs_encode_litOnly {toks : List Token} (hparsed : Parsed toks) (hlit : litOnly toks = true) (m : Memory)
    (len : Nat) : Runs (encodePass m toks len) 1 Pass.start ⟨wireOf toks [], 0, 1⟩ := by
  have hfixed := fixed_of_litOnly hlit
  have hsize := hFixed_of_litOnly toks hlit
  have hwire : (wireOf toks []).length ≤ 231 := by
    rw [length_wireOf toks hfixed [] (by rw [hsize]; exact Nat.zero_le _)]
    exact hparsed.wFixed_le
  have hpass : encodePass m toks len Pass.start = some (⟨wireOf toks [], 0, 1⟩, false) := by
    rw [encodePass_noText hparsed.finalLast fun ha => (hfixed _ ha).2 rfl, hsize]
    exact if_pos ⟨(encodeMayRun_litOnly hlit len _).mpr rfl, hwire⟩
  exact .more hpass (.halt (encodePass_eq_none
    (mt (encodeMayRun_litOnly hlit len _).mp Nat.one_ne_zero)))

theorem litOnly_append_text (pre : List Token) : litOnly (pre ++ [.avar]) = false := by
  simp [litOnly, Token.isLit]

theorem hFixed_append_text (pre : List Token) : hFixed (pre ++ [.avar]) = hFixed pre := hFixed_append pre [.avar]

theorem wFixed_append_text (pre : List Token) : wFixed (pre ++ [.avar]) = wFixed pre := wFixed_append pre [.avar]

theorem take_readBytes (m : Memory) (a n k : Nat) : (Memory.readBytes m a n).take k = Memory.readBytes m a (min k n) := by
  obtain h | h := Nat.le_total k n
  · obtain ⟨d, rfl⟩ := Nat.exists_eq_add_of_le h
    rw [Memory.readBytes_append, List.take_left' (Memory.length_readBytes _ _ _), Nat.min_eq_left h]
  · rw [List.take_of_length_le (by rwa [Memory.length_readBytes]), Nat.min_eq_right h]

/-- The wire bytes of a record with a final bare `a` behind `pre`, from `len` host bytes. -/
def textWire (m : Memory) (pre : List Token) (len : Nat) : List Byte :=
  wireOf pre (Memory.readBytes m 0x400 (hFixed pre)) ++
    ((Memory.readBytes m (0x400 + hFixed pre) (len - hFixed pre)).takeWhile (· != 0)).take (231 - wFixed pre)

/-- PD_ENCODE of a format with a final bare `a` makes one record of all its input. -/
theorem runs_encode_text {pre : List Token} (hparsed : Parsed (pre ++ [.avar])) (hfixed : ∀ t ∈ pre, t.Fixed)
    (m : Memory) {len : Nat} (hpos : 0 < len) (hlen : hFixed pre ≤ len) :
    Runs (encodePass m (pre ++ [.avar]) len) 1 Pass.start ⟨textWire m pre len, len, 1⟩ := by
  have hrec : encodeRecord m len 0 (pre ++ [.avar]) [] 0 = (textWire m pre len, len) := by
    rw [encodeRecord_text hfixed, textWire, List.take_takeWhile, take_readBytes, Nat.min_comm, Nat.zero_add]
  have hwire : (textWire m pre len).length ≤ 231 := by
    have hpre := length_wireOf pre hfixed (Memory.readBytes m 0x400 (hFixed pre)) (by simp)
    have hsize := hparsed.wFixed_le
    rw [wFixed_append_text] at hsize
    rw [textWire, List.length_append, hpre, List.length_take]
    omega
  have hrun : encodeMayRun (pre ++ [.avar]) len Pass.start = true := by
    rw [encodeMayRun_iff (litOnly_append_text pre), hFixed_append_text]
    exact ⟨hpos, hlen⟩
  have hvar : hasVarA (pre ++ [.avar]) = true := (hasVarA_iff _).mpr (by simp)
  refine .last ?_
  have hbytes : Pass.start.bytes.length = 0 := rfl
  have hstart : Pass.start.pos = 0 := rfl
  simp only [encodePass, hbytes, hstart, hrec, hvar, hrun, Nat.zero_add, hwire, and_self, if_true]
  rfl

/-- PD_ENCODE makes no record of too little input. -/
theorem runs_encode_none {toks : List Token} (hlit : litOnly toks = false) (m : Memory) {len : Nat}
    (h : len = 0 ∨ len < hFixed toks) : Runs (encodePass m toks len) 0 Pass.start Pass.start := by
  refine .halt (encodePass_eq_none fun hrun => ?_)
  obtain ⟨hpos, hsize⟩ := (encodeMayRun_iff hlit len _).mp hrun
  replace hpos : 0 < len := hpos
  replace hsize : hFixed toks ≤ len - 0 := hsize
  omega

/-! ### The passes of PD_DECODE (R250, R252) -/

/-- The next pass of PD_DECODE, where one may run, and whether it ends decoding. -/
def decodePass (m : Memory) (toks : List Token) (len cap : Nat) (p : Pass) : Option (Pass × Bool) :=
  if decodeMayRun toks len cap p = true then
    some (⟨p.bytes ++ (decodeRecord m len (cap - p.bytes.length) toks [] p.pos false).1,
      (decodeRecord m len (cap - p.bytes.length) toks [] p.pos false).2.1, p.recs + 1⟩,
      (decodeRecord m len (cap - p.bytes.length) toks [] p.pos false).2.2)
  else none

theorem decodeLoop_succ (m : Memory) (toks : List Token) (len cap fuel : Nat) (p : Pass) :
    decodeLoop m toks len cap (fuel + 1) p =
      (decodePass m toks len cap p).elim p fun r => if r.2 then r.1 else decodeLoop m toks len cap fuel r.1 := by
  rw [decodeLoop, decodePass]
  by_cases hrun : decodeMayRun toks len cap p = true
  · rw [if_pos hrun, if_pos hrun]; rfl
  · rw [if_neg hrun, if_neg hrun]; rfl

theorem decodeLoop_of_runs {m : Memory} {toks : List Token} {len cap n fuel : Nat} {p q : Pass}
    (h : Runs (decodePass m toks len cap) n p q) (hn : n ≤ fuel) : decodeLoop m toks len cap fuel p = q :=
  h.loop_eq (fun _ => rfl) (decodeLoop_succ m toks len cap) hn

theorem decodePass_recs {m : Memory} {toks : List Token} {len cap : Nat} {p p' : Pass} {last : Bool}
    (h : decodePass m toks len cap p = some (p', last)) : p'.recs = p.recs + 1 := by
  unfold decodePass at h
  split at h
  · cases h; rfl
  · cases h

theorem decodeMayRun_iff (toks : List Token) (len cap : Nat) (p : Pass) :
    decodeMayRun toks len cap p = true ↔
      (if litOnly toks then p.recs = 0 else p.pos < len) ∧ wFixed toks ≤ len - p.pos ∧
        hFixed toks + (if hasVarA toks then 1 else 0) ≤ cap - p.bytes.length := by
  cases h : litOnly toks <;> simp [decodeMayRun, h, and_assoc]

theorem decodeMayRun_noText {toks : List Token} (ha : .avar ∉ toks) (hlit : litOnly toks = false) (len cap : Nat)
    (p : Pass) : decodeMayRun toks len cap p = true ↔
      p.pos < len ∧ wFixed toks ≤ len - p.pos ∧ hFixed toks ≤ cap - p.bytes.length := by
  have hvar : hasVarA toks = false := Bool.eq_false_iff.mpr (mt (hasVarA_iff toks).mp ha)
  simp only [decodeMayRun_iff, hlit, hvar, Bool.false_eq_true, if_false, Nat.add_zero]

/-- What PD_DECODE has made of the first `n` records of PD, for a format without bare `a` whose UIDs are present. -/
def decoded (m : Memory) (toks : List Token) (n : Nat) : Pass :=
  ⟨pieces (fun i => hostOf (present toks)
    (Memory.readBytes m (0x218 + i * wFixed (present toks)) (wFixed (present toks)))) n,
    n * wFixed (present toks), n⟩

theorem decoded_zero (m : Memory) (toks : List Token) : decoded m toks 0 = Pass.start := by
  rw [decoded, Nat.zero_mul]; rfl

theorem length_decoded {toks : List Token} (ha : .avar ∉ toks) (m : Memory) (n : Nat) :
    (decoded m toks n).bytes.length = n * hFixed toks :=
  length_pieces fun _ _ => (length_hostOf _ (fixed_present ha) _ (by simp)).trans (hFixed_present toks)

/-- PD_DECODE takes the records that PD and its room hold whole, and goes on from there. -/
theorem runs_decode_whole {toks : List Token} (hfinal : FinalLast toks) (ha : .avar ∉ toks)
    (hlit : litOnly toks = false) (hpos : 0 < wFixed (present toks)) {m : Memory} {len cap n k : Nat} {q : Pass}
    (hwire : n * wFixed (present toks) ≤ len) (hroom : n * hFixed toks ≤ cap)
    (h : Runs (decodePass m toks len cap) k (decoded m toks n) q) :
    Runs (decodePass m toks len cap) (n + k) Pass.start q := by
  rw [← decoded_zero m toks]
  refine Runs.of_passes (fun i hi => ?_) h
  have hwire' : (i + 1) * wFixed (present toks) ≤ len := (Nat.mul_le_mul_right _ hi).trans hwire
  have hroom' : (i + 1) * hFixed toks ≤ cap := (Nat.mul_le_mul_right _ hi).trans hroom
  have hsize : wFixed toks ≤ wFixed (present toks) := wFixed_present hfinal ▸ Nat.le_add_right _ _
  rw [Nat.succ_mul] at hwire' hroom'
  have hp : (decoded m toks i).pos = i * wFixed (present toks) := rfl
  have hrun : decodeMayRun toks len cap (decoded m toks i) = true := by
    rw [decodeMayRun_noText ha hlit, length_decoded ha, hp]
    omega
  have hrec := decodeRecord_whole hfinal ha m (len := len) (room := cap - (decoded m toks i).bytes.length)
    (p := (decoded m toks i).pos) (by rw [hp]; omega)
  rw [decodePass, if_pos hrun, hrec]
  simp only [decoded, pieces_succ, Nat.succ_mul]

theorem decodePass_eq_none {m : Memory} {toks : List Token} {len cap : Nat} {p : Pass}
    (h : ¬decodeMayRun toks len cap p = true) : decodePass m toks len cap p = none := if_neg h

/-- PD_DECODE of a format without `v` and bare `a` takes the records that PD and its room hold. -/
theorem runs_decode_fixed {toks : List Token} (hfixed : ∀ t ∈ toks, t.Fixed) (hlit : litOnly toks = false)
    (hw : 0 < wFixed toks) (hh : 0 < hFixed toks) (m : Memory) (len cap : Nat) :
    Runs (decodePass m toks len cap) (min (len / wFixed toks) (cap / hFixed toks)) Pass.start
      (decoded m toks (min (len / wFixed toks) (cap / hFixed toks))) := by
  have hfinal : FinalLast toks := fun t ht => hfixed t (List.mem_of_mem_dropLast ht)
  have ha : .avar ∉ toks := fun ha => (hfixed _ ha).2 rfl
  have hpresent := present_of_fixed hfixed
  generalize hn : min (len / wFixed toks) (cap / hFixed toks) = n
  have hwire : n * wFixed toks ≤ len := (Nat.le_div_iff_mul_le hw).mp (by omega)
  have hroom : n * hFixed toks ≤ cap := (Nat.le_div_iff_mul_le hh).mp (by omega)
  refine runs_decode_whole hfinal ha hlit (by rwa [hpresent]) (by rwa [hpresent]) hroom
    (.halt (decodePass_eq_none ?_))
  have hend : ¬((n + 1) * wFixed toks ≤ len ∧ (n + 1) * hFixed toks ≤ cap) := by
    rw [← Nat.le_div_iff_mul_le hw, ← Nat.le_div_iff_mul_le hh]
    omega
  have hp : (decoded m toks n).pos = n * wFixed toks := by rw [decoded, hpresent]
  rw [Nat.succ_mul, Nat.succ_mul] at hend
  rw [decodeMayRun_noText ha hlit, length_decoded ha, hp]
  omega

/-- The host bytes of the record that the wire ends in before its optional UID. -/
def noUidHost (m : Memory) (pre : List Token) (n : Nat) : List Byte :=
  hostOf pre (Memory.readBytes m (0x218 + n * (wFixed pre + 6)) (wFixed pre)) ++ List.replicate 6 0

section
variable {pre : List Token} (hfixed : ∀ t ∈ pre, t.Fixed)
include hfixed

theorem finalLast_append_v : FinalLast (pre ++ [.v]) := fun t ht => hfixed t (by simpa using ht)

theorem noText_append_v : .avar ∉ pre ++ [.v] := by
  simpa using fun ha => (hfixed _ ha).2 rfl

omit hfixed in
theorem litOnly_append_v : litOnly (pre ++ [.v]) = false := by simp [litOnly, Token.isLit]

omit hfixed in
theorem hFixed_append_v : hFixed (pre ++ [.v]) = hFixed pre + 6 := hFixed_append pre [.v]

omit hfixed in
theorem wFixed_append_v : wFixed (pre ++ [.v]) = wFixed pre := wFixed_append pre [.v]

theorem wFixed_present_append_v : wFixed (present (pre ++ [.v])) = wFixed pre + 6 := by
  rw [present_append_v hfixed]; exact wFixed_append pre [.u]

theorem length_decoded_uid (m : Memory) (n : Nat) :
    (decoded m (pre ++ [.v]) n).bytes.length = n * (hFixed pre + 6) := by
  rw [length_decoded (noText_append_v hfixed), hFixed_append_v]

theorem decoded_uid_pos (m : Memory) (n : Nat) : (decoded m (pre ++ [.v]) n).pos = n * (wFixed pre + 6) := by
  rw [decoded, wFixed_present_append_v hfixed]

theorem decodeMayRun_uid (m : Memory) (len cap n : Nat) :
    decodeMayRun (pre ++ [.v]) len cap (decoded m (pre ++ [.v]) n) = true ↔
      n * (wFixed pre + 6) < len ∧ wFixed pre ≤ len - n * (wFixed pre + 6) ∧ n < cap / (hFixed pre + 6) := by
  rw [decodeMayRun_noText (noText_append_v hfixed) litOnly_append_v, length_decoded_uid hfixed,
    decoded_uid_pos hfixed, wFixed_append_v, hFixed_append_v, ← Nat.add_one_le_iff (m := cap / (hFixed pre + 6)),
    Nat.le_div_iff_mul_le (by omega), Nat.succ_mul]
  omega

theorem runs_decode_uid_whole {m : Memory} {len cap n k : Nat} {q : Pass} (hwire : n ≤ len / (wFixed pre + 6))
    (hroom : n ≤ cap / (hFixed pre + 6))
    (h : Runs (decodePass m (pre ++ [.v]) len cap) k (decoded m (pre ++ [.v]) n) q) :
    Runs (decodePass m (pre ++ [.v]) len cap) (n + k) Pass.start q := by
  rw [Nat.le_div_iff_mul_le (by omega)] at hwire hroom
  refine runs_decode_whole (finalLast_append_v hfixed) (noText_append_v hfixed) litOnly_append_v ?_ ?_ ?_ h
  · rw [wFixed_present_append_v hfixed]; omega
  · rwa [wFixed_present_append_v hfixed]
  · rwa [hFixed_append_v]

/-- PD_DECODE of a format with a final `v` takes the records that PD and its room hold whole; then, if PD goes on with
the fixed part of one more and the room holds it, that one with a null UID. -/
theorem runs_decode_noUid (m : Memory) {len cap whole rest : Nat} (hlen : len = whole * (wFixed pre + 6) + rest)
    (hshort : rest < wFixed pre + 6) (hpos : 0 < rest) (hrest : wFixed pre ≤ rest)
    (hroom : whole < cap / (hFixed pre + 6)) :
    ∃ pos, Runs (decodePass m (pre ++ [.v]) len cap) (whole + 1) Pass.start
      ⟨(decoded m (pre ++ [.v]) whole).bytes ++ noUidHost m pre whole, pos, whole + 1⟩ := by
  have hrun : decodeMayRun (pre ++ [.v]) len cap (decoded m (pre ++ [.v]) whole) = true := by
    rw [decodeMayRun_uid hfixed]
    omega
  have hwire : whole ≤ len / (wFixed pre + 6) := by
    rw [Nat.le_div_iff_mul_le (by omega)]
    omega
  refine ⟨whole * (wFixed pre + 6) + wFixed pre, runs_decode_uid_whole hfixed hwire (by omega) (.last ?_)⟩
  rw [decodePass, if_pos hrun, decodeRecord_noUid hfixed m (by rw [decoded_uid_pos hfixed]; omega),
    decoded_uid_pos hfixed]
  rfl

/-- PD_DECODE of a format with a final `v` ends behind the whole records where PD or the room does. -/
theorem runs_decode_uid (m : Memory) {len cap whole rest : Nat} (hlen : len = whole * (wFixed pre + 6) + rest)
    (hend : cap / (hFixed pre + 6) ≤ whole ∨ rest = 0 ∨ rest < wFixed pre) :
    Runs (decodePass m (pre ++ [.v]) len cap) (min whole (cap / (hFixed pre + 6))) Pass.start
      (decoded m (pre ++ [.v]) (min whole (cap / (hFixed pre + 6)))) := by
  have hwire : whole ≤ len / (wFixed pre + 6) := by
    rw [Nat.le_div_iff_mul_le (by omega)]
    omega
  generalize hn : min whole (cap / (hFixed pre + 6)) = n
  refine runs_decode_uid_whole hfixed (by omega) (by omega) (.halt (decodePass_eq_none fun hrun => ?_))
  obtain ⟨hpos, hpart, hroom⟩ := (decodeMayRun_uid hfixed m len cap n).mp hrun
  obtain rfl : n = whole := by omega
  omega

end

/-- PD_DECODE of a literal-only format takes one record of a wire that is long enough. -/
theorem runs_decode_litOnly {toks : List Token} (hlit : litOnly toks = true) (m : Memory) {len : Nat}
    (hlen : wFixed toks ≤ len) (cap : Nat) :
    Runs (decodePass m toks len cap) 1 Pass.start ⟨[], wFixed toks, 1⟩ := by
  have hfixed := fixed_of_litOnly hlit
  have ha : .avar ∉ toks := fun ha => (hfixed _ ha).2 rfl
  have hvar : hasVarA toks = false := Bool.eq_false_iff.mpr (mt (hasVarA_iff toks).mp ha)
  have hsize := hFixed_of_litOnly toks hlit
  have hrun (p : Pass) : decodeMayRun toks len cap p = true ↔ p.recs = 0 ∧ wFixed toks ≤ len - p.pos := by
    simp [decodeMayRun_iff, hlit, hvar, hsize]
  have hhost := List.length_eq_zero_iff.mp
    ((length_hostOf toks hfixed (Memory.readBytes m 0x218 (wFixed toks)) (by simp)).trans hsize)
  have hrec : decodeRecord m len cap toks [] 0 false = ([], wFixed toks, false) := by
    have hrec := decodeRecord_fixed m len cap toks hfixed [] [] 0 false
    rwa [List.append_nil, List.nil_append, Nat.add_zero, hhost, Nat.zero_add] at hrec
  have hpass : decodePass m toks len cap Pass.start = some (⟨[], wFixed toks, 1⟩, false) := by
    rw [decodePass, if_pos ((hrun Pass.start).mpr ⟨rfl, hlen⟩)]
    simp only [Pass.start, List.length_nil, Nat.sub_zero, hrec, List.append_nil, Nat.zero_add]
  exact .more hpass (.halt (decodePass_eq_none fun h => Nat.one_ne_zero ((hrun _).mp h).1))

/-- The host bytes of a record with a final bare `a` behind `pre`, from `len` wire bytes with room for `cap`. -/
def textHost (m : Memory) (pre : List Token) (len cap : Nat) : List Byte :=
  hostOf pre (Memory.readBytes m 0x218 (wFixed pre)) ++
    Memory.readBytes m (0x218 + wFixed pre) (min (len - wFixed pre) (cap - hFixed pre - 1)) ++ [0]

/-- PD_DECODE of a format with a final bare `a` makes one record of the wire. -/
theorem runs_decode_text {pre : List Token} (hfixed : ∀ t ∈ pre, t.Fixed) (m : Memory) {len cap : Nat}
    (hpos : 0 < len) (hlen : wFixed pre ≤ len) (hroom : hFixed pre + 1 ≤ cap) :
    ∃ pos, Runs (decodePass m (pre ++ [.avar]) len cap) 1 Pass.start ⟨textHost m pre len cap, pos, 1⟩ := by
  have hvar : hasVarA (pre ++ [.avar]) = true := (hasVarA_iff _).mpr (by simp)
  have hrun : decodeMayRun (pre ++ [.avar]) len cap Pass.start = true := by
    rw [decodeMayRun_iff, litOnly_append_text, hvar, wFixed_append_text, hFixed_append_text]
    exact ⟨hpos, hlen, hroom⟩
  obtain ⟨pos, hrec⟩ := decodeRecord_text hfixed m len cap 0
  refine ⟨pos, .last ?_⟩
  rw [decodePass, if_pos hrun]
  simp only [Pass.start, List.length_nil, Nat.sub_zero, hrec, List.nil_append, Nat.zero_add, Nat.add_zero, textHost]

/-- PD_DECODE makes no record of too short a wire or too little room. -/
theorem runs_decode_none {toks : List Token} (m : Memory) {len cap : Nat}
    (h : litOnly toks = false ∧ len = 0 ∨ len < wFixed toks ∨ cap < hFixed toks + (if hasVarA toks then 1 else 0)) :
    Runs (decodePass m toks len cap) 0 Pass.start Pass.start := by
  refine .halt (decodePass_eq_none fun hrun => ?_)
  obtain ⟨hpos, hwire, hroom⟩ := (decodeMayRun_iff toks len cap _).mp hrun
  replace hwire : wFixed toks ≤ len := hwire
  replace hroom : hFixed toks + (if hasVarA toks then 1 else 0) ≤ cap := hroom
  obtain ⟨hlit, hend⟩ | hshort | hfull := h
  · rw [hlit, if_neg Bool.false_ne_true, hend] at hpos
    exact absurd hpos (Nat.not_lt_zero _)
  · omega
  · omega

theorem runs_decode_text_none {pre : List Token} (m : Memory) {len cap : Nat}
    (h : len = 0 ∨ len < wFixed pre ∨ cap < hFixed pre + 1) :
    Runs (decodePass m (pre ++ [.avar]) len cap) 0 Pass.start Pass.start := by
  have hvar : hasVarA (pre ++ [.avar]) = true := (hasVarA_iff _).mpr (by simp)
  apply runs_decode_none m
  rw [hvar, if_pos rfl, wFixed_append_text, hFixed_append_text]
  exact h.imp_left fun hlen => ⟨litOnly_append_text pre, hlen⟩

/-! ### The bounds of the loops (R234) -/

theorem hsize_le_hFixed {t : Token} {toks : List Token} (h : t ∈ toks) : t.hsize ≤ hFixed toks := by
  obtain ⟨before, behind, rfl⟩ := List.append_of_mem h
  rw [hFixed_append, hFixed_cons]
  omega

/-- A record with a field that is no literal and no bare `a` has host bytes. -/
theorem Parsed.hFixed_pos {toks : List Token} (h : Parsed toks) (ha : .avar ∉ toks) (hlit : litOnly toks = false) :
    0 < hFixed toks := by
  obtain ⟨t, ht, hfield⟩ : ∃ t ∈ toks, ¬t.isLit = true := by
    simpa [litOnly] using hlit
  have hsized := h.sized t ht fun hmem => ha (hmem ▸ ht)
  have hslot := hsize_add_literal_eq_wsize t
  rw [if_neg hfield] at hslot
  have := hsize_le_hFixed ht
  omega

/-- A record without bare `a` whose UID is present has wire bytes. -/
theorem Parsed.wFixed_present_pos {toks : List Token} (h : Parsed toks) (ha : .avar ∉ toks) :
    0 < wFixed (Machine.present toks) := by
  rw [wFixed_present h.finalLast]
  obtain ⟨t, ts, rfl⟩ := List.exists_cons_of_ne_nil h.nonempty
  have hsized := h.sized t List.mem_cons_self fun hmem => ha (hmem ▸ List.mem_cons_self)
  rw [wFixed_cons]
  by_cases hv : t = .v
  · rw [if_pos (show .v ∈ t :: ts from hv ▸ List.mem_cons_self)]; omega
  · rw [if_neg hv]; omega

theorem Parsed.wFixed_pos {toks : List Token} (h : Parsed toks) (hfixed : ∀ t ∈ toks, t.Fixed) : 0 < wFixed toks := by
  have hpos := h.wFixed_present_pos fun ha => (hfixed _ ha).2 rfl
  rwa [present_of_fixed hfixed] at hpos

theorem length_encoded {toks : List Token} (hfixed : ∀ t ∈ toks, t.Fixed) (m : Memory) (n : Nat) :
    (encoded m toks n).bytes.length = n * wFixed toks :=
  length_pieces fun _ _ => length_wireOf toks hfixed _ (by simp)

/-- PD_ENCODE ends after at most 231 passes. -/
theorem exists_runs_encode {toks : List Token} (h : Parsed toks) (m : Memory) {len : Nat} (hlen : len ≤ 512) :
    ∃ n q, n ≤ 231 ∧ Runs (encodePass m toks len) n Pass.start q := by
  cases hlit : litOnly toks with
  | true => exact ⟨1, _, by decide, runs_encode_litOnly h hlit m len⟩
  | false =>
    obtain hfixed | ⟨pre, hfixed, rfl | rfl⟩ := finalLast_cases toks h.finalLast
    · have ha : .avar ∉ toks := fun ha => (hfixed _ ha).2 rfl
      obtain ⟨n, -, hfits, -, hruns⟩ := runs_encode h.finalLast ha hlit (h.hFixed_pos ha hlit) m len
      rw [length_encoded hfixed] at hfits
      exact ⟨n, _, (Nat.le_mul_of_pos_right n (h.wFixed_pos hfixed)).trans hfits, hruns⟩
    · have ha := noText_append_v hfixed
      obtain ⟨n, hn, -, -, hruns⟩ := runs_encode h.finalLast ha hlit (h.hFixed_pos ha hlit) m len
      rw [hFixed_append_v, Nat.le_div_iff_mul_le (by omega)] at hn
      have hsix : n * 6 ≤ n * (hFixed pre + 6) := Nat.mul_le_mul_left n (by omega)
      exact ⟨n, _, by omega, hruns⟩
    · by_cases hrun : 0 < len ∧ hFixed pre ≤ len
      · exact ⟨1, _, by decide, runs_encode_text h hfixed m hrun.1 hrun.2⟩
      · exact ⟨0, _, by decide, runs_encode_none hlit m (by rw [hFixed_append_text]; omega)⟩

/-- PD_DECODE ends after at most 231 passes. -/
theorem exists_runs_decode {toks : List Token} (h : Parsed toks) (m : Memory) {len : Nat} (hlen : len ≤ 231)
    (cap : Nat) : ∃ n q, n ≤ 231 ∧ Runs (decodePass m toks len cap) n Pass.start q := by
  cases hlit : litOnly toks with
  | true =>
    by_cases hwire : wFixed toks ≤ len
    · exact ⟨1, _, by decide, runs_decode_litOnly hlit m hwire cap⟩
    · exact ⟨0, _, by decide, runs_decode_none m (.inr (.inl (Nat.lt_of_not_le hwire)))⟩
  | false =>
    obtain hfixed | ⟨pre, hfixed, rfl | rfl⟩ := finalLast_cases toks h.finalLast
    · have ha : .avar ∉ toks := fun ha => (hfixed _ ha).2 rfl
      have hn := Nat.div_le_self len (wFixed toks)
      exact ⟨_, _, by omega, runs_decode_fixed hfixed hlit (h.wFixed_pos hfixed) (h.hFixed_pos ha hlit) m len cap⟩
    · have hdiv : len = len / (wFixed pre + 6) * (wFixed pre + 6) + len % (wFixed pre + 6) :=
        (Nat.div_add_mod' len _).symm
      have hmod := Nat.mod_lt len (show 0 < wFixed pre + 6 by omega)
      have hsix : len / (wFixed pre + 6) * 6 ≤ len / (wFixed pre + 6) * (wFixed pre + 6) :=
        Nat.mul_le_mul_left _ (by omega)
      by_cases hmore : len / (wFixed pre + 6) < cap / (hFixed pre + 6) ∧ 0 < len % (wFixed pre + 6) ∧
          wFixed pre ≤ len % (wFixed pre + 6)
      · obtain ⟨hroom, hpos, hrest⟩ := hmore
        obtain ⟨pos, hruns⟩ := runs_decode_noUid hfixed m hdiv hmod hpos hrest hroom
        exact ⟨_, _, by omega, hruns⟩
      · exact ⟨_, _, by omega, runs_decode_uid hfixed m hdiv (by omega)⟩
    · by_cases hrun : 0 < len ∧ wFixed pre ≤ len ∧ hFixed pre + 1 ≤ cap
      · obtain ⟨hpos, hwire, hroom⟩ := hrun
        obtain ⟨pos, hruns⟩ := runs_decode_text hfixed m hpos hwire hroom
        exact ⟨1, _, by decide, hruns⟩
      · have hshort : len = 0 ∨ len < wFixed pre ∨ cap < hFixed pre + 1 := by omega
        exact ⟨0, _, by decide, runs_decode_text_none m hshort⟩

/-- Settles O16: a scan takes a byte a token, and each loop is a run of at most 231 passes, one record each. -/
theorem passesBounded : Obligations.PassesBounded := by
  refine ⟨fun f more => parseTokens_fuel le_rfl more, fun f toks m len cap more hparse => ⟨fun hlen => ?_, ?_⟩⟩
  · obtain ⟨n, q, hn, hruns⟩ := exists_runs_encode (parsed_of_parseString hparse) m hlen
    have hloop {fuel : Nat} (hfuel : 231 ≤ fuel) : encodeLoop m toks len fuel ⟨[], 0, 0⟩ = q :=
      encodeLoop_of_runs hruns (hn.trans hfuel)
    rw [hloop (fuel := passFuel) (by decide), hloop (Nat.le_add_right_of_le (by decide)),
      hruns.recs_eq encodePass_recs]
    exact ⟨rfl, (Nat.zero_add n).trans_le hn⟩
  · intro hlen _
    obtain ⟨n, q, hn, hruns⟩ := exists_runs_decode (parsed_of_parseString hparse) m hlen cap
    have hloop {fuel : Nat} (hfuel : 231 ≤ fuel) : decodeLoop m toks len cap fuel ⟨[], 0, 0⟩ = q :=
      decodeLoop_of_runs hruns (hn.trans hfuel)
    rw [hloop (fuel := passFuel) (by decide), hloop (Nat.le_add_right_of_le (by decide)),
      hruns.recs_eq decodePass_recs]
    exact ⟨rfl, (Nat.zero_add n).trans_le hn⟩

end Sys2Proof.Machine
end

section
/-! The codec commands (41_codec.md R242, R243, R252, R260-R262): each command stores what its run of passes has made,
and a rejection stores nothing. -/

namespace Sys2Proof.Machine

/-! ### Rejections (R261) -/

/-- Settles O13: every check stands before the store. -/
theorem codecErrorsWriteNothing : Obligations.CodecErrorsWriteNothing := by
  constructor
  · rintro s code (⟨hlen, rfl⟩ | ⟨hlen, e, hparse, rfl⟩)
    · have hexec : exec .pdEncode s = .next (pdEncodeFail .pHostLen s) := if_pos hlen
      exact ⟨_, hexec, rfl, rfl, rfl, fun _ => rfl⟩
    · have hexec : exec .pdEncode s = .next (pdEncodeFail e s) :=
        (if_neg (Nat.not_lt.mpr hlen)).trans (by rw [hparse])
      exact ⟨_, hexec, rfl, rfl, rfl, fun _ => rfl⟩
  · rintro s code (⟨hcap, rfl⟩ | ⟨hcap, hlen, rfl⟩ | ⟨hcap, hlen, e, hparse, rfl⟩)
    · have hexec : exec .pdDecode s = .next (pdDecodeFail .pHostLen s) := if_pos hcap
      exact ⟨_, hexec, rfl, rfl, rfl, fun _ => rfl⟩
    · have hexec : exec .pdDecode s = .next (pdDecodeFail .pWireLen s) :=
        (if_neg (Nat.not_lt.mpr hcap)).trans (if_pos hlen)
      exact ⟨_, hexec, rfl, rfl, rfl, fun _ => rfl⟩
    · have hexec : exec .pdDecode s = .next (pdDecodeFail e s) :=
        (if_neg (Nat.not_lt.mpr hcap)).trans ((if_neg (Nat.not_lt.mpr hlen)).trans (by rw [hparse]))
      exact ⟨_, hexec, rfl, rfl, rfl, fun _ => rfl⟩

/-! ### What the commands leave (R242, R243, R252, R262) -/

/-- PD_ENCODE takes `s` to `t`, and its passes have made `p`. -/
structure EncodesTo (s t : State) (toks : List Token) (p : Pass) : Prop where
  exec_eq : exec .pdEncode s = .next t
  endsDone : EndsDone s t
  pdLen : t.codec.pdLen.toNat = p.bytes.length
  hostCount : t.codec.hostCount.toNat = p.pos
  records : t.codec.records.toNat = p.recs
  pd : t.memRead 0x218 p.bytes.length = p.bytes
  length_le : p.bytes.length ≤ 231
  pos_le : p.pos ≤ s.codec.pdHostLen.toNat
  tx : t.tx = { s.tx with pdl := t.codec.pdLen }
  codec : t.codec = { s.codec with
    tokInfo := tokImage toks, pdLen := t.codec.pdLen, hostCount := t.codec.hostCount, records := t.codec.records }
  outside : KeepsBytesOutside 0x218 p.bytes.length s t
  frame : { t with status := s.status, codec := s.codec, tx := s.tx, mem := s.mem } = s

/-- Where PD_ENCODE ends when its passes have made `p`. -/
def encodeEnd (toks : List Token) (p : Pass) (s : State) : State :=
  let s₁ := setPdResult p.pos p.recs (setTokInfo (tokImage toks) (s.memWrite 0x218 p.bytes))
  done { s₁ with
    codec := { s₁.codec with pdLen := BitVec.ofNat 8 p.bytes.length }
    tx := { s₁.tx with pdl := BitVec.ofNat 8 p.bytes.length } }

theorem exec_pdEncode {s : State} {toks : List Token} (hlen : s.codec.pdHostLen.toNat ≤ 512)
    (hparse : parseFmt s = .ok toks) : exec .pdEncode s =
      .next (encodeEnd toks (encodeLoop s.mem toks s.codec.pdHostLen.toNat passFuel ⟨[], 0, 0⟩) s) :=
  (if_neg (Nat.not_lt.mpr hlen)).trans (by rw [hparse]; rfl)

/-- PD_ENCODE stores what a run of its passes has made. -/
theorem encodesTo_of_runs {s : State} {toks : List Token} (hlen : s.codec.pdHostLen.toNat ≤ 512)
    (hparse : parseFmt s = .ok toks) {n : Nat} {q : Pass}
    (hruns : Runs (encodePass s.mem toks s.codec.pdHostLen.toNat) n Pass.start q) : ∃ t, EncodesTo s t toks q := by
  obtain ⟨k, q', hn, hruns'⟩ := exists_runs_encode (parsed_of_parseFmt hparse) s.mem hlen
  obtain ⟨rfl, rfl⟩ := hruns.unique hruns'
  have hloop : encodeLoop s.mem toks s.codec.pdHostLen.toNat passFuel ⟨[], 0, 0⟩ = q :=
    encodeLoop_of_runs hruns (hn.trans (by decide))
  obtain ⟨hbytes, hpos⟩ := encodeLoop_bounds s.mem toks s.codec.pdHostLen.toNat (finalLast_of_parseFmt hparse) passFuel
    ⟨[], 0, 0⟩ (Nat.zero_le _) (Nat.zero_le _)
  rw [hloop] at hbytes hpos
  have hrecs : q.recs = n := (hruns.recs_eq encodePass_recs).trans (Nat.zero_add n)
  exact ⟨encodeEnd toks q s, {
    exec_eq := hloop ▸ exec_pdEncode hlen hparse
    endsDone := rfl
    pdLen := by show (BitVec.ofNat 8 q.bytes.length).toNat = _; rw [BitVec.toNat_ofNat]; omega
    hostCount := by show (BitVec.ofNat 10 q.pos).toNat = _; rw [BitVec.toNat_ofNat]; omega
    records := by show (BitVec.ofNat 8 q.recs).toNat = _; rw [BitVec.toNat_ofNat]; omega
    pd := Memory.readBytes_writeBytes_self s.mem 0x218 q.bytes
    length_le := hbytes
    pos_le := hpos
    tx := rfl
    codec := rfl
    outside := fun a ha => Memory.read_writeBytes_outside s.mem 0x218 a q.bytes ha
    frame := rfl }⟩

/-- Settles O14: some run of passes ends, and PD_ENCODE stores what it has made. -/
theorem encodeStaysInCap : Obligations.EncodeStaysInCap := by
  intro s toks hlen hparse
  obtain ⟨n, q, -, hruns⟩ := exists_runs_encode (parsed_of_parseFmt hparse) s.mem hlen
  obtain ⟨t, ht⟩ := encodesTo_of_runs hlen hparse hruns
  exact ⟨t, ht.exec_eq, ht.endsDone, ht.pdLen ▸ ht.length_le, ht.tx, ht.hostCount ▸ ht.pos_le, ht.codec,
    ht.pdLen ▸ ht.outside, ht.frame⟩

/-- PD_DECODE takes `s` to `t`, and its passes have made `p`. -/
structure DecodesTo (s t : State) (toks : List Token) (p : Pass) : Prop where
  exec_eq : exec .pdDecode s = .next t
  endsDone : EndsDone s t
  hostCount : t.codec.hostCount.toNat = p.bytes.length
  records : t.codec.records.toNat = p.recs
  host : t.memRead 0x400 p.bytes.length = p.bytes
  length_le : p.bytes.length ≤ s.codec.pdHostLen.toNat
  codec : t.codec = { s.codec with
    tokInfo := tokImage toks, hostCount := t.codec.hostCount, records := t.codec.records }
  outside : KeepsBytesOutside 0x400 p.bytes.length s t
  frame : { t with status := s.status, codec := s.codec, mem := s.mem } = s

/-- Where PD_DECODE ends when its passes have made `p`. -/
def decodeEnd (toks : List Token) (p : Pass) (s : State) : State :=
  done (setPdResult p.bytes.length p.recs (setTokInfo (tokImage toks) (s.memWrite 0x400 p.bytes)))

theorem exec_pdDecode {s : State} {toks : List Token} (hcap : s.codec.pdHostLen.toNat ≤ 512)
    (hlen : s.codec.pdLen.toNat ≤ 231) (hparse : parseFmt s = .ok toks) : exec .pdDecode s =
      .next (decodeEnd toks
        (decodeLoop s.mem toks s.codec.pdLen.toNat s.codec.pdHostLen.toNat passFuel ⟨[], 0, 0⟩) s) :=
  (if_neg (Nat.not_lt.mpr hcap)).trans ((if_neg (Nat.not_lt.mpr hlen)).trans (by rw [hparse]; rfl))

/-- PD_DECODE stores what a run of its passes has made. -/
theorem decodesTo_of_runs {s : State} {toks : List Token} (hcap : s.codec.pdHostLen.toNat ≤ 512)
    (hlen : s.codec.pdLen.toNat ≤ 231) (hparse : parseFmt s = .ok toks) {n : Nat} {q : Pass}
    (hruns : Runs (decodePass s.mem toks s.codec.pdLen.toNat s.codec.pdHostLen.toNat) n Pass.start q) :
    ∃ t, DecodesTo s t toks q := by
  obtain ⟨k, q', hn, hruns'⟩ := exists_runs_decode (parsed_of_parseFmt hparse) s.mem hlen s.codec.pdHostLen.toNat
  obtain ⟨rfl, rfl⟩ := hruns.unique hruns'
  have hloop : decodeLoop s.mem toks s.codec.pdLen.toNat s.codec.pdHostLen.toNat passFuel ⟨[], 0, 0⟩ = q :=
    decodeLoop_of_runs hruns (hn.trans (by decide))
  have hbytes := decodeLoop_bounds s.mem toks s.codec.pdLen.toNat s.codec.pdHostLen.toNat
    (finalLast_of_parseFmt hparse) passFuel ⟨[], 0, 0⟩ (Nat.zero_le _)
  rw [hloop] at hbytes
  have hrecs : q.recs = n := (hruns.recs_eq decodePass_recs).trans (Nat.zero_add n)
  exact ⟨decodeEnd toks q s, {
    exec_eq := hloop ▸ exec_pdDecode hcap hlen hparse
    endsDone := rfl
    hostCount := by show (BitVec.ofNat 10 q.bytes.length).toNat = _; rw [BitVec.toNat_ofNat]; omega
    records := by show (BitVec.ofNat 8 q.recs).toNat = _; rw [BitVec.toNat_ofNat]; omega
    host := Memory.readBytes_writeBytes_self s.mem 0x400 q.bytes
    length_le := hbytes
    codec := rfl
    outside := fun a ha => Memory.read_writeBytes_outside s.mem 0x400 a q.bytes ha
    frame := rfl }⟩

/-- Settles O15: some run of passes ends, and PD_DECODE stores what it has made. -/
theorem decodeStaysInRoom : Obligations.DecodeStaysInRoom := by
  intro s toks hcap hlen hparse
  obtain ⟨n, q, -, hruns⟩ := exists_runs_decode (parsed_of_parseFmt hparse) s.mem hlen s.codec.pdHostLen.toNat
  obtain ⟨t, ht⟩ := decodesTo_of_runs hcap hlen hparse hruns
  exact ⟨t, ht.exec_eq, ht.endsDone, ht.hostCount ▸ ht.length_le, ht.codec, ht.hostCount ▸ ht.outside, ht.frame⟩

/-! ### Records of fixed fields (R240-R242, R250-R252) -/

/-- PD_ENCODE takes the records that its input holds and whose wire bytes fit. -/
theorem encoded_count {toks : List Token} (hfixed : ∀ t ∈ toks, t.Fixed) (hw : 0 < wFixed toks) {m : Memory}
    {n most : Nat} (hn : n ≤ most) (hfits : (encoded m toks n).bytes.length ≤ 231)
    (hmax : n < most → 231 < (encoded m toks (n + 1)).bytes.length) : n = min most (231 / wFixed toks) := by
  rw [length_encoded hfixed, ← Nat.le_div_iff_mul_le hw] at hfits
  rw [length_encoded hfixed, ← Nat.div_lt_iff_lt_mul hw] at hmax
  omega

/-- Settles O17: a run of either command makes pieces of equal size, and each piece stands at its multiple. -/
theorem fixedRecords : Obligations.FixedRecords := by
  intro s toks hparse hv ha ⟨field, hmem, hfield⟩ hhost
  have hparsed := parsed_of_parseFmt hparse
  have hfixed : ∀ t ∈ toks, t.Fixed := fun t ht => ⟨fun h => hv (h ▸ ht), fun h => ha (h ▸ ht)⟩
  have hlit : litOnly toks = false := Bool.eq_false_iff.mpr fun h => by
    obtain ⟨bytes, hbytes⟩ := (litOnly_iff toks).mp h field hmem
    exact hfield bytes hbytes
  have hw := hparsed.wFixed_pos hfixed
  have hh := hparsed.hFixed_pos ha hlit
  constructor
  · obtain ⟨n, hn, hfits, hmax, hruns⟩ :=
      runs_encode hparsed.finalLast ha hlit hh s.mem s.codec.pdHostLen.toNat
    have hcount := encoded_count hfixed hw hn hfits hmax
    obtain ⟨t, ht⟩ := encodesTo_of_runs hhost hparse hruns
    have hpd := ht.pd
    rw [length_encoded hfixed] at hpd
    refine ⟨t, ht.exec_eq, ht.endsDone, ?_⟩
    rw [ht.records, ht.hostCount, ht.pdLen]
    exact ⟨hcount, rfl, length_encoded hfixed s.mem n, fun i hi =>
      readBytes_piece hpd (fun i _ => length_wireOf toks hfixed _ (by simp)) hi⟩
  · intro hwire
    have hruns := runs_decode_fixed hfixed hlit hw hh s.mem s.codec.pdLen.toNat s.codec.pdHostLen.toNat
    generalize min (s.codec.pdLen.toNat / wFixed toks) (s.codec.pdHostLen.toNat / hFixed toks) = n at hruns
    obtain ⟨t, ht⟩ := decodesTo_of_runs hhost hwire hparse hruns
    have hhostBytes := ht.host
    rw [length_decoded ha] at hhostBytes
    simp only [decoded, present_of_fixed hfixed] at hhostBytes
    refine ⟨t, ht.exec_eq, ht.endsDone, ?_⟩
    rw [ht.records, ht.hostCount]
    exact ⟨rfl, length_decoded ha s.mem n, fun i hi =>
      readBytes_piece hhostBytes (fun i _ => length_hostOf toks hfixed _ (by simp)) hi⟩

end Sys2Proof.Machine
end

section
/-! The round trip of whole legal records, and the codec commands on the formats beside fixed records (41_codec.md
R240-R242, R250-R252, R260). -/

namespace Sys2Proof.Machine

/-! ### Reads of a part -/

theorem readBytes_eq_append {m : Memory} {a : Nat} {xs ys : List Byte}
    (h : Memory.readBytes m a (xs ++ ys).length = xs ++ ys) :
    Memory.readBytes m a xs.length = xs ∧ Memory.readBytes m (a + xs.length) ys.length = ys := by
  rw [List.length_append, Memory.readBytes_append] at h
  exact List.append_inj h (Memory.length_readBytes _ _ _)

/-! ### Records without bare text, host to wire -/

/-- What PD_ENCODE has made of the first records of HOST is their wire bytes. -/
theorem encoded_bytes {m : Memory} {toks : List Token} {recs : List (List Byte)}
    (hsize : ∀ r ∈ recs, r.length = hFixed toks)
    (hmem : Memory.readBytes m 0x400 recs.flatten.length = recs.flatten) {n : Nat} (hn : n ≤ recs.length) :
    (encoded m toks n).bytes = (recs.take n).flatMap (wireOf toks) := by
  rw [flatMap_take_eq_pieces (wireOf toks) recs hn]
  exact pieces_congr fun i hi => by rw [readBytes_record hsize hmem (by omega)]

theorem length_flatten_of_size {recs : List (List Byte)} {size : Nat} (h : ∀ r ∈ recs, r.length = size) :
    recs.flatten.length = recs.length * size := by
  rw [List.length_flatten, List.map_congr_left h]
  simp

/-- PD_ENCODE takes the records that HOST holds, until the wire bytes of one do not fit. -/
theorem runs_encode_records {toks : List Token} (h : Parsed toks) (ha : .avar ∉ toks) (hlit : litOnly toks = false)
    {m : Memory} {len : Nat} {recs : List (List Byte)} {left : List Byte}
    (hsize : ∀ r ∈ recs, r.length = hFixed toks) (hleft : left.length < hFixed toks)
    (hmem : Memory.readBytes m 0x400 len = recs.flatten ++ left) :
    ∃ n, n ≤ recs.length ∧
      Runs (encodePass m toks len) n Pass.start ⟨(recs.take n).flatMap (wireOf toks), n * hFixed toks, n⟩ ∧
      (n < recs.length → 231 < ((recs.take (n + 1)).flatMap (wireOf toks)).length) := by
  have hpos := h.hFixed_pos ha hlit
  have hlist : (recs.flatten ++ left).length = len := by rw [← hmem, Memory.length_readBytes]
  have hdiv : len / hFixed toks = recs.length := by
    rw [← hlist, List.length_append, length_flatten_of_size hsize, Nat.mul_comm, Nat.mul_add_div hpos,
      Nat.div_eq_of_lt hleft, Nat.add_zero]
  obtain ⟨hrecs, -⟩ := readBytes_eq_append (hlist.symm ▸ hmem)
  obtain ⟨n, hn, -, hmax, hruns⟩ := runs_encode h.finalLast ha hlit hpos m len
  rw [hdiv] at hn hmax
  have hend : encoded m toks n = ⟨(recs.take n).flatMap (wireOf toks), n * hFixed toks, n⟩ := by
    rw [← encoded_bytes hsize hrecs hn]; rfl
  exact ⟨n, hn, hend ▸ hruns, fun hlt => encoded_bytes hsize hrecs hlt ▸ hmax hlt⟩

/-! ### The round trip of whole legal records (R260) -/

/-- `recs` are legal records of `toks`, each with a wire byte, and only one where a record takes the whole input. -/
structure LegalRecords (toks : List Token) (recs : List (List Byte)) : Prop where
  parsed : Parsed toks
  legal : ∀ r ∈ recs, LegalRecord toks r
  wire : ∀ r ∈ recs, wireOf toks r ≠ []
  single : .avar ∈ toks ∨ litOnly toks = true → recs.length = 1

theorem length_of_legal_noText {toks : List Token} (ha : .avar ∉ toks) {r : List Byte} (h : LegalRecord toks r) :
    r.length = hFixed toks :=
  (length_of_legalRecord (fixed_present ha) (h.present ha).1).trans (hFixed_present toks)

theorem length_wireOf_of_legal {toks : List Token} (ha : .avar ∉ toks) {r : List Byte} (h : LegalRecord toks r) :
    (wireOf toks r).length = wFixed (present toks) := by
  obtain ⟨hlegal, hwire⟩ := h.present ha
  rw [← hwire]
  exact length_wireOf _ (fixed_present ha) r (length_of_legalRecord (fixed_present ha) hlegal).ge

/-- A legal record comes back from its wire bytes. -/
theorem hostOf_wireOf_of_legal {toks : List Token} (ha : .avar ∉ toks) {r : List Byte} (h : LegalRecord toks r) :
    hostOf (present toks) (wireOf toks r) = r := by
  obtain ⟨hlegal, hwire⟩ := h.present ha
  rw [← hwire]
  exact hostOf_wireOf (fixed_present ha) hlegal

/-- PD_ENCODE takes every legal record of the input when their wire bytes fit together. -/
theorem runs_encode_legal_noText {toks : List Token} {recs : List (List Byte)} (h : LegalRecords toks recs)
    (ha : .avar ∉ toks) (hlit : litOnly toks = false) {m : Memory}
    (hmem : Memory.readBytes m 0x400 recs.flatten.length = recs.flatten)
    (hfits : (recs.flatMap (wireOf toks)).length ≤ 231) :
    Runs (encodePass m toks recs.flatten.length) recs.length Pass.start
      ⟨recs.flatMap (wireOf toks), recs.flatten.length, recs.length⟩ := by
  have hsize : ∀ r ∈ recs, r.length = hFixed toks := fun r hr => length_of_legal_noText ha (h.legal r hr)
  obtain ⟨n, hn, hruns, hmax⟩ := runs_encode_records h.parsed ha hlit (left := []) hsize
    (h.parsed.hFixed_pos ha hlit) (hmem.trans (List.append_nil _).symm)
  have hall : n = recs.length := by
    refine Nat.le_antisymm hn (Nat.le_of_not_lt fun hlt => ?_)
    have hprefix := length_pieces_mono (fun i => wireOf toks (recs.getD i [])) (Nat.succ_le_of_lt hlt)
    have hover := hmax hlt
    rw [flatMap_take_eq_pieces _ _ (Nat.succ_le_of_lt hlt)] at hover
    rw [flatMap_eq_pieces] at hfits
    omega
  rwa [hall, List.take_length, ← length_flatten_of_size hsize] at hruns

/-- PD_DECODE takes every record back from the wire bytes of legal records. -/
theorem runs_decode_legal_noText {toks : List Token} {recs : List (List Byte)} (h : LegalRecords toks recs)
    (ha : .avar ∉ toks) (hlit : litOnly toks = false) {m : Memory}
    (hmem : Memory.readBytes m 0x218 (recs.flatMap (wireOf toks)).length = recs.flatMap (wireOf toks)) {cap : Nat}
    (hcap : recs.flatten.length ≤ cap) :
    ∃ pos, Runs (decodePass m toks (recs.flatMap (wireOf toks)).length cap) recs.length Pass.start
      ⟨recs.flatten, pos, recs.length⟩ := by
  have hget (i : Nat) (hi : i < recs.length) : LegalRecord toks (recs.getD i []) :=
    h.legal _ (List.getD_eq_getElem recs [] hi ▸ List.getElem_mem hi)
  have hwire (i : Nat) (hi : i < recs.length) : (wireOf toks (recs.getD i [])).length = wFixed (present toks) :=
    length_wireOf_of_legal ha (hget i hi)
  have hlen : (recs.flatMap (wireOf toks)).length = recs.length * wFixed (present toks) := by
    rw [flatMap_eq_pieces, length_pieces hwire]
  rw [hlen, flatMap_eq_pieces] at hmem
  have hend : (decoded m toks recs.length).bytes = recs.flatten := by
    rw [flatten_eq_pieces]
    exact pieces_congr fun i hi => by rw [readBytes_piece hmem hwire hi, hostOf_wireOf_of_legal ha (hget i hi)]
  have hroom : recs.length * hFixed toks ≤ cap := by
    rwa [← length_flatten_of_size fun r hr => length_of_legal_noText ha (h.legal r hr)]
  refine ⟨recs.length * wFixed (present toks), ?_⟩
  rw [hlen, ← hend]
  refine runs_decode_whole h.parsed.finalLast ha hlit (h.parsed.wFixed_present_pos ha) le_rfl hroom
    (.halt (decodePass_eq_none fun hrun => ?_))
  obtain ⟨hpos, -⟩ := (decodeMayRun_noText ha hlit _ cap _).mp hrun
  exact Nat.lt_irrefl _ hpos

/-- A legal record with a final bare `a`: its fixed fields, its text and a zero; its wire bytes end with the text. -/
theorem legalRecord_text {pre : List Token} (hfixed : ∀ t ∈ pre, t.Fixed) {r : List Byte}
    (h : LegalRecord (pre ++ [.avar]) r) :
    ∃ host text, r = host ++ (text ++ [0]) ∧ LegalRecord pre host ∧ host.length = hFixed pre ∧
      (text ++ [0]).takeWhile (· != 0) = text ∧ wireOf (pre ++ [.avar]) r = wireOf pre host ++ text := by
  obtain ⟨-, hlegal, text, htext, hrest⟩ := (legalRecord_append_iff hfixed [.avar] r).mp h
  have hprefix : (text ++ [0]).takeWhile (· != 0) = text := by
    rw [List.takeWhile_append_of_pos fun b hb => by simpa using htext b hb]
    simp
  refine ⟨r.take (hFixed pre), text, ?_, hlegal, length_of_legalRecord hfixed hlegal, hprefix, ?_⟩
  · rw [← hrest, List.take_append_drop]
  · rw [wireOf_append hfixed, hrest]
    exact congrArg _ hprefix

/-- PD_ENCODE of a legal record with a final bare `a` makes its wire bytes. -/
theorem textWire_of_legal {pre : List Token} (hfixed : ∀ t ∈ pre, t.Fixed) {m : Memory} {r : List Byte}
    (h : LegalRecord (pre ++ [.avar]) r) (hmem : Memory.readBytes m 0x400 r.length = r)
    (hfits : (wireOf (pre ++ [.avar]) r).length ≤ 231) :
    textWire m pre r.length = wireOf (pre ++ [.avar]) r := by
  obtain ⟨host, text, rfl, hlegal, hlen, hprefix, hwire⟩ := legalRecord_text hfixed h
  obtain ⟨hhost, hrest⟩ := readBytes_eq_append hmem
  rw [hwire, List.length_append, length_wireOf pre hfixed host hlen.ge] at hfits
  rw [hwire, textWire, ← hlen, hhost, List.length_append, Nat.add_sub_cancel_left, hrest, hprefix,
    List.take_of_length_le (by omega)]

/-- PD_DECODE of the wire bytes of a legal record with a final bare `a` makes the record. -/
theorem textHost_of_legal {pre : List Token} (hfixed : ∀ t ∈ pre, t.Fixed) {m : Memory} {r : List Byte}
    (h : LegalRecord (pre ++ [.avar]) r)
    (hmem : Memory.readBytes m 0x218 (wireOf (pre ++ [.avar]) r).length = wireOf (pre ++ [.avar]) r) {cap : Nat}
    (hcap : r.length ≤ cap) : textHost m pre (wireOf (pre ++ [.avar]) r).length cap = r := by
  obtain ⟨host, text, rfl, hlegal, hlen, -, hwire⟩ := legalRecord_text hfixed h
  rw [hwire] at hmem ⊢
  obtain ⟨hfields, htext⟩ := readBytes_eq_append hmem
  have hsize := length_wireOf pre hfixed host hlen.ge
  rw [hsize] at hfields htext
  simp only [List.length_append, List.length_singleton] at hcap
  rw [textHost, List.length_append, hsize, Nat.add_sub_cancel_left, Nat.min_eq_left (by omega), hfields, htext,
    hostOf_wireOf hfixed hlegal, List.append_assoc]

/-- PD_ENCODE takes all of the input when it is whole legal records whose wire bytes fit. -/
theorem runs_encode_legal {toks : List Token} {recs : List (List Byte)} (h : LegalRecords toks recs) {m : Memory}
    (hmem : Memory.readBytes m 0x400 recs.flatten.length = recs.flatten)
    (hfits : (recs.flatMap (wireOf toks)).length ≤ 231) :
    Runs (encodePass m toks recs.flatten.length) recs.length Pass.start
      ⟨recs.flatMap (wireOf toks), recs.flatten.length, recs.length⟩ := by
  cases hlit : litOnly toks with
  | true =>
    obtain ⟨r, rfl⟩ := List.length_eq_one_iff.mp (h.single (.inr hlit))
    have hlen := length_of_legalRecord (fixed_of_litOnly hlit) (h.legal r (by simp))
    obtain rfl := List.length_eq_zero_iff.mp (hlen.trans (hFixed_of_litOnly toks hlit))
    simpa using runs_encode_litOnly h.parsed hlit m 0
  | false =>
    by_cases ha : .avar ∈ toks
    · obtain ⟨r, rfl⟩ := List.length_eq_one_iff.mp (h.single (.inl ha))
      obtain ⟨pre, hfixed, rfl⟩ := exists_text_of_mem h.parsed.finalLast ha
      have hlegal := h.legal r (by simp)
      simp only [List.flatten_singleton, List.flatMap_singleton] at hmem hfits ⊢
      have hpos : hFixed pre < r.length := by
        obtain ⟨host, text, rfl, -, hlen, -⟩ := legalRecord_text hfixed hlegal
        simp; omega
      have hruns := runs_encode_text h.parsed hfixed m (Nat.zero_lt_of_lt hpos) hpos.le
      rwa [textWire_of_legal hfixed hlegal hmem hfits] at hruns
    · exact runs_encode_legal_noText h ha hlit hmem hfits

/-- PD_DECODE makes the records again from the wire bytes of whole legal records. -/
theorem runs_decode_legal {toks : List Token} {recs : List (List Byte)} (h : LegalRecords toks recs) {m : Memory}
    (hmem : Memory.readBytes m 0x218 (recs.flatMap (wireOf toks)).length = recs.flatMap (wireOf toks)) {cap : Nat}
    (hcap : recs.flatten.length ≤ cap) :
    ∃ pos, Runs (decodePass m toks (recs.flatMap (wireOf toks)).length cap) recs.length Pass.start
      ⟨recs.flatten, pos, recs.length⟩ := by
  cases hlit : litOnly toks with
  | true =>
    obtain ⟨r, rfl⟩ := List.length_eq_one_iff.mp (h.single (.inr hlit))
    have hfixed := fixed_of_litOnly hlit
    have hlen := length_of_legalRecord hfixed (h.legal r (by simp))
    obtain rfl := List.length_eq_zero_iff.mp (hlen.trans (hFixed_of_litOnly toks hlit))
    have hwire := length_wireOf toks hfixed [] hlen.ge
    exact ⟨_, runs_decode_litOnly hlit m (by simp [hwire]) cap⟩
  | false =>
    by_cases ha : .avar ∈ toks
    · obtain ⟨r, rfl⟩ := List.length_eq_one_iff.mp (h.single (.inl ha))
      obtain ⟨pre, hfixed, rfl⟩ := exists_text_of_mem h.parsed.finalLast ha
      have hlegal := h.legal r (by simp)
      have hnil := List.length_pos_iff.mpr (h.wire r (by simp))
      simp only [List.flatten_singleton, List.flatMap_singleton] at hmem hcap ⊢
      have hsizes : wFixed pre ≤ (wireOf (pre ++ [.avar]) r).length ∧ hFixed pre + 1 ≤ r.length := by
        obtain ⟨host, text, rfl, -, hlen, -, hwire⟩ := legalRecord_text hfixed hlegal
        rw [hwire, List.length_append, length_wireOf pre hfixed host hlen.ge]
        simp; omega
      obtain ⟨pos, hruns⟩ := runs_decode_text hfixed m hnil hsizes.1 (hsizes.2.trans hcap)
      rw [textHost_of_legal hfixed hlegal hmem hcap] at hruns
      exact ⟨pos, hruns⟩
    · exact runs_decode_legal_noText h ha hlit hmem hcap

/-- Settles O19: both commands run over the same records, PD_ENCODE to their wire bytes and PD_DECODE back. -/
theorem roundTrip : Obligations.RoundTrip := by
  intro s toks recs hparse hlegal hsingle hhost hlen hmem hfits
  rw [← litOnly_iff] at hsingle
  have hrecs : LegalRecords toks recs :=
    ⟨parsed_of_parseFmt hparse, fun r hr => (hlegal r hr).1, fun r hr => (hlegal r hr).2, hsingle⟩
  have hencode := runs_encode_legal hrecs hmem hfits
  rw [← hhost] at hencode
  obtain ⟨t, ht⟩ := encodesTo_of_runs (hhost.trans_le hlen) hparse hencode
  refine ⟨t, ht.exec_eq, ht.endsDone, ht.records, ht.hostCount.trans hhost, ht.pdLen, ht.pdLen.symm ▸ ht.pd, ?_⟩
  intro u huparse hupd humem hucap hulen
  have hulen' : u.codec.pdLen.toNat = (recs.flatMap (wireOf toks)).length := hupd ▸ ht.pdLen
  have humem' : u.memRead 0x218 (recs.flatMap (wireOf toks)).length = recs.flatMap (wireOf toks) := by
    rw [← hulen', humem, ht.pdLen]
    exact ht.pd
  obtain ⟨pos, hdecode⟩ := runs_decode_legal hrecs humem' hucap
  rw [← hulen'] at hdecode
  obtain ⟨v, hv⟩ := decodesTo_of_runs hulen (hulen'.trans_le hfits) huparse hdecode
  exact ⟨v, hv.exec_eq, hv.endsDone, hv.records, hv.hostCount, hv.host⟩

/-! ### Literals alone -/

theorem fixed_of_parsed_append {pre : List Token} {t : Token} (h : Parsed (pre ++ [t])) : ∀ x ∈ pre, x.Fixed :=
  fun x hx => h.finalLast x (by simpa using hx)

/-- A literal-only format encodes one record of any input. -/
theorem encode_literals {s : State} {toks : List Token} (hparse : parseFmt s = .ok toks) (hlit : litOnly toks = true)
    (hhost : s.codec.pdHostLen.toNat ≤ 512) :
    ∃ t, exec .pdEncode s = .next t ∧ EndsDone s t ∧ t.codec.records = 1 ∧ t.codec.hostCount = 0 ∧
      t.codec.pdLen.toNat = wFixed toks ∧ t.memRead 0x218 (wFixed toks) = wireOf toks [] := by
  have hwire := length_wireOf toks (fixed_of_litOnly hlit) [] (hFixed_of_litOnly toks hlit).le
  obtain ⟨t, ht⟩ := encodesTo_of_runs hhost hparse
    (runs_encode_litOnly (parsed_of_parseFmt hparse) hlit s.mem s.codec.pdHostLen.toNat)
  exact ⟨t, ht.exec_eq, ht.endsDone, BitVec.eq_of_toNat_eq ht.records, BitVec.eq_of_toNat_eq ht.hostCount,
    ht.pdLen.trans hwire, hwire ▸ ht.pd⟩

/-- PD_DECODE that makes no host byte keeps every byte. -/
theorem DecodesTo.keepsBytes {s t : State} {toks : List Token} {p : Pass} (h : DecodesTo s t toks p)
    (hp : p.bytes = []) : KeepsBytes s t := fun a => h.outside a (by rw [hp, List.length_nil]; omega)

/-- A literal-only format decodes one record of a wire that is long enough, and no byte. -/
theorem decode_literals {s : State} {toks : List Token} (hparse : parseFmt s = .ok toks) (hlit : litOnly toks = true)
    (hhost : s.codec.pdHostLen.toNat ≤ 512) (hwire : s.codec.pdLen.toNat ≤ 231) :
    ∃ t, exec .pdDecode s = .next t ∧ EndsDone s t ∧
      t.codec.records = (if wFixed toks ≤ s.codec.pdLen.toNat then 1 else 0) ∧ t.codec.hostCount = 0 ∧
      KeepsBytes s t := by
  by_cases hlen : wFixed toks ≤ s.codec.pdLen.toNat
  · obtain ⟨t, ht⟩ := decodesTo_of_runs hhost hwire hparse (runs_decode_litOnly hlit s.mem hlen _)
    rw [if_pos hlen]
    exact ⟨t, ht.exec_eq, ht.endsDone, BitVec.eq_of_toNat_eq ht.records, BitVec.eq_of_toNat_eq ht.hostCount,
      ht.keepsBytes rfl⟩
  · obtain ⟨t, ht⟩ := decodesTo_of_runs hhost hwire hparse
      (runs_decode_none s.mem (.inr (.inl (Nat.lt_of_not_le hlen))))
    rw [if_neg hlen]
    exact ⟨t, ht.exec_eq, ht.endsDone, BitVec.eq_of_toNat_eq ht.records, BitVec.eq_of_toNat_eq ht.hostCount,
      ht.keepsBytes rfl⟩

/-! ### A final bare `a` -/

theorem encode_text {s : State} {pre : List Token} (hparse : parseFmt s = .ok (pre ++ [.avar]))
    (hhost : s.codec.pdHostLen.toNat ≤ 512) (hpos : 0 < s.codec.pdHostLen.toNat)
    (hlen : hFixed pre ≤ s.codec.pdHostLen.toNat) :
    ∃ t, exec .pdEncode s = .next t ∧ EndsDone s t ∧ t.codec.records = 1 ∧ t.codec.hostCount = s.codec.pdHostLen ∧
      t.memRead 0x218 t.codec.pdLen.toNat = textWire s.mem pre s.codec.pdHostLen.toNat := by
  have hparsed := parsed_of_parseFmt hparse
  obtain ⟨t, ht⟩ := encodesTo_of_runs hhost hparse
    (runs_encode_text hparsed (fixed_of_parsed_append hparsed) s.mem hpos hlen)
  exact ⟨t, ht.exec_eq, ht.endsDone, BitVec.eq_of_toNat_eq ht.records, BitVec.eq_of_toNat_eq ht.hostCount,
    ht.pdLen.symm ▸ ht.pd⟩

theorem encode_text_none {s : State} {pre : List Token} (hparse : parseFmt s = .ok (pre ++ [.avar]))
    (hhost : s.codec.pdHostLen.toNat ≤ 512) (h : s.codec.pdHostLen = 0 ∨ s.codec.pdHostLen.toNat < hFixed pre) :
    ∃ t, exec .pdEncode s = .next t ∧ EndsDone s t ∧ t.codec.records = 0 ∧ t.codec.hostCount = 0 ∧
      t.codec.pdLen = 0 := by
  obtain ⟨t, ht⟩ := encodesTo_of_runs hhost hparse (runs_encode_none (litOnly_append_text pre) s.mem
    (h.imp (congrArg BitVec.toNat) fun hlt => (hFixed_append_text pre).symm ▸ hlt))
  exact ⟨t, ht.exec_eq, ht.endsDone, BitVec.eq_of_toNat_eq ht.records, BitVec.eq_of_toNat_eq ht.hostCount,
    BitVec.eq_of_toNat_eq ht.pdLen⟩

theorem decode_text {s : State} {pre : List Token} (hparse : parseFmt s = .ok (pre ++ [.avar]))
    (hhost : s.codec.pdHostLen.toNat ≤ 512) (hwire : s.codec.pdLen.toNat ≤ 231) (hpos : 0 < s.codec.pdLen.toNat)
    (hlen : wFixed pre ≤ s.codec.pdLen.toNat) (hroom : hFixed pre + 1 ≤ s.codec.pdHostLen.toNat) :
    ∃ t, exec .pdDecode s = .next t ∧ EndsDone s t ∧ t.codec.records = 1 ∧
      t.memRead 0x400 t.codec.hostCount.toNat =
        textHost s.mem pre s.codec.pdLen.toNat s.codec.pdHostLen.toNat := by
  obtain ⟨pos, hruns⟩ := runs_decode_text (fixed_of_parsed_append (parsed_of_parseFmt hparse)) s.mem hpos hlen hroom
  obtain ⟨t, ht⟩ := decodesTo_of_runs hhost hwire hparse hruns
  exact ⟨t, ht.exec_eq, ht.endsDone, BitVec.eq_of_toNat_eq ht.records, ht.hostCount.symm ▸ ht.host⟩

theorem decode_text_none {s : State} {pre : List Token} (hparse : parseFmt s = .ok (pre ++ [.avar]))
    (hhost : s.codec.pdHostLen.toNat ≤ 512) (hwire : s.codec.pdLen.toNat ≤ 231)
    (h : s.codec.pdLen = 0 ∨ s.codec.pdLen.toNat < wFixed pre ∨ s.codec.pdHostLen.toNat < hFixed pre + 1) :
    ∃ t, exec .pdDecode s = .next t ∧ EndsDone s t ∧ t.codec.records = 0 ∧ t.codec.hostCount = 0 := by
  obtain ⟨t, ht⟩ := decodesTo_of_runs hhost hwire hparse
    (runs_decode_text_none s.mem (h.imp_left (congrArg BitVec.toNat)))
  exact ⟨t, ht.exec_eq, ht.endsDone, BitVec.eq_of_toNat_eq ht.records, BitVec.eq_of_toNat_eq ht.hostCount⟩

/-! ### A final `v` -/

theorem encode_uid {s : State} {pre : List Token} {recs : List (List Byte)} {left : List Byte}
    (hparse : parseFmt s = .ok (pre ++ [.v])) (hhost : s.codec.pdHostLen.toNat ≤ 512)
    (hsize : ∀ r ∈ recs, r.length = hFixed pre + 6) (hleft : left.length < hFixed pre + 6)
    (hmem : s.memRead 0x400 s.codec.pdHostLen.toNat = recs.flatten ++ left) :
    ∃ t, exec .pdEncode s = .next t ∧ EndsDone s t ∧ t.codec.records.toNat ≤ recs.length ∧
      t.codec.hostCount.toNat = t.codec.records.toNat * (hFixed pre + 6) ∧ t.codec.pdLen.toNat ≤ 231 ∧
      t.memRead 0x218 t.codec.pdLen.toNat = (recs.take t.codec.records.toNat).flatMap (wireOf (pre ++ [.v])) ∧
      (t.codec.records.toNat < recs.length →
        231 < ((recs.take (t.codec.records.toNat + 1)).flatMap (wireOf (pre ++ [.v]))).length) := by
  have hparsed := parsed_of_parseFmt hparse
  rw [← hFixed_append_v] at hsize hleft ⊢
  obtain ⟨n, hn, hruns, hmax⟩ := runs_encode_records hparsed (noText_append_v (fixed_of_parsed_append hparsed))
    litOnly_append_v hsize hleft hmem
  obtain ⟨t, ht⟩ := encodesTo_of_runs hhost hparse hruns
  refine ⟨t, ht.exec_eq, ht.endsDone, ?_⟩
  rw [ht.records, ht.hostCount, ht.pdLen]
  exact ⟨hn, rfl, ht.length_le, ht.pd, hmax⟩

/-- The host bytes of record `i` of a format with a final `v`, of which the wire holds `whole` whole records. -/
def uidHost (m : Memory) (pre : List Token) (whole i : Nat) : List Byte :=
  hostOf pre (Memory.readBytes m (0x218 + i * (wFixed pre + 6)) (wFixed pre)) ++
    if i < whole then hostOf [.u] (Memory.readBytes m (0x218 + i * (wFixed pre + 6) + wFixed pre) 6)
    else List.replicate 6 0

theorem length_uidHost {pre : List Token} (hfixed : ∀ t ∈ pre, t.Fixed) (m : Memory) (whole i : Nat) :
    (uidHost m pre whole i).length = hFixed pre + 6 := by
  have hpre := length_hostOf pre hfixed (Memory.readBytes m (0x218 + i * (wFixed pre + 6)) (wFixed pre)) (by simp)
  have huid := length_hostOf [.u] (by decide) (Memory.readBytes m (0x218 + i * (wFixed pre + 6) + wFixed pre) 6)
    (by simp [wFixed_cons, Token.wsize])
  rw [uidHost, List.length_append, hpre]
  split
  · rw [huid]; rfl
  · rw [List.length_replicate]

theorem decoded_uid_bytes {pre : List Token} (hfixed : ∀ t ∈ pre, t.Fixed) (m : Memory) {n whole : Nat}
    (hn : n ≤ whole) : (decoded m (pre ++ [.v]) n).bytes = pieces (uidHost m pre whole) n := by
  refine pieces_congr fun i hi => ?_
  rw [wFixed_present_append_v hfixed, present_append_v hfixed, hostOf_append hfixed, Memory.readBytes_append,
    List.take_left' (by simp), List.drop_left' (by simp), uidHost, if_pos (Nat.lt_of_lt_of_le hi hn)]

/-- PD_DECODE of a format with a final `v`: the whole records that fit, and one with a null UID where the wire ends in
its record before the UID. -/
theorem runs_decode_uidHost {pre : List Token} (hfixed : ∀ t ∈ pre, t.Fixed) (m : Memory) {len whole rest : Nat}
    (hlen : len = whole * (wFixed pre + 6) + rest) (hshort : rest < wFixed pre + 6) (cap : Nat) :
    let n := min (whole + if 0 < rest ∧ wFixed pre ≤ rest then 1 else 0) (cap / (hFixed pre + 6))
    ∃ pos, Runs (decodePass m (pre ++ [.v]) len cap) n Pass.start ⟨pieces (uidHost m pre whole) n, pos, n⟩ := by
  intro n
  by_cases hmore : whole < cap / (hFixed pre + 6) ∧ 0 < rest ∧ wFixed pre ≤ rest
  · obtain ⟨hroom, hrest⟩ := hmore
    have hn : n = whole + 1 := by
      show min _ _ = _
      rw [if_pos hrest]
      omega
    obtain ⟨pos, hruns⟩ := runs_decode_noUid hfixed m hlen hshort hrest.1 hrest.2 hroom
    have hlast : noUidHost m pre whole = uidHost m pre whole whole := by
      rw [noUidHost, uidHost, if_neg (Nat.lt_irrefl whole)]
    rw [decoded_uid_bytes hfixed m le_rfl, hlast, ← pieces_succ] at hruns
    exact ⟨pos, hn ▸ hruns⟩
  · have hn : n = min whole (cap / (hFixed pre + 6)) := by
      show min _ _ = _
      split <;> omega
    have hruns := runs_decode_uid hfixed m (cap := cap) hlen (by omega)
    rw [← hn] at hruns
    refine ⟨n * wFixed (present (pre ++ [.v])), ?_⟩
    rw [← decoded_uid_bytes hfixed m (whole := whole) (by omega)]
    exact hruns

theorem decode_uid {s : State} {pre : List Token} (hparse : parseFmt s = .ok (pre ++ [.v]))
    (hhost : s.codec.pdHostLen.toNat ≤ 512) (hwire : s.codec.pdLen.toNat ≤ 231) {whole rest : Nat}
    (hlen : s.codec.pdLen.toNat = whole * (wFixed pre + 6) + rest) (hshort : rest < wFixed pre + 6) :
    ∃ t, exec .pdDecode s = .next t ∧ EndsDone s t ∧
      t.codec.records.toNat =
        min (whole + if 0 < rest ∧ wFixed pre ≤ rest then 1 else 0) (s.codec.pdHostLen.toNat / (hFixed pre + 6)) ∧
      t.codec.hostCount.toNat = t.codec.records.toNat * (hFixed pre + 6) ∧
      ∀ i, i < t.codec.records.toNat →
        t.memRead (0x400 + i * (hFixed pre + 6)) (hFixed pre + 6) = uidHost s.mem pre whole i := by
  have hfixed := fixed_of_parsed_append (parsed_of_parseFmt hparse)
  obtain ⟨pos, hruns⟩ := runs_decode_uidHost hfixed s.mem hlen hshort s.codec.pdHostLen.toNat
  obtain ⟨t, ht⟩ := decodesTo_of_runs hhost hwire hparse hruns
  have hlength (n : Nat) : (pieces (uidHost s.mem pre whole) n).length = n * (hFixed pre + 6) :=
    length_pieces fun i _ => length_uidHost hfixed s.mem whole i
  have hbytes := ht.host
  rw [hlength] at hbytes
  refine ⟨t, ht.exec_eq, ht.endsDone, ht.records, ?_⟩
  rw [ht.records, ht.hostCount]
  exact ⟨hlength _, fun i hi => readBytes_piece hbytes (fun i _ => length_uidHost hfixed s.mem whole i) hi⟩

/-- Settles O18: each form is a run of its own, of one record, of none, or of pieces of equal size. -/
theorem literalsBareTextAndOptionalUid : Obligations.LiteralsBareTextAndOptionalUid := by
  refine ⟨?literals, ?encodeText, ?decodeText, ?encodeUid, ?decodeUid⟩
  case literals =>
    intro s toks hparse hlits hhost
    have hlit := (litOnly_iff toks).mpr hlits
    exact ⟨encode_literals hparse hlit hhost, decode_literals hparse hlit hhost⟩
  case encodeText =>
    intro s pre hparse hhost
    exact ⟨encode_text hparse hhost, encode_text_none hparse hhost⟩
  case decodeText =>
    intro s pre hparse hhost hwire
    exact ⟨decode_text hparse hhost hwire, decode_text_none hparse hhost hwire⟩
  case encodeUid =>
    intro s pre recs left hparse hhost hsize hleft hmem
    exact encode_uid hparse hhost hsize hleft hmem
  case decodeUid =>
    intro s pre hparse hhost hwire size whole rest
    exact decode_uid hparse hhost hwire (Nat.div_add_mod' _ _).symm (Nat.mod_lt _ (Nat.succ_pos _))

end Sys2Proof.Machine
end

section
/-! The normal packet (42_framer.md R300-R309): what the encoders build, what FR_DECODE accepts and loads, and the first
check that rejects anything else. -/

namespace Sys2Proof.Machine

/-! ### FR_CHECKSUM and sums of bytes (R303, 00_scope.md R16) -/

/-- A sum over a range that leaves FRAME is refused before anything is written (R303). -/
theorem exec_frChecksum_outside {s : State} (h : 260 < s.framer.ckStart.toNat + s.framer.ckLen.toNat) :
    exec .frChecksum s = .next (raiseError .fCkRange s) := if_pos h

theorem exec_frChecksum_inside {s : State} (h : s.framer.ckStart.toNat + s.framer.ckLen.toNat ≤ 260) :
    exec .frChecksum s = .next (done { s with framer :=
      { s.framer with ckComputed := sum16 (s.memRead (0x200 + s.framer.ckStart.toNat) s.framer.ckLen.toNat) } }) :=
  if_neg (Nat.not_lt.mpr h)

/-- Settles O20: the range check decides, and the sum is the exact one modulo 2^16. -/
theorem checksumOfRange : Obligations.ChecksumOfRange := by
  intro s
  constructor
  · intro h
    exact ⟨_, exec_frChecksum_inside h, rfl, sum16_toNat _, rfl, rfl, fun _ => rfl⟩
  · intro h
    exact ⟨_, exec_frChecksum_outside h, rfl, rfl, fun _ => rfl⟩

/-- One byte decides the sum when all others are fixed. -/
theorem byteTotal_replace_iff (xs ys : List Byte) (b c : Byte) :
    byteTotal (xs ++ b :: ys) = byteTotal (xs ++ c :: ys) ↔ b = c := by
  have := b.isLt
  have := c.isLt
  simp only [byteTotal, List.map_append, List.map_cons, List.sum_append, List.sum_cons, BitVec.toNat_eq]
  omega

/-- The bytes of a read, around the one at index `i`. -/
theorem readBytes_around (m : Memory) (a : Nat) {n i : Nat} (h : i < n) : Memory.readBytes m a n =
    Memory.readBytes m a i ++ Memory.read m (a + i) :: Memory.readBytes m (a + i + 1) (n - i - 1) := by
  obtain ⟨k, rfl⟩ := Nat.exists_eq_add_of_lt h
  have hk : i + k + 1 - i - 1 = k := by omega
  rw [hk, Nat.add_assoc, Memory.readBytes_append, Memory.readBytes_succ]

/-- Memories that differ in exactly one byte of a range have different sums over it. -/
theorem byteTotal_readBytes_ne {m m' : Memory} {a n i : Nat} (h : i < n)
    (hi : Memory.read m' (a + i) ≠ Memory.read m (a + i))
    (hother : ∀ j, j < n → j ≠ i → Memory.read m' (a + j) = Memory.read m (a + j)) :
    byteTotal (Memory.readBytes m' a n) ≠ byteTotal (Memory.readBytes m a n) := by
  have same (c : Nat) (hlo : a ≤ c) (hhi : c < a + n) (hne : c ≠ a + i) : Memory.read m' c = Memory.read m c := by
    obtain ⟨j, rfl⟩ := Nat.exists_eq_add_of_le hlo
    exact hother j (by omega) (by omega)
  have before : Memory.readBytes m' a i = Memory.readBytes m a i :=
    Memory.readBytes_congr _ _ _ _ fun c _ _ => same c (by omega) (by omega) (by omega)
  have behind : Memory.readBytes m' (a + i + 1) (n - i - 1) = Memory.readBytes m (a + i + 1) (n - i - 1) :=
    Memory.readBytes_congr _ _ _ _ fun c _ _ => same c (by omega) (by omega) (by omega)
  rw [readBytes_around m a h, readBytes_around m' a h, before, behind, Ne, byteTotal_replace_iff]
  exact hi

/-! ### The encoders (R300, R304, R305) -/

/-- `Framed` is about FRAME and the framer registers alone. -/
theorem Framed.congr {h : HeaderRegs} {s t s' t' : State} (hst : Framed h s t) (hmem : s'.mem = s.mem)
    (hframer : s'.framer = s.framer) (hmem' : t'.mem = t.mem) (hframer' : t'.framer = t.framer) : Framed h s' t' := by
  simp only [Framed, State.memRead, hmem, hframer, hmem', hframer'] at hst ⊢
  exact hst

theorem selectTn_framer (tnsel : Bool) (s : State) : (selectTn tnsel s).framer = s.framer := by cases tnsel <;> rfl

theorem selectTn_status (tnsel : Bool) (s : State) : (selectTn tnsel s).status = s.status := by cases tnsel <;> rfl

theorem selectTn_tx (tnsel : Bool) (s : State) : (selectTn tnsel s).tx =
    { s.tx with ctl0 := { s.tx.ctl0 with tn := if tnsel then s.tnCtr else s.tx.ctl0.tn } } := by cases tnsel <;> rfl

theorem selectTn_tnCtr (tnsel : Bool) (s : State) : (selectTn tnsel s).tnCtr.toNat =
    if tnsel then (s.tnCtr.toNat + 1) % 256 else s.tnCtr.toNat := by
  cases tnsel with
  | false => rfl
  | true => exact BitVec.toNat_add _ _

theorem exec_frEncodeReq (tnsel : Bool) {s : State} (h : s.tx.pdl.toNat ≤ 231) :
    exec (.frEncodeReq tnsel) s = .next (done (buildFrame (selectTn tnsel s))) := if_neg (Nat.not_lt.mpr h)

theorem exec_frEncodeReq_long (tnsel : Bool) {s : State} (h : 231 < s.tx.pdl.toNat) :
    exec (.frEncodeReq tnsel) s = .next (raiseError .fPdl s) := if_pos h

/-- Settles O21: the frame is BuildFrame's, of the TX registers after the choice of the transaction number. -/
theorem encodeRequestBuildsFrame : Obligations.EncodeRequestBuildsFrame := by
  intro s tnsel
  constructor
  · intro h
    have framed : Framed (selectTn tnsel s).tx s (done (buildFrame (selectTn tnsel s))) :=
      (buildFrame_framed (selectTn tnsel s)).congr (selectTn_mem tnsel s).symm (selectTn_framer tnsel s).symm rfl rfl
    refine ⟨_, exec_frEncodeReq tnsel h, ?status, ?framed, ?tx, ?tnCtr, ?frame⟩
    case status => rw [EndsDone, done_status, buildFrame_status, selectTn_status, Status.done]
    case framed => rwa [done_tx, buildFrame_tx]
    case tx => rw [done_tx, buildFrame_tx, selectTn_tx]
    case tnCtr => rw [done_tnCtr, buildFrame_tnCtr, selectTn_tnCtr]
    case frame => cases tnsel <;> rfl
  · intro h
    exact ⟨_, exec_frEncodeReq_long tnsel h, rfl, rfl, fun _ => rfl⟩

/-- Where FR_ENCODE_RSP ends (R305). -/
def responseEnd (s : State) : State :=
  let s₁ := buildFrame { s with tx := responseHeader s }
  done { s₁ with dispatch := { s₁.dispatch with phase := .idle } }

theorem exec_frEncodeRsp {s : State} (h : s.tx.pdl.toNat ≤ 231) : exec .frEncodeRsp s = .next (responseEnd s) :=
  if_neg (Nat.not_lt.mpr h)

theorem exec_frEncodeRsp_long {s : State} (h : 231 < s.tx.pdl.toNat) :
    exec .frEncodeRsp s = .next (raiseError .fPdl s) := if_pos h

theorem responseEnd_framed (s : State) : Framed (responseHeader s) s (responseEnd s) :=
  (buildFrame_framed { s with tx := responseHeader s }).congr rfl rfl rfl rfl

/-- Settles O22: the frame is BuildFrame's, of the response header. -/
theorem encodeResponseBuildsFrame : Obligations.EncodeResponseBuildsFrame := by
  intro s
  constructor
  · intro h
    exact ⟨_, exec_frEncodeRsp h, rfl, responseEnd_framed s, rfl, fun hself => if_pos hself,
      fun hself => if_neg (by simp [hself]), rfl, BitVec.toNat_add _ _, rfl, rfl, rfl, rfl, rfl, rfl⟩
  · intro h
    exact ⟨_, exec_frEncodeRsp_long h, rfl, rfl, fun _ => rfl⟩

/-! ### FR_DECODE (R307, R308) -/

/-- The message length that FRAME states. -/
def messageLength (s : State) : Nat := (frameByte s 2).toNat

/-- The checksum that stands behind the message. -/
def receivedChecksum (s : State) : Half := frameByte s (messageLength s) ++ frameByte s (messageLength s + 1)

/-- CK_RESULT written from FRAME. -/
def withCkResult (s : State) : State :=
  { s with framer := { s.framer with
      ckComputed := sum16 (s.memRead 0x200 (messageLength s)), ckReceived := receivedChecksum s } }

/-- The first check of R308 that fails, for a frame that one of them rejects. -/
def frameError (s : State) : CmdError :=
  if 260 < s.framer.rxLen.toNat then .fRxLen
  else if s.framer.rxLen.toNat < 26 then .fTruncated
  else if frameByte s 0 ≠ 0xCC then .fBadSc
  else if frameByte s 1 ≠ 0x01 then .fBadSsc
  else if messageLength s ≠ 24 + (frameByte s 23).toNat then .fBadLen
  else if s.framer.rxLen.toNat < messageLength s + 2 then .fTruncated
  else .fBadChecksum

/-- The checks before the checksum pass. -/
def WellFramed (s : State) : Prop :=
  26 ≤ s.framer.rxLen.toNat ∧ s.framer.rxLen.toNat ≤ 260 ∧ frameByte s 0 = 0xCC ∧ frameByte s 1 = 0x01 ∧
    messageLength s = 24 + (frameByte s 23).toNat ∧ messageLength s + 2 ≤ s.framer.rxLen.toNat

theorem checksum_eq_iff (s : State) : sum16 (s.memRead 0x200 (messageLength s)) = receivedChecksum s ↔
    byteTotal (s.memRead 0x200 (messageLength s)) = (receivedChecksum s).toNat := by
  rw [BitVec.toNat_eq, sum16_toNat]

theorem validFrame_iff (s : State) : ValidFrame s ↔
    WellFramed s ∧ sum16 (s.memRead 0x200 (messageLength s)) = receivedChecksum s := by
  rw [checksum_eq_iff]
  simp only [ValidFrame, WellFramed, and_assoc]
  rfl

/-- FR_DECODE as its chain of checks, each reporting its own error. -/
theorem exec_frDecode (s : State) : exec .frDecode s =
    if 260 < s.framer.rxLen.toNat then .next (frDecodeFail .fRxLen s)
    else if s.framer.rxLen.toNat < 26 then .next (frDecodeFail .fTruncated s)
    else if frameByte s 0 ≠ 0xCC then .next (frDecodeFail .fBadSc s)
    else if frameByte s 1 ≠ 0x01 then .next (frDecodeFail .fBadSsc s)
    else if messageLength s ≠ 24 + (frameByte s 23).toNat then .next (frDecodeFail .fBadLen s)
    else if s.framer.rxLen.toNat < messageLength s + 2 then .next (frDecodeFail .fTruncated s)
    else if sum16 (s.memRead 0x200 (messageLength s)) ≠ receivedChecksum s then
      .next (frDecodeFail .fBadChecksum (withCkResult s))
    else .next (done (acceptFrame (headerOfBytes (s.memRead 0x200 24)) (withCkResult s))) := execFrDecode_eq s

theorem exec_frDecode_wellFramed {s : State} (h : WellFramed s) : exec .frDecode s =
    if sum16 (s.memRead 0x200 (messageLength s)) ≠ receivedChecksum s then
      .next (frDecodeFail .fBadChecksum (withCkResult s))
    else .next (done (acceptFrame (headerOfBytes (s.memRead 0x200 24)) (withCkResult s))) := by
  obtain ⟨hshort, hlong, hsc, hssc, hlen, hcut⟩ := h
  rw [exec_frDecode, if_neg (by omega), if_neg (by omega), if_neg (not_not.mpr hsc), if_neg (not_not.mpr hssc),
    if_neg (not_not.mpr hlen), if_neg (by omega)]

theorem frameError_wellFramed {s : State} (h : WellFramed s) : frameError s = .fBadChecksum := by
  obtain ⟨hshort, hlong, hsc, hssc, hlen, hcut⟩ := h
  rw [frameError, if_neg (by omega), if_neg (by omega), if_neg (not_not.mpr hsc), if_neg (not_not.mpr hssc),
    if_neg (not_not.mpr hlen), if_neg (by omega)]

theorem exec_frDecode_notFramed {s : State} (h : ¬WellFramed s) :
    exec .frDecode s = .next (frDecodeFail (frameError s) s) ∧ frameError s ≠ .fBadChecksum := by
  rw [exec_frDecode, frameError]
  split_ifs with hlong hshort hsc hssc hlen hcut
  iterate 6
    next => exact ⟨rfl, by decide⟩
  all_goals exact absurd ⟨by omega, by omega, not_not.mp hsc, not_not.mp hssc, not_not.mp hlen, by omega⟩ h

/-- A valid frame is accepted: its header is loaded, and PD_LEN, CK_RESULT and FRAME_VALID with it. -/
theorem exec_frDecode_valid {s : State} (h : ValidFrame s) : exec .frDecode s =
    .next (done (acceptFrame (headerOfBytes (s.memRead 0x200 24)) (withCkResult s))) := by
  obtain ⟨hframed, hsum⟩ := (validFrame_iff s).mp h
  rw [exec_frDecode_wellFramed hframed, if_neg (not_not.mpr hsum)]

/-- Anything else is rejected with the first error; CK_RESULT is written where the checksum is that error. -/
theorem exec_frDecode_invalid {s : State} (h : ¬ValidFrame s) : exec .frDecode s =
    .next (frDecodeFail (frameError s) (if frameError s = .fBadChecksum then withCkResult s else s)) := by
  by_cases hframed : WellFramed s
  · have hsum : sum16 (s.memRead 0x200 (messageLength s)) ≠ receivedChecksum s :=
      fun hsum => h ((validFrame_iff s).mpr ⟨hframed, hsum⟩)
    rw [exec_frDecode_wellFramed hframed, if_pos hsum, frameError_wellFramed hframed, if_pos rfl]
  · obtain ⟨hexec, herror⟩ := exec_frDecode_notFramed hframed
    rw [hexec, if_neg herror]

/-- The codes of the checks, in the order of R308. -/
theorem frameError_code (s : State) : (frameError s).code =
    if 260 < s.framer.rxLen.toNat then 0x21 else if s.framer.rxLen.toNat < 26 then 0x22
    else if frameByte s 0 ≠ 0xCC then 0x23 else if frameByte s 1 ≠ 0x01 then 0x24
    else if (frameByte s 2).toNat ≠ 24 + (frameByte s 23).toNat then 0x25
    else if s.framer.rxLen.toNat < (frameByte s 2).toNat + 2 then 0x22 else 0x26 := by
  simp only [frameError, apply_ite CmdError.code]
  rfl

theorem frameError_eq_badChecksum_iff (s : State) : frameError s = .fBadChecksum ↔ (frameError s).code = 0x26 := by
  generalize frameError s = e
  cases e <;> decide

/-- Settles O23: the frame is valid or has a first failing check, and each case is one end of FR_DECODE. -/
theorem frameDecode : Obligations.FrameDecode := by
  refine ⟨fun s h => ?accepted, fun s h => ?rejected⟩
  case accepted =>
    obtain ⟨-, hsum⟩ := (validFrame_iff s).mp h
    rw [exec_frDecode_valid h, headerOfBytes_frame]
    exact ⟨_, rfl, rfl, rfl, rfl, rfl, rfl, rfl, rfl, sum16_toNat _, hsum.symm, rfl, rfl, fun _ => rfl⟩
  case rejected =>
    dsimp only
    rw [← frameError_code, Ne, ← frameError_eq_badChecksum_iff, exec_frDecode_invalid h]
    by_cases herror : frameError s = .fBadChecksum
    · rw [if_pos herror]
      exact ⟨_, rfl, rfl, fun hne => absurd herror hne, fun _ => ⟨sum16_toNat _, rfl, rfl⟩, rfl, fun _ => rfl⟩
    · rw [if_neg herror]
      exact ⟨_, rfl, rfl, fun _ => rfl, fun heq => absurd heq herror, rfl, fun _ => rfl⟩

/-! ### A frame with one bit flipped (R309) -/

theorem xor_twoPow_ne (b : Byte) {k : Nat} (hk : k < 8) : b ^^^ BitVec.ofNat 8 (2 ^ k) ≠ b := by
  have hbit : BitVec.ofNat 8 (2 ^ k) ≠ 0 := by
    rw [Ne, BitVec.toNat_eq, BitVec.toNat_ofNat, Nat.mod_eq_of_lt (Nat.pow_lt_pow_right (by decide) hk)]
    exact (Nat.two_pow_pos k).ne'
  intro hb
  exact hbit ((BitVec.xor_right_inj b).mp (hb.trans BitVec.xor_zero.symm))

/-- FRAME of `u` is the frame of `s`, which fills RX_LEN, but for the byte at `i`. -/
structure DiffersAt (i : Nat) (s u : State) : Prop where
  rxLen : u.framer.rxLen = s.framer.rxLen
  filled : s.framer.rxLen.toNat = messageLength s + 2
  inside : i < messageLength s + 2
  differs : frameByte u i ≠ frameByte s i
  same : ∀ j, j < messageLength s + 2 → j ≠ i → frameByte u j = frameByte s j

section
variable {i : Nat} {s u : State} (hs : WellFramed s) (h : DiffersAt i s u)
include hs h

theorem DiffersAt.badSc (hi : i = 0) : frameError u = .fBadSc := by
  obtain ⟨hshort, hlong, hsc, -⟩ := hs
  subst hi
  rw [frameError, h.rxLen, if_neg (by omega), if_neg (by omega), if_pos (hsc ▸ h.differs)]

theorem DiffersAt.badSsc (hi : i = 1) : frameError u = .fBadSsc := by
  obtain ⟨hshort, hlong, hsc, hssc, -⟩ := hs
  subst hi
  have hsc' : frameByte u 0 = 0xCC := (h.same 0 (by omega) (by omega)).trans hsc
  rw [frameError, h.rxLen, if_neg (by omega), if_neg (by omega), if_neg (not_not.mpr hsc'), if_pos (hssc ▸ h.differs)]

theorem DiffersAt.badLen (hi : i = 2 ∨ i = 23) : frameError u = .fBadLen := by
  obtain ⟨hshort, hlong, hsc, hssc, hlen, -⟩ := hs
  have hsc' : frameByte u 0 = 0xCC := (h.same 0 (by omega) (by omega)).trans hsc
  have hssc' : frameByte u 1 = 0x01 := (h.same 1 (by omega) (by omega)).trans hssc
  have hlen' : messageLength u ≠ 24 + (frameByte u 23).toNat := by
    have hdiffers := h.differs
    rw [Ne, BitVec.toNat_eq] at hdiffers
    rcases hi with rfl | rfl
    · rw [h.same 23 (by omega) (by omega), ← hlen]
      exact hdiffers
    · rw [messageLength, h.same 2 (by omega) (by omega), ← messageLength, hlen]
      omega
  rw [frameError, h.rxLen, if_neg (by omega), if_neg (by omega), if_neg (not_not.mpr hsc'), if_neg (not_not.mpr hssc'),
    if_pos hlen']

/-- Elsewhere the difference passes every check before the checksum. -/
theorem DiffersAt.wellFramed (hi : i ≠ 0 ∧ i ≠ 1 ∧ i ≠ 2 ∧ i ≠ 23) :
    WellFramed u ∧ messageLength u = messageLength s := by
  obtain ⟨hshort, hlong, hsc, hssc, hlen, hcut⟩ := hs
  obtain ⟨h0, h1, h2, h23⟩ := hi
  have hml : messageLength u = messageLength s := congrArg BitVec.toNat (h.same 2 (by omega) h2.symm)
  refine ⟨?_, hml⟩
  rw [WellFramed, hml, h.rxLen, h.same 0 (by omega) h0.symm, h.same 1 (by omega) h1.symm,
    h.same 23 (by omega) h23.symm]
  exact ⟨hshort, hlong, hsc, hssc, hlen, hcut⟩

omit hs in
/-- A difference in the message changes its sum alone, one behind it the received checksum alone. -/
theorem DiffersAt.checksum_ne (hml : messageLength u = messageLength s)
    (hsum : sum16 (s.memRead 0x200 (messageLength s)) = receivedChecksum s) :
    sum16 (u.memRead 0x200 (messageLength u)) ≠ receivedChecksum u := by
  rw [receivedChecksum, hml]
  by_cases hi : i < messageLength s
  · have hdiffers := byteTotal_readBytes_ne hi h.differs fun j hj => h.same j (by omega)
    rw [h.same _ (by omega) (by omega), h.same _ (by omega) (by omega), ← receivedChecksum, ← hsum, Ne,
      BitVec.toNat_eq, sum16_toNat, sum16_toNat]
    exact hdiffers
  · have hbytes : u.memRead 0x200 (messageLength s) = s.memRead 0x200 (messageLength s) := by
      refine Memory.readBytes_congr _ _ _ _ fun c hlo hhi => ?_
      obtain ⟨j, rfl⟩ := Nat.exists_eq_add_of_le hlo
      exact h.same j (by omega) (by omega)
    have hinside := h.inside
    have hdiffers := h.differs
    rw [hbytes, hsum, receivedChecksum]
    obtain rfl | rfl : i = messageLength s ∨ i = messageLength s + 1 := by omega
    · rw [h.same (messageLength s + 1) (by omega) (by omega), Ne, BitVec.append_left_inj]
      exact hdiffers.symm
    · rw [h.same (messageLength s) (by omega) (by omega), Ne, BitVec.append_right_inj]
      exact hdiffers.symm
end

/-- One byte that differs makes an accepted frame an invalid one, and its place names the check (R309). -/
theorem DiffersAt.rejected {i : Nat} {s u : State} (hs : ValidFrame s) (h : DiffersAt i s u) :
    ¬ValidFrame u ∧ (frameError u).code =
      if i = 0 then 0x23 else if i = 1 then 0x24 else if i = 2 ∨ i = 23 then 0x25 else 0x26 := by
  obtain ⟨hframed, hsum⟩ := (validFrame_iff s).mp hs
  have early {e : CmdError} (herror : frameError u = e) (he : e ≠ .fBadChecksum) : ¬ValidFrame u := fun hu =>
    he (herror.symm.trans (frameError_wellFramed ((validFrame_iff u).mp hu).1))
  by_cases h0 : i = 0
  · have herror := h.badSc hframed h0
    exact ⟨early herror (by decide), by rw [herror, if_pos h0]; rfl⟩
  by_cases h1 : i = 1
  · have herror := h.badSsc hframed h1
    exact ⟨early herror (by decide), by rw [herror, if_neg h0, if_pos h1]; rfl⟩
  by_cases hlen : i = 2 ∨ i = 23
  · have herror := h.badLen hframed hlen
    exact ⟨early herror (by decide), by rw [herror, if_neg h0, if_neg h1, if_pos hlen]; rfl⟩
  · obtain ⟨h2, h23⟩ := not_or.mp hlen
    obtain ⟨hframed', hml⟩ := h.wellFramed hframed ⟨h0, h1, h2, h23⟩
    refine ⟨fun hu => h.checksum_ne hml hsum ((validFrame_iff u).mp hu).2, ?_⟩
    rw [frameError_wellFramed hframed', if_neg h0, if_neg h1, if_neg hlen]
    rfl

/-- Settles O24: a flipped bit is a byte that differs. -/
theorem singleBitFlipRejected : Obligations.SingleBitFlipRejected := by
  intro s u i k hs hlen hi hk hrx hflip
  have h : DiffersAt i s u := {
    rxLen := hrx
    filled := hlen
    inside := hi
    differs := by rw [hflip i hi, if_pos rfl]; exact xor_twoPow_ne _ hk
    same := fun j hj hji => by rw [hflip j hj, if_neg hji] }
  obtain ⟨hu, hcode⟩ := h.rejected hs
  rw [← hcode]
  refine ⟨_, exec_frDecode_invalid hu, rfl, ?rx, ?status⟩
  case rx => exact apply_ite State.rx _ _ _ |>.trans (ite_self _)
  case status => split <;> rfl

/-! ### What the encoders build, FR_DECODE accepts (R300, R307) -/

theorem frameByte_eq_getD {s : State} {n i : Nat} (h : i < n) : frameByte s i = (s.memRead 0x200 n).getD i 0 :=
  (memRead_getD s _ n i h).symm

/-- The frame around PD, received whole, is valid and its header is the one that was framed. -/
theorem Framed.received {h : HeaderRegs} {s t u : State} (hst : Framed h s t) (hpdl : h.pdl.toNat ≤ 231)
    (hbytes : ∀ j, j < 26 + h.pdl.toNat → frameByte u j = frameByte t j)
    (hlen : u.framer.rxLen = t.framer.frameLen) : ValidFrame u ∧ headerOfBytes (u.memRead 0x200 24) = h := by
  obtain ⟨hheader, hsum, hck, hframeLen, -⟩ := hst
  have read (n : Nat) (hn : n ≤ 26 + h.pdl.toNat) : u.memRead 0x200 n = t.memRead 0x200 n := by
    refine Memory.readBytes_congr _ _ _ _ fun c hlo hhi => ?_
    obtain ⟨j, rfl⟩ := Nat.exists_eq_add_of_le hlo
    exact hbytes j (by omega)
  have hheader' : u.memRead 0x200 24 = wireHeader h := (read 24 (by omega)).trans hheader
  have headerByte (j : Nat) (hj : j < 24) : frameByte u j = (wireHeader h).getD j 0 := by
    rw [frameByte_eq_getD hj, hheader']
  have hml : messageLength u = 24 + h.pdl.toNat := by
    have hbyte : frameByte u 2 = 24 + h.pdl := headerByte 2 (by decide)
    rw [messageLength, hbyte, BitVec.toNat_add]
    exact Nat.mod_eq_of_lt (by simp; omega)
  have hreceived : receivedChecksum u = t.framer.ckComputed := by
    have checksumByte (j : Nat) (hj : j < 2) :
        frameByte t (24 + h.pdl.toNat + j) = (wireHalf t.framer.ckComputed).getD j 0 := by
      rw [← hck, memRead_getD _ _ _ _ hj, frameByte]
      congr 1
      omega
    rw [receivedChecksum, hml, hbytes _ (by omega), hbytes _ (by omega), checksumByte 1 (by decide)]
    exact congrArg (· ++ _) (checksumByte 0 (by decide)) |>.trans BitVec.extractLsb'_append_extractLsb'
  refine ⟨(validFrame_iff u).mpr ⟨?framed, ?sum⟩, ?header⟩
  case framed =>
    rw [WellFramed, hml, hlen, hframeLen, headerByte 23 (by decide)]
    exact ⟨by omega, by omega, headerByte 0 (by decide), headerByte 1 (by decide), rfl, by omega⟩
  case sum => rw [hreceived, BitVec.toNat_eq, sum16_toNat, hml, read _ (by omega), hsum]
  case header => rw [hheader', ← List.append_nil (wireHeader h), headerOfBytes_wireHeader]

/-- Both encoders frame the TX registers that they leave. -/
theorem framed_of_encode {i : Instr} {s t : State} (hi : (∃ tnsel, i = .frEncodeReq tnsel) ∨ i = .frEncodeRsp)
    (hpdl : s.tx.pdl.toNat ≤ 231) (hexec : exec i s = .next t) : Framed t.tx s t ∧ t.tx.pdl = s.tx.pdl := by
  obtain ⟨tnsel, rfl⟩ | rfl := hi
  · obtain ⟨t', hexec', -, hframed, htx, -⟩ := (encodeRequestBuildsFrame s tnsel).1 hpdl
    obtain rfl : t' = t := Host.Outcome.next.inj (hexec'.symm.trans hexec)
    exact ⟨hframed, by rw [htx]⟩
  · obtain ⟨t', hexec', -, hframed, -, -, -, -, -, -, -, -, htx, -⟩ := (encodeResponseBuildsFrame s).1 hpdl
    obtain rfl : t' = t := Host.Outcome.next.inj (hexec'.symm.trans hexec)
    exact ⟨hframed, htx⟩

/-- Settles O25: the frame that an encoder leaves is received as a valid one. -/
theorem requestFrameDecodes : Obligations.RequestFrameDecodes := by
  intro s t u i hi hpdl hexec hbytes hlen
  obtain ⟨hframed, htx⟩ := framed_of_encode hi hpdl hexec
  rw [← htx] at hpdl hbytes
  obtain ⟨hvalid, hheader⟩ := hframed.received hpdl hbytes hlen
  rw [exec_frDecode_valid hvalid, hheader]
  exact ⟨_, rfl, rfl, rfl, rfl, rfl⟩

end Sys2Proof.Machine
end

section
/-! Discovery responses (42_framer.md R310, R311, R320, R321): what FR_DISC_ENCODE builds, what FR_DISC_DECODE accepts,
and the first check that rejects anything else. -/

namespace Sys2Proof.Machine

/-! ### Doubled bytes (R311, R320) -/

theorem doubled_and (b : Byte) : (b ||| 0xAA) &&& (b ||| 0x55) = b := by
  apply BitVec.eq_of_getLsbD_eq
  intro i hi
  rw [BitVec.getLsbD_and, BitVec.getLsbD_or, BitVec.getLsbD_or, ← Bool.or_and_distrib_left, ← BitVec.getLsbD_and]
  exact (congrArg (b.getLsbD i || ·) BitVec.getLsbD_zero).trans (Bool.or_false _)

theorem or_mask_and_mask (b mask : Byte) : (b ||| mask) &&& mask = mask := by
  apply BitVec.eq_of_getLsbD_eq
  intro i hi
  rw [BitVec.getLsbD_and, BitVec.getLsbD_or, Bool.and_comm, Bool.or_comm]
  exact inf_sup_self

/-- The pair of a byte stands at twice its index. -/
theorem doubled_getD (bs : List Byte) : ∀ i, i < bs.length →
    (bs.flatMap doubled).getD (2 * i) 0 = bs.getD i 0 ||| 0xAA ∧
      (bs.flatMap doubled).getD (2 * i + 1) 0 = bs.getD i 0 ||| 0x55 := by
  induction bs with
  | nil => intro i hi; exact absurd hi (Nat.not_lt_zero i)
  | cons b bs ih =>
    intro i hi
    cases i with
    | zero => exact ⟨rfl, rfl⟩
    | succ i => exact ih i (Nat.lt_of_succ_lt_succ hi)

theorem length_doubled (bs : List Byte) : (bs.flatMap doubled).length = 2 * bs.length := by
  induction bs with
  | nil => rfl
  | cons b bs ih => rw [List.flatMap_cons, List.length_append, ih, List.length_cons, Nat.mul_succ, Nat.add_comm]; rfl

/-! ### FR_DISC_ENCODE (R310, R311) -/

/-- Where FR_DISC_ENCODE ends. -/
def discEncodeEnd (npre : BitVec 3) (s : State) : State :=
  let s₁ := s.memWrite 0x640 (discResponse npre.toNat s.uid.self)
  done { s₁ with
    disc := { s₁.disc with len := BitVec.ofNat 5 (npre.toNat + 17) }
    framer := { s₁.framer with ckComputed := sum16 (doubledUid s.uid.self) } }

theorem exec_frDiscEncode (npre : BitVec 3) (s : State) :
    exec (.frDiscEncode npre) s = .next (discEncodeEnd npre s) := rfl

section
variable (npre : BitVec 3) (s : State)

theorem discEncodeEnd_byte {i : Nat} (h : i < npre.toNat + 17) :
    discByte (discEncodeEnd npre s) i = (discResponse npre.toNat s.uid.self).getD i 0 := discByte_write s _ i _ h

theorem discEncodeEnd_pre {i : Nat} (h : i < npre.toNat) : discByte (discEncodeEnd npre s) i = 0xFE := by
  rw [discEncodeEnd_byte _ _ (by omega), discResponse_getD_pre _ _ _ h]

theorem discEncodeEnd_tail {i : Nat} (h : i < 17) :
    discByte (discEncodeEnd npre s) (npre.toNat + i) = (discTail s.uid.self).getD i 0 := by
  rw [discEncodeEnd_byte _ _ (by omega), discResponse_getD_tail]

theorem discEncodeEnd_delim : discByte (discEncodeEnd npre s) npre.toNat = 0xAA :=
  discEncodeEnd_tail npre s (i := 0) (by decide)

/-- The 8 bytes that stand doubled behind the delimiter. -/
def discPayload (u : Uid) : List Byte := wireUid u ++ wireHalf (sum16 (doubledUid u))

theorem discTail_eq (u : Uid) : discTail u = 0xAA :: (discPayload u).flatMap doubled := by
  rw [discTail, discPayload, List.flatMap_append]

theorem discPayload_checksum (u : Uid) :
    (discPayload u).getD 6 0 ++ (discPayload u).getD 7 0 = sum16 (doubledUid u) :=
  show (sum16 (doubledUid u)).extractLsb' 8 8 ++ (sum16 (doubledUid u)).extractLsb' 0 8 = sum16 (doubledUid u) from
    BitVec.extractLsb'_append_extractLsb'

/-- The pairs behind the delimiter. -/
theorem discEncodeEnd_pair {i : Nat} (h : i < 8) :
    discByte (discEncodeEnd npre s) (npre.toNat + 1 + 2 * i) = (discPayload s.uid.self).getD i 0 ||| 0xAA ∧
      discByte (discEncodeEnd npre s) (npre.toNat + 2 + 2 * i) = (discPayload s.uid.self).getD i 0 ||| 0x55 := by
  have hodd : npre.toNat + 1 + 2 * i = npre.toNat + (2 * i + 1) := by omega
  have heven : npre.toNat + 2 + 2 * i = npre.toNat + (2 * i + 1 + 1) := by omega
  rw [hodd, heven, discEncodeEnd_tail _ _ (by omega), discEncodeEnd_tail _ _ (by omega), discTail_eq,
    List.getD_cons_succ, List.getD_cons_succ]
  exact doubled_getD _ i h

/-- The sum over the encoded UID. -/
theorem discEncodeEnd_total : discTotal (discEncodeEnd npre s) npre.toNat = (sum16 (doubledUid s.uid.self)).toNat := by
  have hread : (discEncodeEnd npre s).memRead 0x640 (npre.toNat + 17) = discResponse npre.toNat s.uid.self := by
    have h := Memory.readBytes_writeBytes_self s.mem 0x640 (discResponse npre.toNat s.uid.self)
    rwa [length_discResponse] at h
  have hslice : (discEncodeEnd npre s).memRead (0x640 + npre.toNat + 1) 12 = doubledUid s.uid.self := by
    have h := readBytes_slice (discEncodeEnd npre s).mem 0x640 (npre.toNat + 17) (npre.toNat + 1) 12 (by omega)
    rw [← State.memRead, hread] at h
    rw [State.memRead, Nat.add_assoc, ← h, discResponse_eq, ← List.drop_drop, List.drop_left' List.length_replicate,
      discTail, List.drop_succ_cons, List.drop_zero, List.take_left' (by rw [length_doubled]; rfl), doubledUid,
      uidBe_eq]
  rw [discTotal, hslice, sum16_toNat]
end

/-- Settles O26: the bytes are those of the response, and nothing else is written. -/
theorem discEncodeResponse : Obligations.DiscEncodeResponse := by
  intro s npre
  refine ⟨_, exec_frDiscEncode npre s, rfl, fun i hi => discEncodeEnd_pre npre s hi, discEncodeEnd_delim npre s,
    fun i hi => ?uid, (discEncodeEnd_total npre s).symm, fun i hi => ?checksum, ?len, rfl, rfl, ?outside, rfl⟩
  case uid =>
    have h := discEncodeEnd_pair npre s (i := i) (by omega)
    rwa [discPayload, List.getD_append _ _ _ _ hi] at h
  case checksum =>
    have h := discEncodeEnd_pair npre s (i := 6 + i) (by omega)
    rw [discPayload, List.getD_append_right _ _ _ _ (by simp), length_wireUid, Nat.add_sub_cancel_left] at h
    have hodd : npre.toNat + 13 + 2 * i = npre.toNat + 1 + 2 * (6 + i) := by omega
    have heven : npre.toNat + 14 + 2 * i = npre.toNat + 2 + 2 * (6 + i) := by omega
    rw [hodd, heven]
    exact h
  case len =>
    have hnpre := npre.isLt
    show (BitVec.ofNat 5 (npre.toNat + 17)).toNat = _
    rw [BitVec.toNat_ofNat]
    omega
  case outside =>
    intro a ha
    exact Memory.read_writeBytes_outside _ _ _ _ (by rwa [length_discResponse])

/-! ### FR_DISC_DECODE (R321) -/

theorem exec_frDiscDecode_long {s : State} (h : 24 < s.disc.len.toNat) :
    exec .frDiscDecode s = .next (frDiscFail .dRxLen s) := if_pos h

theorem exec_frDiscDecode_empty {s : State} (h : s.disc.len.toNat = 0) :
    exec .frDiscDecode s = .next (frDiscFail .dNoResponse s) := (if_neg (by rw [h]; decide)).trans (if_pos h)

theorem exec_frDiscDecode_noDelim {s : State} (hpos : 0 < s.disc.len.toNat) (hlen : s.disc.len.toNat ≤ 24)
    (h : ∀ p, ¬DelimAt s p) : exec .frDiscDecode s = .next (frDiscFail .dNoDelim s) :=
  (if_neg (Nat.not_lt.mpr hlen)).trans ((if_neg hpos.ne').trans (by rw [(delimIndex_eq_none s hpos).mpr h]))

/-- DELIM_POS written. -/
def withDelimPos (p : Nat) (s : State) : State := { s with disc := { s.disc with delimPos := BitVec.ofNat 3 p } }

/-- CK_RESULT of the pairs behind the delimiter at `p`. -/
def discCkResult (p : Nat) (s : State) : FramerRegs :=
  { s.framer with ckComputed := BitVec.ofNat 16 (discTotal s p), ckReceived := discRaw s p 6 ++ discRaw s p 7 }

/-- The UID that the pairs behind the delimiter at `p` reconstruct to. -/
def discUid (p : Nat) (s : State) : Uid :=
  ⟨discRaw s p 0 ++ discRaw s p 1, discRaw s p 2 ++ discRaw s p 3 ++ discRaw s p 4 ++ discRaw s p 5⟩

/-- The discovery-response registers and CK_RESULT written. -/
def withDiscResult (d : DiscRegs) (f : FramerRegs) (s : State) : State := { s with disc := d, framer := f }

/-- What a rejection after these writes leaves alone, whatever they write. -/
theorem withDiscResult_failed (e : CmdError) (d : DiscRegs) (f : FramerRegs) (s : State) :
    { frDiscFail e (withDiscResult d f s) with status := s.status, disc := s.disc, framer := s.framer } = s ∧
      KeepsBytes s (frDiscFail e (withDiscResult d f s)) := ⟨rfl, fun _ => rfl⟩

theorem withDiscResult_done (d : DiscRegs) (f : FramerRegs) (s : State) :
    { done (withDiscResult d f s) with status := s.status, disc := s.disc, framer := s.framer } = s ∧
      KeepsBytes s (done (withDiscResult d f s)) := ⟨rfl, fun _ => rfl⟩

section
variable {s : State} {p : Nat} (hlen : s.disc.len.toNat ≤ 24) (hp : DelimAt s p)
include hlen hp

theorem exec_frDiscDecode_truncated (h : s.disc.len.toNat < p + 17) :
    exec .frDiscDecode s = .next (frDiscFail .dTruncated (withDelimPos p s)) :=
  (execFrDiscDecode_eq s p hlen hp).trans (if_pos h)

variable (hwhole : p + 17 ≤ s.disc.len.toNat)
include hwhole

theorem exec_frDiscDecode_mask (h : ¬MasksHold s p) :
    exec .frDiscDecode s = .next (frDiscFail .dMask (withDelimPos p s)) := by
  have hmask : (!(bytePairs (s.memRead (0x640 + p + 1) 16)).all maskOk) = true := by
    rw [Bool.not_eq_true', Bool.eq_false_iff, Ne, disc_masks]; exact h
  exact (execFrDiscDecode_eq s p hlen hp).trans ((if_neg (Nat.not_lt.mpr hwhole)).trans (if_pos hmask))

theorem exec_frDiscDecode_checksum (h : MasksHold s p) : exec .frDiscDecode s =
    if discTotal s p ≠ (discRaw s p 6 ++ discRaw s p 7).toNat then
      .next (frDiscFail .dChecksum (withDiscResult { s.disc with delimPos := BitVec.ofNat 3 p } (discCkResult p s) s))
    else .next (done (withDiscResult
      { s.disc with delimPos := BitVec.ofNat 3 p, uid := discUid p s, valid := true } (discCkResult p s) s)) := by
  have hmask : ¬(!(bytePairs (s.memRead (0x640 + p + 1) 16)).all maskOk) = true := by
    rw [(disc_masks s p).mpr h]; decide
  exact (execFrDiscDecode_eq s p hlen hp).trans ((if_neg (Nat.not_lt.mpr hwhole)).trans (if_neg hmask))
end

/-- Settles O27: one clause for each place where the chain of checks ends. -/
theorem discoveryResponseDecode : Obligations.DiscoveryResponseDecode := by
  refine ⟨?accepted, ?noDelim, ?incomplete, ?checksum⟩
  case accepted =>
    intro s p hlen hp hwhole hmasks hsum
    have hexec := (exec_frDiscDecode_checksum hlen hp hwhole hmasks).trans (if_neg (not_not.mpr hsum))
    exact ⟨_, hexec, rfl, rfl, rfl, withDiscResult_done _ _ s⟩
  case noDelim =>
    rintro s code (⟨hlong, rfl⟩ | ⟨hempty, rfl⟩ | ⟨hpos, hlen, hnone, rfl⟩)
    · exact ⟨_, exec_frDiscDecode_long hlong, rfl, rfl, rfl, fun _ => rfl⟩
    · exact ⟨_, exec_frDiscDecode_empty hempty, rfl, rfl, rfl, fun _ => rfl⟩
    · exact ⟨_, exec_frDiscDecode_noDelim hpos hlen hnone, rfl, rfl, rfl, fun _ => rfl⟩
  case incomplete =>
    rintro s p code hlen hp (⟨hshort, rfl⟩ | ⟨hwhole, hmasks, rfl⟩)
    · exact ⟨_, exec_frDiscDecode_truncated hlen hp hshort, rfl, rfl, rfl, fun _ => rfl⟩
    · exact ⟨_, exec_frDiscDecode_mask hlen hp hwhole hmasks, rfl, rfl, rfl, fun _ => rfl⟩
  case checksum =>
    intro s p hlen hp hwhole hmasks hsum
    have hexec := (exec_frDiscDecode_checksum hlen hp hwhole hmasks).trans (if_pos hsum)
    exact ⟨_, hexec, rfl, rfl, rfl, withDiscResult_failed _ _ _ s⟩

/-! ### What FR_DISC_ENCODE builds, FR_DISC_DECODE accepts (R310, R321) -/

section
variable {s u : State} {npre : BitVec 3}
  (hbytes : ∀ i, i < npre.toNat + 17 → discByte u i = discByte (discEncodeEnd npre s) i)
include hbytes

theorem received_pair {i : Nat} (hi : i < 8) :
    discByte u (npre.toNat + 1 + 2 * i) = (discPayload s.uid.self).getD i 0 ||| 0xAA ∧
      discByte u (npre.toNat + 2 + 2 * i) = (discPayload s.uid.self).getD i 0 ||| 0x55 := by
  rw [hbytes _ (by omega), hbytes _ (by omega)]
  exact discEncodeEnd_pair npre s hi

theorem received_masksHold : MasksHold u npre.toNat := by
  intro i hi
  obtain ⟨ha, hb⟩ := received_pair hbytes hi
  rw [ha, hb]
  exact ⟨or_mask_and_mask _ _, or_mask_and_mask _ _⟩

theorem received_raw {i : Nat} (hi : i < 8) : discRaw u npre.toNat i = (discPayload s.uid.self).getD i 0 := by
  obtain ⟨ha, hb⟩ := received_pair hbytes hi
  rw [discRaw, ha, hb, doubled_and]

theorem received_uid : discUid npre.toNat u = s.uid.self := by
  have hraw := fun i (hi : i < 8) => received_raw hbytes hi
  rw [discUid, hraw 0 (by decide), hraw 1 (by decide), hraw 2 (by decide), hraw 3 (by decide), hraw 4 (by decide),
    hraw 5 (by decide), ← uidOfBe_six]
  exact uidOfBe_wireUid s.uid.self

theorem received_checksum : discTotal u npre.toNat = (discRaw u npre.toNat 6 ++ discRaw u npre.toNat 7).toNat := by
  have htotal : discTotal u npre.toNat = discTotal (discEncodeEnd npre s) npre.toNat := by
    refine congrArg byteTotal (Memory.readBytes_congr _ _ _ _ fun c hlo hhi => ?_)
    obtain ⟨j, rfl⟩ := Nat.exists_eq_add_of_le (show 0x640 ≤ c by omega)
    exact hbytes j (by omega)
  rw [htotal, discEncodeEnd_total, received_raw hbytes (by decide), received_raw hbytes (by decide)]
  exact congrArg BitVec.toNat (discPayload_checksum s.uid.self).symm

theorem received_delimAt (hlen : npre.toNat < u.disc.len.toNat) : DelimAt u npre.toNat := by
  refine ⟨Nat.le_of_lt_succ npre.isLt, hlen, ?delim, fun i hi => ?preamble⟩
  case delim => rw [hbytes _ (by omega), discEncodeEnd_delim]
  case preamble => rw [hbytes _ (by omega), discEncodeEnd_pre npre s hi]; decide
end

/-- Settles O28: the response received whole passes every check, and its pairs reconstruct to SELF. -/
theorem discoveryResponseDecodes : Obligations.DiscoveryResponseDecodes := by
  intro s t u npre hexec hbytes hlen
  obtain rfl : discEncodeEnd npre s = t := Host.Outcome.next.inj hexec
  have hnpre := npre.isLt
  have hlen' : u.disc.len.toNat = npre.toNat + 17 := by
    rw [hlen]
    show (BitVec.ofNat 5 (npre.toNat + 17)).toNat = _
    rw [BitVec.toNat_ofNat]
    omega
  obtain ⟨v, hv, hdone, hdisc, -⟩ := discoveryResponseDecode.1 u npre.toNat (by omega)
    (received_delimAt hbytes (by omega)) hlen'.ge (received_masksHold hbytes) (received_checksum hbytes)
  refine ⟨v, hv, hdone, ?_, ?_, ?_⟩
  · rw [hdisc]
  · rw [hdisc]; exact received_uid hbytes
  · rw [hdisc, BitVec.ofNat_toNat, BitVec.setWidth_eq]

end Sys2Proof.Machine
end

section
/-! The timing controller (43_timing.md R370-R385): what each command leaves in the timing registers, and what the turns
of the alarm agent and of the time source leave in the state. -/

namespace Sys2Proof.Machine

/-! ### Categories and kinds by their codes (R370, R371) -/

theorem exists_gapCatOf {cat : BitVec 3} (h : cat.toNat ≤ 4) : ∃ c, gapCatOf cat = some c ∧ c.code = cat := by
  have hcat : cat = 0 ∨ cat = 1 ∨ cat = 2 ∨ cat = 3 ∨ cat = 4 := by bv_omega
  obtain rfl | rfl | rfl | rfl | rfl := hcat <;> exact ⟨_, rfl, rfl⟩

theorem gapCatOf_reserved {cat : BitVec 3} (h : 4 < cat.toNat) : gapCatOf cat = none := by
  unfold gapCatOf
  split
  case h_6 => rfl
  all_goals omega

theorem code_eventKindOf (kind : BitVec 2) : (eventKindOf kind).code = kind := by
  have hkind : kind = 0 ∨ kind = 1 ∨ kind = 2 ∨ kind = 3 := by bv_omega
  obtain rfl | rfl | rfl | rfl := hkind <;> rfl

theorem EventKind.sentRequest_iff (k : EventKind) : k = .sentRequest ↔ k.code = 1 := by cases k <;> decide

theorem EventKind.sentBranch_iff (k : EventKind) : k = .sentBranch ↔ k.code = 2 := by cases k <;> decide

theorem GapCat.gap_eq (c : GapCat) : c.gap = requiredGap c := by cases c <;> rfl

theorem requiredGap_lt (c : GapCat) : requiredGap c < 2 ^ 32 := by cases c <;> decide

/-! ### Times modulo 2^64 (R372, R376) -/

theorem toNat_add_micros (t : Time) (n : Nat) : (t + BitVec.ofNat 64 n).toNat = (t.toNat + n) % 2 ^ 64 := by
  rw [BitVec.toNat_add, BitVec.toNat_ofNat, Nat.add_mod_mod]

theorem elapsedTime_eq (s : State) :
    elapsedTime s = (s.now.toNat + 2 ^ 64 - s.timing.lastTs.toNat) % 2 ^ 64 := by
  have hts := s.timing.lastTs.isLt
  rw [elapsedTime, BitVec.toNat_sub, ← Nat.sub_add_comm hts.le, Nat.add_comm]

/-! ### The commands' frame -/

/-- What a command that has written timing registers alone, and ends with `done`, leaves as it was. -/
theorem done_timing_frame (s : State) (r : TimingRegs) :
    let t := done { s with timing := r }
    { t with status := s.status, timing := s.timing } = s ∧ KeepsBytes s t :=
  ⟨rfl, fun _ => rfl⟩

/-! ### TM_STAMP and TM_SETCAT (R374, R375) -/

section
variable {cat : BitVec 3}

theorem exec_tmStamp {c : GapCat} (h : gapCatOf cat = some c) (kind : BitVec 2) (s : State) :
    exec (.tmStamp cat kind) s = .next (done { s with timing :=
      { s.timing with lastTs := s.now, lastCat := c, lastKind := eventKindOf kind } }) := by
  show execTmStamp cat kind s = _
  rw [execTmStamp, h]

theorem exec_tmSetcat {c : GapCat} (h : gapCatOf cat = some c) (s : State) :
    exec (.tmSetcat cat) s = .next (done { s with timing := { s.timing with lastCat := c } }) := by
  show execTmSetcat cat s = _
  rw [execTmSetcat, h]

variable (h : 4 < cat.toNat)
include h

theorem exec_tmStamp_reserved (kind : BitVec 2) (s : State) :
    exec (.tmStamp cat kind) s = .next (raiseError .tBadCat s) := by
  show execTmStamp cat kind s = _
  rw [execTmStamp, gapCatOf_reserved h]

theorem exec_tmSetcat_reserved (s : State) : exec (.tmSetcat cat) s = .next (raiseError .tBadCat s) := by
  show execTmSetcat cat s = _
  rw [execTmSetcat, gapCatOf_reserved h]
end

/-- Settles O29: the codes up to 4 are those of the categories, and no other code has one. -/
theorem stampAndSetCategory : Obligations.StampAndSetCategory := by
  refine ⟨?stamp, ?setcat, ?reserved⟩
  case stamp =>
    intro s cat kind hcat
    obtain ⟨c, hc, hcode⟩ := exists_gapCatOf hcat
    exact ⟨_, exec_tmStamp hc kind s, rfl, rfl, hcode, code_eventKindOf kind, rfl, done_timing_frame s _⟩
  case setcat =>
    intro s cat hcat
    obtain ⟨c, hc, hcode⟩ := exists_gapCatOf hcat
    exact ⟨_, exec_tmSetcat hc s, rfl, hcode, rfl, done_timing_frame s _⟩
  case reserved =>
    rintro s cat kind i hcat (rfl | rfl)
    · exact ⟨_, exec_tmStamp_reserved hcat kind s, rfl, rfl, fun _ => rfl⟩
    · exact ⟨_, exec_tmSetcat_reserved hcat s, rfl, rfl, fun _ => rfl⟩

/-! ### TM_GAP_CHECK (R376) -/

/-- What TM_GAP_CHECK writes in either case: the elapsed time, capped, and the required gap. -/
def gapMeasured (s : State) : TimingRegs :=
  { s.timing with
    elapsed := BitVec.ofNat 32 (min (elapsedTime s) (2 ^ 32 - 1))
    reqGap := BitVec.ofNat 32 (requiredGap s.timing.lastCat) }

theorem gapMeasured_elapsed (s : State) : (gapMeasured s).elapsed.toNat = min (elapsedTime s) (2 ^ 32 - 1) :=
  Nat.mod_eq_of_lt (by omega)

theorem gapMeasured_reqGap (s : State) : (gapMeasured s).reqGap.toNat = requiredGap s.timing.lastCat :=
  Nat.mod_eq_of_lt (requiredGap_lt _)

theorem exec_tmGapCheck (s : State) : exec .tmGapCheck s =
    if requiredGap s.timing.lastCat ≤ elapsedTime s then
      .next (done { s with timing := { gapMeasured s with ready := true, remain := 0 } })
    else
      .next (done { s with timing :=
        { gapMeasured s with
          ready := false, remain := BitVec.ofNat 32 (requiredGap s.timing.lastCat - elapsedTime s),
          alarmAt := s.timing.lastTs + BitVec.ofNat 64 (requiredGap s.timing.lastCat),
          armed := true, early := false } }) := by
  rw [gapMeasured, ← GapCat.gap_eq]
  rfl

/-- Settles O30: the gap has passed or it is short, and the gaps are small enough that no register wraps. -/
theorem gapCheck : Obligations.GapCheck := by
  intro s
  dsimp only
  rw [← elapsedTime_eq]
  obtain hshort | hready := Nat.lt_or_ge (elapsedTime s) (requiredGap s.timing.lastCat)
  case inl =>
    have hremain : requiredGap s.timing.lastCat - elapsedTime s < 2 ^ 32 :=
      (Nat.sub_le _ _).trans_lt (requiredGap_lt _)
    exact ⟨_, (exec_tmGapCheck s).trans (if_neg hshort.not_ge), rfl, gapMeasured_elapsed s, gapMeasured_reqGap s,
      fun h => absurd h hshort.not_ge, fun _ => ⟨Nat.mod_eq_of_lt hremain, toNat_add_micros _ _, rfl⟩,
      done_timing_frame s _⟩
  case inr =>
    exact ⟨_, (exec_tmGapCheck s).trans (if_pos hready), rfl, gapMeasured_elapsed s, gapMeasured_reqGap s,
      fun _ => ⟨rfl, rfl, rfl⟩, fun h => absurd hready h.not_ge, done_timing_frame s _⟩

/-! ### TM_RESP_WAIT and TM_CANCEL (R381, R382) -/

/-- The condition under which TM_RESP_WAIT arms the response-lost alarm. -/
abbrev AwaitsResponse (s : State) (rxd : Bool) : Prop :=
  s.config.earlyEn = true ∧ (s.timing.lastKind.code = 1 ∨ s.timing.lastKind.code = 2) ∧ rxd = false

theorem awaitsResponse_iff (s : State) (rxd : Bool) :
    AwaitsResponse s rxd ↔
      s.config.earlyEn ∧ (s.timing.lastKind = .sentRequest ∨ s.timing.lastKind = .sentBranch) ∧ ¬rxd := by
  rw [AwaitsResponse, EventKind.sentRequest_iff, EventKind.sentBranch_iff, Bool.not_eq_true]

theorem exec_tmRespWait_arms {s : State} {rxd : Bool} (h : AwaitsResponse s rxd) :
    exec (.tmRespWait rxd) s = .next (done { s with timing :=
      { s.timing with
        alarmAt := s.timing.lastTs + BitVec.ofNat 64 2800, armed := true, early := true, rwArmed := true } }) :=
  if_pos ((awaitsResponse_iff s rxd).mp h)

theorem exec_tmRespWait_clears {s : State} {rxd : Bool} (h : ¬AwaitsResponse s rxd) :
    exec (.tmRespWait rxd) s = .next (done { s with timing := { s.timing with rwArmed := false } }) :=
  if_neg fun h' => h ((awaitsResponse_iff s rxd).mpr h')

/-- Settles O31: the kinds 1 and 2 are the request and the branch. -/
theorem responseWaitAndCancel : Obligations.ResponseWaitAndCancel := by
  refine ⟨fun s rxd => ?wait, fun s => ⟨_, rfl, rfl, rfl, done_timing_frame s _⟩⟩
  by_cases h : AwaitsResponse s rxd
  · exact ⟨_, exec_tmRespWait_arms h, rfl, fun _ => ⟨toNat_add_micros _ _, rfl⟩, fun hn => absurd h hn,
      done_timing_frame s _⟩
  · exact ⟨_, exec_tmRespWait_clears h, rfl, fun hy => absurd hy h, fun _ => rfl, done_timing_frame s _⟩

/-! ### The agents (R372, R385) -/

/-- The alarm agent's guard: the alarm is armed and NOW has reached the deadline. -/
abbrev AlarmDue (s : State) : Prop := s.timing.armed = true ∧ s.timing.alarmAt.toNat ≤ s.now.toNat

theorem alarmEnabled_iff (s : State) : alarmEnabled s = true ↔ AlarmDue s := by
  rw [alarmEnabled, Bool.and_eq_true, decide_eq_true_eq]

theorem alarmStep_due {s : State} (h : AlarmDue s) :
    alarmStep s = { s with timing := { s.timing with armed := false }, irqPend := s.irqPend ||| 0b00001 } := by
  obtain ⟨-, hfires⟩ | ⟨hoff, -⟩ := alarmStep_cases s
  · exact hfires
  · exact absurd ((alarmEnabled_iff s).mpr h) (Bool.eq_false_iff.mp hoff)

theorem alarmStep_not_due {s : State} (h : ¬AlarmDue s) : alarmStep s = s := by
  obtain ⟨hon, -⟩ | ⟨-, hidle⟩ := alarmStep_cases s
  · exact absurd ((alarmEnabled_iff s).mp hon) h
  · exact hidle

/-- A placed turn of the alarm agent. -/
theorem step_alarm {s : State} {rest : List Event} (h : s.inputs = .alarm :: rest) :
    step s = .next (alarmStep { s with inputs := rest }) :=
  step_cons s _ rest h

/-- Settles O32: the placed turn is the alarm agent's step, whose guard holds. -/
theorem alarmFiresWhenDue : Obligations.AlarmFiresWhenDue := by
  intro s rest hinputs harmed hdue
  have hfires := alarmStep_due (s := { s with inputs := rest }) ⟨harmed, hdue⟩
  exact ⟨_, (step_alarm hinputs).trans (congrArg _ hfires), rfl, irq_bits s.irqPend _ 0 (by decide) rfl,
    rfl, fun _ => rfl⟩

/-- Settles O33: the time source adds to NOW alone, and the alarm agent acts only where its guard holds. -/
theorem agentTurns : Obligations.AgentTurns := by
  refine ⟨?tick, ?notDue, ?unplacedDue, ?unplacedNotDue, ?quiescent⟩
  case tick =>
    intro s rest k hk hinputs
    exact ⟨_, step_cons s _ rest hinputs, toNat_add_micros s.now k, rfl, fun _ => rfl⟩
  case notDue =>
    intro s rest hinputs hdue
    exact (step_alarm hinputs).trans (congrArg _ (alarmStep_not_due hdue))
  case unplacedDue =>
    intro s hinputs harmed hdue
    have hfires := alarmStep_due ⟨harmed, hdue⟩
    exact ⟨_, (step_nil s hinputs).trans (congrArg _ hfires), rfl,
      (irq_bits s.irqPend _ 0 (by decide) rfl 0 (by decide)).trans (Bool.or_true _)⟩
  case unplacedNotDue =>
    intro s hinputs hdue
    exact (step_nil s hinputs).trans (congrArg _ (alarmStep_not_due hdue))
  case quiescent =>
    intro s hinputs hquiet
    have hdue : ¬AlarmDue s := fun h => absurd h.1 (Bool.eq_false_iff.mp hquiet)
    exact (step_nil s hinputs).trans (congrArg _ (alarmStep_not_due hdue))

end Sys2Proof.Machine
end

section
/-! The dispatch unit (44_dispatch.md R420-R435): the PID table's lookup, the first failing step of DP_VALIDATE, the
decision of DP_CHECK on the handler's output, and what both let through. -/

namespace Sys2Proof.Machine

/-! ### The PID table (R423) -/

/-- `Lookup(pid)` tests an entry for this. -/
abbrev PidEntry.Matches (e : PidEntry) (pid : Half) : Prop := e.valid = true ∧ e.pid = pid

theorem PidEntry.matches_iff (e : PidEntry) (pid : Half) : (e.valid && e.pid == pid) = true ↔ e.Matches pid := by
  rw [Bool.and_eq_true, beq_iff_eq]

theorem PidEntry.not_matches_iff (e : PidEntry) (pid : Half) :
    (!(e.valid && e.pid == pid)) = true ↔ ¬e.Matches pid := by
  rw [Bool.not_eq_true', ← Bool.not_eq_true, PidEntry.matches_iff]

theorem lookupPid_eq_some_iff (s : State) (pid : Half) (e : PidEntry) :
    lookupPid s pid = some e ↔ FirstEntry s pid e := by
  rw [lookupPid, List.find?_eq_some_iff_getElem]
  simp only [PidEntry.matches_iff, PidEntry.not_matches_iff]
  constructor
  case mp =>
    rintro ⟨⟨hvalid, hpid⟩, i, hi, hentry, hbelow⟩
    exact ⟨⟨i, by simpa using hi⟩, hentry, hvalid, hpid, fun j hj => hbelow j hj⟩
  case mpr =>
    rintro ⟨i, hentry, hvalid, hpid, hbelow⟩
    exact ⟨⟨hvalid, hpid⟩, i, by simp, hentry, fun j hj => hbelow ⟨j, hj.trans i.isLt⟩ hj⟩

theorem lookupPid_eq_none_iff (s : State) (pid : Half) :
    lookupPid s pid = none ↔ ∀ i : Fin 64, ¬s.pidTable[i].Matches pid := by
  rw [lookupPid, List.find?_eq_none]
  simp only [PidEntry.matches_iff, Vector.mem_toList_iff, Vector.mem_iff_getElem]
  exact ⟨fun h i => h _ ⟨i, i.isLt, rfl⟩, fun h _ ⟨i, hi, hentry⟩ => hentry ▸ h ⟨i, hi⟩⟩

theorem lookupPid_eq_none_of_no_entry {s : State} {pid : Half} (h : ∀ e, ¬FirstEntry s pid e) :
    lookupPid s pid = none :=
  Option.eq_none_iff_forall_ne_some.mpr fun e he => h e ((lookupPid_eq_some_iff s pid e).mp he)

theorem PidEntry.supports_iff (e : PidEntry) (cc : Byte) : e.supports cc = true ↔ EntrySupports e cc := by
  unfold PidEntry.supports EntrySupports
  split
  next hdisc => subst hdisc; simp
  split
  next hget => subst hget; simp
  split
  next hset => subst hset; simp
  next hdisc hget hset =>
    refine iff_of_false Bool.false_ne_true ?_
    rintro (⟨h, -⟩ | ⟨h, -⟩ | ⟨h, -⟩)
    exacts [hdisc h, hget h, hset h]

/-- Settles O34: the search runs in the order of the indices. -/
theorem lookupLowestIndex : Obligations.LookupLowestIndex := fun s pid =>
  ⟨lookupPid_eq_some_iff s pid, lookupPid_eq_none_iff s pid, PidEntry.supports_iff⟩

/-! ### The validation steps (R422) -/

theorem badFormat_iff (s : State) : badFormat s = true ↔ ¬FormatOk s := by
  simp [badFormat, FormatOk, isBroadcast_iff, imp_iff_not_or, or_assoc]

theorem badSubDevice_iff (s : State) : badSubDevice s = true ↔ SubDeviceBad s := by
  simp [badSubDevice, SubDeviceBad]

/-- The reason of the first of the steps 2 to 5 that rejects the request, if one does. -/
def rejection (s : State) : Option Half :=
  if badFormat s then some 0x0001
  else
    match lookupPid s s.rx.ctl1.pid with
    | none => some 0x0000
    | some e =>
      if !e.supports s.rx.ctl0.cc then some 0x0005
      else if badSubDevice s then some 0x0009
      else none

section
variable {s : State}

theorem rejection_badFormat (h : ¬FormatOk s) : rejection s = some 0x0001 :=
  if_pos ((badFormat_iff s).mpr h)

variable (hformat : FormatOk s)
include hformat

theorem badFormat_eq_false : badFormat s = false :=
  Bool.eq_false_iff.mpr fun hbad => (badFormat_iff s).mp hbad hformat

theorem rejection_unknownPid (h : ∀ e, ¬FirstEntry s s.rx.ctl1.pid e) : rejection s = some 0x0000 := by
  simp [rejection, badFormat_eq_false hformat, lookupPid_eq_none_of_no_entry h]

variable {e : PidEntry} (hentry : FirstEntry s s.rx.ctl1.pid e)
include hentry

theorem rejection_unsupported (h : ¬EntrySupports e s.rx.ctl0.cc) : rejection s = some 0x0005 := by
  simp [rejection, badFormat_eq_false hformat, (lookupPid_eq_some_iff _ _ _).mpr hentry,
    Bool.eq_false_iff.mpr (mt (e.supports_iff _).mp h)]

variable (hsupports : EntrySupports e s.rx.ctl0.cc)
include hsupports

theorem rejection_subDevice (h : SubDeviceBad s) : rejection s = some 0x0009 := by
  simp [rejection, badFormat_eq_false hformat, (lookupPid_eq_some_iff _ _ _).mpr hentry,
    (e.supports_iff _).mpr hsupports, (badSubDevice_iff s).mpr h]

theorem rejection_eq_none (h : ¬SubDeviceBad s) : rejection s = none := by
  simp [rejection, badFormat_eq_false hformat, (lookupPid_eq_some_iff _ _ _).mpr hentry,
    (e.supports_iff _).mpr hsupports, Bool.eq_false_iff.mpr (mt (badSubDevice_iff s).mp h)]

end

/-! ### DP_VALIDATE (R422) -/

/-- DP_VALIDATE goes by the address, then by the first failing step. -/
theorem validateRequest_eq (s : State) : validateRequest s =
    if !isTarget s.uid.self s.rx.dest then
      { s with dispatch := { s.dispatch with notTarget := true, phase := .suppressed } }
    else
      match rejection s with
      | some r => nack r s
      | none => { s with dispatch := { s.dispatch with phase := .validating, action := .callHandler } } := by
  unfold validateRequest rejection
  split
  · rfl
  split
  · rfl
  cases lookupPid s s.rx.ctl1.pid with
  | none => rfl
  | some e =>
    dsimp only
    split
    · rfl
    split <;> rfl

/-- Where DP_VALIDATE ends with an accepted frame. -/
def validated (s : State) : State := done (validateRequest (clearDecision s))

theorem exec_dpValidate {s : State} (h : s.framer.frameValid = true) : exec .dpValidate s = .next (validated s) :=
  if_neg (by rw [h]; decide)

theorem exec_dpValidate_noFrame {s : State} (h : s.framer.frameValid = false) :
    exec .dpValidate s = .next (raiseError .seqErr s) :=
  if_pos (by rw [h]; rfl)

theorem validateRequest_frame (s : State) :
    { validateRequest s with dispatch := s.dispatch, tx := s.tx, mem := s.mem } = s := by
  rw [validateRequest_eq]
  split
  · rfl
  split
  · exact nack_frame _ s
  · rfl

theorem validateRequest_status (s : State) : (validateRequest s).status = s.status :=
  (congrArg State.status (validateRequest_frame s) :)

theorem validated_frame (s : State) :
    { validated s with status := s.status, dispatch := s.dispatch, tx := s.tx, mem := s.mem } = s :=
  congrArg (fun t : State => { t with status := s.status, dispatch := s.dispatch })
    (validateRequest_frame (clearDecision s))

theorem validated_endsDone (s : State) : EndsDone s (validated s) :=
  congrArg Status.done (validateRequest_status (clearDecision s))

section
variable {s : State}

theorem validated_notTarget (h : ¬Targets s.uid.self s.rx.dest) : validated s =
    done { s with dispatch := { (clearDecision s).dispatch with notTarget := true, phase := .suppressed } } := by
  rw [validated, validateRequest_eq, if_pos]
  · rfl
  · rw [Bool.not_eq_true', ← Bool.not_eq_true]; exact mt (isTarget_iff _ _).mp h

variable (htarget : Targets s.uid.self s.rx.dest)
include htarget

theorem validated_target : validated s =
    match rejection s with
    | some r => done (nack r (clearDecision s))
    | none => done { s with dispatch :=
        { (clearDecision s).dispatch with phase := .validating, action := .callHandler } } := by
  have hself : isTarget (clearDecision s).uid.self (clearDecision s).rx.dest = true := (isTarget_iff _ _).mpr htarget
  have hsteps : rejection (clearDecision s) = rejection s := rfl
  rw [validated, validateRequest_eq, hself, hsteps]
  cases rejection s <;> rfl

theorem validated_rejected {r : Half} (h : rejection s = some r) :
    NackDecided r (clearDecision s).dispatch s (validated s) := by
  rw [validated_target htarget, h]
  exact nack_decided r (clearDecision s)

theorem validated_accepted (h : rejection s = none) : validated s =
    done { s with dispatch := { (clearDecision s).dispatch with phase := .validating, action := .callHandler } } := by
  rw [validated_target htarget, h]

end

/-- Settles O35: each clause names the first failing step, or that there is none. -/
theorem validateDecides : Obligations.ValidateDecides := by
  refine ⟨?noFrame, ?accepted⟩
  case noFrame =>
    intro s hframe
    exact ⟨_, exec_dpValidate_noFrame hframe, rfl, rfl, fun _ => rfl⟩
  case accepted =>
    intro s hframe
    refine ⟨_, exec_dpValidate hframe, validated_endsDone s, validated_frame s, ?notTarget, ?target⟩
    case notTarget =>
      intro hother
      rw [validated_notTarget hother]
      exact ⟨rfl, rfl, fun _ => rfl⟩
    case target =>
      intro htarget
      refine ⟨fun hbad => validated_rejected htarget (rejection_badFormat hbad), fun hformat =>
        ⟨fun hnone => validated_rejected htarget (rejection_unknownPid hformat hnone), fun e hentry =>
          ⟨fun hno => validated_rejected htarget (rejection_unsupported hformat hentry hno), fun hsupports => ?_⟩⟩⟩
      refine ⟨fun hsub => validated_rejected htarget (rejection_subDevice hformat hentry hsupports hsub), ?_⟩
      intro hsub
      rw [validated_accepted htarget (rejection_eq_none hformat hentry hsupports hsub)]
      exact ⟨rfl, rfl, fun _ => rfl⟩

/-! ### DP_CHECK (R431) -/

/-- The handler's output breaks its contract. -/
abbrev BreaksContract (s : State) : Prop :=
  231 < s.dispatch.handlerLen.toNat ∨ s.dispatch.handlerRt ∉ ([0x00, 0x01, 0x02, 0x03, 0xFF] : List Byte) ∨
    (s.rx.ctl0.cc = 0x10 ∧ s.dispatch.handlerRt ≠ 0x00 ∧ s.dispatch.handlerRt ≠ 0xFF)

theorem handlerViolation_iff (s : State) : handlerViolation s = true ↔ BreaksContract s := by
  simp [handlerViolation, BreaksContract, legalResponseType, or_assoc, and_assoc]

/-- The dispatch registers with the handler's own NACK in them. -/
def withHandlerNack (s : State) : DispatchRegs :=
  if s.dispatch.handlerRt = 0x02 then
    { s.dispatch with
      nacked := true
      nackReason := if 2 ≤ s.dispatch.handlerLen.toNat then frameByte s 24 ++ frameByte s 25 else 0 }
  else s.dispatch

theorem handlerReason_eq (s : State) : handlerReason s =
    if 2 ≤ s.dispatch.handlerLen.toNat then frameByte s 24 ++ frameByte s 25 else 0 := by
  rw [handlerReason, ← beNat_pair]
  rfl

theorem recordHandlerNack_eq (s : State) : recordHandlerNack s = { s with dispatch := withHandlerNack s } := by
  simp only [recordHandlerNack, withHandlerNack, handlerReason_eq, Config.rtNackReason]
  split <;> rfl

/-- Where DP_CHECK ends in VALIDATING. -/
def checked (s : State) : State := done (checkHandler s)

theorem exec_dpCheck {s : State} (h : s.dispatch.phase = .validating) : exec .dpCheck s = .next (checked s) :=
  if_neg (not_not_intro h)

theorem exec_dpCheck_notValidating {s : State} (h : s.dispatch.phase ≠ .validating) :
    exec .dpCheck s = .next (raiseError .seqErr s) :=
  if_pos h

/-- The state in which DP_CHECK decides the NACK of a violation: FAULT set and its interrupt pending. -/
def faulted (s : State) : State := raiseIrq .dpFault { s with dispatch := { s.dispatch with fault := true } }

section
variable {s : State}

theorem checked_violation (h : BreaksContract s) : checked s = done (nack 0x0002 (faulted s)) :=
  congrArg done (if_pos ((handlerViolation_iff s).mpr h))

variable (hkept : ¬BreaksContract s)
include hkept

theorem checked_contract : checked s =
    if s.dispatch.handlerRt = 0xFF then
      done { s with dispatch := { s.dispatch with action := .none, phase := .suppressed } }
    else if suppress s (s.dispatch.handlerRt == 0x02) then
      done (suppressResponse { s with dispatch := withHandlerNack s })
    else done (answer s.dispatch.handlerRt (s.dispatch.handlerLen.setWidth 8)
      { s with dispatch := withHandlerNack s }) := by
  rw [checked, checkHandler, if_neg (mt (handlerViolation_iff s).mp hkept), recordHandlerNack_eq]
  rw [apply_ite done, apply_ite done]
  rfl

theorem checked_silent (h : s.dispatch.handlerRt = 0xFF) : checked s =
    done { s with dispatch := { s.dispatch with action := .none, phase := .suppressed } } := by
  rw [checked_contract hkept, if_pos h]

variable (hrt : s.dispatch.handlerRt ≠ 0xFF)
include hrt

theorem checked_suppressed (h : SuppressHolds s (s.dispatch.handlerRt == 0x02)) :
    checked s = done (suppressResponse { s with dispatch := withHandlerNack s }) := by
  rw [checked_contract hkept, if_neg hrt, if_pos ((suppress_iff _ _).mpr h)]

theorem checked_answered (h : ¬SuppressHolds s (s.dispatch.handlerRt == 0x02)) :
    checked s = done (answer s.dispatch.handlerRt (s.dispatch.handlerLen.setWidth 8)
      { s with dispatch := withHandlerNack s }) := by
  rw [checked_contract hkept, if_neg hrt, if_neg (mt (suppress_iff _ _).mp h)]

end

theorem checkHandler_frame (s : State) :
    { checkHandler s with irqPend := s.irqPend, dispatch := s.dispatch, tx := s.tx, mem := s.mem } = s := by
  rw [checkHandler, recordHandlerNack_eq]
  split
  · exact congrArg (fun t : State => { t with irqPend := s.irqPend, dispatch := s.dispatch })
      (nack_frame 0x0002 (faulted s))
  split
  · rfl
  dsimp only
  split <;> rfl

theorem checkHandler_status (s : State) : (checkHandler s).status = s.status :=
  (congrArg State.status (checkHandler_frame s) :)

theorem checked_frame (s : State) :
    { checked s with
      status := s.status, irqPend := s.irqPend, dispatch := s.dispatch, tx := s.tx, mem := s.mem } = s :=
  congrArg (fun t : State => { t with status := s.status }) (checkHandler_frame s)

theorem checked_endsDone (s : State) : EndsDone s (checked s) :=
  congrArg Status.done (checkHandler_status s)

theorem checked_violation_irqPend {s : State} (h : BreaksContract s) :
    (checked s).irqPend = s.irqPend ||| IrqSource.dpFault.mask := by
  rw [checked_violation h]
  exact congrArg State.irqPend (nack_frame 0x0002 (faulted s))

/-- A length within the contract fits TX_PDL. -/
theorem toNat_setWidth_handlerLen {s : State} (h : ¬BreaksContract s) :
    (s.dispatch.handlerLen.setWidth 8).toNat = s.dispatch.handlerLen.toNat := by
  have hlen : s.dispatch.handlerLen.toNat ≤ 231 := Nat.not_lt.mp fun hlong => h (.inl hlong)
  rw [BitVec.toNat_setWidth]
  omega

/-- Settles O36: a violation is the NACK of its own state, and a legal output goes by its response type and step 7. -/
theorem checkDecides : Obligations.CheckDecides := by
  refine ⟨fun s hphase => ⟨_, exec_dpCheck_notValidating hphase, rfl, rfl, fun _ => rfl⟩, fun s hphase => ?_⟩
  refine ⟨_, exec_dpCheck hphase, checked_endsDone s, checked_frame s, fun hbreaks => ⟨?nack, ?irq⟩, fun hkept =>
    ⟨?irqKept, ?bytes, fun hnone => ?silent, fun hrt hsuppress => ?suppressed, fun hrt hsend => ?answered⟩⟩
  case nack =>
    rw [checked_violation hbreaks]
    exact nack_decided 0x0002 (faulted s)
  case irq =>
    rw [checked_violation_irqPend hbreaks]
    exact irq_bits s.irqPend _ 4 (by decide) rfl
  case irqKept =>
    rw [checked_contract hkept]
    split
    · rfl
    split <;> rfl
  case bytes =>
    rw [checked_contract hkept]
    split
    · exact fun _ => rfl
    split <;> exact fun _ => rfl
  case silent =>
    rw [checked_silent hkept hnone]
    exact ⟨rfl, rfl⟩
  case suppressed =>
    rw [checked_suppressed hkept hrt hsuppress]
    exact ⟨rfl, rfl⟩
  case answered =>
    rw [checked_answered hkept hrt hsend]
    exact ⟨rfl, toNat_setWidth_handlerLen hkept, rfl⟩

/-! ### What both commands let through (R435) -/

theorem suppressHolds_discovery {s : State} (h : s.rx.ctl0.cc = 0x10) : SuppressHolds s true := .inr ⟨rfl, h⟩

/-- A NACK is sent exactly where step 7 lets it through. -/
theorem NackDecided.sent_or_suppressed {r : Half} {d : DispatchRegs} {s t : State} (h : NackDecided r d s t) :
    (SuppressHolds s true ∧ t.dispatch.action = .none) ∨
      (¬SuppressHolds s true ∧ t.dispatch.action = .send ∧ t.tx.ctl0.portRt = 0x02) := by
  by_cases hsuppress : SuppressHolds s true
  case pos =>
    obtain ⟨hdispatch, -⟩ := h.1 hsuppress
    exact .inl ⟨hsuppress, by rw [hdispatch]⟩
  case neg =>
    obtain ⟨hdispatch, htx, -⟩ := h.2 hsuppress
    exact .inr ⟨hsuppress, by rw [hdispatch], by rw [htx]⟩

theorem NackDecided.nacked {r : Half} {d : DispatchRegs} {s t : State} (h : NackDecided r d s t) :
    t.dispatch.nacked = true ∧ t.dispatch.nackReason = r := by
  by_cases hsuppress : SuppressHolds s true
  case pos => rw [(h.1 hsuppress).1]; exact ⟨rfl, rfl⟩
  case neg => rw [(h.2 hsuppress).1]; exact ⟨rfl, rfl⟩

/-- The three ends of DP_VALIDATE: no response, the handler's turn, or a NACK. -/
theorem validated_cases (s : State) :
    (validated s).dispatch.action = .none ∨ (validated s).dispatch.action = .callHandler ∨
      ∃ r, NackDecided r (clearDecision s).dispatch s (validated s) := by
  by_cases htarget : Targets s.uid.self s.rx.dest
  case neg => exact .inl (by rw [validated_notTarget htarget]; rfl)
  cases hsteps : rejection s with
  | none => exact .inr (.inl (by rw [validated_accepted htarget hsteps]; rfl))
  | some r => exact .inr (.inr ⟨r, validated_rejected htarget hsteps⟩)

/-- The three ends of DP_CHECK: no response, the NACK of a violation, or the handler's answer. -/
theorem checked_cases (s : State) :
    (checked s).dispatch.action = .none ∨ (∃ d, NackDecided 0x0002 d s (checked s)) ∨
      (¬BreaksContract s ∧ s.dispatch.handlerRt ≠ 0xFF ∧ ¬SuppressHolds s (s.dispatch.handlerRt == 0x02) ∧
        (checked s).dispatch.action = .send ∧ (checked s).tx.ctl0.portRt = s.dispatch.handlerRt) := by
  by_cases hbreaks : BreaksContract s
  case pos => exact .inr (.inl ⟨_, by rw [checked_violation hbreaks]; exact nack_decided 0x0002 (faulted s)⟩)
  by_cases hrt : s.dispatch.handlerRt = 0xFF
  case pos => exact .inl (by rw [checked_silent hbreaks hrt]; rfl)
  by_cases hsuppress : SuppressHolds s (s.dispatch.handlerRt == 0x02)
  case pos => exact .inl (by rw [checked_suppressed hbreaks hrt hsuppress]; rfl)
  case neg =>
    rw [checked_answered hbreaks hrt hsuppress]
    exact .inr (.inr ⟨hbreaks, hrt, hsuppress, rfl, rfl⟩)

/-- Settles O37: step 7 stands before every answer, and a discovery request's only legal answer is an ACK. -/
theorem finalDecisions : Obligations.FinalDecisions := by
  refine ⟨?validate, ?check, ?allSubDevices⟩
  case validate =>
    intro s t hframe hexec
    obtain rfl : validated s = t := Host.Outcome.next.inj ((exec_dpValidate hframe).symm.trans hexec)
    obtain hnone | hcall | ⟨r, hnack⟩ := validated_cases s
    · simp [hnone]
    · simp [hcall]
    obtain ⟨-, hnone⟩ | ⟨hlets, hsend, -⟩ := hnack.sent_or_suppressed
    · simp [hnone]
    · exact ⟨.inl hsend, fun _ => ⟨hnack.nacked.1, hlets⟩, fun hdisc => absurd (suppressHolds_discovery hdisc) hlets⟩
  case check =>
    intro s t hphase hexec
    obtain rfl : checked s = t := Host.Outcome.next.inj ((exec_dpCheck hphase).symm.trans hexec)
    obtain hnone | ⟨d, hnack⟩ | ⟨hkept, hrt, hlets, hsend, hport⟩ := checked_cases s
    · simp [hnone]
    · obtain ⟨-, hnone⟩ | ⟨hlets, hsend, hport⟩ := hnack.sent_or_suppressed
      · simp [hnone]
      · exact ⟨.inl hsend, by rw [hport]; exact fun _ => hlets,
          fun hdisc => absurd (suppressHolds_discovery hdisc) hlets⟩
    · rw [hport]
      refine ⟨.inl hsend, fun _ => hlets, fun hdisc _ => ?_⟩
      exact by_contra fun hack => hkept (.inr (.inr ⟨hdisc, hack, hrt⟩))
  case allSubDevices =>
    intro s t e hframe hexec htarget hformat hentry hsupports hsub
    obtain rfl : validated s = t := Host.Outcome.next.inj ((exec_dpValidate hframe).symm.trans hexec)
    refine ⟨fun hset => ?_, fun hget => ?_⟩
    · have hsubOk : ¬SubDeviceBad s := by simp [SubDeviceBad, hsub, hset]
      rw [validated_accepted htarget (rejection_eq_none hformat hentry hsupports hsubOk)]
      rfl
    · exact (validated_rejected htarget
        (rejection_subDevice hformat hentry hsupports (.inr ⟨hsub, hget⟩))).nacked

end Sys2Proof.Machine
end

section
/-! The discovery engine (45_discovery.md R463-R476): how a range splits, and what each of its commands leaves in the
discovery registers, in IRQ_PEND and in the request that it prepares. -/

namespace Sys2Proof.Machine

/-! ### Ranges (R460, R464) -/

theorem Range.bounds_iff_holds (r : Range) (u : Uid) : (r.lo.le u && u.le r.hi) = true ↔ r.Holds u := by
  rw [Bool.and_eq_true, Uid.le_iff, Uid.le_iff, Range.Holds]

/-- The halves meet at the midpoint (R464). -/
theorem Range.upperHalf_lo_eq_mid_succ {r : Range} (h : r.lo.u48 < r.hi.u48) :
    r.upperHalf.lo.u48 = r.mid.u48 + 1 := by
  rw [r.upperHalf_lo_u48 h, r.mid_u48 h.le]

/-- Settles O43: the halves meet at the midpoint, which lies below the upper bound. -/
theorem splitPartitionsRange : Obligations.SplitPartitionsRange := by
  intro r h
  have hmid := r.mid_u48 h.le
  have hnext := Range.upperHalf_lo_eq_mid_succ h
  simp only [Range.Holds, Range.lowerHalf_lo, Range.lowerHalf_hi, Range.upperHalf_hi, hnext]
  refine ⟨?lowerNonempty, ?upperNonempty, hmid, fun u => ?cover, fun u => ?disjoint, ?lowerSize, ?upperSize⟩
  all_goals omega

/-! ### The commands' frames -/

/-- What a command that has written discovery registers alone, and ends with `done`, leaves as it was. -/
theorem done_discovery_frame (s : State) (d : DiscoveryRegs) :
    let t := done { s with discovery := d }
    { t with status := s.status, discovery := s.discovery } = s ∧ KeepsBytes s t := ⟨rfl, fun _ => rfl⟩

theorem raiseError_onlyStatus (e : CmdError) (s : State) :
    OnlyStatus s (raiseError e s) ∧ KeepsBytes s (raiseError e s) := ⟨rfl, fun _ => rfl⟩

/-! ### DS_INIT (R463) -/

theorem exec_dsInit (s : State) : exec .dsInit s = .next (done { s with discovery :=
    ⟨.ready, DsFlags.clear, nullUid, nullUid, 0, nullUid, 0, nullUid, [fullRange]⟩ }) := rfl

/-- Settles O38: DS_INIT does not look at the engine's state. -/
theorem discoveryStarts : Obligations.DiscoveryStarts := fun s =>
  ⟨_, exec_dsInit s, rfl, rfl, rfl, rfl, rfl, rfl, rfl, rfl, rfl, rfl, done_discovery_frame s _⟩

/-! ### DS_NEXT (R470) -/

section
variable {s : State}

theorem exec_dsNext_seqErr (h : s.discovery.phase = .idle ∨ s.discovery.phase = .wait) :
    exec .dsNext s = .next (raiseError .seqErr s) := by
  show execDsNext s = _
  obtain h | h := h <;> rw [execDsNext, h]

theorem exec_dsNext_done (h : s.discovery.phase = .done) : exec .dsNext s = .next (done s) := by
  show execDsNext s = _
  rw [execDsNext, h]

theorem exec_dsNext_finish (h : s.discovery.phase = .ready) (hstack : s.discovery.stack = []) :
    exec .dsNext s =
      .next (done (raiseIrq .dsDone { s with discovery := { s.discovery with phase := .done } })) := by
  show execDsNext s = _
  rw [execDsNext, h]
  dsimp only
  rw [hstack]

/-- The DISC_UNIQUE_BRANCH request of a range. -/
def branchRequest (r : Range) (s : State) : State :=
  prepareRequest broadcastAllUid Config.pidDiscUniqueBranch (uidBe r.lo ++ uidBe r.hi) s

theorem exec_dsNext_ask {r : Range} {rest : List Range} (h : s.discovery.phase = .ready)
    (hstack : s.discovery.stack = r :: rest) :
    exec .dsNext s = .next (done { branchRequest r s with discovery :=
      { s.discovery with phase := .wait, lower := r.lo, upper := r.hi, stack := rest } }) := by
  show execDsNext s = _
  rw [execDsNext, h]
  dsimp only
  rw [hstack]
  rfl
end

theorem branchRequest_bytes (r : Range) (s : State) :
    (branchRequest r s).memRead 0x218 12 = wireUid r.lo ++ wireUid r.hi ∧
      KeepsBytesOutside 0x218 12 s (branchRequest r s) := by
  have hlen : (uidBe r.lo ++ uidBe r.hi).length = 12 := by simp
  rw [← uidBe_eq, ← uidBe_eq, ← hlen]
  exact (prepareRequest_frame _ _ _ s).2

theorem branchRequest_tx (r : Range) (s : State) :
    (branchRequest r s).tx =
      { dest := ⟨0xFFFF, 0xFFFFFFFF⟩, src := s.uid.self,
        ctl0 := { tn := s.tx.ctl0.tn, portRt := s.portId, msgCount := 0, cc := 0x10 },
        ctl1 := { subDevice := 0, pid := 0x0001 }, pdl := 12 } := by
  simp [branchRequest, broadcastAllUid, Config.ccDisc, Config.pidDiscUniqueBranch]

theorem branchRequest_codec (r : Range) (s : State) :
    (branchRequest r s).codec = { s.codec with pdLen := 12 } := by
  simp [branchRequest]

/-- Settles O39: one clause for each state of the sequencer, READY with and without a range. -/
theorem nextBranch : Obligations.NextBranch := by
  refine ⟨fun s h => ?seqErr, fun s h => ?done, fun s h hstack => ?finish, fun s r rest h hstack => ?ask⟩
  case seqErr => exact ⟨_, exec_dsNext_seqErr h, rfl, raiseError_onlyStatus _ s⟩
  case done => exact ⟨_, exec_dsNext_done h, rfl, rfl, fun _ => rfl⟩
  case finish =>
    exact ⟨_, exec_dsNext_finish h hstack, rfl, rfl, irq_bits s.irqPend _ 2 (by decide) rfl, rfl, fun _ => rfl⟩
  case ask =>
    obtain ⟨hpd, houtside⟩ := branchRequest_bytes r s
    exact ⟨_, exec_dsNext_ask h hstack, rfl, rfl, branchRequest_tx r s, branchRequest_codec r s, hpd, houtside, rfl⟩

/-! ### DS_RESULT (R471, R472) -/

/-- Nobody answered the branch: the host says so, or the last FR_DISC_DECODE does. -/
abbrev Unanswered (s : State) (o : BitVec 2) : Prop := o = 0 ∨ (o = 1 ∧ s.disc.valid = false ∧ s.disc.len = 0)

/-- Several devices answered the branch. -/
abbrev Collides (s : State) (o : BitVec 2) : Prop := o = 2 ∨ (o = 1 ∧ s.disc.valid = false ∧ s.disc.len ≠ 0)

/-- The state in which DS_RESULT judges the branch: the flags of the one before are cleared. -/
def flagsCleared (s : State) : State := { s with discovery := { s.discovery with flags := DsFlags.clear } }

theorem exec_dsResult_reserved (s : State) : exec (.dsResult 3) s = .next (raiseError .illegalCmd s) := rfl

section
variable {s : State} {o : BitVec 2}

theorem exec_dsResult_notWait (ho : o ≠ 3) (h : s.discovery.phase ≠ .wait) :
    exec (.dsResult o) s = .next (raiseError .seqErr s) := (if_neg ho).trans (if_pos h)

variable (hwait : s.discovery.phase = .wait)
include hwait

theorem exec_dsResult_wait (ho : o ≠ 3) :
    exec (.dsResult o) s =
      if o = 0 then .next (done (branchOver (flagsCleared s)))
      else if o = 1 then fromDecode (flagsCleared s)
      else collided (flagsCleared s) := (if_neg ho).trans (if_neg (not_not.mpr hwait))

theorem exec_dsResult_decode : exec (.dsResult 1) s = fromDecode (flagsCleared s) :=
  exec_dsResult_wait hwait (by decide)

theorem exec_dsResult_unanswered (h : Unanswered s o) :
    exec (.dsResult o) s = .next (done (branchOver (flagsCleared s))) := by
  obtain rfl | ⟨rfl, hinvalid, hlen⟩ := h
  case inl => exact exec_dsResult_wait hwait (by decide)
  case inr =>
    exact (exec_dsResult_decode hwait).trans ((if_neg (Bool.eq_false_iff.mp hinvalid)).trans (if_pos hlen))

theorem exec_dsResult_found (h : s.disc.valid = true) :
    exec (.dsResult 1) s = .next (done (branchOver (foundDevice s.disc.uid (flagsCleared s)))) :=
  (exec_dsResult_decode hwait).trans (if_pos h)

theorem exec_dsResult_collides (h : Collides s o) : exec (.dsResult o) s = collided (flagsCleared s) := by
  obtain rfl | ⟨rfl, hinvalid, hlen⟩ := h
  case inl => exact exec_dsResult_wait hwait (by decide)
  case inr =>
    exact (exec_dsResult_decode hwait).trans ((if_neg (Bool.eq_false_iff.mp hinvalid)).trans (if_neg hlen))
end

/-- Settles O40: the branch is over, with every flag clear. -/
theorem emptyBranchDiscarded : Obligations.EmptyBranchDiscarded := by
  refine ⟨fun s o ho h => ?notWait, fun s o hwait h => ?unanswered, fun s => ?reserved⟩
  case notWait => exact ⟨_, exec_dsResult_notWait ho h, rfl, raiseError_onlyStatus _ s⟩
  case unanswered => exact ⟨_, exec_dsResult_unanswered hwait h, rfl, rfl, done_discovery_frame s _⟩
  case reserved => exact ⟨_, exec_dsResult_reserved s, rfl, raiseError_onlyStatus _ s⟩

/-! ### A found device (R474) -/

/-- The range that is out on the bus. -/
def outstanding (s : State) : Range := ⟨s.discovery.lower, s.discovery.upper⟩

/-- The discovery registers after the device `u` is found in the outstanding range. -/
def foundRegs (u : Uid) (s : State) : DiscoveryRegs :=
  { s.discovery with
    flags := { s.discovery.flags with
      found := true, outOfRange := !((outstanding s).lo.le u && u.le (outstanding s).hi) }
    foundCount := s.discovery.foundCount + 1
    found := u
    stack := if s.config.dsRecheck then outstanding s :: s.discovery.stack else s.discovery.stack }

theorem foundDevice_eq (u : Uid) (s : State) :
    foundDevice u s =
      prepareRequest u Config.pidDiscMute [] (raiseIrq .dsFound { s with discovery := foundRegs u s }) := by
  unfold foundDevice foundRegs
  dsimp only
  split <;> rfl

theorem foundRegs_outOfRange (u : Uid) (s : State) :
    (foundRegs u s).flags.outOfRange = true ↔ ¬(outstanding s).Holds u := by
  rw [← Range.bounds_iff_holds, Bool.not_eq_true, ← Bool.not_eq_true']
  rfl

/-- Settles O41: the mute request carries no parameter data, so no byte changes. -/
theorem deviceFound : Obligations.DeviceFound := by
  intro s hwait hvalid
  have hexec := exec_dsResult_found hwait hvalid
  rw [foundDevice_eq] at hexec
  exact ⟨_, hexec, rfl, rfl, rfl, foundRegs_outOfRange s.disc.uid s, BitVec.toNat_add _ _, rfl,
    irq_bits s.irqPend _ 1 (by decide) rfl, rfl, rfl, fun _ => rfl, rfl⟩

/-! ### A collision (R464, R465, R472, R476) -/

section
variable {s : State}

theorem collided_split (hlt : s.discovery.lower.u48 < s.discovery.upper.u48)
    (hroom : s.discovery.stack.length + 2 ≤ 49) :
    collided s = .next (done { s with discovery :=
      { s.discovery with
        phase := .ready, flags := { s.discovery.flags with collided := true, split := true },
        stack := (outstanding s).lowerHalf :: (outstanding s).upperHalf :: s.discovery.stack } }) :=
  (if_pos ((Uid.lt_iff _ _).mpr hlt)).trans (if_neg hroom.not_gt)

theorem collided_overflow (hlt : s.discovery.lower.u48 < s.discovery.upper.u48)
    (hfull : 49 < s.discovery.stack.length + 2) :
    collided s = .next (raiseError .sOverflow { s with discovery :=
      { s.discovery with
        phase := .ready, flags := { s.discovery.flags with collided := true, overflow := true } } }) :=
  (if_pos ((Uid.lt_iff _ _).mpr hlt)).trans (if_pos hfull)

theorem collided_anomaly (hle : s.discovery.upper.u48 ≤ s.discovery.lower.u48) :
    collided s = .next (done (raiseIrq .dsAnomaly { s with discovery :=
      { s.discovery with
        phase := .ready, flags := { s.discovery.flags with collided := true, anomaly := true },
        anomCount := s.discovery.anomCount + 1, anom := s.discovery.lower } })) :=
  if_neg fun hlt => absurd ((Uid.lt_iff _ _).mp hlt) hle.not_gt
end

/-- Settles O42: a range of several UIDs splits or overflows the stack, and a single UID is an anomaly. -/
theorem collisionSplitsOrReports : Obligations.CollisionSplitsOrReports := by
  intro s o hwait h
  have hexec := exec_dsResult_collides hwait h
  refine ⟨fun hlt hroom => ?split, fun hlt hfull => ?overflow, fun hle => ?anomaly⟩
  case split =>
    refine ⟨_, hexec.trans (collided_split hlt hroom), rfl, ?halves, done_discovery_frame s _⟩
    exact ⟨_, _, (outstanding s).mid_u48 (Nat.le_of_lt hlt), (outstanding s).upperHalf_lo_u48 hlt, rfl⟩
  case overflow =>
    exact ⟨_, hexec.trans (collided_overflow hlt hfull), rfl, rfl, rfl, fun _ => rfl⟩
  case anomaly =>
    exact ⟨_, hexec.trans (collided_anomaly hle), rfl, BitVec.toNat_add _ _, rfl,
      irq_bits s.irqPend _ 3 (by decide) rfl, rfl, fun _ => rfl⟩

end Sys2Proof.Machine
end

section
/-! The system commands, and what a CMD write reports (46_system.md R500-R503, 20_memory.md R104): the reset that
SOFT_RESET makes, the report of every command word, and the reports that every step keeps. -/

namespace Sys2Proof.Machine

/-! ### NOP and SOFT_RESET (R500, R501) -/

/-- `done` shows in STATUS alone. -/
theorem readReg_done (s : State) {r : Reg} (h : r ≠ .status) : readReg (done s) r = readReg s r := by
  cases r with
  | status => exact absurd rfl h
  | _ => rfl

/-- Every register but NOW_LO, which shows the external NOW, reads after SOFT_RESET's reset as after a reset. -/
theorem readReg_resetRegisters (s : State) {r : Reg} (h : r ≠ .nowLo) :
    readReg (resetRegisters s) r = readReg State.reset r := by
  cases r with
  | nowLo => exact absurd rfl h
  | _ => rfl

theorem irqOutput_done_resetRegisters (s : State) : irqOutput (done (resetRegisters s)) = false :=
  (irqOutput_congr (s := State.reset) rfl rfl).trans rfl

theorem readReg_status_softReset (s : State) : readReg (done (resetRegisters s)) .status = 0x00000001 := by
  simp [readReg, statusWord, irqOutput_done_resetRegisters, Status.done, State.reset, packBits]

/-- Settles O57: `done` writes STATUS alone, and the reset that SOFT_RESET does before it is the reset state's. -/
theorem systemCommands : Obligations.SystemCommands := by
  refine ⟨fun s => ⟨done s, rfl, rfl, rfl, fun _ => rfl⟩, fun s => ?reset⟩
  case reset =>
    exact ⟨done (resetRegisters s), rfl, fun _ => rfl, rfl, readReg_status_softReset s,
      fun _ hstatus hnow => (readReg_done _ hstatus).trans (readReg_resetRegisters s hnow), pidTable_reset, rfl, rfl,
      irqOutput_done_resetRegisters s, rfl, rfl⟩

/-! ### The command word of a CMD write (R502, 30_encoding.md R145) -/

theorem step_cmd {s : State} {rest : List Event} {w : Word} (hs : s.inputs = .hostWrite cmdOffset w :: rest) :
    step s = runCommand w { s with inputs := rest } :=
  step_cons s _ rest hs

theorem exists_illegal_of_no_row {w : Word} (h : rowsMatched w = 0 ∨ w = 0x00000352) :
    ∃ why, decode w = .illegal why := by
  cases hw : decode w with
  | illegal why => exact ⟨why, rfl⟩
  | command i =>
    obtain ⟨hrow, hne⟩ := (legalWordsMatchOneRow w).mp ⟨i, hw⟩
    obtain hnone | heq := h
    · rw [hnone] at hrow; cases hrow
    · exact absurd heq hne

theorem runCommand_illegal {w : Word} {why : IllegalWord} (h : decode w = .illegal why) (s : State) :
    runCommand w s = .next (illegalCommand s) := by
  rw [runCommand, h]

/-- Settles O6: no command has such a word, and an illegal word's effect is `raise ILLEGAL_CMD` alone. -/
theorem illegalWordOnlyReports : Obligations.IllegalWordOnlyReports := by
  intro s rest w hw hs
  obtain ⟨why, hdecode⟩ := exists_illegal_of_no_row hw
  exact ⟨_, (step_cmd hs).trans (runCommand_illegal hdecode _), rfl, rfl, fun _ => rfl⟩

/-! ### The three patterns of STATUS (R503) -/

/-- STATUS reports success, an error of a legal command word, or an illegal one. -/
def Status.Reports (st : Status) : Prop :=
  (st.ok = true ∧ st.err = false ∧ st.illegal = false ∧ st.errCode = 0x00) ∨
    (st.ok = false ∧ st.err = true ∧ st.illegal = false ∧ st.errCode ≠ 0x00 ∧ st.errCode ≠ 0x01) ∨
    (st.ok = false ∧ st.err = true ∧ st.illegal = true ∧ st.errCode = 0x01)

theorem CmdError.code_ne_zero (e : CmdError) : e.code ≠ 0x00 := by
  cases e <;> decide

theorem EndsDone.reports {s t : State} (h : EndsDone s t) : t.status.Reports := by
  rw [show t.status = _ from h]
  exact .inl ⟨rfl, rfl, rfl, rfl⟩

/-- ILLEGAL goes with the code of ILLEGAL_CMD, and no error has the code of success (60_exceptions.md R520). -/
theorem EndsError.reports {e : CmdError} {s t : State} (h : EndsError e.code s t) : t.status.Reports := by
  rw [show t.status = _ from h]
  by_cases hcode : e.code = 0x01
  case pos => exact .inr (.inr ⟨rfl, rfl, beq_iff_eq.mpr hcode, hcode⟩)
  case neg => exact .inr (.inl ⟨rfl, rfl, beq_eq_false_iff_ne.mpr hcode, e.code_ne_zero, hcode⟩)

theorem CommandTo.reports {s t : State} {d : DiscoveryRegs} (h : CommandTo s d t) : t.status.Reports := by
  obtain hdone | ⟨e, -, herror⟩ := h.report
  · exact hdone.reports
  · exact herror.reports

theorem ExecOf.reports {i : Instr} {s t : State} (h : ExecOf i s t) : t.status.Reports := by
  cases h with
  | ran d hto => exact hto.reports
  | counted _ hto => exact hto.reports
  | overflow _ _ _ _ hreport => exact hreport.reports
  | reset _ ht => subst ht; exact .inl ⟨rfl, rfl, rfl, rfl⟩

/-- Every word written to CMD leaves its report in STATUS. -/
theorem runCommand_reports (w : Word) (s : State) : Answers (fun t => t.status.Reports) (runCommand w s) := by
  cases hw : decode w with
  | command i => rw [runCommand, hw]; exact (exec_execOf i s).imp fun _ => ExecOf.reports
  | illegal why => rw [runCommand_illegal hw]; exact .inr (.inr ⟨rfl, rfl, rfl, rfl⟩)

theorem runCommand_busErr {w : Word} {s t : State} (hw : w ≠ 0x00005AFF) (h : runCommand w s = .next t) :
    t.status.busErr = s.status.busErr := by
  cases hdecode : decode w with
  | command i =>
    rw [runCommand, hdecode] at h
    obtain ⟨hword, -⟩ := encodeOfDecode w i hdecode
    refine (hostView_of_exec h fun hreset => hw ?_).2
    rw [← hword, hreset]; rfl
  | illegal why =>
    obtain rfl := Host.Outcome.next.inj ((runCommand_illegal hdecode s).symm.trans h)
    rfl

/-- Settles O46: a CMD write reports whatever its word is, and SOFT_RESET's word is the one that clears BUS_ERR. -/
theorem statusAfterEveryCommand : Obligations.StatusAfterEveryCommand := by
  refine ⟨fun s t rest w hs h => ?command, ⟨rfl, rfl, rfl⟩, fun s rest a w ha hs => ?misaligned⟩
  case command =>
    replace h : runCommand w { s with inputs := rest } = .next t := (step_cmd hs).symm.trans h
    exact ⟨fun hw => runCommand_busErr (s := { s with inputs := rest }) hw h, (runCommand_reports w _).of_eq h⟩
  case misaligned => exact ⟨_, (misalignedOnlyBusError s rest a w ha).2 hs, rfl⟩

/-! ### Steps that report nothing -/

/-- An agent that runs no command took `s` to `t`: of STATUS it may write BUS_ERR alone, of the dispatch registers FAULT
and those that the handler and the host own. -/
structure KeepsReports (s t : State) : Prop where
  status : t.status = { s.status with busErr := t.status.busErr }
  dispatch : t.dispatch =
    { s.dispatch with
      fault := t.dispatch.fault, handlerRt := t.dispatch.handlerRt, handlerLen := t.dispatch.handlerLen
      subdevMax := t.dispatch.subdevMax }

theorem KeepsReports.of_eq {s t : State} (hst : t.status = s.status) (hd : t.dispatch = s.dispatch) :
    KeepsReports s t :=
  ⟨by rw [hst], by rw [hd]⟩

theorem KeepsReports.statusPattern_eq {s t : State} (h : KeepsReports s t) : statusPattern t = statusPattern s := by
  unfold statusPattern; rw [h.status]

theorem KeepsReports.dispatchCoherent_eq {s t : State} (h : KeepsReports s t) :
    dispatchCoherent t = dispatchCoherent s := by
  unfold dispatchCoherent; rw [h.dispatch]

theorem busError_keepsReports (s : State) : KeepsReports s (busError s) := ⟨rfl, rfl⟩

theorem writeReg_keepsReports (s : State) (w : Word) (r : Reg) : KeepsReports s (writeReg s w r) := by
  refine ⟨?_, by rw [writeReg_dispatch]⟩
  rw [writeReg_status]; split <;> rfl

theorem writeWord_keepsReports (s : State) (a : Nat) (w : Word) : KeepsReports s (writeWord s a w) := by
  unfold writeWord
  split
  · exact writeReg_keepsReports s w _
  split
  · exact .of_eq rfl rfl
  split <;> exact .of_eq rfl rfl

theorem hostRead_keepsReports (a : Offset) (s : State) : KeepsReports s (hostRead a s) := by
  unfold hostRead readEffect
  split
  · dsimp only; split <;> exact .of_eq rfl rfl
  · exact ⟨rfl, rfl⟩

theorem alarmStep_keepsReports (s : State) : KeepsReports s (alarmStep s) := by
  obtain ⟨-, h⟩ | ⟨-, h⟩ := alarmStep_cases s
  · rw [h]; exact .of_eq rfl rfl
  · rw [h]; exact .of_eq rfl rfl

/-! ### The dispatch decision (44_dispatch.md R421) -/

theorem dispatchCoherent_congr {s t : State} (h : t.dispatch = s.dispatch) :
    dispatchCoherent t = dispatchCoherent s := by
  unfold dispatchCoherent; rw [h]

/-- The decision of the request is open: step 7 has suppressed nothing and the request is for this device. -/
abbrev DecisionOpen (s : State) : Prop := s.dispatch.suppressed = false ∧ s.dispatch.notTarget = false

theorem decisionOpen_of_validating {s : State} (hs : dispatchCoherent s = true)
    (hphase : s.dispatch.phase = .validating) : DecisionOpen s := by
  simp only [dispatchCoherent, hphase, Bool.and_eq_true, Bool.not_eq_true'] at hs
  obtain ⟨⟨⟨-, hsuppressed⟩, -⟩, htarget⟩ := hs
  exact ⟨hsuppressed, htarget⟩

theorem answer_coherent {s : State} (h : DecisionOpen s) (rt len : Byte) :
    dispatchCoherent (answer rt len s) = true := by
  simp [dispatchCoherent, answer, h]

theorem nack_coherent {s : State} (h : DecisionOpen s) (r : Half) : dispatchCoherent (nack r s) = true := by
  rw [nack_eq]
  split <;> simp [dispatchCoherent, h]

theorem validated_coherent (s : State) : dispatchCoherent (validated s) = true := by
  rw [validated, validateRequest_eq]
  split
  · rfl
  split
  · exact nack_coherent (s := clearDecision s) ⟨rfl, rfl⟩ _
  · rfl

theorem withHandlerNack_open {s : State} (h : DecisionOpen s) :
    DecisionOpen { s with dispatch := withHandlerNack s } := by
  unfold withHandlerNack
  split <;> exact h

theorem checked_coherent {s : State} (h : DecisionOpen s) : dispatchCoherent (checked s) = true := by
  by_cases hbreaks : BreaksContract s
  case pos => rw [checked_violation hbreaks]; exact nack_coherent (s := faulted s) h _
  rw [checked_contract hbreaks]
  split
  · rfl
  split
  · rfl
  · exact answer_coherent (withHandlerNack_open h) s.dispatch.handlerRt (s.dispatch.handlerLen.setWidth 8)

/-! ### The commands that take no dispatch decision -/

/-- A command that keeps the dispatch registers keeps their coherence. -/
theorem coherent_of_kept {s : State} {r : Result} (hs : dispatchCoherent s = true)
    (h : Answers (fun t => t.dispatch = s.dispatch) r) : Answers (fun t => dispatchCoherent t = true) r :=
  h.imp fun _ hkept => (dispatchCoherent_congr hkept).trans hs

theorem execPdParse_dispatch (s : State) : Answers (fun t => t.dispatch = s.dispatch) (execPdParse s) := by
  unfold execPdParse; split <;> rfl

theorem execPdEncode_dispatch (s : State) : Answers (fun t => t.dispatch = s.dispatch) (execPdEncode s) := by
  refine .ite (fun _ => rfl) fun _ => ?_
  split <;> rfl

theorem execPdDecode_dispatch (s : State) : Answers (fun t => t.dispatch = s.dispatch) (execPdDecode s) := by
  refine .ite (fun _ => rfl) fun _ => .ite (fun _ => rfl) fun _ => ?_
  split <;> rfl

theorem execFrEncodeReq_dispatch (tnsel : Bool) (s : State) :
    Answers (fun t => t.dispatch = s.dispatch) (execFrEncodeReq tnsel s) :=
  .ite (fun _ => rfl) fun _ => by cases tnsel <;> rfl

theorem exec_frDecode_dispatch (s : State) : Answers (fun t => t.dispatch = s.dispatch) (exec .frDecode s) := by
  by_cases h : ValidFrame s
  case pos => rw [exec_frDecode_valid h]; rfl
  case neg => rw [exec_frDecode_invalid h]; dsimp only [Answers]; split <;> rfl

theorem execFrDiscDecode_dispatch (s : State) : Answers (fun t => t.dispatch = s.dispatch) (execFrDiscDecode s) := by
  refine .ite (fun _ => rfl) fun _ => .ite (fun _ => rfl) fun _ => ?_
  split
  next => rfl
  next =>
    exact .ite (fun _ => rfl) fun _ => .ite (fun _ => rfl) fun _ => .ite (fun _ => rfl) fun _ => rfl

theorem execTmStamp_dispatch (cat : BitVec 3) (kind : BitVec 2) (s : State) :
    Answers (fun t => t.dispatch = s.dispatch) (execTmStamp cat kind s) := by
  unfold execTmStamp; split <;> rfl

theorem execTmSetcat_dispatch (cat : BitVec 3) (s : State) :
    Answers (fun t => t.dispatch = s.dispatch) (execTmSetcat cat s) := by
  unfold execTmSetcat; split <;> rfl

theorem execDsNext_dispatch (s : State) : Answers (fun t => t.dispatch = s.dispatch) (execDsNext s) := by
  unfold execDsNext
  split
  · rfl
  · rfl
  · rfl
  split <;> rfl

theorem foundDevice_dispatch (u : Uid) (s : State) : (foundDevice u s).dispatch = s.dispatch := by
  rw [foundDevice_eq]; rfl

theorem collided_dispatch (s : State) : Answers (fun t => t.dispatch = s.dispatch) (collided s) :=
  .ite (fun _ => .ite (fun _ => rfl) fun _ => rfl) fun _ => rfl

theorem fromDecode_dispatch (s : State) : Answers (fun t => t.dispatch = s.dispatch) (fromDecode s) :=
  .ite (fun _ => foundDevice_dispatch s.disc.uid s) fun _ => .ite (fun _ => rfl) fun _ => collided_dispatch s

theorem execDsResult_dispatch (outcome : BitVec 2) (s : State) :
    Answers (fun t => t.dispatch = s.dispatch) (execDsResult outcome s) :=
  .ite (fun _ => rfl) fun _ => .ite (fun _ => rfl) fun _ => .ite (fun _ => rfl) fun _ =>
    .ite (fun _ => fromDecode_dispatch (flagsCleared s)) fun _ => collided_dispatch (flagsCleared s)

/-! ### Every command, every step -/

theorem exec_coherent (i : Instr) {s : State} (hs : dispatchCoherent s = true) :
    Answers (fun t => dispatchCoherent t = true) (exec i s) := by
  cases i with
  | nop | uidCmp | uidClassify | tmCancel | dsInit | frDiscEncode npre => exact hs
  | softReset => rfl
  | pdParse => exact coherent_of_kept hs (execPdParse_dispatch s)
  | pdEncode => exact coherent_of_kept hs (execPdEncode_dispatch s)
  | pdDecode => exact coherent_of_kept hs (execPdDecode_dispatch s)
  | frEncodeReq tnsel => exact coherent_of_kept hs (execFrEncodeReq_dispatch tnsel s)
  | frEncodeRsp => exact .ite (fun _ => hs) fun _ => rfl
  | frDecode => exact coherent_of_kept hs (exec_frDecode_dispatch s)
  | frChecksum | tmGapCheck | tmRespWait rxd => exact .ite (fun _ => hs) fun _ => hs
  | frDiscDecode => exact coherent_of_kept hs (execFrDiscDecode_dispatch s)
  | tmStamp cat kind => exact coherent_of_kept hs (execTmStamp_dispatch cat kind s)
  | tmSetcat cat => exact coherent_of_kept hs (execTmSetcat_dispatch cat s)
  | dpValidate => exact .ite (fun _ => hs) fun _ => validated_coherent s
  | dpCheck =>
    exact .ite (fun _ => hs) fun hphase => checked_coherent (decisionOpen_of_validating hs (not_not.mp hphase))
  | dsNext => exact coherent_of_kept hs (execDsNext_dispatch s)
  | dsResult outcome => exact coherent_of_kept hs (execDsResult_dispatch outcome s)

/-- The invariant of the reports. -/
abbrev ReportsAgree (s : State) : Prop := statusPattern s = true ∧ dispatchCoherent s = true

theorem KeepsReports.reportsAgree {s t : State} (h : KeepsReports s t) (hs : ReportsAgree s) : ReportsAgree t :=
  ⟨h.statusPattern_eq.trans hs.1, h.dispatchCoherent_eq.trans hs.2⟩

theorem statusPattern_of_reports {s : State} (h : s.status.Reports) : statusPattern s = true := by
  unfold statusPattern
  obtain ⟨hok, herr, hillegal, hcode⟩ | ⟨hok, herr, hillegal, hzero, hone⟩ | ⟨hok, herr, hillegal, hcode⟩ := h
  · simp [hok, herr, hillegal, hcode]
  · simpa [hok, herr, hillegal] using ⟨hone, hzero⟩
  · simp [hok, herr, hillegal, hcode]

theorem runCommand_coherent (w : Word) {s : State} (hs : dispatchCoherent s = true) :
    Answers (fun t => dispatchCoherent t = true) (runCommand w s) := by
  unfold runCommand
  split
  next i _ => exact exec_coherent i hs
  next => exact hs

theorem Answers.and {p q : State → Prop} {r : Result} (hp : Answers p r) (hq : Answers q r) :
    Answers (fun t => p t ∧ q t) r :=
  match r, hp, hq with
  | .next _, hp, hq => ⟨hp, hq⟩

theorem hostWrite_reportsAgree (a : Offset) (w : Word) {s : State} (hs : ReportsAgree s) :
    Answers ReportsAgree (hostWrite a w s) := by
  obtain ⟨-, hbus⟩ | ⟨-, hcmd⟩ | ⟨-, -, hstore⟩ := hostWrite_cases a w s
  · rw [hbus]; exact (busError_keepsReports s).reportsAgree hs
  · rw [hcmd]
    exact ((runCommand_reports w s).imp fun _ => statusPattern_of_reports).and (runCommand_coherent w hs.2)
  · rw [hstore]; exact (writeWord_keepsReports s _ w).reportsAgree hs

theorem agentStep_reportsAgree (e : Event) {s : State} (hs : ReportsAgree s) :
    Answers ReportsAgree (agentStep e s) := by
  cases e with
  | hostRead a => exact (hostRead_keepsReports a s).reportsAgree hs
  | hostWrite a w => exact hostWrite_reportsAgree a w hs
  | hostLoad x =>
    obtain ⟨a, -, hread⟩ | ⟨-, hnone⟩ := hostLoad_cases Config.base x s
    · rw [agentStep, hread]; exact (hostRead_keepsReports a s).reportsAgree hs
    · rw [agentStep, hnone]; exact hs
  | hostStore x w =>
    obtain ⟨a, -, hwrite⟩ | ⟨-, hnone⟩ := hostStore_cases Config.base x w s
    · rw [agentStep, hwrite]; exact hostWrite_reportsAgree a w hs
    · rw [agentStep, hnone]; exact hs
  | tick k _ => exact hs
  | alarm => exact (alarmStep_keepsReports s).reportsAgree hs
  | platformReset bytes now => exact ⟨rfl, rfl⟩

/-- Settles O47: a command leaves its report and a coherent decision, a reset the reset state's, and no other agent's
step touches either. -/
theorem stepKeepsReports : Obligations.StepKeepsReports := by
  intro s t hstatus hdispatch h
  have hs : ReportsAgree s := ⟨hstatus, hdispatch⟩
  cases hin : s.inputs with
  | nil =>
    obtain rfl := Host.Outcome.next.inj ((step_nil s hin).symm.trans h)
    exact (alarmStep_keepsReports s).reportsAgree hs
  | cons e rest =>
    exact (agentStep_reportsAgree e (s := { s with inputs := rest }) hs).of_eq ((step_cons s e rest hin).symm.trans h)

end Sys2Proof.Machine
end

section
/-! The interrupts that a command raises (60_exceptions.md R530, R532). -/

namespace Sys2Proof.Machine

/-! ### Pending bits (R530) -/

/-- The interrupt sources that the rule of a command names: DS_RESULT's depend on its outcome. -/
def irqSources : Instr → List IrqSource
  | .dsNext => [.dsDone]
  | .dsResult 1 => [.dsFound, .dsAnomaly]
  | .dsResult 2 => [.dsAnomaly]
  | .dpCheck => [.dpFault]
  | _ => []

/-- The pending bits are left alone, or one of the sources is raised. -/
inductive PendsAtMostOne (srcs : List IrqSource) (before after : BitVec 5) : Prop
  | kept (h : after = before)
  | raised (src : IrqSource) (hsrc : src ∈ srcs) (h : after = before ||| src.mask)

/-- What took `s` to `t` raised one of the sources at most. -/
abbrev RaisesAtMostOne (srcs : List IrqSource) (s t : State) : Prop := PendsAtMostOne srcs s.irqPend t.irqPend

/-- A command leaves the pending bits alone. -/
abbrev KeepsPending (s : State) : Result → Prop := Answers fun t => t.irqPend = s.irqPend

theorem raisesAtMostOne_of_kept {srcs : List IrqSource} {s : State} {r : Result} (h : KeepsPending s r) :
    Answers (RaisesAtMostOne srcs s) r :=
  h.imp fun _ => .kept

/-! ### The commands that raise nothing -/

theorem execPdParse_irqPend (s : State) : KeepsPending s (execPdParse s) := by
  unfold execPdParse; split <;> rfl

theorem execPdEncode_irqPend (s : State) : KeepsPending s (execPdEncode s) := by
  refine .ite (fun _ => rfl) fun _ => ?_
  split <;> rfl

theorem execPdDecode_irqPend (s : State) : KeepsPending s (execPdDecode s) := by
  refine .ite (fun _ => rfl) fun _ => .ite (fun _ => rfl) fun _ => ?_
  split <;> rfl

theorem execFrEncodeReq_irqPend (tnsel : Bool) (s : State) : KeepsPending s (execFrEncodeReq tnsel s) :=
  .ite (fun _ => rfl) fun _ => by cases tnsel <;> rfl

theorem exec_frDecode_irqPend (s : State) : KeepsPending s (exec .frDecode s) := by
  by_cases h : ValidFrame s
  case pos => rw [exec_frDecode_valid h]; rfl
  case neg => rw [exec_frDecode_invalid h]; dsimp only [KeepsPending, Answers]; split <;> rfl

theorem execFrDiscDecode_irqPend (s : State) : KeepsPending s (execFrDiscDecode s) := by
  refine .ite (fun _ => rfl) fun _ => .ite (fun _ => rfl) fun _ => ?_
  split
  next => rfl
  next => exact .ite (fun _ => rfl) fun _ => .ite (fun _ => rfl) fun _ => .ite (fun _ => rfl) fun _ => rfl

theorem execTmStamp_irqPend (cat : BitVec 3) (kind : BitVec 2) (s : State) :
    KeepsPending s (execTmStamp cat kind s) := by
  unfold execTmStamp; split <;> rfl

theorem execTmSetcat_irqPend (cat : BitVec 3) (s : State) : KeepsPending s (execTmSetcat cat s) := by
  unfold execTmSetcat; split <;> rfl

theorem validateRequest_irqPend (s : State) : (validateRequest s).irqPend = s.irqPend :=
  (congrArg State.irqPend (validateRequest_frame s) :)

theorem execDpValidate_irqPend (s : State) : KeepsPending s (execDpValidate s) :=
  .ite (fun _ => rfl) fun _ => validateRequest_irqPend (clearDecision s)

/-! ### The commands that raise a source -/

theorem checked_kept_irqPend {s : State} (h : ¬BreaksContract s) : (checked s).irqPend = s.irqPend := by
  rw [checked_contract h]
  split
  · rfl
  split <;> rfl

/-- DP_CHECK raises DP_FAULT where the handler breaks its contract (44_dispatch.md R431). -/
theorem exec_dpCheck_raises (s : State) : Answers (RaisesAtMostOne [.dpFault] s) (exec .dpCheck s) := by
  refine .ite (fun _ => .kept rfl) fun _ => ?_
  by_cases h : BreaksContract s
  · exact .raised .dpFault (by decide) (checked_violation_irqPend h)
  · exact .kept (checked_kept_irqPend h)

/-- DS_NEXT raises DS_DONE where no range is left (45_discovery.md R470). -/
theorem execDsNext_raises (s : State) : Answers (RaisesAtMostOne [.dsDone] s) (execDsNext s) := by
  unfold execDsNext
  split
  · exact .kept rfl
  · exact .kept rfl
  · exact .kept rfl
  split
  · exact .raised .dsDone (by decide) rfl
  · exact .kept rfl

/-- A collision raises DS_ANOMALY where the range is a single UID (45_discovery.md R472, R476). -/
theorem collided_raises {srcs : List IrqSource} (hsrcs : .dsAnomaly ∈ srcs) (s : State) :
    Answers (RaisesAtMostOne srcs s) (collided s) :=
  .ite (fun _ => .ite (fun _ => .kept rfl) fun _ => .kept rfl) fun _ => .raised .dsAnomaly hsrcs rfl

/-- A found device raises DS_FOUND (45_discovery.md R474). -/
theorem foundDevice_irqPend (u : Uid) (s : State) :
    (foundDevice u s).irqPend = s.irqPend ||| IrqSource.dsFound.mask := by
  rw [foundDevice_eq]; rfl

theorem fromDecode_raises (s : State) : Answers (RaisesAtMostOne [.dsFound, .dsAnomaly] s) (fromDecode s) :=
  .ite (fun _ => .raised .dsFound (by decide) (foundDevice_irqPend s.disc.uid s)) fun _ =>
    .ite (fun _ => .kept rfl) fun _ => collided_raises (by decide) s

theorem execDsResult_raises (outcome : BitVec 2) (s : State) :
    Answers (RaisesAtMostOne (irqSources (.dsResult outcome)) s) (execDsResult outcome s) := by
  refine .ite (fun _ => .kept rfl) fun hlegal => .ite (fun _ => .kept rfl) fun _ =>
    .ite (fun _ => .kept rfl) fun hnonzero => .ite (fun hone => ?decode) fun hnotOne => ?collision
  case decode => subst hone; exact fromDecode_raises (flagsCleared s)
  case collision =>
    obtain rfl : outcome = 2 := by bv_omega
    have hanomaly : .dsAnomaly ∈ irqSources (.dsResult 2) := by decide
    exact collided_raises hanomaly (flagsCleared s)

/-! ### Every command -/

/-- What any command but SOFT_RESET, which clears IRQ_PEND, raises. -/
theorem exec_raises (i : Instr) (s : State) (hi : i ≠ .softReset) :
    Answers (RaisesAtMostOne (irqSources i) s) (exec i s) := by
  cases i with
  | softReset => exact absurd rfl hi
  | nop | uidCmp | uidClassify | tmCancel | dsInit | frDiscEncode npre => exact .kept rfl
  | pdParse => exact raisesAtMostOne_of_kept (execPdParse_irqPend s)
  | pdEncode => exact raisesAtMostOne_of_kept (execPdEncode_irqPend s)
  | pdDecode => exact raisesAtMostOne_of_kept (execPdDecode_irqPend s)
  | frEncodeReq tnsel => exact raisesAtMostOne_of_kept (execFrEncodeReq_irqPend tnsel s)
  | frDecode => exact raisesAtMostOne_of_kept (exec_frDecode_irqPend s)
  | frChecksum | frEncodeRsp | tmGapCheck | tmRespWait rxd => exact .ite (fun _ => .kept rfl) fun _ => .kept rfl
  | frDiscDecode => exact raisesAtMostOne_of_kept (execFrDiscDecode_irqPend s)
  | tmStamp cat kind => exact raisesAtMostOne_of_kept (execTmStamp_irqPend cat kind s)
  | tmSetcat cat => exact raisesAtMostOne_of_kept (execTmSetcat_irqPend cat s)
  | dpValidate => exact raisesAtMostOne_of_kept (execDpValidate_irqPend s)
  | dpCheck => exact exec_dpCheck_raises s
  | dsNext => exact execDsNext_raises s
  | dsResult outcome => exact execDsResult_raises outcome s

/-- Which command raises which source. -/
theorem mem_irqSources {i : Instr} {src : IrqSource} (h : src ∈ irqSources i) :
    (i = .dsResult 1 ∧ src = .dsFound) ∨ (i = .dsNext ∧ src = .dsDone) ∨
      ((i = .dsResult 1 ∨ i = .dsResult 2) ∧ src = .dsAnomaly) ∨ (i = .dpCheck ∧ src = .dpFault) := by
  unfold irqSources at h
  split at h
  · exact .inr (.inl ⟨rfl, List.mem_singleton.mp h⟩)
  · obtain rfl | hanomaly := List.mem_cons.mp h
    · exact .inl ⟨rfl, rfl⟩
    · exact .inr (.inr (.inl ⟨.inl rfl, List.mem_singleton.mp hanomaly⟩))
  · exact .inr (.inr (.inl ⟨.inr rfl, List.mem_singleton.mp h⟩))
  · exact .inr (.inr (.inr ⟨rfl, List.mem_singleton.mp h⟩))
  · cases h

/-- Settles O48: a command keeps the pending bits or raises one source of its rule. -/
theorem commandsSetOneInterrupt : Obligations.CommandsSetOneInterrupt := by
  intro s t i hi h
  cases (exec_raises i s hi).of_eq h with
  | kept hkept => exact .inl hkept
  | raised src hsrc hpend =>
    rw [hpend]
    obtain ⟨rfl, rfl⟩ | ⟨rfl, rfl⟩ | ⟨hresult, rfl⟩ | ⟨rfl, rfl⟩ := mem_irqSources hsrc
    · exact .inr (.inl ⟨rfl, rfl⟩)
    · exact .inr (.inr (.inl ⟨rfl, rfl⟩))
    · exact .inr (.inr (.inr (.inl ⟨hresult, rfl⟩)))
    · exact .inr (.inr (.inr (.inr ⟨rfl, rfl⟩)))

end Sys2Proof.Machine
end

section
/-! Steps that never stop (60_exceptions.md R521), and what the platform reset leaves (70_reset_and_hazards.md R570,
R571). -/

namespace Sys2Proof.Machine

/-! ### Every step has a next state (60_exceptions.md R521) -/

theorem Answers.exists_next {p : State → Prop} {r : Result} (h : Answers p r) : ∃ t, r = .next t :=
  match r, h with
  | .next t, _ => ⟨t, rfl⟩

/-- Every word written to CMD, legal or not, answers a next state. -/
theorem runCommand_next (w : Word) (s : State) : ∃ t, runCommand w s = .next t :=
  (runCommand_reports w s).exists_next

/-- Settles O51: the alarm agent and every placed agent answer a next state, a command among them. -/
theorem stepAlwaysNext : Obligations.StepAlwaysNext := by
  intro s
  cases hin : s.inputs with
  | nil => exact ⟨_, step_nil s hin⟩
  | cons e rest =>
    rw [step_cons s e rest hin]
    obtain hnext | ⟨w, hcommand, -⟩ := agentStep_next e { s with inputs := rest }
    · exact hnext
    · rw [hcommand]; exact runCommand_next w _

/-! ### The drawn bytes (70_reset_and_hazards.md R570) -/

/-- A draw's last entry is the last byte stored. -/
theorem drawnMemory_concat (bytes : List Host.Cell) (c : Host.Cell) :
    drawnMemory (bytes ++ [c]) =
      if implementedByte c.1 then Memory.write (drawnMemory bytes) c.1 c.2 else drawnMemory bytes :=
  List.foldl_concat ..

/-- Entries that name no byte `a`, or any entries where the block implements no byte `a`, leave `a` as it reads. -/
theorem read_drawnMemory_append {a : Nat} (before after : List Host.Cell)
    (h : ¬BufferByte a ∨ ∀ c ∈ after, c.1 ≠ a) :
    Memory.read (drawnMemory (before ++ after)) a = Memory.read (drawnMemory before) a := by
  induction after using List.reverseRecOn with
  | nil => rw [List.append_nil]
  | append_singleton after c ih =>
    have hlast : ¬(implementedByte c.1 = true ∧ a = c.1) := by
      rintro ⟨hc, rfl⟩
      obtain hbyte | hnone := h
      · exact hbyte ((implementedByte_iff _).mp hc)
      · exact hnone c (by simp) rfl
    rw [← List.append_assoc, drawnMemory_concat, ← ih (h.imp_right fun hnone e he => hnone e (by simp [he]))]
    split
    next hc => rw [Memory.read_write, if_neg fun heq => hlast ⟨hc, heq⟩]
    next => rfl

/-- An implemented byte reads what the draw's last entry for it says. -/
theorem read_drawnMemory_last {a : Nat} (b : Byte) (before after : List Host.Cell) (ha : BufferByte a)
    (h : ∀ c ∈ after, c.1 ≠ a) : Memory.read (drawnMemory (before ++ (a, b) :: after)) a = b := by
  rw [List.append_cons, read_drawnMemory_append _ _ (.inr h), drawnMemory_concat,
    if_pos ((implementedByte_iff a).mpr ha), Memory.read_write, if_pos rfl]

/-- A byte that the draw does not name, or that the block does not implement, reads 0 (assumption log, entry 5). -/
theorem read_drawnMemory_none {a : Nat} (bytes : List Host.Cell) (h : ¬BufferByte a ∨ ∀ c ∈ bytes, c.1 ≠ a) :
    Memory.read (drawnMemory bytes) a = 0 :=
  read_drawnMemory_append [] bytes h

/-! ### The platform reset (70_reset_and_hazards.md R571) -/

/-- The draw of the platform shows in no register but NOW_LO. -/
theorem readReg_platformResetStep (bytes : List Host.Cell) (now : Time) (s : State) {r : Reg} (h : r ≠ .nowLo) :
    readReg (platformResetStep bytes now s) r = r.resetValue := by
  refine Eq.trans ?_ ((readReg_resetRegisters s h).trans (readReg_reset r))
  cases r with
  | nowLo => exact absurd rfl h
  | _ => rfl

/-- Settles O58: the registers are those of the reset state, the bytes those of the draw. -/
theorem platformResetValues : Obligations.PlatformResetValues := by
  intro s rest bytes now hs
  refine ⟨_, step_cons s _ rest hs, fun _ => readReg_platformResetStep bytes now _, rfl, pidTable_reset, rfl, ?irq, rfl,
    drawnMemory_wf bytes, fun a b before after ha hbytes hlast => ?drawn, fun _ => read_drawnMemory_none bytes, rfl⟩
  case irq => exact (irqOutput_congr (s := State.reset) rfl rfl).trans rfl
  case drawn => subst hbytes; exact read_drawnMemory_last b before after ha hlast

end Sys2Proof.Machine
end
